-- ==== Sys2Proof/Word.lean ====
section
/-! DEFINITION. The word types of the Cortaix W6 (R5, R27, R86): bit vectors only where the manual treats a value as
bits. -/

namespace Sys2Proof

/-- A 32-bit register value (R68). -/
abbrev Word := BitVec 32
/-- A 64-bit value: a register pair, a system register, a counter (R5, R69, R299). -/
abbrev DWord := BitVec 64
/-- One byte of memory. -/
abbrev Byte := BitVec 8
/-- A program counter: 52 bits (R68). -/
abbrev PC := BitVec 52
/-- A data label, 0 to 3 (R70). -/
abbrev Label := BitVec 2

/-- The larger of two labels: the join of R49's `Lab`. -/
def Label.join (a b : Label) : Label := if a < b then b else a

/-- The largest of a list of labels, 0 for none. -/
def Label.joinAll (ls : List Label) : Label := ls.foldl Label.join 0

end Sys2Proof
end

