-- ==== Sys2Proof/Forms.lean ====
section
/-! DEFINITION. The alternatives that instructions and events carry: operands (R30), suffix codes (R100, R178, R196,
R219, R306), and what an event of the table says about the part or the outside world. -/

namespace Sys2Proof

/-- Guard, retain and hints of a word (R27, R36, R38, R40). -/
structure Ctl where
  gN : Bool
  gP : BitVec 3
  keep : BitVec 2
  y : Bool
  f : Bool
  s : Bool
  deriving DecidableEq, Repr, Inhabited

/-- An operand of R30. `x n` is the special register 0x930 + n (R35); `imm i` is IMM with the word's IMM8. -/
inductive Operand where
  | v (n : BitVec 11)
  | s (n : BitVec 8)
  | p (n : BitVec 3)
  | q (n : BitVec 4)
  | h (n : BitVec 4)
  | x (n : BitVec 4)
  | imm (i : BitVec 8)
  | z
  deriving DecidableEq, Repr, Inhabited

/-- TYPE of R100. -/
inductive IntTy where
  | u32 | s32 | u64 | s64
  deriving DecidableEq, Repr, Inhabited

/-- Comparisons of setp (R103). -/
inductive Cmp where
  | eq | ne | lt | le | gt | ge
  deriving DecidableEq, Repr, Inhabited

/-- Comparisons of fsetp and hsetp2 (R111): the six of `Cmp`, num and nan. -/
inductive FCmp where
  | ord (c : Cmp) | num | nan
  deriving DecidableEq, Repr, Inhabited

/-- RND of R39. -/
inductive Rnd where
  | rn | rz | ru | rd
  deriving DecidableEq, Repr, Inhabited

/-- Types of cvt (R116). -/
inductive CvtTy where
  | u8 | s8 | u16 | s16 | u32 | s32 | u64 | s64 | f16 | bf16 | f32
  deriving DecidableEq, Repr, Inhabited

/-- Where cvt writes a 16-bit result (R116): the whole register, D[15:0] kept above, or D[31:16] kept below. -/
inductive CvtDst where
  | whole | m0 | m1
  deriving DecidableEq, Repr, Inhabited

/-- DX block formats (R93). -/
inductive DxFmt where
  | dx8 | dx6 | dx4
  deriving DecidableEq, Repr, Inhabited

/-- MODE of shfl (R120). -/
inductive ShflMode where
  | at | rot | shift | pair
  deriving DecidableEq, Repr, Inhabited

/-- Segment sizes of shfl (R120). -/
inductive Seg where
  | s16 | s2 | s4 | s8
  deriving DecidableEq, Repr, Inhabited

/-- MODE of vote (R121). -/
inductive VoteMode where
  | every | some | same | mask | count
  deriving DecidableEq, Repr, Inhabited

/-- Integer operations of redux and scan (R122). -/
inductive RedInt where
  | add | min | max | and | or | xor
  deriving DecidableEq, Repr, Inhabited

/-- OP of redux and scan with its TYPE or RND (R122). -/
inductive RedOp where
  | int (o : RedInt) (t : IntTy)
  | fadd (r : Rnd)
  | fmin
  | fmax
  deriving DecidableEq, Repr, Inhabited

/-- MODE of match (R123). -/
inductive MatchMode where
  | peers | same | first
  deriving DecidableEq, Repr, Inhabited

/-- The system registers of R69. -/
inductive SysReg where
  | tstat | tpc | tcause | tval | tvec | svec | ctxid | accown | time | vtime | tapc
  deriving DecidableEq, Repr, Inhabited

/-- SPACE of R178. -/
inductive Space where
  | g | l | s | wb | ab | acc
  deriving DecidableEq, Repr, Inhabited

/-- WIDTH of ld (R178). -/
inductive LdWidth where
  | u8 | s8 | u16 | s16 | b32 | b64
  deriving DecidableEq, Repr, Inhabited

/-- WIDTH of st (R178). -/
inductive StWidth where
  | b8 | b16 | b32 | b64
  deriving DecidableEq, Repr, Inhabited

/-- POLICY of ld and st (R170, R183). -/
inductive Policy where
  | l1 | byp | strm
  deriving DecidableEq, Repr, Inhabited

/-- Integer operations of atom and red (R184). -/
inductive AtomInt where
  | add | min | max | and | or | xor | exch | cas
  deriving DecidableEq, Repr, Inhabited

/-- OP of atom and red with its TYPE or RND (R184). -/
inductive AtomOp where
  | int (o : AtomInt) (t : IntTy)
  | fadd (r : Rnd)
  | fmin
  | fmax
  deriving DecidableEq, Repr, Inhabited

/-- SCOPE of fence and cadd.rel (R169, R306). -/
inductive Scope where
  | team | clu | dev | sys
  deriving DecidableEq, Repr, Inhabited

/-- BUF of a reservation (R157). -/
inductive Buf where
  | wb | ab | acc
  deriving DecidableEq, Repr, Inhabited

/-- FMT of a reservation (R157). -/
inductive Fmt where
  | bf16 | f16 | dx8 | dx6 | dx4 | f32 | bytes
  deriving DecidableEq, Repr, Inhabited

/-- Shapes of mfuse (R206). -/
inductive Shape where
  | h | v | q
  deriving DecidableEq, Repr, Inhabited

/-- The forms of cadd (R306). -/
inductive CaddMode where
  | plain
  | rel (sc : Scope)
  | lim
  deriving DecidableEq, Repr, Inhabited

/-- The kinds of xprobe (R260). -/
inductive ProbeKind where
  | r | w | x
  deriving DecidableEq, Repr, Inhabited

/-- An endpoint identifier (R364). -/
abbrev Endpoint := BitVec 32

/-- A unit that can be retired (R355). -/
inductive RetUnit where
  | core (n : Nat)
  | slice (n : Nat)
  deriving DecidableEq, Repr, Inhabited

/-- A frame-allowance range (R253). -/
structure Range where
  valid : Bool := false
  cntok : Bool := false
  sealed : Bool := false
  labceil : Label := 0
  maxperm : BitVec 3 := 0
  len : Nat := 0
  base : Nat := 0
  deriving DecidableEq, Repr, Inhabited

/-- A link window entry (R365). -/
structure Window where
  valid : Bool := false
  port : Nat := 0
  dest : Endpoint := 0
  tctx : Nat := 0
  rbase : Nat := 0
  deriving DecidableEq, Repr, Inhabited

/-- An NVMe namespace of a partition (R346, R372): the root port of its drive, the drive's own namespace and its first block mapped there, length in 512-byte
blocks and label. -/
structure NameSpace where
  port : Nat := 0
  nsid : Nat := 1
  start : Nat := 0
  len : Nat := 0
  label : Label := 0
  deriving DecidableEq, Repr, Inhabited

/-- What the host's physical function asks for when a partition is created (R342, R353). -/
structure PartReq where
  num : Nat
  units : List Nat
  slices : List Nat
  weight : Nat := 1
  cls : Nat := 0
  linkMin : List (Nat × Nat) := []
  meshMin : List (Nat × Nat) := []
  deriving DecidableEq, Repr, Inhabited

/-- The configuration of a trace buffer (R356). -/
structure TraceCfg where
  base : Nat
  cap : Nat
  tlab : Label
  head : DWord
  tail : DWord
  deriving DecidableEq, Repr, Inhabited

/-- Where an event counter stands (R319). -/
inductive EvPlace where
  | core (n : Nat) | cell (n : Nat) | slice (n : Nat)
  deriving DecidableEq, Repr, Inhabited

/-- The events of R319. -/
inductive Ev where
  | issued | dual | heatDraw | forcedReform | l1Miss | mseFull | tmarkDrop | fetchAhead
  | walks | walkCycles | lineFix | linePoison | waiterSpill | chainRefused | postDrop
  deriving DecidableEq, Repr, Inhabited

/-- The items that the slice kernel writes and that have no row of their own (R246, R69, R347, R356, R365, R314, R236,
R369, R372, and the time slice and deadline of the pre-emption chapter); `admission` is a fresh admission of a partition, with its minima (R353, R354);
`postWaiter` arms a post action on a counter line for a host or a peer that needs to wait (R315). -/
inductive CfgItem where
  | root (w : DWord)
  | timeLimit (n : Nat)
  | admission (weight cls : Nat) (linkMin meshMin : List (Nat × Nat))
  | range (i : Nat) (r : Range)
  | svec (a : DWord)
  | declassWindow (frame len : Nat)
  | trace (c : TraceCfg)
  | window (region : Nat) (w : Window)
  | carmQuota (n : Nat)
  | launchRight (i : Nat) (src : Endpoint) (mask : DWord)
  | sendWindow (n : Nat)
  | nameSpace (i : Nat) (ns : NameSpace)
  | timeSlice (us : Nat)
  | deadline (us : Nat)
  | hostContext (ctx : Nat)
  | eventCounter (pl : EvPlace) (i : Nat) (ev : Ev)
  | zeroFrame (pa : Nat)
  | endTeam (core team : Nat)
  | postWaiter (pa : Nat) (thr : DWord) (dst : Endpoint) (msg : DWord)
  deriving DecidableEq, Repr, Inhabited

/-- Where a saved context is brought back from and to (R331, R332): its image in memory and the origin of each cluster. -/
structure Landing where
  pa : Nat
  len : Nat
  at_ : List Nat
  deriving DecidableEq, Repr, Inhabited

/-- What the slice kernel lays out for a context (R154, R334): LBASE and the save area of its accumulator pages. -/
structure Layout where
  lbase : Nat := 0
  area : Nat := 0
  deriving DecidableEq, Repr, Inhabited

/-- A context and the blocks of a namespace that take its image (R331, R348). -/
structure PageOut where
  ctx : Nat
  ns : Nat
  block : Nat
  deriving DecidableEq, Repr, Inhabited

/-- A counter add as a message asks for it: its amount, and whether it is a `cadd.lim` (R315, R370). -/
structure AddForm where
  n : DWord
  lim : Bool := false
  deriving DecidableEq, Repr, Inhabited

/-- What an inbound write carries (R366, R370): bytes, an engine's line with the bytes that it skips, and its poison mark, or marks on some sectors of a
line. -/
inductive InWrite where
  | bytes (data : List Byte)
  | line (data : List (Option Byte)) (mark : Bool)
  | mark (sectors : Nat)
  deriving DecidableEq, Repr, Inhabited

/-- What an inbound atomic asks for: its operation, and whether the old value is returned; a reduction returns none (R366, R370). -/
structure AtomForm where
  op : AtomOp
  ret : Bool := true
  deriving DecidableEq, Repr

/-- A sender of an inbound message: a host function or a peer, by its endpoint identifier (R364, R370); the tag of the message and the label
that its data carries. -/
structure Sender where
  part : Nat
  src : Endpoint
  tag : Nat := 0
  lab : Label := 0
  deriving DecidableEq, Repr, Inhabited

/-- The answer to an outbound link request (R366, R367): data, an acknowledgement, or a refusal. -/
inductive LinkAns where
  | data (bytes : List Byte) (lab : Label)
  | ack
  | refused
  deriving DecidableEq, Repr, Inhabited

/-- How a drive answers one NVMe command (R373): with the data read, done, or with an error. -/
inductive NvmeAns where
  | data (bytes : List Byte)
  | badBlocks (bytes : List Byte) (bad : List Nat)
  | done
  | failed
  deriving DecidableEq, Repr, Inhabited

/-- An on-chip memory in which an ECC error is found (R163, R335, R336), `ahead` a word that a core has fetched ahead for a partition and not issued;
or a sector that an L1 or a home cache has taken and whose mesh flits then fail their CRC (R163). -/
inductive EccPlace where
  | l1 (core line : Nat)
  | icache (core line : Nat)
  | home (sector : Nat)
  | shared (core team sector : Nat)
  | wbuf (core sector : Nat)
  | abuf (core sector : Nat)
  | acc (core sector : Nat)
  | vreg (core team thread n : Nat)
  | sreg (core team n : Nat)
  | queue (core team q i : Nat)
  | near (core team i : Nat)
  | cover (core sector : Nat)
  | walker (cell sector : Nat)
  | ahead (core part : Nat)
  | flitL1 (core sector : Nat)
  | flitHome (sector : Nat)
  deriving DecidableEq, Repr, Inhabited

/-- A firmware bank's two images, each with its version number (R375): `version` is the firmware's. The bytes are those that the signature check reads; `torn` says that power was lost while the bank
was being written (R378). -/
structure Bank where
  version : Nat := 0
  kernelVersion : Nat := 0
  firmware : List Byte := []
  fwSig : List Byte := []
  kernel : List Byte := []
  kernSig : List Byte := []
  torn : Bool := false
  deriving DecidableEq, Repr, Inhabited

/-- What the outside and the part's own analogue units do during a boot (R376, R377): the nanoseconds until the entropy
source passes (none: not within 1 s), the slices whose channel failed to train, those whose lines failed to
initialise, the Wirad ports that train with their remote ends (R364), and what the enumeration of the storage port finds (R20): root ports, and whether
each device is an NVMe drive. -/
structure BootIn where
  entropyNs : Option Nat := some 0
  untrained : List Nat := []
  uninit : List Nat := []
  ports : List (Nat × Endpoint) := []
  devices : List (Nat × Bool) := []
  deriving DecidableEq, Repr, Inhabited

/-- The add that COUNTER_ADD_HOME performs: a thread's, by core and request, or one that an engine, a grid end, a waiter
or the trace buffer has pending, by its number. -/
inductive AddRef where
  | thread (core req : Nat)
  | pending (n : Nat)
  deriving DecidableEq, Repr, Inhabited

end Sys2Proof
end

