-- ==== Sys2Proof/Syntax.lean ====
section
/-! DEFINITION. The instructions and events of the Cortaix W6: one constructor for each row of spec/opcode_table.json.
Core instructions carry their guard and hints (`Ctl`) and typed operands (R98 to R306); walker instructions their register
numbers and immediates (R266); events what they name (spec/95_what_each_step_holds.md). -/

namespace Sys2Proof

inductive Instr where
  -- row 0x01, min, max (R102)
  | add (c : Ctl) (t : IntTy) (sat : Bool) (d a b : Operand)
  | sub (c : Ctl) (t : IntTy) (sat : Bool) (d a b : Operand)
  | mul (c : Ctl) (t : IntTy) (sat : Bool) (d a b : Operand)
  | mulhi (c : Ctl) (t : IntTy) (d a b : Operand)
  | mad (c : Ctl) (t : IntTy) (sat : Bool) (d a b : Operand)
  | madhi (c : Ctl) (t : IntTy) (d a b : Operand)
  | abs (c : Ctl) (wide sat : Bool) (d a : Operand)
  | neg (c : Ctl) (wide sat : Bool) (d a : Operand)
  | min (c : Ctl) (t : IntTy) (d a b : Operand)
  | max (c : Ctl) (t : IntTy) (d a b : Operand)
  | setp (c : Ctl) (cmp : Cmp) (t : IntTy) (d a b : Operand)
  | sel (c : Ctl) (wide : Bool) (d a b : Operand) (pc : BitVec 3) (neg : Bool)
  -- rows 0x03, 0x04 (R105, R106)
  | and (c : Ctl) (wide : Bool) (d a b : Operand)
  | or (c : Ctl) (wide : Bool) (d a b : Operand)
  | xor (c : Ctl) (wide : Bool) (d a b : Operand)
  | not (c : Ctl) (wide : Bool) (d a : Operand)
  | andn (c : Ctl) (wide : Bool) (d a b : Operand)
  | orn (c : Ctl) (wide : Bool) (d a b : Operand)
  | shl (c : Ctl) (wide : Bool) (d a b : Operand)
  | shr (c : Ctl) (wide : Bool) (d a b : Operand)
  | sra (c : Ctl) (wide : Bool) (d a b : Operand)
  | rol (c : Ctl) (wide : Bool) (d a b : Operand)
  | ror (c : Ctl) (wide : Bool) (d a b : Operand)
  -- row 0x05 (R107)
  | bfe (c : Ctl) (t : IntTy) (d a b : Operand)
  | bfi (c : Ctl) (wide : Bool) (d a b : Operand)
  | popc (c : Ctl) (wide : Bool) (d a : Operand)
  | clz (c : Ctl) (wide : Bool) (d a : Operand)
  | ctz (c : Ctl) (wide : Bool) (d a : Operand)
  | brev (c : Ctl) (wide : Bool) (d a : Operand)
  -- row 0x06 (R108, R109)
  | mov (c : Ctl) (wide : Bool) (d a : Operand)
  | lea (c : Ctl) (sgn : Bool) (scale : BitVec 3) (d a b : Operand)
  -- rows 0x08, 0x09 (R110 to R113)
  | fadd (c : Ctl) (r : Rnd) (d a b : Operand)
  | fsub (c : Ctl) (r : Rnd) (d a b : Operand)
  | fmul (c : Ctl) (r : Rnd) (d a b : Operand)
  | fma (c : Ctl) (r : Rnd) (d a b : Operand)
  | fmin (c : Ctl) (d a b : Operand)
  | fmax (c : Ctl) (d a b : Operand)
  | fabs (c : Ctl) (d a : Operand)
  | fneg (c : Ctl) (d a : Operand)
  | fsetp (c : Ctl) (cmp : FCmp) (d a b : Operand)
  | frnd (c : Ctl) (r : Rnd) (d a : Operand)
  | fclass (c : Ctl) (d a : Operand)
  -- row 0x0A (R114); bf: .bf16x2
  | hadd2 (c : Ctl) (bf : Bool) (r : Rnd) (d a b : Operand)
  | hsub2 (c : Ctl) (bf : Bool) (r : Rnd) (d a b : Operand)
  | hmul2 (c : Ctl) (bf : Bool) (r : Rnd) (d a b : Operand)
  | hfma2 (c : Ctl) (bf : Bool) (r : Rnd) (d a b : Operand)
  | hmin2 (c : Ctl) (bf : Bool) (d a b : Operand)
  | hmax2 (c : Ctl) (bf : Bool) (d a b : Operand)
  | hsetp2 (c : Ctl) (bf : Bool) (cmp : FCmp) (d a b : Operand)
  -- row 0x0B (R115); r is held and ignored
  | rcp (c : Ctl) (r : Rnd) (d a : Operand)
  | rsq (c : Ctl) (r : Rnd) (d a : Operand)
  | sqrt (c : Ctl) (r : Rnd) (d a : Operand)
  | ex2 (c : Ctl) (r : Rnd) (d a : Operand)
  | lg2 (c : Ctl) (r : Rnd) (d a : Operand)
  | sin (c : Ctl) (r : Rnd) (d a : Operand)
  | cos (c : Ctl) (r : Rnd) (d a : Operand)
  -- row 0x0C (R116 to R118)
  | cvt (c : Ctl) (dt st : CvtTy) (sat : Bool) (r : Rnd) (hi : Bool) (dst : CvtDst) (d a : Operand)
  | dxdec (c : Ctl) (fmt : DxFmt) (d a b : Operand)
  -- row 0x0D (R119 to R124)
  | shfl (c : Ctl) (m : ShflMode) (wide : Bool) (seg : Seg) (d a b : Operand)
  | vote (c : Ctl) (m : VoteMode) (d a : Operand)
  | redux (c : Ctl) (o : RedOp) (d a : Operand)
  | scan (c : Ctl) (o : RedOp) (excl : Bool) (d a : Operand)
  | matchLanes (c : Ctl) (m : MatchMode) (wide : Bool) (d a : Operand)
  | elect (c : Ctl) (high : Bool) (d : Operand)
  -- rows 0x0E, 0x0F (R125 to R127)
  | plut (c : Ctl) (table : BitVec 8) (pc : BitVec 3) (d a b : Operand)
  | umov (c : Ctl) (wide : Bool) (d a : Operand)
  | uld (c : Ctl) (wide : Bool) (d a b : Operand)
  -- rows 0x10 to 0x13 (R128)
  | bra (c : Ctl) (disp : BitVec 8)
  | call (c : Ctl) (disp : BitVec 8)
  | jmp (c : Ctl) (a : Operand)
  | calli (c : Ctl) (a : Operand)
  | ret (c : Ctl)
  | reform (c : Ctl)
  | demote (c : Ctl)
  | exit (c : Ctl)
  | trap (c : Ctl) (a : Operand)
  | brk (c : Ctl) (code : BitVec 8)
  | svc (c : Ctl) (num : BitVec 8) (d a : Operand)
  | rte (c : Ctl) (next : Bool)
  | rdsr (c : Ctl) (sr : SysReg) (d idx : Operand)
  | wrsr (c : Ctl) (sr : SysReg) (a idx : Operand)
  | raise (c : Ctl) (lab : Label)
  | declass (c : Ctl) (lab : Label) (d a : Operand)
  | tmark (c : Ctl) (tag : BitVec 8) (a : Operand)
  | launch (c : Ctl) (d a b : Operand)
  -- rows 0x18, 0x19 (R177)
  | ld (c : Ctl) (sp : Space) (w : LdWidth) (pol : Policy) (d a b : Operand)
  | st (c : Ctl) (sp : Space) (w : StWidth) (pol : Policy) (d a b : Operand)
  | atom (c : Ctl) (o : AtomOp) (sp : Space) (d a b : Operand)
  | red (c : Ctl) (o : AtomOp) (sp : Space) (a b : Operand)
  | fence (c : Ctl) (sc : Scope)
  | pref (c : Ctl) (sp : Space) (home : Bool) (a b : Operand)
  | resv (c : Ctl) (buf : Buf) (fmt : Fmt) (lab : Label) (slot : BitVec 4) (d a b : Operand)
  | resfree (c : Ctl) (all : Bool) (slot : BitVec 4)
  -- row 0x1A (R196)
  | mld (c : Ctl) (slot : BitVec 4) (a b : Operand)
  | mswap (c : Ctl)
  | mstream (c : Ctl) (d a b : Operand)
  | mread (c : Ctl) (slot : BitVec 4) (d a b : Operand)
  | mzero (c : Ctl) (slot : BitVec 4) (a b : Operand)
  | mfuse (c : Ctl) (sh : Shape)
  | mrel (c : Ctl)
  -- row 0x1B (R219)
  | copy (c : Ctl) (u ns : Bool) (d a b : Operand)
  | quant (c : Ctl) (u ns : Bool) (d a b : Operand)
  | rqt (c : Ctl) (u ns : Bool) (d a b : Operand)
  | htest (c : Ctl) (d a : Operand)
  | hcancel (c : Ctl) (a : Operand)
  | hmov (c : Ctl) (d a : Operand)
  -- row 0x1C (R305); an absent destination is z, whose encoding 0xFFF is that of an unused field
  | cadd (c : Ctl) (m : CaddMode) (d a b : Operand)
  | cwait (c : Ctl) (d a b : Operand)
  | cread (c : Ctl) (d a : Operand)
  | carm (c : Ctl) (d a : Operand)
  | cdisarm (c : Ctl) (d a b : Operand)
  -- rows 0x1D, 0x1E (R284, R260)
  | ovw (c : Ctl) (d a b : Operand)
  | ovget (c : Ctl) (d : Operand)
  | ovend (c : Ctl)
  | xinv (c : Ctl) (part : Bool) (d a : Operand)
  | xprobe (c : Ctl) (k : ProbeKind) (d a : Operand)
  -- the walker instruction set (R266)
  | walkerAdd (d a b : BitVec 5)
  | walkerSub (d a b : BitVec 5)
  | walkerAnd (d a b : BitVec 5)
  | walkerOr (d a b : BitVec 5)
  | walkerXor (d a b : BitVec 5)
  | walkerSll (d a b : BitVec 5)
  | walkerSrl (d a b : BitVec 5)
  | walkerSra (d a b : BitVec 5)
  | walkerMul (d a b : BitVec 5)
  | walkerAddi (d a : BitVec 5) (i : BitVec 11)
  | walkerAndi (d a : BitVec 5) (i : BitVec 11)
  | walkerOri (d a : BitVec 5) (i : BitVec 11)
  | walkerXori (d a : BitVec 5) (i : BitVec 11)
  | walkerSlli (d a : BitVec 5) (n : BitVec 6)
  | walkerSrli (d a : BitVec 5) (n : BitVec 6)
  | walkerSrai (d a : BitVec 5) (n : BitVec 6)
  | walkerCat (d a : BitVec 5) (u : BitVec 11)
  | walkerBeq (a b : BitVec 5) (i : BitVec 11)
  | walkerBne (a b : BitVec 5) (i : BitVec 11)
  | walkerBlt (a b : BitVec 5) (i : BitVec 11)
  | walkerBge (a b : BitVec 5) (i : BitVec 11)
  | walkerBltu (a b : BitVec 5) (i : BitVec 11)
  | walkerBgeu (a b : BitVec 5) (i : BitVec 11)
  | walkerJmp (a : BitVec 5) (i : BitVec 11)
  | walkerLdpD (d a : BitVec 5) (i : BitVec 11)
  | walkerLdpW (d a : BitVec 5) (i : BitVec 11)
  | walkerLdvD (d a : BitVec 5) (i : BitVec 11)
  | walkerLdvW (d a : BitVec 5) (i : BitVec 11)
  | walkerHash (d a b : BitVec 5)
  | walkerTick (d : BitVec 5)
  | walkerDone (d a : BitVec 5)
  | walkerFault (code : BitVec 11)
  -- events of the quadrant (R198 to R208)
  | mldComplete (core : Nat)
  | mswapTakeEffect (core : Nat)
  | mstreamRow (core : Nat)
  | mstreamComplete (core : Nat)
  | mrelTakeEffect (core : Nat)
  | mzeroComplete (core : Nat)
  -- events of translation (R263, R259, R256, R272, R267)
  | xinvInvalidate (core cmd : Nat)
  | walkStart (cell : Nat)
  | walkTimeExpiry (cell proc : Nat)
  | walkerLoadReturn (cell proc : Nat)
  | routineLoad (part : Nat) (words : List Word)
  -- events of threads, groups and heats (R41, R80, R81, R169)
  | parkEnd (core team thread : Nat)
  | heatDraw (core team : Nat)
  | forcedReform (core team : Nat)
  | fenceConditionsHold (core team thread : Nat)
  -- events of memory (R165 to R171, R161 to R163)
  | memoryResponse (core req : Nat)
  | l1Fill (core req : Nat)
  | leaseExpiry (core line : Nat)
  | storePerform (core req : Nat)
  | atomicPerform (core req : Nat)
  | lineWriteBack (line : Nat)
  | lineRead (line : Nat)
  | lineCorrection (line : Nat)
  | onchipEccError (double : Bool) (pl : EccPlace)
  -- events of engines and queues (R174, R229, R214)
  | engineLineWrite (core cmd : Nat)
  | engineCommandComplete (core cmd : Nat)
  | commandCancelStop (core cmd : Nat)
  | queueElementArrival (core team q : Nat)
  -- events of counters, launches and teams (R307, R234, R239, R242)
  | counterAddHome (r : AddRef)
  | launchSubmit (n : Nat)
  | placeClusters (part : Nat)
  | teamEnd (core team : Nat)
  -- events of the anchor (R287, R292)
  | anchorBatchForm (core : Nat)
  | anchorBatchEnd (core : Nat)
  | ovwLoopComplete (core : Nat)
  -- events of pre-emption and contexts (R328 to R334, R349)
  | preemptStopRequest (part ctx : Nat)
  | preemptDeadlineExpiry (part ctx : Nat)
  | contextSave (part ctx : Nat) (pa : Nat)
  | contextRestore (part ctx : Nat) (origins : Landing)
  | contextCreate (part ctx : Nat) (word : DWord) (lbase : Layout)
  | contextDestroy (part ctx : Nat)
  | contextPageOut (part : Nat) (ctx : PageOut)
  -- events of the slice kernel (R140, R235, R246, R342 to R358)
  | svcInfo (part : Nat)
  | svcYield (part : Nat)
  | svcNsOpen (part : Nat)
  | svcNsClose (part : Nat)
  | svcQuote (part : Nat)
  | svcTrace (part : Nat)
  | svcReply (part call : Nat)
  | certSlotWrite (slot : Nat) (chain : List Byte)
  | traceSample (part : Nat) (pl : EvPlace) (i : Nat)
  | partitionCreate (r : PartReq)
  | partitionDestroy (part : Nat)
  | queueEnable (part q ctx : Nat)
  | queueDisable (part q : Nat)
  | sliceKernelConfigWrite (part : Nat) (it : CfgItem)
  | unitRetire (u : RetUnit)
  | vfReset (part : Nat)
  -- events of the links (R362 to R371) and of storage (R373)
  | frameReceive (port : Nat) (symbols : List (BitVec 10))
  | replayRequest (port : Nat) (seq : Nat)
  | linkTraining (port : Nat) (remote : Endpoint)
  | linkReply (n : Nat) (ans : LinkAns)
  | inboundRead (m : Sender) (ctx : Nat) (addr : DWord) (width : Nat)
  | inboundWrite (m : Sender) (ctx : Nat) (addr : DWord) (data : InWrite)
  | inboundAtomic (m : Sender) (ctx : Nat) (addr : DWord) (op : AtomForm) (b d : DWord)
  | inboundCounterAdd (m : Sender) (ctx : Nat) (addr : DWord) (n : AddForm)
  | inboundCounterRead (m : Sender) (ctx : Nat) (addr : DWord)
  | inboundLaunch (m : Sender) (msg : List Byte)
  | inboundPost (m : Sender) (msg : DWord)
  | connectionReset (part : Nat) (remote : Endpoint)
  | nvmeCommandComplete (core cmd n : Nat) (ans : NvmeAns)
  -- events of the module (R349, R376 to R383)
  | boot (b : BootIn)
  | firmwareUpdate (bank : Bool) (b : Bank) (cut : Bool)
  | clockThrottle (up : Bool)
  | overTemperaturePowerOff
  | powerOff
  | smbusBootStatus
  | smbusDieTemperature
  | smbusInputPower
  | smbusCoolantTemperature
  | smbusCoreClock
  | smbusNack (cmd : Byte)
  | entropyHealthTest (passed : Bool)
  deriving DecidableEq, Repr, Inhabited

end Sys2Proof
end

