-- ==== Sys2Proof/Machine/Form.lean ====
section
/-! DEFINITION. The form of every core instruction: its operation code and codes (R48, R100, R178), its operands in D, A and
B, the operand classes those fields accept (R98, R128, R177, R196, R219, R260, R284, R305), its latency class (R42) and
whether it reads D as a source. One table, read by the encoder, by well-formedness and by the static contract. -/

namespace Sys2Proof


/-- The operand classes of R98. -/
structure Cls where
  v : Bool := false
  s : Bool := false
  p : Bool := false
  q : Bool := false
  h : Bool := false
  x : Bool := false
  i : Bool := false
  z : Bool := false
  deriving DecidableEq, Repr

/-- What a field accepts: classes, whether it stands in a 64-bit position (R32, R99), the multiple that an s index must
be (R219, `.u`), and whether a predicate must be even (R114). -/
structure Slot where
  cls : Cls
  wide : Bool := false
  sAlign : Nat := 1
  pEven : Bool := false
  deriving DecidableEq, Repr

/-- A field that the instruction does not use holds 0xFFF (R31). -/
def Slot.unused : Slot := { cls := { z := true } }

/-- V S P X I Z. -/
def Slot.src (wide : Bool := false) : Slot :=
  { cls := { v := true, s := true, p := true, x := true, i := true, z := true }, wide }
/-- V S I Z. -/
def Slot.vsiz (wide : Bool := false) : Slot := { cls := { v := true, s := true, i := true, z := true }, wide }
/-- V S Z. -/
def Slot.vsz (wide : Bool := false) : Slot := { cls := { v := true, s := true, z := true }, wide }
/-- V S. -/
def Slot.vs (wide : Bool := false) : Slot := { cls := { v := true, s := true }, wide }
/-- V. -/
def Slot.dv (wide : Bool := false) : Slot := { cls := { v := true }, wide }
/-- V; also P in 32-bit forms. -/
def Slot.dvp (wide : Bool := false) : Slot := { cls := { v := true, p := !wide }, wide }
/-- P. -/
def Slot.dp (pEven : Bool := false) : Slot := { cls := { p := true }, pEven }
/-- P or V. -/
def Slot.pv : Slot := { cls := { p := true, v := true } }
/-- S. -/
def Slot.ds (wide : Bool := false) : Slot := { cls := { s := true }, wide }
/-- H. -/
def Slot.dh : Slot := { cls := { h := true } }

/-- Whether a field accepts an operand, for a launch of `regs` registers per thread (R31, R32). A pair names its even
register, so the pair that names s255 is an odd index (R32, R126; DEDUCED, log 17). -/
def Slot.accepts (sl : Slot) (regs : Nat) : Operand → Bool
  | .v n => sl.cls.v && decide (n.toNat < regs) &&
      (!sl.wide || (decide (n.toNat % 2 = 0) && decide (n.toNat + 1 < regs)))
  | .s n => sl.cls.s && decide (n.toNat % sl.sAlign = 0) &&
      (!sl.wide || decide (n.toNat % 2 = 0))
  | .p n => sl.cls.p && (!sl.pEven || decide (n.toNat % 2 = 0))
  | .q _ => sl.cls.q
  | .h _ => sl.cls.h
  | .x _ => sl.cls.x
  | .imm _ => sl.cls.i
  | .z => sl.cls.z

/-- The latency class of a destination (R42). -/
inductive Lat where
  | none
  | fix (n : Nat)
  | var
  deriving DecidableEq, Repr

/-- Latencies of the table of R42. -/
def Lat.int : Lat := .fix 2
def Lat.pred : Lat := .fix 2
def Lat.fp : Lat := .fix 4
def Lat.conv : Lat := .fix 4
def Lat.cross : Lat := .fix 6
def Lat.sfu : Lat := .fix 8
def Lat.handle : Lat := .fix 2

/-- Which lanes read an operand: each active lane, Lowest() alone (R49), or the lowest active lane that is no helper (R37, R82, R192). -/
inductive Who where
  | each | low | real
  deriving DecidableEq, Repr

/-- The form of a core instruction. `imm` is IMM8 where the instruction gives it a meaning of its own; `pC` the predicate
that AUX names (R104, R125); `block` the number of s registers that a `.u` block spans (R219); `who` the lanes that read D, A and the block, `whoB` those that read B
where they differ; `late` that the effect itself checks its operands for poison, after PRIVILEGE (R142, R143, R147, R151). -/
structure Form where
  c : Ctl
  opc : Nat
  mod : Nat := 0
  aux : Nat := 0
  imm : Option (BitVec 8) := none
  d : Operand := .z
  a : Operand := .z
  b : Operand := .z
  sd : Slot := Slot.unused
  sa : Slot := Slot.unused
  sb : Slot := Slot.unused
  lat : Lat := .none
  dSrc : Bool := false
  pC : Option (BitVec 3) := none
  block : Nat := 0
  who : Who := .each
  whoB : Option Who := none
  late : Bool := false
  deriving DecidableEq, Repr

/-- The lanes that read a field of R46: D, A, B, then the guard and the predicate that AUX names. -/
def Form.whoOf (f : Form) (field : Nat) : Who :=
  if field = 2 then f.whoB.getD f.who else if field = 3 then .each else f.who

def IntTy.code : IntTy → Nat | .u32 => 0 | .s32 => 1 | .u64 => 2 | .s64 => 3
def IntTy.ofCode (n : Nat) : IntTy := if n = 0 then .u32 else if n = 1 then .s32 else if n = 2 then .u64 else .s64
def IntTy.wide : IntTy → Bool | .u32 => false | .s32 => false | .u64 => true | .s64 => true
def IntTy.signed : IntTy → Bool | .u32 => false | .s32 => true | .u64 => false | .s64 => true
/-- Width n of R102. -/
def IntTy.width (t : IntTy) : Nat := if IntTy.wide t then 64 else 32

def Rnd.code : Rnd → Nat | .rn => 0 | .rz => 1 | .ru => 2 | .rd => 3
def Rnd.ofCode (n : Nat) : Rnd := if n = 0 then .rn else if n = 1 then .rz else if n = 2 then .ru else .rd

def Cmp.code : Cmp → Nat | .eq => 0 | .ne => 1 | .lt => 2 | .le => 3 | .gt => 4 | .ge => 5
def Cmp.ofCode (n : Nat) : Option Cmp :=
  if n = 0 then some .eq else if n = 1 then some .ne else if n = 2 then some .lt else if n = 3 then some .le
  else if n = 4 then some .gt else if n = 5 then some .ge else none
def FCmp.code : FCmp → Nat | .ord c => Cmp.code c | .num => 6 | .nan => 7
def FCmp.ofCode (n : Nat) : FCmp :=
  match Cmp.ofCode n with
  | some c => .ord c
  | none => if n = 6 then .num else .nan

def CvtTy.code : CvtTy → Nat
  | .u8 => 0 | .s8 => 1 | .u16 => 2 | .s16 => 3 | .u32 => 4 | .s32 => 5 | .u64 => 6 | .s64 => 7 | .f16 => 8 | .bf16 => 9
  | .f32 => 10
def CvtTy.ofCode (n : Nat) : Option CvtTy :=
  if n = 0 then some .u8 else if n = 1 then some .s8 else if n = 2 then some .u16 else if n = 3 then some .s16
  else if n = 4 then some .u32 else if n = 5 then some .s32 else if n = 6 then some .u64 else if n = 7 then some .s64
  else if n = 8 then some .f16 else if n = 9 then some .bf16 else if n = 10 then some .f32 else none
def CvtTy.wide : CvtTy → Bool
  | .u64 => true | .s64 => true | .u8 => false | .s8 => false | .u16 => false | .s16 => false | .u32 => false | .s32 => false
  | .f16 => false | .bf16 => false | .f32 => false
def CvtTy.half : CvtTy → Bool
  | .f16 => true | .bf16 => true | .u8 => false | .s8 => false | .u16 => false | .s16 => false | .u32 => false | .s32 => false
  | .u64 => false | .s64 => false | .f32 => false
def CvtTy.isInt : CvtTy → Bool
  | .f16 => false | .bf16 => false | .f32 => false | .u8 => true | .s8 => true | .u16 => true | .s16 => true | .u32 => true
  | .s32 => true | .u64 => true | .s64 => true
/-- ELEM of R116: bit 0 `.hi`, then 4 `.m0`, 6 `.m1`. -/
def CvtDst.code : CvtDst → Nat | .whole => 0 | .m0 => 4 | .m1 => 6
def CvtDst.ofCode (n : Nat) : CvtDst := if n = 4 then .m0 else if n = 6 then .m1 else .whole

def DxFmt.code : DxFmt → Nat | .dx8 => 0 | .dx6 => 1 | .dx4 => 2
def DxFmt.ofCode (n : Nat) : DxFmt := if n = 0 then .dx8 else if n = 1 then .dx6 else .dx4
def ShflMode.code : ShflMode → Nat | .at => 0 | .rot => 1 | .shift => 2 | .pair => 3
def ShflMode.ofCode (n : Nat) : ShflMode := if n = 0 then .at else if n = 1 then .rot else if n = 2 then .shift else .pair
def Seg.code : Seg → Nat | .s16 => 0 | .s2 => 1 | .s4 => 2 | .s8 => 3
def Seg.ofCode (n : Nat) : Seg := if n = 0 then .s16 else if n = 1 then .s2 else if n = 2 then .s4 else .s8
/-- The segment size S of R120. -/
def Seg.size : Seg → Nat | .s16 => 16 | .s2 => 2 | .s4 => 4 | .s8 => 8
def VoteMode.code : VoteMode → Nat | .every => 0 | .some => 1 | .same => 2 | .mask => 3 | .count => 4
def VoteMode.ofCode (n : Nat) : VoteMode :=
  if n = 0 then .every else if n = 1 then .some else if n = 2 then .same else if n = 3 then .mask else .count
def RedInt.code : RedInt → Nat | .add => 0 | .min => 1 | .max => 2 | .and => 3 | .or => 4 | .xor => 5
def RedInt.ofCode (n : Nat) : Option RedInt :=
  if n = 0 then some .add else if n = 1 then some .min else if n = 2 then some .max else if n = 3 then some .and
  else if n = 4 then some .or else if n = 5 then some .xor else none
/-- OP in [7:4] with TYPE or RND in [1:0] (R122). -/
def RedOp.code : RedOp → Nat
  | .int o t => RedInt.code o * 16 + IntTy.code t
  | .fadd r => 8 * 16 + Rnd.code r
  | .fmin => 9 * 16
  | .fmax => 10 * 16
def RedOp.ofCode (op lo : Nat) : Option RedOp :=
  match RedInt.ofCode op with
  | some o => some (.int o (IntTy.ofCode lo))
  | none => if op = 8 then some (.fadd (Rnd.ofCode lo)) else if op = 9 then some .fmin
            else if op = 10 then some .fmax else none
def RedOp.wide : RedOp → Bool | .int _ t => IntTy.wide t | .fadd _ => false | .fmin => false | .fmax => false
def MatchMode.code : MatchMode → Nat | .peers => 0 | .same => 1 | .first => 2
def MatchMode.ofCode (n : Nat) : MatchMode := if n = 0 then .peers else if n = 1 then .same else .first
/-- Register numbers of R69. -/
def SysReg.code : SysReg → Nat
  | .tstat => 0 | .tpc => 1 | .tcause => 2 | .tval => 3 | .tvec => 4 | .svec => 5 | .ctxid => 6 | .accown => 7 | .time => 8
  | .vtime => 9 | .tapc => 10
def SysReg.ofCode (n : Nat) : Option SysReg :=
  if n = 0 then some .tstat else if n = 1 then some .tpc else if n = 2 then some .tcause else if n = 3 then some .tval
  else if n = 4 then some .tvec else if n = 5 then some .svec else if n = 6 then some .ctxid else if n = 7 then some .accown
  else if n = 8 then some .time else if n = 9 then some .vtime else if n = 10 then some .tapc else none
/-- Registers of thread scope (R69). -/
def threadScope (sr : SysReg) : Bool :=
  match sr with
  | .tpc => true | .tapc => true | .tcause => true | .tval => true | .tstat => true | .tvec => false | .svec => false
  | .ctxid => false | .accown => false | .time => false | .vtime => false
def Space.code : Space → Nat | .g => 0 | .l => 1 | .s => 2 | .wb => 3 | .ab => 4 | .acc => 5
def Space.ofCode (n : Nat) : Option Space :=
  if n = 0 then some .g else if n = 1 then some .l else if n = 2 then some .s else if n = 3 then some .wb
  else if n = 4 then some .ab else if n = 5 then some .acc else none
def LdWidth.code : LdWidth → Nat | .u8 => 0 | .s8 => 1 | .u16 => 2 | .s16 => 3 | .b32 => 4 | .b64 => 5
def LdWidth.ofCode (n : Nat) : Option LdWidth :=
  if n = 0 then some .u8 else if n = 1 then some .s8 else if n = 2 then some .u16 else if n = 3 then some .s16
  else if n = 4 then some .b32 else if n = 5 then some .b64 else none
def LdWidth.bytes : LdWidth → Nat | .u8 => 1 | .s8 => 1 | .u16 => 2 | .s16 => 2 | .b32 => 4 | .b64 => 8
def StWidth.code : StWidth → Nat | .b8 => 0 | .b16 => 2 | .b32 => 4 | .b64 => 5
def StWidth.ofCode (n : Nat) : Option StWidth :=
  if n = 0 then some .b8 else if n = 2 then some .b16 else if n = 4 then some .b32 else if n = 5 then some .b64 else none
def StWidth.bytes : StWidth → Nat | .b8 => 1 | .b16 => 2 | .b32 => 4 | .b64 => 8
def Policy.code : Policy → Nat | .l1 => 0 | .byp => 1 | .strm => 2
def Policy.ofCode (n : Nat) : Option Policy :=
  if n = 0 then some .l1 else if n = 1 then some .byp else if n = 2 then some .strm else none
def AtomInt.code : AtomInt → Nat
  | .add => 0 | .min => 1 | .max => 2 | .and => 3 | .or => 4 | .xor => 5 | .exch => 6 | .cas => 7
def AtomInt.ofCode (n : Nat) : Option AtomInt :=
  if n = 0 then some .add else if n = 1 then some .min else if n = 2 then some .max else if n = 3 then some .and
  else if n = 4 then some .or else if n = 5 then some .xor else if n = 6 then some .exch else if n = 7 then some .cas
  else none
/-- OP in [10:7], TYPE in [6:5], RND in [1:0] (R178). -/
def AtomOp.code : AtomOp → Nat
  | .int o t => AtomInt.code o * 128 + IntTy.code t * 32
  | .fadd r => 8 * 128 + Rnd.code r
  | .fmin => 9 * 128
  | .fmax => 10 * 128
def AtomOp.ofCode (op ty rnd : Nat) : Option AtomOp :=
  match AtomInt.ofCode op with
  | some o => some (.int o (IntTy.ofCode ty))
  | none =>
    if ty ≠ 0 then none
    else if op = 8 then some (.fadd (Rnd.ofCode rnd)) else if op = 9 then some .fmin
    else if op = 10 then some .fmax else none
def AtomOp.wide : AtomOp → Bool | .int _ t => IntTy.wide t | .fadd _ => false | .fmin => false | .fmax => false
def AtomOp.isCas : AtomOp → Bool
  | .int o _ => decide (o = .cas) | .fadd _ => false | .fmin => false | .fmax => false
/-- `.exch` and `.cas` have no `red` (R184). -/
def AtomOp.redOk : AtomOp → Bool
  | .int o _ => decide (o ≠ .cas) && decide (o ≠ .exch) | .fadd _ => true | .fmin => true | .fmax => true
def Scope.code : Scope → Nat | .team => 0 | .clu => 1 | .dev => 2 | .sys => 3
def Scope.ofCode (n : Nat) : Scope := if n = 0 then .team else if n = 1 then .clu else if n = 2 then .dev else .sys
def Buf.code : Buf → Nat | .wb => 0 | .ab => 1 | .acc => 2
def Buf.ofCode (n : Nat) : Option Buf := if n = 0 then some .wb else if n = 1 then some .ab else if n = 2 then some .acc else none
def Fmt.code : Fmt → Nat | .bf16 => 0 | .f16 => 1 | .dx8 => 2 | .dx6 => 3 | .dx4 => 4 | .f32 => 5 | .bytes => 6
def Fmt.ofCode (n : Nat) : Option Fmt :=
  if n = 0 then some .bf16 else if n = 1 then some .f16 else if n = 2 then some .dx8 else if n = 3 then some .dx6
  else if n = 4 then some .dx4 else if n = 5 then some .f32 else if n = 6 then some .bytes else none
def Shape.code : Shape → Nat | .h => 0 | .v => 1 | .q => 2
def Shape.ofCode (n : Nat) : Option Shape := if n = 0 then some .h else if n = 1 then some .v else if n = 2 then some .q else none
def ProbeKind.code : ProbeKind → Nat | .r => 0 | .w => 1 | .x => 2
def ProbeKind.ofCode (n : Nat) : Option ProbeKind :=
  if n = 0 then some .r else if n = 1 then some .w else if n = 2 then some .x else none
def CaddMode.code : CaddMode → Nat | .plain => 0 | .rel sc => 4 + Scope.code sc | .lim => 8

/-- OPC of a row and a cell (R48). -/
def opcOf (row sub : Nat) : Nat := sub * 128 + row

def wid (w : Bool) : Nat := if w then 8 else 0
def bit (b : Bool) (n : Nat) : Nat := if b then 2 ^ n else 0

/-- A row-0x01 style form: D, A and B at the width of TYPE. -/
def Form.alu (c : Ctl) (row sub mod : Nat) (w : Bool) (d a b : Operand) : Form :=
  { c, opc := opcOf row sub, mod, d, a, b, sd := .dvp w, sa := .src w, sb := .src w, lat := .int }

/-- As `alu`, with B unused. -/
def Form.alu1 (c : Ctl) (row sub mod : Nat) (w : Bool) (d a : Operand) : Form :=
  { c, opc := opcOf row sub, mod, d, a, sd := .dvp w, sa := .src w, lat := .int }

/-- A shift or bit-field form: B is 32-bit in every width (R106, R107). -/
def Form.shift (c : Ctl) (row sub mod : Nat) (w : Bool) (d a b : Operand) : Form :=
  { c, opc := opcOf row sub, mod, d, a, b, sd := .dvp w, sa := .src w, sb := .src, lat := .int }

/-- A count: D is 32 bits in every width (R107), and so takes a predicate in every width (R98, R99; DEDUCED, log 17). -/
def Form.count (c : Ctl) (sub : Nat) (w : Bool) (d a : Operand) : Form :=
  { c, opc := opcOf 5 sub, mod := wid w, d, a, sd := .dvp, sa := .src w, lat := .int }

/-- A floating-point form with two sources. -/
def Form.fp2 (c : Ctl) (row sub mod : Nat) (d a b : Operand) : Form :=
  { c, opc := opcOf row sub, mod, d, a, b, sd := .dv, sa := .vsiz, sb := .vsiz, lat := .fp }

def Form.fp1 (c : Ctl) (row sub mod : Nat) (l : Lat) (d a : Operand) : Form :=
  { c, opc := opcOf row sub, mod, d, a, sd := .dv, sa := .vsiz, lat := l }

/-- An engine command of row 0x1B (R219). -/
def Form.engine (c : Ctl) (sub : Nat) (u ns : Bool) (d a b : Operand) : Form :=
  { c, opc := opcOf 0x1B sub, mod := bit u 0 + bit ns 1, d, a, b, sd := .dh,
    sa := if u then { cls := { s := true }, sAlign := if ns then 8 else 16 } else .vsz,
    sb := .vsiz, lat := .handle, block := if u then (if ns then 8 else 16) else 0, who := .real }

/-- A of an access, by space (R179). -/
def Slot.addr (sp : Space) : Slot := if sp = .g then .vs true else .vsz

/-- The form of a core instruction; none for a walker instruction or an event. -/
def coreForm : Instr → Option Form
  | .add c t sat d a b => some (.alu c 1 0 (t.code + bit sat 2) t.wide d a b)
  | .sub c t sat d a b => some (.alu c 1 1 (t.code + bit sat 2) t.wide d a b)
  | .mul c t sat d a b => some (.alu c 1 2 (t.code + bit sat 2) t.wide d a b)
  | .mulhi c t d a b => some (.alu c 1 3 t.code t.wide d a b)
  | .mad c t sat d a b => some { Form.alu c 1 4 (t.code + bit sat 2) t.wide d a b with dSrc := true }
  | .madhi c t d a b => some { Form.alu c 1 5 t.code t.wide d a b with dSrc := true }
  | .abs c w sat d a => some (.alu1 c 1 6 (1 + bit w 1 + bit sat 2) w d a)
  | .neg c w sat d a => some (.alu1 c 1 7 (1 + bit w 1 + bit sat 2) w d a)
  | .min c t d a b => some (.alu c 2 0 t.code t.wide d a b)
  | .max c t d a b => some (.alu c 2 1 t.code t.wide d a b)
  | .setp c cmp t d a b => some { Form.alu c 2 2 (t.code + 16 * cmp.code) t.wide d a b with sd := .dp, lat := .pred }
  | .sel c w d a b pc ng => some { Form.alu c 2 3 (wid w) w d a b with aux := pc.toNat + bit ng 3, pC := some pc }
  | .and c w d a b => some (.alu c 3 0 (wid w) w d a b)
  | .or c w d a b => some (.alu c 3 1 (wid w) w d a b)
  | .xor c w d a b => some (.alu c 3 2 (wid w) w d a b)
  | .not c w d a => some (.alu1 c 3 3 (wid w) w d a)
  | .andn c w d a b => some (.alu c 3 4 (wid w) w d a b)
  | .orn c w d a b => some (.alu c 3 5 (wid w) w d a b)
  | .shl c w d a b => some (.shift c 4 0 (wid w) w d a b)
  | .shr c w d a b => some (.shift c 4 1 (wid w) w d a b)
  | .sra c w d a b => some (.shift c 4 2 (wid w) w d a b)
  | .rol c w d a b => some (.shift c 4 3 (wid w) w d a b)
  | .ror c w d a b => some (.shift c 4 4 (wid w) w d a b)
  | .bfe c t d a b => some (.shift c 5 0 t.code t.wide d a b)
  | .bfi c w d a b => some { Form.shift c 5 1 (wid w) w d a b with dSrc := true }
  | .popc c w d a => some (.count c 2 w d a)
  | .clz c w d a => some (.count c 3 w d a)
  | .ctz c w d a => some (.count c 4 w d a)
  | .brev c w d a => some (.alu1 c 5 5 (wid w) w d a)
  | .mov c w d a => some {
      c, opc := opcOf 6 0, mod := wid w, d, a,
      sd := { cls := { v := true, p := !w, q := !w }, wide := w },
      sa := { cls := { v := true, s := true, p := true, q := !w, h := !w, x := true, i := true, z := true }, wide := w },
      lat := match a with | .q _ => .var | _ => .int }
  | .lea c sg sc d a b => some {
      c, opc := opcOf 6 1, mod := bit sg 0, aux := sc.toNat, d, a, b, sd := .dv true, sa := .src true, sb := .src, lat := .int }
  | .fadd c r d a b => some (.fp2 c 8 0 r.code d a b)
  | .fsub c r d a b => some (.fp2 c 8 1 r.code d a b)
  | .fmul c r d a b => some (.fp2 c 8 2 r.code d a b)
  | .fma c r d a b => some { Form.fp2 c 8 3 r.code d a b with dSrc := true }
  | .fmin c d a b => some (.fp2 c 8 4 0 d a b)
  | .fmax c d a b => some (.fp2 c 8 5 0 d a b)
  | .fabs c d a => some (.fp1 c 8 6 0 .fp d a)
  | .fneg c d a => some (.fp1 c 8 7 0 .fp d a)
  | .fsetp c cmp d a b => some { Form.fp2 c 9 0 (16 * cmp.code) d a b with sd := .dp, lat := .pred }
  | .frnd c r d a => some (.fp1 c 9 1 r.code .fp d a)
  | .fclass c d a => some (.fp1 c 9 2 0 .int d a)
  | .hadd2 c bf r d a b => some (.fp2 c 0xA 0 (r.code + bit bf 2) d a b)
  | .hsub2 c bf r d a b => some (.fp2 c 0xA 1 (r.code + bit bf 2) d a b)
  | .hmul2 c bf r d a b => some (.fp2 c 0xA 2 (r.code + bit bf 2) d a b)
  | .hfma2 c bf r d a b => some { Form.fp2 c 0xA 3 (r.code + bit bf 2) d a b with dSrc := true }
  | .hmin2 c bf d a b => some (.fp2 c 0xA 4 (bit bf 2) d a b)
  | .hmax2 c bf d a b => some (.fp2 c 0xA 5 (bit bf 2) d a b)
  | .hsetp2 c bf cmp d a b =>
    some { Form.fp2 c 0xA 6 (bit bf 2 + 16 * cmp.code) d a b with sd := .dp true, lat := .pred }
  | .rcp c r d a => some (.fp1 c 0xB 0 r.code .sfu d a)
  | .rsq c r d a => some (.fp1 c 0xB 1 r.code .sfu d a)
  | .sqrt c r d a => some (.fp1 c 0xB 2 r.code .sfu d a)
  | .ex2 c r d a => some (.fp1 c 0xB 3 r.code .sfu d a)
  | .lg2 c r d a => some (.fp1 c 0xB 4 r.code .sfu d a)
  | .sin c r d a => some (.fp1 c 0xB 5 r.code .sfu d a)
  | .cos c r d a => some (.fp1 c 0xB 6 r.code .sfu d a)
  | .cvt c dt st sat r hi dst d a => some {
      c, opc := opcOf 0xC 0, mod := 256 * st.code + 16 * dt.code + bit sat 2 + r.code, aux := bit hi 0 + dst.code, d, a,
      sd := .dv dt.wide, sa := if st.isInt then .src st.wide else .vsiz, lat := .conv, dSrc := decide (dst ≠ .whole) }
  | .dxdec c f d a b => some { Form.fp2 c 0xC 1 f.code d a b with lat := .conv }
  | .shfl c m w g d a b => some {
      c, opc := opcOf 0xD 0, mod := m.code + wid w, aux := g.code, d, a, b, sd := .dv w, sa := .src w, sb := .src, lat := .cross }
  | .vote c m d a => some {
      c, opc := opcOf 0xD 1, mod := m.code, d, a, sd := if m = .mask ∨ m = .count then .dv else .pv, sa := .src, lat := .cross }
  | .redux c o d a => some {
      c, opc := opcOf 0xD 2, mod := o.code, d, a, sd := .dv o.wide, sa := .src o.wide, lat := .cross }
  | .scan c o ex d a => some {
      c, opc := opcOf 0xD 3, mod := o.code + bit ex 8, d, a, sd := .dv o.wide, sa := .src o.wide, lat := .cross }
  | .matchLanes c m w d a => some {
      c, opc := opcOf 0xD 4, mod := m.code + wid w, d, a, sd := if m = .same then .pv else .dv, sa := .src w, lat := .cross }
  | .elect c hi d => some { c, opc := opcOf 0xD 5, mod := bit hi 0, d, sd := .pv, lat := .cross }
  | .plut c tb pc d a b => some {
      c, opc := opcOf 0xE 0, aux := pc.toNat, imm := some tb, d, a, b, sd := .pv,
      sa := { cls := { v := true, s := true, p := true, x := true, z := true } },
      sb := { cls := { v := true, s := true, p := true, x := true, z := true } }, lat := .pred, pC := some pc }
  | .umov c w d a => some {
      c, opc := opcOf 0xF 0, mod := wid w, d, a, sd := .ds w,
      sa := { cls := { v := true, s := true, p := true, h := !w, x := true, i := true, z := true }, wide := w }, lat := .int,
      who := .low }
  | .uld c w d a b => some {
      c, opc := opcOf 0xF 1, mod := wid w, d, a, b, sd := .ds w, sa := .vs true, sb := .vsiz, lat := .var, who := .low }
  | .bra c disp => some { c, opc := opcOf 0x10 0, imm := some disp }
  | .call c disp => some { c, opc := opcOf 0x10 1, imm := some disp }
  | .jmp c a => some { c, opc := opcOf 0x10 2, a, sa := .vs true }
  | .calli c a => some { c, opc := opcOf 0x10 3, a, sa := .vs true }
  | .ret c => some { c, opc := opcOf 0x10 4 }
  | .reform c => some { c, opc := opcOf 0x11 0 }
  | .demote c => some { c, opc := opcOf 0x11 1 }
  | .exit c => some { c, opc := opcOf 0x11 2 }
  | .trap c a => some { c, opc := opcOf 0x11 3, a, sa := .src }
  | .brk c n => some { c, opc := opcOf 0x11 4, imm := some n }
  | .svc c n d a => some { c, opc := opcOf 0x11 5, imm := some n, d, a, sd := .dv true, sa := .vsz true, lat := .var }
  | .rte c nx => some { c, opc := opcOf 0x11 6, mod := bit nx 0 }
  | .rdsr c sr d ix => some {
      c, opc := opcOf 0x12 0, imm := some (BitVec.ofNat 8 sr.code), d, a := ix, sd := .dv true,
      sa := if sr = .accown then .vsz else .unused, lat := .int, late := true }
  | .wrsr c sr a ix => some {
      c, opc := opcOf 0x12 1, imm := some (BitVec.ofNat 8 sr.code), a, b := ix, sa := .vsz true,
      sb := if sr = .accown then .vsz else .unused, who := if threadScope sr then .each else .low, whoB := some .each,
      late := true }
  | .raise c l => some { c, opc := opcOf 0x13 0, imm := some (l.setWidth 8) }
  | .declass c l d a => some {
      c, opc := opcOf 0x13 1, imm := some (l.setWidth 8), d, a, sd := .dv, sa := .vs, lat := .int, late := true }
  | .tmark c t a => some {
      c, opc := opcOf 0x13 2, imm := some t, a, sa := { cls := { v := true, s := true, p := true, x := true, z := true } } }
  | .launch c d a b => some {
      c, opc := opcOf 0x13 3, d, a, b, sd := .dh, sa := .vs true, sb := .vsiz, lat := .handle, who := .real }
  | .ld c sp w pol d a b => some {
      c, opc := opcOf 0x18 0, mod := sp.code * 4 + w.code * 32 + pol.code * 256, d, a, b, sd := .dv (decide (w = .b64)),
      sa := .addr sp, sb := .vsiz, lat := .var }
  | .st c sp w pol d a b => some {
      c, opc := opcOf 0x18 1, mod := sp.code * 4 + w.code * 32 + pol.code * 256, d, a, b,
      sd := if w = .b64 then .vsz true else { cls := { v := true, s := true, p := true, z := true } },
      sa := .addr sp, sb := .vsiz, dSrc := true }
  | .atom c o sp d a b => some {
      c, opc := opcOf 0x18 2, mod := sp.code * 4 + o.code, d, a, b, sd := .dv o.wide, sa := .addr sp, sb := .vsiz o.wide,
      lat := .var, dSrc := o.isCas }
  | .red c o sp a b => some {
      c, opc := opcOf 0x18 3, mod := sp.code * 4 + o.code, a, b, sa := .addr sp, sb := .vsiz o.wide }
  | .fence c sc => some { c, opc := opcOf 0x18 4, mod := sc.code }
  | .pref c sp hm a b => some {
      c, opc := opcOf 0x18 5, mod := sp.code * 4 + bit hm 8, a, b, sa := .addr sp, sb := .vsiz }
  | .resv c bf f lab n d a b => some {
      c, opc := opcOf 0x19 0, mod := bf.code + 4 * f.code + 64 * lab.toNat, imm := some (n.setWidth 8), d, a, b,
      sd := .vsz, sa := .vs true, sb := .vsz, dSrc := true, who := .low }
  | .resfree c all n => some { c, opc := opcOf 0x19 1, mod := bit all 0, imm := some (n.setWidth 8) }
  | .mld c n a b => some { c, opc := opcOf 0x1A 0, imm := some (n.setWidth 8), a, b, sa := .vsz, sb := .vsz, who := .real }
  | .mswap c => some { c, opc := opcOf 0x1A 1, who := .real }
  | .mstream c d a b => some { c, opc := opcOf 0x1A 2, d, a, b, sd := .dh, sa := .vsz, sb := .vsiz, lat := .handle, who := .real }
  | .mread c n d a b => some {
      c, opc := opcOf 0x1A 3, imm := some (n.setWidth 8), d, a, b, sd := { cls := { q := true } }, sa := .vsz, sb := .vsz,
      who := .real }
  | .mzero c n a b => some { c, opc := opcOf 0x1A 4, imm := some (n.setWidth 8), a, b, sa := .vsz, sb := .vsz, who := .real }
  | .mfuse c sh => some { c, opc := opcOf 0x1A 5, mod := sh.code, who := .real }
  | .mrel c => some { c, opc := opcOf 0x1A 6, who := .real }
  | .copy c u ns d a b => some (.engine c 0 u ns d a b)
  | .quant c u ns d a b => some (.engine c 1 u ns d a b)
  | .rqt c u ns d a b => some (.engine c 2 u ns d a b)
  | .htest c d a => some { c, opc := opcOf 0x1B 3, d, a, sd := .pv, sa := .dh, lat := .int }
  | .hcancel c a => some { c, opc := opcOf 0x1B 4, a, sa := .dh, who := .real }
  | .hmov c d a => some {
      c, opc := opcOf 0x1B 5, d, a, sd := match a with
        | .h _ => { cls := { h := true, v := true } }
        | _ => .dh,
      sa := { cls := { h := true, v := true, s := true } }, lat := .int,
      who := match d with
        | .h _ => .low
        | _ => .each }
  | .cadd c m d a b => some {
      c, opc := opcOf 0x1C 0, mod := m.code, d, a, b,
      sd := if m = .lim then .unused else { cls := { v := true, z := true }, wide := true },
      sa := .vs true, sb := .vsiz true, lat := if d = .z then .none else .var }
  | .cwait c d a b => some {
      c, opc := opcOf 0x1C 1, d, a, b, sd := { cls := { v := true, z := true }, wide := true }, sa := .vs true,
      sb := .vsiz true, lat := if d = .z then .none else .var }
  | .cread c d a => some { c, opc := opcOf 0x1C 2, d, a, sd := .dv true, sa := .vs true, lat := .var }
  | .carm c d a => some { c, opc := opcOf 0x1C 3, d, a, sd := .ds, sa := .vsz, lat := .var, who := .low }
  | .cdisarm c d a b => some {
      c, opc := opcOf 0x1C 4, d, a, b, sd := { cls := { s := true, z := true } }, sa := .vs true, sb := .vs,
      lat := if d = .z then .none else .var, who := .low }
  | .ovw c d a b => some {
      c, opc := opcOf 0x1D 0, d, a, b, sd := .dh, sa := .vs true, sb := .vsiz, lat := .handle, who := .real }
  | .ovget c d => some { c, opc := opcOf 0x1D 1, d, sd := .dv, lat := .var }
  | .ovend c => some { c, opc := opcOf 0x1D 2 }
  | .xinv c pt d a => some { c, opc := opcOf 0x1E 0, mod := bit pt 0, d, a, sd := .dh, sa := .vsz, lat := .handle, who := .real }
  | .xprobe c k d a => some { c, opc := opcOf 0x1E 1, mod := k.code, d, a, sd := .dv true, sa := .vs true, lat := .var }
  | _ => none

end Sys2Proof
end

