-- ==== Sys2Proof/Machine/Format.lean ====
section
/-! DEFINITION. The floating-point formats (R88 to R92): exact values as sign, magnitude and power of two, Decode, Round
and the exact operations that the lanes, the atomic units and the quadrants share. -/

namespace Sys2Proof.Machine

open Sys2Proof

/-- A layout of R88: widths of E and F; the bias is 2^(eb - 1) - 1. -/
structure FFmt where
  eb : Nat
  fb : Nat
  deriving DecidableEq, Repr

def FFmt.f32 : FFmt := ⟨8, 23⟩
def FFmt.f16 : FFmt := ⟨5, 10⟩
def FFmt.bf16 : FFmt := ⟨8, 7⟩
def FFmt.bias (f : FFmt) : Nat := 2 ^ (f.eb - 1) - 1
def FFmt.width (f : FFmt) : Nat := 1 + f.eb + f.fb
/-- The pattern of +∞. -/
def FFmt.infBits (f : FFmt) : Nat := (2 ^ f.eb - 1) * 2 ^ f.fb
def FFmt.signBit (f : FFmt) : Nat := 2 ^ (f.eb + f.fb)
/-- CanonNaN (R89). -/
def FFmt.canonNaN (f : FFmt) : Nat := f.infBits + 2 ^ (f.fb - 1)

/-- An exact value: NaN, an infinity, or (-1)^neg × m × 2^e, where zeros keep their sign. -/
inductive FVal where
  | nan
  | inf (neg : Bool)
  | fin (neg : Bool) (m : Nat) (e : Int)
  deriving DecidableEq, Repr, Inhabited

/-- Decode (R49, R88). -/
def FFmt.decode (f : FFmt) (x : Nat) : FVal :=
  let s := decide (x / f.signBit % 2 = 1)
  let e := x / 2 ^ f.fb % 2 ^ f.eb
  let m := x % 2 ^ f.fb
  if e = 2 ^ f.eb - 1 then (if m = 0 then .inf s else .nan)
  else if e = 0 then .fin s m (1 - (f.bias : Int) - (f.fb : Int))
  else .fin s (2 ^ f.fb + m) ((e : Int) - (f.bias : Int) - (f.fb : Int))

/-- m × 2^e rounded to an integer in direction `r`, as a magnitude (R39). -/
def roundMag (r : Rnd) (neg : Bool) (m : Nat) (e : Int) : Nat :=
  match e with
  | .ofNat k => m * 2 ^ k
  | .negSucc k =>
    let s := k + 1
    let q := m / 2 ^ s
    let rem := m % 2 ^ s
    let up : Bool :=
      match r with
      | .rn => decide (2 ^ s < 2 * rem) || (decide (2 * rem = 2 ^ s) && decide (q % 2 = 1))
      | .rz => false
      | .ru => !neg && decide (rem ≠ 0)
      | .rd => neg && decide (rem ≠ 0)
    if up then q + 1 else q

/-- The largest finite pattern or the infinity that an overflow gives under a mode (R49 Round). -/
def FFmt.overflow (f : FFmt) (r : Rnd) (neg : Bool) : Nat :=
  match r, neg with
  | .rn, _ => f.infBits
  | .rz, _ => f.infBits - 1
  | .ru, false => f.infBits
  | .ru, true => f.infBits - 1
  | .rd, false => f.infBits - 1
  | .rd, true => f.infBits

/-- floor(log2(m × 2^e)) for m > 0. -/
def ilog2 (m : Nat) (e : Int) : Int := (Nat.log2 m : Int) + e

/-- Round a finite value into the format (R49, R90): subnormals kept; a zero keeps its sign. -/
def FFmt.roundFin (f : FFmt) (r : Rnd) (neg : Bool) (m : Nat) (e : Int) : Nat :=
  let sb := if neg then f.signBit else 0
  if m = 0 then sb
  else
    let ex := max (ilog2 m e) (1 - (f.bias : Int))
    let q := ex - (f.fb : Int)
    let n := roundMag r neg m (e - q)
    let b := (ex + (f.bias : Int) - 1).toNat * 2 ^ f.fb + n
    sb + (if f.infBits ≤ b then f.overflow r neg else b)

/-- The pattern of a value, rounded into the format. -/
def FFmt.round (f : FFmt) (r : Rnd) : FVal → Nat
  | .nan => f.canonNaN
  | .inf neg => (if neg then f.signBit else 0) + f.infBits
  | .fin neg m e => f.roundFin r neg m e

/-- A value of an FP32 operation: CanonNaN where it is a NaN, always (R91). -/
def canonF32 (x : DWord) : DWord :=
  if FFmt.f32.decode x.toNat = .nan then BitVec.ofNat 64 FFmt.f32.canonNaN else x

/-- The signed magnitude at the smaller of two powers of two. -/
def sgn (neg : Bool) (m : Nat) : Int := if neg then -(m : Int) else (m : Int)
def alignTo (e0 : Int) (neg : Bool) (m : Nat) (e : Int) : Int := sgn neg (m * 2 ^ (e - e0).toNat)

def FVal.neg : FVal → FVal
  | .nan => .nan
  | .inf s => .inf (!s)
  | .fin s m e => .fin (!s) m e

/-- The exact product; NaN for 0 × ∞ (R91). -/
def FVal.mul : FVal → FVal → FVal
  | .nan, _ => .nan
  | _, .nan => .nan
  | .inf s, .inf t => .inf (s != t)
  | .inf s, .fin t m _ => if m = 0 then .nan else .inf (s != t)
  | .fin s m _, .inf t => if m = 0 then .nan else .inf (s != t)
  | .fin s m e, .fin t n g => .fin (s != t) (m * n) (e + g)

/-- The exact sum; NaN for ∞ - ∞ (R91); an exact zero takes the sign of R92 under the mode. -/
def FVal.add (r : Rnd) : FVal → FVal → FVal
  | .nan, _ => .nan
  | _, .nan => .nan
  | .inf s, .inf t => if s = t then .inf s else .nan
  | .inf s, .fin _ _ _ => .inf s
  | .fin _ _ _, .inf t => .inf t
  | .fin s m e, .fin t n g =>
    let e0 := min e g
    let x := alignTo e0 s m e + alignTo e0 t n g
    if x = 0 then .fin (if m = 0 ∧ n = 0 ∧ s = t then s else decide (r = .rd)) 0 0
    else .fin (decide (x < 0)) x.natAbs e0

/-- The three-way order of two numbers, −0 equal to +0; none with a NaN. -/
def FVal.cmp : FVal → FVal → Option Ordering
  | .nan, _ => none
  | _, .nan => none
  | .inf s, .inf t => some (if s = t then .eq else if s then .lt else .gt)
  | .inf s, .fin _ _ _ => some (if s then .lt else .gt)
  | .fin _ _ _, .inf t => some (if t then .gt else .lt)
  | .fin s m e, .fin t n g =>
    let e0 := min e g
    let x := alignTo e0 s m e
    let y := alignTo e0 t n g
    some (if x < y then .lt else if x = y then .eq else .gt)

def FVal.isNaN : FVal → Bool | .nan => true | .inf _ => false | .fin _ _ _ => false
def FVal.sign : FVal → Bool | .nan => false | .inf s => s | .fin s _ _ => s
def FVal.isZero : FVal → Bool | .nan => false | .inf _ => false | .fin _ m _ => decide (m = 0)

/-- x + y, x − y, x × y and x × y + z, rounded once (R90, R110). -/
def FFmt.add (f : FFmt) (r : Rnd) (x y : Nat) : Nat := f.round r ((f.decode x).add r (f.decode y))
def FFmt.sub (f : FFmt) (r : Rnd) (x y : Nat) : Nat := f.round r ((f.decode x).add r (f.decode y).neg)
def FFmt.mul (f : FFmt) (r : Rnd) (x y : Nat) : Nat := f.round r ((f.decode x).mul (f.decode y))
def FFmt.fma (f : FFmt) (r : Rnd) (x y z : Nat) : Nat := f.round r (((f.decode x).mul (f.decode y)).add r (f.decode z))

/-- Whether x comes before y, with −0 before +0 (R92). -/
def FVal.before (x y : FVal) : Bool :=
  match x.cmp y with
  | some .lt => true
  | some .eq => x.sign && !y.sign
  | _ => false

/-- The lesser by R92: the other operand when one is NaN, the canonical NaN when both are. -/
def FFmt.least (f : FFmt) (x y : Nat) : Nat :=
  if (f.decode x).isNaN then (if (f.decode y).isNaN then f.canonNaN else y)
  else if (f.decode y).isNaN then x
  else if (f.decode y).before (f.decode x) then y else x

/-- The greater by R92. -/
def FFmt.greatest (f : FFmt) (x y : Nat) : Nat :=
  if (f.decode x).isNaN then (if (f.decode y).isNaN then f.canonNaN else y)
  else if (f.decode y).isNaN then x
  else if (f.decode x).before (f.decode y) then y else x

/-- fabs and fneg (R110): only the sign bit of a number changes; NaN gives the canonical NaN (R91). -/
def FFmt.fabs (f : FFmt) (x : Nat) : Nat := if (f.decode x).isNaN then f.canonNaN else x % f.signBit
def FFmt.fneg (f : FFmt) (x : Nat) : Nat :=
  if (f.decode x).isNaN then f.canonNaN
  else if x / f.signBit % 2 = 1 then x % f.signBit else x % f.signBit + f.signBit

/-- The comparisons of fsetp (R111). -/
def FFmt.test (f : FFmt) (c : FCmp) (x y : Nat) : Bool :=
  match c, (f.decode x).cmp (f.decode y) with
  | .num, o => o.isSome
  | .nan, o => o.isNone
  | .ord .ne, none => true
  | .ord _, none => false
  | .ord .eq, some o => decide (o = .eq)
  | .ord .ne, some o => decide (o ≠ .eq)
  | .ord .lt, some o => decide (o = .lt)
  | .ord .le, some o => decide (o ≠ .gt)
  | .ord .gt, some o => decide (o = .gt)
  | .ord .ge, some o => decide (o ≠ .lt)

/-- frnd (R112): an integral value in direction r; a zero result keeps the sign of x. -/
def FFmt.frnd (f : FFmt) (r : Rnd) (x : Nat) : Nat :=
  match f.decode x with
  | .nan => f.canonNaN
  | .inf _ => x
  | .fin neg m e => if 0 ≤ e then x else f.roundFin .rn neg (roundMag r neg m e) 0

/-- fclass (R113): the bit of the class of x. -/
def fclass32 (x : Nat) : Nat :=
  let s := decide (x / 2 ^ 31 % 2 = 1)
  let e := x / 2 ^ 23 % 256
  let m := x % 2 ^ 23
  let i :=
    if e = 255 then (if m = 0 then (if s then 0 else 7) else if m < 2 ^ 22 then 8 else 9)
    else if e = 0 then (if m = 0 then (if s then 3 else 4) else if s then 2 else 5)
    else if s then 1 else 6
  2 ^ i

/-- An integer as a value; zero is +0. -/
def FVal.ofInt (x : Int) : FVal := .fin (decide (x < 0)) x.natAbs 0

/-- A value rounded to an integer in direction r and clamped to [lo, hi] (R117): NaN gives 0, an infinity the nearer end. -/
def FVal.toInt (r : Rnd) (lo hi : Int) : FVal → Int
  | .nan => 0
  | .inf neg => if neg then lo else hi
  | .fin neg m e => max lo (min hi (sgn neg (roundMag r neg m e)))

/-- A BF16 or FP16 input of a quadrant: a subnormal reads as a zero with its sign (R96). -/
def FFmt.decodeFlush (f : FFmt) (x : Nat) : FVal :=
  match f.decode x with
  | .fin neg m e => if m < 2 ^ f.fb then .fin neg 0 0 else .fin neg m e
  | .nan => .nan
  | .inf neg => .inf neg

end Sys2Proof.Machine
end

