-- ==== Sys2Proof/Machine/Dx.lean ====
section
/-! DEFINITION. The DX block formats (R93 to R95) and the sums of the quadrant (R96, R97). -/

namespace Sys2Proof.Machine

open Sys2Proof

/-- Width W of an element (R93). -/
def dxW : DxFmt → Nat | .dx8 => 8 | .dx6 => 6 | .dx4 => 4
/-- Bytes of the element area: 4 W (R93). -/
def dxArea (f : DxFmt) : Nat := 4 * dxW f
/-- Bytes of a block: the header and the element area. -/
def dxBlock (f : DxFmt) : Nat := 2 + dxArea f

/-- Whether a header makes a NaN block (R94). -/
def dxNaN (elo ehi : Nat) : Bool := decide (ehi = 0xFF) || decide (ehi < elo) || decide (31 < ehi - elo)

/-- The value of one element of W bits under a header (R94). -/
def dxElem (f : DxFmt) (elo ehi x : Nat) : FVal :=
  let w := dxW f
  if dxNaN elo ehi then .nan
  else
    let sel := x / 2 ^ (w - 1) % 2
    let neg := decide (x / 2 ^ (w - 2) % 2 = 1)
    let m := x % 2 ^ (w - 2)
    let e : Int := if sel = 1 then ehi else elo
    if m = 0 then .fin false 0 0 else .fin neg m (e - 127 - ((w : Int) - 3))

/-- The 32 values of a block whose element area is the little-endian integer `area` (R93, R94). -/
def dxDecode (f : DxFmt) (elo ehi area : Nat) : List FVal :=
  (List.range 32).map (fun i => dxElem f elo ehi (area / 2 ^ (dxW f * i) % 2 ^ dxW f))

/-- ex(v) of R95; none for a zero. -/
def dxEx : FVal → Option Int
  | .nan => none
  | .inf _ => some 255
  | .fin _ m e => if m = 0 then none else some (ilog2 m e + 127)

def maxInt (l : List Int) : Option Int :=
  match l with
  | [] => none
  | x :: xs => some (xs.foldl max x)

/-- One element of an encoded block (R95), as its W bits. -/
def dxEncElem (f : DxFmt) (r : Rnd) (elo ehi : Int) (x : FVal) : Nat :=
  let w := dxW f
  let mmax := 2 ^ (w - 2) - 1
  let small := match dxEx x with
    | some e => decide (e < ehi - ((w : Int) - 3))
    | none => false
  let e := if small then elo else ehi
  let p : Bool × Nat := match x with
    | .nan => (false, 0)
    | .inf neg => (neg, mmax)
    | .fin neg m g => (neg, min mmax (roundMag r neg m (g - (e - 127 - ((w : Int) - 3)))))
  if p.2 = 0 then 0
  else (if small then 0 else 2 ^ (w - 1)) + (if p.1 then 2 ^ (w - 2) else 0) + p.2

/-- The header exponents (E_lo, E_hi) that R95 chooses; none for an all-zero block. -/
def dxHeader (f : DxFmt) (xs : List FVal) : Option (Int × Int) :=
  let exs := xs.filterMap dxEx
  match maxInt exs with
  | none => none
  | some big =>
    let ehi := min 254 (max 0 big)
    let small := exs.filter (fun e => decide (e < ehi - ((dxW f : Int) - 3)))
    match maxInt small with
    | none => some (ehi, ehi)
    | some s => some (max 0 (max (ehi - 31) s), ehi)

/-- Element patterns packed low first at W bits each. -/
def packW (w : Nat) : List Nat → Nat
  | [] => 0
  | x :: xs => x + 2 ^ w * packW w xs

/-- R95: 32 values to the header (E_lo, E_hi) and the element area as an integer. -/
def dxEncode (f : DxFmt) (r : Rnd) (xs : List FVal) : Nat × Nat × Nat :=
  if xs.any FVal.isNaN then (0, 0xFF, 0)
  else
    match dxHeader f xs with
    | none => (0, 0, 0)
    | some (elo, ehi) => (elo.toNat, ehi.toNat, packW (dxW f) (xs.map (dxEncElem f r elo ehi)))

/-- The exact sum of finite values; the sign of a zero is not used. -/
def exactSum (xs : List FVal) : FVal := xs.foldl (fun s x => s.add .rn x) (.fin false 0 0)

/-- A product cut to the multiple of 2^(E - 40) at or below it in magnitude (R97). -/
def cutTo (q : Int) : FVal → FVal
  | .nan => .nan
  | .inf s => .inf s
  | .fin s m e => .fin s (roundMag .rz s m (e - q)) q

/-- The sum S of one chunk of exact products (R97). -/
def chunkSum (dx : Bool) (ps : List FVal) : FVal :=
  if ps.any FVal.isNaN || (ps.contains (.inf false) && ps.contains (.inf true)) then .nan
  else if ps.contains (.inf false) then .inf false
  else if ps.contains (.inf true) then .inf true
  else if dx then exactSum ps
  else
    let es := ps.filterMap (fun p => match p with
      | .fin _ m e => if m = 0 then none else some (ilog2 m e)
      | .nan => none
      | .inf _ => none)
    match maxInt es with
    | none => .fin false 0 0
    | some e => exactSum (ps.map (cutTo (e - 40)))

/-- One accumulation: acc + S rounded to nearest even, an exact zero being +0 (R97). -/
def accumulate (acc : Nat) (s : FVal) : Nat :=
  match (FFmt.f32.decode acc).add .rn s with
  | .nan => FFmt.f32.canonNaN
  | .inf neg => FFmt.f32.round .rn (.inf neg)
  | .fin neg m e => if m = 0 then 0 else FFmt.f32.roundFin .rn neg m e

/-- The chunks of 32 products, ascending; the last may be shorter. `fuel` bounds the number of chunks. -/
def chunks : Nat → List FVal → List (List FVal)
  | 0, _ => []
  | _ + 1, [] => []
  | n + 1, ps => ps.take 32 :: chunks n (ps.drop 32)

/-- R97 for one output element: the accumulator after all chunks of the products. -/
def dotAcc (dx : Bool) (acc : Nat) (ps : List FVal) : Nat :=
  (chunks (ps.length + 1) ps).foldl (fun a c => accumulate a (chunkSum dx c)) acc

end Sys2Proof.Machine
end

