-- ==== Sys2Proof/Machine/Tbl.lean ====
section
/-! DEFINITION. `Tbl`: sparse data by a number, the one container of the machine's state. A table is a list of
(key, value) pairs whose keys rise strictly; `put` keeps that form. Memory (`Host.Cell` lists) is the instance at bytes,
with the further rule that no entry equals what an unlisted address reads as (`Mem.write`). -/

namespace Sys2Proof.Machine

/-- Sparse data by key: a list of pairs with strictly rising keys (`Tbl.wf`). -/
abbrev Tbl (α : Type) := List (Nat × α)

/-- The value at key `k`, if the table lists one. -/
def Tbl.find {α : Type} : Tbl α → Nat → Option α
  | [], _ => none
  | (k', v) :: t, k => if k' = k then some v else Tbl.find t k

/-- The value at key `k`, or `d` where the table lists none. -/
def Tbl.getD {α : Type} (t : Tbl α) (k : Nat) (d : α) : α := (Tbl.find t k).getD d

/-- The table with value `v` at key `k`. -/
def Tbl.put {α : Type} : Tbl α → Nat → α → Tbl α
  | [], k, v => [(k, v)]
  | (k', v') :: t, k, v =>
    if k < k' then (k, v) :: (k', v') :: t
    else if k' = k then (k, v) :: t
    else (k', v') :: Tbl.put t k v

/-- The table with no entry at key `k`. -/
def Tbl.del {α : Type} : Tbl α → Nat → Tbl α
  | [], _ => []
  | (k', v') :: t, k => if k' = k then Tbl.del t k else (k', v') :: Tbl.del t k

/-- Every key is at least `lo`, and the keys rise strictly. -/
def Tbl.wfFrom {α : Type} : Nat → Tbl α → Bool
  | _, [] => true
  | lo, (k, _) :: t => decide (lo ≤ k) && Tbl.wfFrom (k + 1) t

/-- The keys rise strictly. -/
def Tbl.wf {α : Type} (t : Tbl α) : Bool := Tbl.wfFrom 0 t

/-- The table with `f` applied to the value at `k` (`d` where none is listed). -/
def Tbl.upd {α : Type} (t : Tbl α) (k : Nat) (d : α) (f : α → α) : Tbl α := Tbl.put t k (f (Tbl.getD t k d))

/-- The keys listed, ascending in a well-formed table. -/
def Tbl.keys {α : Type} (t : Tbl α) : List Nat := t.map Prod.fst

/-- Memory as a list of cells: the byte at an address, 0 where none is listed (R376 step 4: every line holds zero). -/
abbrev Mem := List Host.Cell

/-- What an unlisted address reads as (R376 step 4). -/
def Mem.blank : Byte := 0

def Mem.read (m : Mem) (a : Nat) : Byte := Tbl.getD m a Mem.blank

/-- One byte written; writing `Mem.blank` removes the entry, so equal memories are equal lists. -/
def Mem.write (m : Mem) (a : Nat) (b : Byte) : Mem :=
  if b = Mem.blank then Tbl.del m a else Tbl.put m a b

/-- The canonical form of a memory: addresses strictly rising, no entry equal to `Mem.blank`. -/
def Mem.wf (m : Mem) : Bool := Tbl.wf m && m.all (fun c => decide (c.2 ≠ Mem.blank))

/-- `n` bytes from `a` upward, lowest address first. -/
def Mem.readN (m : Mem) (a : Nat) : Nat → List Byte
  | 0 => []
  | n + 1 => Mem.read m a :: Mem.readN m (a + 1) n

/-- The bytes written from `a` upward, lowest address first. -/
def Mem.writeN (m : Mem) (a : Nat) : List Byte → Mem
  | [] => m
  | b :: bs => Mem.writeN (Mem.write m a b) (a + 1) bs

/-- The number that a list of bytes holds, low byte first (R5). -/
def leNat : List Byte → Nat
  | [] => 0
  | b :: bs => b.toNat + 256 * leNat bs

/-- The `n` bytes of a number, low byte first (R5). -/
def leBytes : Nat → Nat → List Byte
  | 0, _ => []
  | n + 1, x => BitVec.ofNat 8 x :: leBytes n (x / 256)

/-- The list with element `i` replaced; unchanged where there is no such element. -/
def setAt {α : Type} (l : List α) (i : Nat) (x : α) : List α := l.set i x

end Sys2Proof.Machine
end

