-- ==== Sys2Proof/Machine/State.lean ====
section
/-! DEFINITION. The state of one Cortaix W6 module as plain data: threads, teams, cores, cells, slices, partitions, links
and the module, each piece under the rule that names it; the reasons a step can stop; and the state after power good.
INVENTORY.md lists every piece with its reset value. -/

namespace Sys2Proof.Machine

open Sys2Proof

/-- The faults of the catalogue (R324). -/
inductive FaultCode where
  | illegalOpcode | reservedBits | illegalOperand | staticHazard | privilege | trap | break_ | doubleFault | callStack
  | labelBranch | misaligned | localRange | sharedRange | bufferPort | reservation | pagePermission | sealedAccess
  | counterStore | labelFlow | memPoison | ovwRead | ovwOutside | ovwPartial | matrixState | fuseEdge | accFirstUse
  | commandForm | counterRange | counterLimit | walkAllowance | walkDepth | walkTime | walkFault
  deriving DecidableEq, Repr, Inhabited

/-- The 16-bit code of a fault (R324). -/
def FaultCode.code : FaultCode → Nat
  | .illegalOpcode => 0x01 | .reservedBits => 0x02 | .illegalOperand => 0x03 | .staticHazard => 0x04 | .privilege => 0x05
  | .trap => 0x06 | .break_ => 0x07 | .doubleFault => 0x08 | .callStack => 0x09 | .labelBranch => 0x0A
  | .misaligned => 0x10 | .localRange => 0x11 | .sharedRange => 0x12 | .bufferPort => 0x13 | .reservation => 0x14
  | .pagePermission => 0x15 | .sealedAccess => 0x16 | .counterStore => 0x17 | .labelFlow => 0x18 | .memPoison => 0x19
  | .ovwRead => 0x20 | .ovwOutside => 0x21 | .ovwPartial => 0x22 | .matrixState => 0x28 | .fuseEdge => 0x29
  | .accFirstUse => 0x2A | .commandForm => 0x2B | .counterRange => 0x30 | .counterLimit => 0x31 | .walkAllowance => 0x38
  | .walkDepth => 0x39 | .walkTime => 0x3A | .walkFault => 0x3B

/-- A fault with its TVAL. -/
structure Flt where
  code : FaultCode
  tval : Nat := 0
  deriving DecidableEq, Repr, Inhabited

/-- A v or s register: value, label (R70), poison (R336). -/
structure Reg where
  val : Word := 0
  lab : Label := 0
  pois : Bool := false
  deriving DecidableEq, Repr, Inhabited

/-- A predicate with its label (R68, R70). -/
structure PReg where
  val : Bool := false
  lab : Label := 0
  deriving DecidableEq, Repr, Inhabited

/-- A thread-scope trap register with its label (R69, R70). -/
structure SysVal where
  val : DWord := 0
  lab : Label := 0
  deriving DecidableEq, Repr, Inhabited

/-- One translation (R247, R251): partition, context tag, page base and size, frame and attribute word. -/
structure Xlat where
  part : Nat := 0
  tag : Nat := 0
  vbase : Nat := 0
  psize : Nat := 12
  frame : Nat := 0
  attr : Nat := 0
  deriving DecidableEq, Repr, Inhabited

/-- The answer of a walk: a translation or a fault. -/
inductive XAns where
  | ok (x : Xlat)
  | fail (f : Flt)
  deriving DecidableEq, Repr, Inhabited

/-- What a walk answered a requester for one 4 KiB page and access kind (R249, R257): `last` where the requester asked for it because an entry or an
earlier answer lacked a permission (R248), and the walk's number. -/
structure XRes where
  page : Nat
  kind : Nat
  res : XAns
  last : Bool := false
  walk : Nat := 0
  deriving DecidableEq, Repr, Inhabited

/-- Where a variable-latency result lands: nowhere, in registers, or in a queue to which an element that was popped is pushed (R108). -/
inductive Dest where
  | none
  | v (n : Nat) (wide : Bool)
  | s (n : Nat) (wide : Bool)
  | p (n : Nat)
  | q (n : Nat)
  deriving DecidableEq, Repr, Inhabited

/-- A result owed to a thread (R41): its request, the PC and instruction count of the access, its destination, the label to
join, and the TVAL parts of a fault delivered at the park (R181, R317). `bindSlot`: an `ovget`'s pop, which binds the thread (R289);
`endLab`: the label of the end value of a loop queue; `flab`: what a fault's label takes beside `lab` (R70); `counts`: whether a fence waits
for it (R169). -/
structure Owe where
  id : Nat
  pc : PC
  ic : Nat
  dest : Dest := .none
  lab : Label := 0
  wr : Bool := false
  addr : Nat := 0
  bindSlot : Bool := false
  endLab : Label := 0
  flab : Label := 0
  counts : Bool := true
  deriving DecidableEq, Repr, Inhabited

/-- The earliest fault of the segment that is delivered at the park (R181, R317, R336). -/
structure SFault where
  ic : Nat
  pc : PC
  code : FaultCode
  bits : Nat
  lab : Label
  deriving DecidableEq, Repr, Inhabited

/-- A precise fault held until the results of earlier instructions are complete (R45, R338). -/
structure PFault where
  flt : Flt
  lab : Label
  deriving DecidableEq, Repr, Inhabited

/-- Why a lane set parks: a segment end, a reform point, an exit, a precise fault met while results are owed. -/
inductive ParkKind where
  | seg | reform | exit | fault
  deriving DecidableEq, Repr, Inhabited

/-- A park (R41): one number for the whole lane set. -/
structure Park where
  id : Nat
  kind : ParkKind
  deriving DecidableEq, Repr, Inhabited

/-- A lane's wait on a counter that is not yet met (R308): where the value goes, and its label. -/
structure CWait where
  dest : Dest
  lab : Label
  deriving DecidableEq, Repr, Inhabited

/-- A register write of the current segment under the static contract (R42): its operand encoding, latency (none:
variable), the thread's instruction count, and what the register held before and what the write gives it (R43). -/
structure Haz where
  enc : Nat
  lat : Option Nat
  ic : Nat
  old : Reg
  new : Reg := old
  deriving DecidableEq, Repr, Inhabited

/-- A thread's bound iteration of an overwriting loop (R280, R291): index, batch slot, the region bytes it has written. -/
structure Bound where
  idx : Nat
  slot : Nat
  written : Tbl Bool := []
  deriving DecidableEq, Repr, Inhabited

/-- The registers of a thread (R68, R78). `ret` holds the on-chip return entries, top first. -/
structure TRegs where
  v : Tbl Reg := []
  p : Tbl PReg := []
  pc : PC := 0
  pcl : Label := 0
  ret : List PC := []
  rsd : Nat := 0
  deriving DecidableEq, Repr, Inhabited

/-- TSTAT.TRAP, SUP and HELPER and the trap registers of a thread (R69, R71). -/
structure TTrap where
  trap : Bool := false
  sup : Bool := false
  helper : Bool := false
  tpc : SysVal := {}
  tapc : SysVal := {}
  tcause : SysVal := {}
  tval : SysVal := {}
  deriving DecidableEq, Repr, Inhabited

/-- Whether and when a thread issues (R41, R42, R76, R245): `ic` counts its instructions, `segIc` is `ic` where the segment
began and `segCyc` the cycle; `held` a fence it waits at with the lanes whose accesses count, `waitH` a handle it waits on, `waitQ` a queue in which it waits for
room for so many elements, `xres` walk results that wait for its next issue. -/
structure TRun where
  exited : Bool := false
  park : Option Park := none
  held : Option (Scope × List Nat) := none
  waitH : Option Word := none
  waitQ : Option (Nat × Nat) := none
  waitC : Option CWait := none
  age : Nat := 0
  ic : Nat := 0
  segIc : Nat := 0
  segCyc : Nat := 0
  haz : List Haz := []
  pend : Option PFault := none
  xres : List XRes := []
  deriving DecidableEq, Repr

/-- What a thread's accesses still owe or have returned (R167, R169, R181): `tw` is its largest returned T_w in
nanoseconds, then stores, cluster and link acknowledgements outstanding, and writes into the team's own shared memory that
wait for an engine's line (R174). -/
structure TOut where
  owes : List Owe := []
  sFault : Option SFault := none
  tw : Nat := 0
  stores : Nat := 0
  acks : Nat := 0
  links : Nat := 0
  own : Nat := 0
  deriving DecidableEq, Repr, Inhabited

/-- A thread. `binding` is the iteration that an `ovget` of the current segment has brought, bound at its park (R289). -/
structure Thread where
  r : TRegs := {}
  t : TTrap := {}
  run : TRun := {}
  out : TOut := {}
  bound : Option Bound := none
  binding : Option Bound := none
  deriving DecidableEq, Repr

/-- The header of a launch record (R233), field by field. -/
structure Hdr where
  gdamt : Nat := 0
  gdone : Nat := 0
  align : Bool := false
  lfloor : Label := 0
  vmode : Bool := false
  prio : Nat := 0
  ccount : Nat := 0
  accPages : Nat := 0
  aBytes : Nat := 0
  wBytes : Nat := 0
  shared : Nat := 0
  regs : Nat := 8
  cfallH : Nat := 0
  cfallW : Nat := 0
  cshapeH : Nat := 1
  cshapeW : Nat := 1
  teamX : Nat := 1
  teamY : Nat := 1
  teamZ : Nat := 1
  gridX : Nat := 0
  gridY : Nat := 0
  gridZ : Nat := 0
  tvec : Nat := 0
  entry : Nat := 0
  deriving DecidableEq, Repr, Inhabited

/-- A queue element (R214). -/
structure QElem where
  val : Word
  lab : Label
  pois : Bool := false
  deriving DecidableEq, Repr, Inhabited

/-- A claim of a queue (R214): a thread's pop, by its owed result, or a row of a stream. -/
inductive Claim where
  | thread (th id : Nat)
  | row (core : Nat)
  deriving DecidableEq, Repr, Inhabited

/-- A queue register (R213): elements, pushes of engines that wait for room, each with its engine's command, places held for elements that a thread's instruction has claimed
elsewhere and will push here (R108, R214), claims that wait for elements, and whether a loop's end state holds (R289). -/
structure Queue where
  elems : List QElem := []
  excess : List (Nat × QElem) := []
  kept : Nat := 0
  claims : List Claim := []
  ended : Bool := false
  deriving DecidableEq, Repr, Inhabited

/-- A reservation record (R157). -/
structure Resv where
  valid : Bool := false
  lab : Label := 0
  buf : Buf := .wb
  fmt : Fmt := .bf16
  soff : Nat := 0
  blk : Nat := 0
  len : Nat := 0
  base : Nat := 0
  deriving DecidableEq, Repr, Inhabited

/-- A near counter (R299, R300); its waiters stand with all others in `State.waiters`. -/
structure Near where
  value : DWord := 0
  limit : DWord := 0
  pois : Bool := false
  deriving DecidableEq, Repr, Inhabited

/-- A group (R75, R245): its threads, the cycle it was formed, its wait, Y, the cycle of its last issue, and whether a
forced reform is in progress on it (R81). -/
structure Group where
  lanes : List Nat
  formed : Nat := 0
  wait : Nat := 0
  y : Bool := false
  lastIss : Option Nat := none
  force : Bool := false
  deriving DecidableEq, Repr, Inhabited

/-- A heat (R79, R81): key, threads, the cycle it opened, the cycle it qualified and found no free slot, and the age that it had when its context was restored
(R332). -/
structure Heat where
  id : Nat
  key : PC
  lanes : List Nat
  opened : Nat
  since : Option Nat := none
  aged : Nat := 0
  deriving DecidableEq, Repr, Inhabited

/-- A write of an s or h register that its lane set's segment has not yet published (R44): encoding, the writer's lane set, the old value, and the
lanes whose segment has not ended. -/
structure Unpub where
  enc : Nat
  lanes : List Nat
  old : Reg
  live : List Nat := lanes
  deriving DecidableEq, Repr, Inhabited

/-- A reservation record replaced by a lane set whose segment has not ended (R188, R44). -/
structure UnpubResv where
  slot : Nat
  lanes : List Nat
  old : Resv
  live : List Nat := lanes
  deriving DecidableEq, Repr, Inhabited

/-- A system register of team, partition or core scope written by a lane set whose segment has not ended (R143, R44): the
register, its scope's number, the ACCOWN element, the old value. -/
structure UnpubSys where
  team : Nat
  lanes : List Nat
  sr : SysReg
  scope : Nat
  idx : Nat
  old : DWord
  live : List Nat := lanes
  deriving DecidableEq, Repr, Inhabited

/-- What a team's admission gave it (R157, R240): ranges by base and length, and its group slots in the order taken. -/
structure Allot where
  shBase : Nat := 0
  shLen : Nat := 0
  wBase : Nat := 0
  wLen : Nat := 0
  aBase : Nat := 0
  aLen : Nat := 0
  pBase : Nat := 0
  pLen : Nat := 0
  slots : List Nat := []
  deriving DecidableEq, Repr, Inhabited

/-- Where a team stands (R35, R154, R238). -/
structure Place where
  core : Nat := 0
  part : Nat := 0
  ctx : Nat := 0
  grid : Nat := 0
  clu : Nat := 0
  rank : Nat := 0
  count : Nat := 1
  shW : Nat := 1
  shH : Nat := 1
  index : Nat := 0
  lt : Nat := 0
  deriving DecidableEq, Repr, Inhabited

/-- The registers of a team (R68, R69, R157, R188): marks are the high marks, by buffer and unit. -/
structure TeamRegs where
  tvec : PC := 0
  s : Tbl Reg := []
  h : Tbl Reg := []
  q : Tbl Queue := []
  resv : Tbl Resv := []
  wMarks : Tbl Label := []
  aMarks : Tbl Label := []
  pMarks : Tbl Label := []
  near : Tbl Near := []
  loopq : Option Nat := none
  deriving DecidableEq, Repr, Inhabited

/-- Team shared memory (R155): bytes, the label of each line, the poison of each sector. -/
structure Shared where
  bytes : Mem := []
  lab : Tbl Label := []
  pois : Tbl Bool := []
  deriving DecidableEq, Repr, Inhabited

/-- A team. `ended` teams keep only their shared memory and near counters until their cluster ends (R155, R301). -/
structure Team where
  hdr : Hdr := {}
  at_ : Place := {}
  al : Allot := {}
  r : TeamRegs := {}
  sh : Shared := {}
  threads : Tbl Thread := []
  groups : Tbl Group := []
  heats : List Heat := []
  unpub : List Unpub := []
  unpubR : List UnpubResv := []
  forced : Option (Nat × Nat) := none
  halted : Bool := false
  haltDouble : Bool := false
  stop : Bool := false
  stopped : List Nat := []
  ended : Bool := false
  deriving DecidableEq, Repr

/-- A 64-byte sector of a line held in the L1 under a lease (R159, R165): bytes, the label that the fill gave, poison, and the
expiry in nanoseconds. -/
structure L1Sector where
  bytes : List Byte
  lab : Label
  pois : Bool := false
  expiry : Nat
  deriving DecidableEq, Repr, Inhabited

/-- One lane's part of a request: thread, offset in the line, width, store data or operand, comparand, the label of a shared store's data, the
translation it was made by, whether a loop's filter accepted it (R291), and whether its policy is `.strm` (R183). -/
structure Part where
  team : Nat
  thread : Nat
  off : Nat
  n : Nat
  data : DWord := 0
  cmp : DWord := 0
  lab : Label := 0
  x : Option Xlat := none
  sx : Bool := false
  ovw : Bool := false
  strm : Bool := false
  deriving DecidableEq, Repr, Inhabited

/-- A line that an instruction cache holds (R12, R335): its bytes and whether it carries a poison mark. -/
structure ILine where
  bytes : List Byte
  pois : Bool := false
  deriving DecidableEq, Repr, Inhabited

/-- A counter's place (R301): a line of device memory, or a near counter of a team. -/
inductive CtrKey where
  | line (pa : Nat)
  | near (team i : Nat)
  deriving DecidableEq, Repr, Inhabited

/-- What a waiter does when it fires (R312). -/
inductive WAct where
  | resume (team : Nat) (threads : List Nat)
  | gateCmd (core id : Nat)
  | gateQuad (core id : Nat)
  | gateAnchor (core id : Nat)
  | launch (rec : Nat) (queue : Nat)
  | post (dst : Endpoint) (msg : DWord)
  | add (ctr amount : DWord)
  | noop
  deriving DecidableEq, Repr, Inhabited

/-- What a request does where it is performed (R159, R166 to R172, R307, R311, R313). -/
inductive ReqKind where
  | load (l1 : Bool) (lease : Nat)
  | store
  | atomic (o : AtomOp) (ret : Bool)
  | pref (lease : Nat)
  | shLoad (team : Nat)
  | shStore (team : Nat)
  | shAtomic (team : Nat) (o : AtomOp) (ret : Bool)
  | cadd (c : CtrKey) (lim : Bool)
  | cread (c : CtrKey)
  | arm (c : CtrKey) (thr : DWord) (act : WAct)
  | disarm (c : CtrKey) (token : Word)
  | reply (val : DWord) (lab : Label) (pois : Bool)
  deriving DecidableEq, Repr, Inhabited

/-- A request in flight, in issue order (R168 item 1). `x` is the translation of a prefetch, which has no parts; `mse` counts the sectors that need
a miss-status entry (R159). A load whose read has been performed waits as a `reply`. -/
structure Req where
  id : Nat
  kind : ReqKind
  line : Nat := 0
  parts : List Part
  x : Option Xlat := none
  mse : Nat := 0
  link : Bool := false
  deriving DecidableEq, Repr, Inhabited

/-- An entry of a handle table (R216): state free, pending or done. -/
inductive HState where
  | free | pending | done
  deriving DecidableEq, Repr, Inhabited

structure HEnt where
  st : HState := .free
  gen : Nat := 0
  status : Word := 0
  flt : Option Flt := none
  lab : Label := 0
  deriving DecidableEq, Repr, Inhabited

/-- A line that an engine may own (R174): of memory, of a team's shared memory, or of a core's buffers. -/
inductive LineK where
  | mem (l : Nat)
  | sh (team l : Nat)
  | wb (core l : Nat)
  | ab (core l : Nat)
  | acc (core l : Nat)
  deriving DecidableEq, Repr, Inhabited

/-- GATE, GTHR, DONE and DAMT (R220). -/
structure Gate where
  gate : DWord := 0
  gthr : DWord := 0
  done : DWord := 0
  damt : DWord := 0
  deriving DecidableEq, Repr, Inhabited

/-- An endpoint of a copy (R223), with the reservation record of a slot as it was at issue. -/
inductive EndPt where
  | glob (va : Nat)
  | sh (team off : Nat)
  | slot (n : Nat) (r : Resv) (off : Nat)
  | nvme (ns off : Nat)
  deriving DecidableEq, Repr, Inhabited

/-- The work of a copy (R223). -/
structure CopyW where
  src : EndPt
  dst : EndPt
  sstride : Nat
  dstride : Nat
  rows : Nat
  rbytes : Nat
  svrows : Nat
  svbytes : Nat
  deriving DecidableEq, Repr, Inhabited

/-- The work of quant and rqt (R225). -/
structure QuantW where
  rqt : Bool
  srcN : Nat
  src : Resv
  dstN : Nat
  dst : Resv
  srow0 : Nat
  drow0 : Nat
  rows : Nat
  kb : Nat
  rnd : Rnd
  qout : Option Nat
  deriving DecidableEq, Repr, Inhabited

inductive Work where
  | copy (w : CopyW)
  | quant (w : QuantW)
  | xinv (part : Bool) (base len : Nat)
  deriving DecidableEq, Repr, Inhabited

/-- A source line as the engine read it (R174): its number in the source endpoint's space, virtual for a global one, bytes, label and
poison mask. -/
structure Snap where
  line : Nat
  bytes : List Byte
  lab : Label
  pois : Nat
  deriving DecidableEq, Repr, Inhabited

/-- One NVMe command of a copy (R373): rows' byte range and what became of it. -/
structure NCmd where
  row : Nat
  off : Nat
  len : Nat
  done : Bool := false
  deriving DecidableEq, Repr, Inhabited

/-- An engine command in progress (R221): the issuing team and context, the handle entry, the valid count, HLabel, the stamp, the lines
it owns by destination index, its progress: the next destination line, source lines read, bytes landed, the destination index from which
lines take poison marks, whether a write was refused, headers pushed, link reads (number, line) and writes in flight, the walks and
requests that an `xinv` waits for, the blocks that a quantisation which stops has begun and how many of their lines it has written since (R229), whether a
copy's namespace has been found open and large enough (R373), and what its end will report. -/
structure Cmd where
  id : Nat
  team : Nat
  part : Nat
  ctx : Nat
  entry : Nat
  gate : Gate
  work : Work
  v : Nat := 0
  hlab : Label := 0
  stamp : Nat := 0
  sup : Bool := false
  gateMet : Bool := true
  owned : List (Nat × LineK) := []
  pos : Nat := 0
  snaps : List Snap := []
  landed : Nat := 0
  mark : Option Nat := none
  refused : Bool := false
  flt : Option Flt := none
  code : Option Nat := none
  cancel : Bool := false
  cut : Option (List Nat) := none
  cpos : Nat := 0
  nchk : Bool := false
  drained : Bool := false
  tw : Nat := 0
  ncmds : List NCmd := []
  pushed : Nat := 0
  lreads : List (Nat × Nat) := []
  lacks : List Nat := []
  walks : List Nat := []
  waits : List Nat := []
  xres : List XRes := []
  deriving DecidableEq, Repr

/-- A weight tile (R191, R194): for each column its blocks along K, each a header and an element area, and whether a poison
mark was read. -/
structure Tile where
  k : Nat
  n : Nat
  fmt : Fmt
  lab : Label
  kb0 : Nat := 0
  cols : List (List (Nat × Nat × Nat)) := []
  pois : List Bool := []
  deriving DecidableEq, Repr, Inhabited

/-- Role of a quadrant (R191). -/
inductive Role where
  | alone
  | leader (sh : Shape)
  | lent (leader : Nat)
  deriving DecidableEq, Repr, Inhabited

/-- An mstream in flight (R200, R201): its handle entry, its block with the slots' records at issue (`src` none: rows come from
q(QN)), the valid count, the tile's N, and its progress: rows reached, elements popped for the row in its slot, the source lines that it
has read (R174), the code and the fault that end it. -/
structure Stream where
  entry : Nat
  kb0 : Nat
  p0 : Nat
  accN : Nat
  acc : Resv
  src : Option Resv
  qn : Nat
  m : Nat
  row0 : Nat
  v : Nat
  n : Nat
  gate : Gate
  hlab : Label
  stamp : Nat
  row : Nat := 0
  gateMet : Bool := true
  pois : Bool := false
  cancel : Bool := false
  code : Option Nat := none
  flt : Option Flt := none
  popped : List QElem := []
  snaps : List Snap := []
  deriving DecidableEq, Repr

/-- A matrix instruction in flight (R198 to R208): for mld and mzero the lanes that are owed its completion, and for mld the source lines that it has read;
pages are store pages. An mread that has read its rows stays until the queue has room for all of them (R214). -/
inductive MIns where
  | mld (slot : Resv) (r0 kb0 kn nn : Nat) (lab : Label) (stamp : Nat) (lanes : List Nat) (snaps : List Snap)
  | mswap
  | mstream (x : Stream)
  | mread (page first count q : Nat) (taken : Bool)
  | mzero (pages : List Nat) (lab : Label) (stamp : Nat) (lanes : List Nat)
  | mrel
  deriving DecidableEq, Repr

/-- A matrix instruction in flight with its number and the team that issued it. -/
structure MFly where
  id : Nat
  team : Nat
  ins : MIns
  deriving DecidableEq, Repr

/-- The issue record (R191): owner, role, and the shapes of the planes as they will stand. -/
structure IRec where
  owner : Option Nat := none
  role : Role := .alone
  shadow : Option Tile := none
  active : Option Tile := none
  deriving DecidableEq, Repr, Inhabited

/-- A quadrant (R191). The owner is a team. -/
structure Quad where
  owner : Option Nat := none
  role : Role := .alone
  shadow : Option Tile := none
  active : Option Tile := none
  irec : IRec := {}
  fly : List MFly := []
  deriving DecidableEq, Repr

/-- A footprint of a loop descriptor (R282). -/
structure Foot where
  kind : Nat
  rows : Nat
  len : Nat
  pitch : Nat
  stride : Nat
  off : Nat
  idxa : Nat
  deriving DecidableEq, Repr, Inhabited

/-- An iteration of the batch in progress: index, slot, its cells, whether it has ended (R287). -/
structure Iter where
  idx : Nat
  slot : Nat
  cells : List Nat
  ended : Bool := false
  deriving DecidableEq, Repr, Inhabited

/-- The anchor's loop (R280, R281, R287). `left` is i + 1 for the next index i; `forming` is the batch being formed and `formLab` its
labels; `id` its number; `tw` the largest T_w of the accepted stores; `mark` counts the region's lines that have taken their poison marks (R294), `lacks`
the marks on their way through a link window; `lread` (request, line) is a source line on its way through one, and `snaps` are the source lines read, each
once and whole (R174), with the label of its page; `adding` says that the
work is done and DONE is being added to. -/
structure Loop where
  id : Nat
  team : Nat
  part : Nat
  ctx : Nat
  gate : Gate
  rbase : Nat
  ncells : Nat
  size : Nat
  qn : Nat
  fp : List Foot
  n : Nat
  bsz : Nat
  entry : Nat
  hlab : Label
  stamp : Nat
  gateMet : Bool := true
  left : Nat := 0
  skipped : Nat := 0
  batch : List Iter := []
  forming : List Iter := []
  formLab : List Label := []
  running : Bool := false
  tw : Nat := 0
  poisoned : Bool := false
  mark : Nat := 0
  flt : Option Flt := none
  cancel : Bool := false
  adding : Bool := false
  lread : Option (Nat × Nat) := none
  snaps : List Snap := []
  lacks : List Nat := []
  xres : List XRes := []
  deriving DecidableEq, Repr

/-- The typed buffers of a core and their poison and labels (R152, R157, R158). -/
structure Bufs where
  wb : Mem := []
  wbPois : Tbl Bool := []
  ab : Mem := []
  abPois : Tbl Bool := []
  acc : Mem := []
  accPois : Tbl Bool := []
  accLab : Tbl Label := []
  deriving DecidableEq, Repr, Inhabited

/-- An event counter (R319): its partition, event and value. -/
structure EvCtr where
  part : Nat
  ev : Ev
  val : DWord := 0
  deriving DecidableEq, Repr, Inhabited

/-- A loop descriptor on its way through a link window to an `ovw` that holds at issue (R281, R366): the team, the lane that reads it and its instruction
count, the address, the request, and the answer: bytes, or none where it was refused. `slot`: the read of a return-stack slot by a `ret` that holds so (R78,
R154). -/
structure DescRead where
  team : Nat
  lane : Nat
  ic : Nat
  va : Nat
  id : Nat
  ans : Option (Option (List Byte)) := none
  slot : Bool := false
  deriving DecidableEq, Repr, Inhabited

/-- A core with its quadrant (R12, R24). `cyc` counts its cycles, and `due` is the picosecond at which its next one begins (R21). -/
structure Core where
  dead : Bool := false
  owner : Option Nat := none
  cyc : Nat := 0
  due : Nat := 0
  accown : Tbl Nat := []
  bufs : Bufs := {}
  atc : List Xlat := []
  icache : Tbl ILine := []
  l1 : Tbl L1Sector := []
  out : List Req := []
  hnd : Tbl HEnt := []
  cmds : List Cmd := []
  quad : Quad := {}
  anchor : Option Loop := none
  desc : List DescRead := []
  cover : Tbl Nat := []
  coverPois : Tbl Bool := []
  ev : Tbl EvCtr := []
  deriving DecidableEq, Repr

/-- Who waits for a walk (R257). -/
inductive Rqr where
  | thread (team thread : Nat)
  | cmd (core id : Nat)
  | anchor (core id : Nat)
  | sub (n : Nat)
  | inb (n : Nat)
  | add (n : Nat)
  | call (part n : Nat)
  deriving DecidableEq, Repr, Inhabited

/-- A requester of a walk: its own address for a TVAL (R258), and whether the answer is its last (R248). -/
structure Asker where
  r : Rqr
  own : Nat
  last : Bool := false
  deriving DecidableEq, Repr, Inhabited

/-- A walk asked for or running (R249): `va` is the first requester's address. -/
structure Walk where
  id : Nat
  part : Nat
  tag : Nat
  va : Nat
  kind : Nat
  word : DWord
  rqrs : List Asker
  nofill : Bool := false
  deriving DecidableEq, Repr, Inhabited

/-- A walker load in flight (R272, R273): destination, whether a nested walk still translates it, the address (virtual while it
does, else physical), its width, the lease class and CCLASS of its line, the count at which it issued, and whether the walker data cache's copy has
answered it with a poison mark. -/
structure WLoad where
  d : Nat
  virt : Bool
  addr : Nat
  n : Nat
  lease : Nat := 1
  cclass : Nat := 0
  iss : Nat := 0
  pois : Bool := false
  deriving DecidableEq, Repr, Inhabited

/-- One register set of a walk (R264, R268): registers, PC, the count from which each register can be read, the count from which
a load may issue, and the load in flight. -/
structure WSet where
  w : Tbl DWord := []
  pc : Nat := 0
  ready : Tbl Nat := []
  ldReady : Nat := 0
  load : Option WLoad := none
  deriving DecidableEq, Repr, Inhabited

/-- A walker processor's walk (R264): the outer set, the nested set while a nested walk runs, the count at which the next instruction may issue, and
the walker cycle in which the walk started (R21). -/
structure WProc where
  walk : Walk
  o : WSet := {}
  n : Option WSet := none
  cycles : Nat := 0
  start : Nat := 0
  deriving DecidableEq, Repr, Inhabited

/-- A line of the walker data cache (R272): bytes, expiry, poison by sector. -/
structure WLine where
  bytes : List Byte
  expiry : Nat
  pois : Nat := 0
  deriving DecidableEq, Repr, Inhabited

/-- A cell (R13, R246). `started` is the walker cycle of its last start, and `freed` that in which a processor's last walk ended (R296, R298). -/
structure Cell where
  l2 : List Xlat := []
  routine : Tbl Word := []
  queues : Tbl (List Walk) := []
  deficit : Tbl Int := []
  cur : Option Nat := none
  procs : Tbl WProc := []
  wdc : Tbl WLine := []
  started : Option Nat := none
  freed : Tbl Nat := []
  ev : Tbl EvCtr := []
  deriving DecidableEq, Repr, Inhabited

/-- A line of device memory beside its bytes (R153, R160, R165): label, poison by sector, sealed, compressible, version,
whether the home cache holds it, at its lowest replacement priority (R183, R251), and unwritten, the lease horizon in nanoseconds while the slice's
directory holds the line, and whether the line has left the home, so that it is read from device memory, its MAC checked, before an access is performed
(R161). -/
structure Line where
  lab : Label := 0
  pois : Nat := 0
  sealed : Bool := false
  comp : Bool := false
  ver : Word := 0
  held : Bool := false
  low : Bool := false
  dirty : Bool := false
  horizon : Option Nat := none
  away : Bool := false
  deriving DecidableEq, Repr, Inhabited

/-- A line as device memory stores it (R160, R161): record bits [63:0], MAC, and the stored sectors. -/
structure Stored where
  record : DWord
  mac : DWord
  data : List Byte
  deriving DecidableEq, Repr, Inhabited

/-- A slice (R14): `sram` holds what the private SRAM of its service core was loaded with at boot, the firmware's and the slice kernel's images; `up` that
the service core is out of reset, `kernel` that the slice kernel runs on it (R376). -/
structure Slice where
  dead : Bool := false
  owner : Option Nat := none
  horizon : Nat := 0
  retired : List Nat := []
  sram : List Byte × List Byte := ([], [])
  up : Bool := false
  kernel : Bool := false
  ev : Tbl EvCtr := []
  deriving DecidableEq, Repr, Inhabited

/-- An armed waiter (R314): its counter, threshold, arrival, action, the token of a `carm` waiter, who armed it. -/
structure Waiter where
  ctr : CtrKey
  thr : DWord
  seq : Nat
  act : WAct
  token : Word := 0
  part : Nat := 0
  ctx : Nat := 0
  spilled : Bool := false
  deriving DecidableEq, Repr, Inhabited

/-- An add that an engine, a grid, a waiter or the trace buffer has pending (R174, R242, R312, R356): who is told of a
refusal. With `head`, `data` is the trace record that the add to HEAD follows; `rest` are the waiters that fired after this one with their values,
whose actions follow it (R314), `link` the request of one that travels through a link window (R315), and `stamp` the stamp of the command that completes with
it (R174). -/
inductive AddWho where
  | cmd (core entry status : Nat)
  | stream (core entry rows : Nat)
  | loop (core entry status : Nat)
  | grid
  | chain
  | head
  deriving DecidableEq, Repr, Inhabited

structure PAdd where
  part : Nat
  ctx : Nat
  core : Nat
  addr : DWord
  n : DWord
  who : AddWho
  team : Option Nat := none
  after : Nat := 0
  key : Option CtrKey := none
  data : List Byte := []
  rest : List (Waiter × DWord) := []
  link : Option Nat := none
  stamp : Option Nat := none
  xres : List XRes := []
  deriving DecidableEq, Repr

/-- A launch record held by a queue or a grid (R233, R235). -/
structure Rec where
  hdr : Hdr
  consts : List Word
  seq : Nat
  deriving DecidableEq, Repr, Inhabited

/-- A grid being placed or running (R237 to R242): teams placed, teams not yet ended, whether a halted or abandoned team
keeps GDONE from advancing. -/
structure Grid where
  part : Nat
  ctx : Nat
  record : Rec
  next : Nat := 0
  live : Nat := 0
  spoiled : Bool := false
  deriving DecidableEq, Repr, Inhabited

/-- A launch queue (R235): the active grid by its number. -/
structure LQueue where
  ctx : Nat := 0
  enabled : Bool := false
  recs : List Rec := []
  active : Option Nat := none
  deriving DecidableEq, Repr, Inhabited

/-- The source of a submission (R236). -/
inductive SubSrc where
  | launch (core entry : Nat)
  | waiter
  | host (from_ : Sender) (rtag : Nat)
  | peer (from_ : Sender) (rtag : Nat)
  deriving DecidableEq, Repr, Inhabited

/-- A submission on its way to a queue (R149, R236): for `launch` the issuing team and its lane set; `rest` as an add has it; `lread` (request, address) and `lvals` are lines of the
record read through a link window, none where refused. -/
structure Sub where
  src : SubSrc
  part : Nat
  ctx : Nat
  addr : DWord
  queue : Nat
  bad : Bool := false
  hlab : Label := 0
  team : Option Nat := none
  lanes : List Nat := []
  rest : List (Waiter × DWord) := []
  lread : Option (Nat × Nat) := none
  lvals : List (Nat × Option (List Byte)) := []
  xres : List XRes := []
  deriving DecidableEq, Repr

/-- A call of svc (R140, R343): the caller's owed result, the answer once the slice kernel has given it, and a challenge's slot with the generation that
it held as the challenge arrived (R351). -/
structure Call where
  id : Nat
  team : Nat
  thread : Nat
  owe : Nat
  ctx : Nat
  tag : Nat
  num : Nat
  a : DWord
  lab : Label
  ans : Option (Nat × Nat) := none
  gen : Option (Nat × Nat) := none
  xres : List XRes := []
  deriving DecidableEq, Repr

/-- The image of a saved context (R332): its teams, and each team's commands, quadrant, loop, handle entries by their tokens, the waiters of its near
counters (R299), the bytes of its valid W and A reservations by their offsets, and the cycle of its core at the save. `bytes` are what the device wrote at
`pa`, `order` the stamps of its commands as they stood, and `base` the stamp from which those restored so far count (R330). -/
structure SavedTeam where
  uid : Nat
  team : Team
  cmds : List Cmd
  quad : Quad
  loop : Option Loop
  cover : Tbl Nat
  handles : List (Word × HEnt)
  waiters : List Waiter := []
  wb : Mem := []
  ab : Mem := []
  cyc : Nat := 0
  deriving DecidableEq, Repr

structure Image where
  pa : Nat
  bytes : List Byte
  order : List Nat := []
  base : Option Nat := none
  vtime : Nat
  stime : Nat
  full : Bool
  halted : Bool
  teams : List SavedTeam
  pois : Bool := false
  deriving DecidableEq, Repr

/-- A context of a partition (R246, R69, R154, R328): local slots in use, VTIME in picoseconds, the TIME of a stop request,
the saved image, where pages of the accumulator store are spilled to (R334), and what the namespace holds of an image that is paged out, decrypted (R348). -/
structure Ctx where
  word : DWord := 0
  lbase : Nat := 0
  key : Nat := 0
  vtime : Nat := 0
  lts : List Nat := []
  stopAt : Option Nat := none
  yield : Bool := false
  saved : Option Image := none
  area : Nat := 0
  paged : Bool := false
  out : List Byte := []
  wake : Bool := false
  deriving DecidableEq, Repr

/-- The trace buffer of a partition (R356). -/
structure Trace where
  cfg : Option TraceCfg := none
  on : Bool := false
  dropped : Nat := 0
  deriving DecidableEq, Repr, Inhabited

/-- A partition (R342, R246, R353). Minima are link and mesh bandwidths by resource number. -/
structure PartSt where
  live : Bool := false
  units : List Nat := []
  slices : List Nat := []
  svec : DWord := 0
  root : DWord := 0
  limit : Nat := 4096
  weight : Nat := 1
  cls : Nat := 0
  seq : Nat := 0
  linkMin : List (Nat × Nat) := []
  meshMin : List (Nat × Nat) := []
  demoted : Bool := false
  ranges : Tbl Range := []
  declass : Nat × Nat := (0, 0)
  queues : Tbl LQueue := []
  rights : Tbl (Endpoint × DWord) := []
  trace : Trace := {}
  calls : List Call := []
  files : Tbl (Nat × Nat × Bool) := []
  nss : Tbl NameSpace := []
  ctxs : Tbl Ctx := []
  carmQuota : Nat := 0
  sendWin : Nat := 524288
  hostCtx : Nat := 0
  keys : Nat := 0
  deriving DecidableEq, Repr

/-- Time slice and pre-emption deadline of a partition, in microseconds (R328 and before). -/
structure Slot where
  slice : Nat := 2000
  deadline : Nat := 20
  deriving DecidableEq, Repr, Inhabited

/-- A Wirad port (R362, R364): its remote end, the sequence number from which flits are missing, failed receptions of the frame that holds
it, up or down, the payloads of the flits handed on with the frame received last, and of the frame that was asked for again last the first sequence number named
and how often it has been asked for. -/
structure Port where
  remote : Endpoint := 0
  expect : Nat := 0
  fails : Nat := 0
  up : Bool := false
  flits : List (List Byte) := []
  resent : Nat × Nat := (0, 0)
  deriving DecidableEq, Repr, Inhabited

/-- What an outbound message asks the target to do (R366): a read, a write, an atomic (with its return), a counter's add or read, an engine's
write of a line, with the bytes that it writes and a poison mark, or marks on some sectors of a line. -/
inductive OutOp where
  | read (n : Nat)
  | write (n : Nat) (data : DWord)
  | atomic (o : AtomOp) (ret : Bool) (b d : DWord)
  | add (n : DWord) (lim : Bool)
  | cread
  | put (data : List (Option Byte)) (mark : Bool)
  | mark (sectors : Nat)
  deriving DecidableEq, Repr, Inhabited

/-- An outbound link request (R366): the core request it serves or the engine, the window's region, port, endpoint and target context, its
messages with their remote addresses (R365), payload bytes, the page label of an engine's read. -/
structure LReq where
  part : Nat
  core : Nat
  req : Nat
  region : Nat
  port : Nat
  dest : Endpoint
  tctx : Nat
  msgs : List (Nat × OutOp)
  bytes : Nat
  lab : Label := 0
  deriving DecidableEq, Repr, Inhabited

/-- What an inbound request asks for (R370). -/
inductive InOp where
  | read (n : Nat)
  | write (w : InWrite)
  | atomic (o : AtomForm) (b d : DWord)
  | add (n : DWord) (lim : Bool)
  | cread
  deriving DecidableEq, Repr, Inhabited

/-- An inbound request that has not been answered: it waits for its translation or for an owned line, or, with `done`, it is performed and its
acknowledgement waits for a T_w (R175, R370). `xs` are the translations of its pages once its checks have passed; `todo` the
accesses that it still makes, by offset and width, `got` what they have read by offset, with its label, and `tw` their largest T_w (R164). -/
structure InReq where
  from_ : Sender
  ctx : Nat
  addr : DWord
  op : InOp
  xs : List Xlat := []
  todo : List (Nat × Nat) := []
  got : Tbl (List Byte) := []
  lab : Label := 0
  tw : Nat := 0
  done : Option (Nat × List Byte) := none
  xres : List XRes := []
  deriving DecidableEq, Repr

/-- What the module has sent to the outside or to the slice kernel's log. -/
inductive Report where
  | halt (tag core thread code2 : Nat) (tval pc : DWord) (double : Bool)
  | launchRefused (part queue code : Nat)
  | linePoison (pa : Nat)
  | addRefused (part : Nat)
  | abandoned (part grid : Nat)
  | discarded (part queue : Nat)
  | retired (u : RetUnit)
  | unconfigured (root : Nat)
  | demoted (part : Nat)
  | imageRefused (part ctx : Nat)
  | keyEntropy
  | notAdmitted (part : Nat)
  | resetDone (part : Nat)
  | linkError
  | post (part : Nat) (src : Endpoint) (msg : DWord)
  | postOut (dst : Endpoint) (msg : DWord)
  | reply (dst : Sender) (bytes : List Byte)
  | data (dst : Sender) (bytes : List Byte) (lab : Label)
  | drive (port nsid block : Nat) (bytes : List Byte) (bad : Bool)
  | ack (dst : Sender)
  | refusal (dst : Sender) (code : Nat) (addr : DWord)
  | connReset (dst : Endpoint) (part : Nat)
  | replay (port seq : Nat)
  | resend (port seq : Nat)
  | loadRefused (part : Nat)
  | vtimeNotice (part ctx : Nat)
  deriving DecidableEq, Repr, Inhabited

/-- A root port of the storage port (R20, R372): the slice whose service core owns it, and whether an NVMe drive was found and configured there. -/
structure RootPort where
  owner : Option Nat
  drive : Bool := false
  deriving DecidableEq, Repr, Inhabited

/-- Power, boot, clock, the entropy source with its count of samples that have passed since a test fired (R349), and the management connector (R375 to
R383): its two address straps, the 7-bit address of the command on the bus, the last answer. -/
structure Boot where
  powered : Bool := true
  booted : Bool := false
  status : Nat := 0xFF
  flashA : Bank := {}
  flashB : Bank := {}
  bank : Option Bool := none
  xmss : Nat := 0
  certs : Tbl (List Byte × Word) := []
  entOk : Bool := false
  samples : Nat := 0
  roots : Tbl RootPort := [(0, ⟨some 0, false⟩), (1, ⟨some 8, false⟩), (2, ⟨some 16, false⟩), (3, ⟨some 24, false⟩)]
  drbg : Nat := 0
  key : Nat := 0
  clock : Nat := 25
  temp : Byte := 0
  power : BitVec 16 := 0
  coolant : Byte := 0
  straps : BitVec 2 := 0
  busAddr : BitVec 7 := 0x40
  smbus : Option (List Byte) := none
  nack : Bool := false
  deriving DecidableEq, Repr, Inhabited

/-- One lane set that issues: its core, team, threads by ascending lane position, PC, and whether it is on the second
port. -/
structure Iss where
  core : Nat
  team : Nat
  lanes : List Nat
  pc : PC
  second : Bool := false
  deriving DecidableEq, Repr, Inhabited

/-- What a turn does (log 1): a core cycle, a walker instruction, an event of the table, or a change that comes from
outside the machine: a flipped stored bit, a sensor reading, an entry replaced in a translation cache or in an L1, the address that an SMBus controller
sends, a fault met by a word that a core has fetched ahead for a partition and never issues (R335), what the next image of another W6 describes (R26, log
16). -/
inductive Act where
  | cycle (core : Nat)
  | walker (cell proc : Nat)
  | event (i : Instr)
  | flip (line bit : Nat)
  | sensors (temp : Byte) (power : BitVec 16) (coolant : Byte)
  | replaceAtc (core i : Nat)
  | replaceL2 (cell i : Nat)
  | replaceL1 (core sector : Nat)
  | smbusAddress (a : BitVec 7)
  | fetchAhead (core part : Nat)
  | foreignImage (im : Image)
  deriving DecidableEq, Repr, Inhabited

/-- A turn: the picoseconds that pass before it, and what it does. -/
structure Turn where
  dt : Nat := 0
  act : Act
  deriving DecidableEq, Repr, Inhabited

/-- What is executing: a lane set, a walker processor, or neither. -/
inductive Cur where
  | none
  | lanes (i : Iss)
  | walker (cell proc : Nat)
  deriving DecidableEq, Repr, Inhabited

/-- The model's own fields (logs 1, 6 and 16): the scheduled turns, the lane sets chosen in this cycle, what executes, the
count of free turns taken, the next number to hand out, the counter that indexes free values, a number that rises at each restore and orders its commands'
stamps before those of commands issued later (R330), and what an image that this module did not write describes. -/
structure Sched where
  turns : List Turn := []
  issueQ : List Iss := []
  cur : Cur := .none
  steps : Nat := 0
  nextId : Nat := 1
  free : Nat := 0
  epoch : Nat := 0
  foreign : Option Image := none
  deriving DecidableEq, Repr, Inhabited

/-- The links (R362 to R371). `lost` holds the regions whose connections are lost until their window entries are rewritten, `conns` the connections
of each partition, by their ends. -/
structure Links where
  ports : Tbl Port := []
  windows : Tbl Window := []
  winPart : Tbl Nat := []
  lost : List Nat := []
  conns : List (Nat × Endpoint) := []
  reqs : Tbl LReq := []
  inb : Tbl InReq := []
  deriving DecidableEq, Repr

/-- The state of the module. -/
structure State where
  m : Sched := {}
  ps : Nat := 0
  boot : Boot := {}
  mem : Mem := []
  lines : Tbl Line := []
  stored : Tbl Stored := []
  slices : Tbl Slice := []
  cells : Tbl Cell := []
  cores : Tbl Core := []
  teams : Tbl Team := []
  parts : Tbl PartSt := []
  slots : Tbl Slot := []
  grids : Tbl Grid := []
  waiters : List Waiter := []
  adds : Tbl PAdd := []
  subs : Tbl Sub := []
  links : Links := {}
  unpubSys : List UnpubSys := []
  reports : List Report := []
  deriving DecidableEq, Repr

/-- The reasons a step can fault. -/
inductive Fault where
  /-- An access to a physical address that the spec says no instruction reaches: a metadata area or the MMIO window (R17,
  R18). Raised by an instruction fetch, by the performance of a load, store or atomic, and by the lines of engines and of the
  anchor; safe: the slice kernel makes no range that reaches there. -/
  | noSuchAddress (pa : Nat)
  deriving DecidableEq, Repr

/-- The reasons a step can refuse. -/
inductive Refusal where
  /-- An arm of `exec` that has no meaning yet; safe. -/
  | notModelled (mnemonic : String)
  deriving DecidableEq, Repr

/-- The module when power is good on every rail, before its boot (R376, R379): TIME 0, no partition, every register at the
value that INVENTORY.md names. -/
def State.reset : State := {}

end Sys2Proof.Machine
end

