-- ==== Sys2Proof/Config.lean ====
section
/-! DEFINITION. The values that the manual leaves open, as constants with no body: nothing can be proved about which value
any of them takes. Each names its log entry. -/

namespace Sys2Proof.Config

open Sys2Proof Sys2Proof.Machine

/-- The turn taken when `turns` schedules none (R2, R25, R168; log 1), by the number of turns so taken. -/
opaque freeTurn : Nat → Turn

/-- A choice between two outcomes that R43, R44 and R247 leave open (log 11), by what it is about. -/
opaque freeBit : List Nat → Bool

/-- What other lanes receive of a lane whose register is poisoned (R119, R336; log 86), by what it is about. -/
opaque freeGift : List Nat → DWord

/-- Which free handle entry a command takes (R216; log 12): a start for the search, by a counter. -/
opaque freeEntry : Nat → Nat

/-- AES-256-GCM of a context image under the context key (R348; log 15), byte n of what it gives: key, image. -/
opaque gcm : Nat → List Byte → Nat → Byte

/-- The 64-bit MAC of a line (R160, R161; log 15): key, physical address, record bits [63:0], stored sectors. -/
opaque mac : Nat → Nat → DWord → List Byte → DWord

/-- AES-256-XTS of a line under a partition's key (R161; log 15), byte n of it: key, physical address, VERSION, data. -/
opaque encrypt : Nat → Nat → Word → List Byte → Nat → Byte

/-- What the cipher makes of stored bytes that are not the encryption of the line that the home holds (R161; log 15), byte n of it. -/
opaque decrypt : Nat → Nat → Word → List Byte → Nat → Byte

/-- Whether an image's XMSS signature verifies under the fused public key (R375, R376; log 15): image, signature. -/
opaque verify : List Byte → List Byte → Bool

/-- The XMSS signature under a one-time key (R350, R352; log 15): index, message; its first 2,820 bytes are used. -/
opaque sign : Nat → List Byte → Nat → Byte

/-- SHAKE256, byte n of its output (R352; log 15). -/
opaque shake256 : List Byte → Nat → Byte

/-- The measurement log that a quote digests, whose bytes the manual does not give (R352; log 15), of the firmware and the kernel that booted. -/
opaque measurementLog : List Byte → List Byte → List Byte

/-- The text of a partition's configuration that a quote digests, whose bytes the manual does not give (R352; log 15): quadrant units, slices, allowance,
declassify window. -/
opaque partitionText : List Nat → List Nat → List (Nat × Range) → Nat × Nat → List Byte

/-- What a notice of the trace buffer carries where R357 names no argument or unit (log 20), by a counter. -/
opaque freeArg : Nat → DWord

/-- A byte of a namespace that a copy does not write in a block that it writes (R224, R373; log 79), by what it is about. -/
opaque driveByte : List Nat → Byte

/-- A number that the slice kernel gives where the manual leaves its choice open (R154, R344; log 21), by a counter. -/
opaque freeWord : Nat → Word

/-- The index of a spilled waiter in the service core's list, which WHEAD shows (R300; log 21), by the waiter's arrival. -/
opaque spillIndex : Nat → DWord

end Sys2Proof.Config
end

