-- ==== Sys2Proof/Machine/Ops.lean ====
section
/-! DEFINITION. The named operations over the machine's state: one accessor and one update for each table, the values of
special registers, event counters, reports, taking a fault and its trap entry (R325, R326), parks (R41), and the identity of
teams, contexts and places. -/

namespace Sys2Proof.Machine

open Sys2Proof

-- orders that no rule gives (R25)

/-- An item put among others at a place that free bits choose. -/
def freeInsert {α : Type} (key : List Nat) (x : α) : List α → List α
  | [] => [x]
  | y :: ys => if Config.freeBit (ys.length :: key) then x :: y :: ys else y :: freeInsert key x ys

/-- Items in a free order: any order may be the one. -/
def freeOrder {α : Type} (key : List Nat) : List α → List α
  | [] => []
  | x :: xs => freeInsert (xs.length :: key) x (freeOrder key xs)

-- accessors and updates, one pair for each table

def State.core (s : State) (c : Nat) : Core := Tbl.getD s.cores c {}
def State.modCore (s : State) (c : Nat) (f : Core → Core) : State := { s with cores := Tbl.upd s.cores c {} f }
def State.cell (s : State) (c : Nat) : Cell := Tbl.getD s.cells c {}
def State.modCell (s : State) (c : Nat) (f : Cell → Cell) : State := { s with cells := Tbl.upd s.cells c {} f }
def State.slice (s : State) (c : Nat) : Slice := Tbl.getD s.slices c {}
def State.modSlice (s : State) (c : Nat) (f : Slice → Slice) : State := { s with slices := Tbl.upd s.slices c {} f }
def State.team (s : State) (t : Nat) : Team := Tbl.getD s.teams t {}
/-- A team that has gone stays gone. -/
def State.modTeam (s : State) (t : Nat) (f : Team → Team) : State :=
  match Tbl.find s.teams t with
  | some tm => { s with teams := Tbl.put s.teams t (f tm) }
  | none => s
def State.part (s : State) (p : Nat) : PartSt := Tbl.getD s.parts p {}
def State.modPart (s : State) (p : Nat) (f : PartSt → PartSt) : State := { s with parts := Tbl.upd s.parts p {} f }
def State.line (s : State) (l : Nat) : Line := Tbl.getD s.lines l {}
def State.modLine (s : State) (l : Nat) (f : Line → Line) : State := { s with lines := Tbl.upd s.lines l {} f }
def Team.thread (tm : Team) (l : Nat) : Thread := Tbl.getD tm.threads l {}
def Team.modThread (tm : Team) (l : Nat) (f : Thread → Thread) : Team := { tm with threads := Tbl.upd tm.threads l {} f }
def State.thread (s : State) (t l : Nat) : Thread := (s.team t).thread l
def State.modThread (s : State) (t l : Nat) (f : Thread → Thread) : State := s.modTeam t (fun tm => tm.modThread l f)
def PartSt.ctx (p : PartSt) (c : Nat) : Ctx := Tbl.getD p.ctxs c {}
def State.ctx (s : State) (p c : Nat) : Ctx := (s.part p).ctx c
def State.modCtx (s : State) (p c : Nat) (f : Ctx → Ctx) : State :=
  s.modPart p (fun q => { q with ctxs := Tbl.upd q.ctxs c {} f })

/-- Device time in nanoseconds: Now() (R7, R49). -/
def State.now (s : State) : Nat := s.ps / 1000

/-- A number that the model hands out once (log 6). -/
def State.newId (s : State) : Nat := s.m.nextId
def State.bumpId (s : State) : State := { s with m := { s.m with nextId := s.m.nextId + 1 } }

/-- The counter that indexes free values (log 6). -/
def State.bumpFree (s : State) : State := { s with m := { s.m with free := s.m.free + 1 } }

def State.report (s : State) (r : Report) : State := { s with reports := s.reports ++ [r] }

/-- The cell of a core (R9, R10). -/
def cellOf (core : Nat) : Nat := 4 * (core / 8 / 2) + core % 8 / 2
/-- The quadrant position of a core within its cell (R10). -/
def posOf (core : Nat) : Nat := core % 8 % 2 + 2 * (core / 8 % 2)

/-- A number kept modulo 2^52 (R28, R153). -/
def pcOf (x : Nat) : PC := BitVec.ofNat 52 x

/-- A 16-bit context tag: CTXID[15:0] (R72). -/
def tagOf (part ctx : Nat) : Nat := part * 64 + ctx
def Team.tag (tm : Team) : Nat := tagOf tm.at_.part tm.at_.ctx

-- registers as they stand

/-- v, s, p and h registers as they stand; one that nothing has written holds zero with the launch's label floor (R70). -/
def Team.vreg (tm : Team) (th : Thread) (n : Nat) : Reg := Tbl.getD th.r.v n { lab := tm.hdr.lfloor }
def Team.preg (tm : Team) (th : Thread) (n : Nat) : PReg := Tbl.getD th.r.p n { lab := tm.hdr.lfloor }
def Team.sreg (tm : Team) (n : Nat) : Reg := Tbl.getD tm.r.s n { lab := tm.hdr.lfloor }
/-- Its label before its first write is 0: the rules that give the other registers theirs name no h register (R70, R213, R241; DESIGN CHOICE, log 56). -/
def Team.hreg (tm : Team) (n : Nat) : Reg := Tbl.getD tm.r.h n {}
def Team.resvAt (tm : Team) (n : Nat) : Resv := Tbl.getD tm.r.resv n {}
def Team.queue (tm : Team) (n : Nat) : Queue := Tbl.getD tm.r.q n {}
def Team.nearAt (tm : Team) (n : Nat) : Near := Tbl.getD tm.r.near n {}

/-- The number of threads of a team (R35). -/
def Hdr.threads (h : Hdr) : Nat := h.teamX * h.teamY * h.teamZ

/-- TSTAT (R71). -/
def Team.tstat (tm : Team) (th : Thread) : DWord :=
  BitVec.ofNat 64 (th.r.rsd * 256 + th.r.pcl.toNat * 16 + bit tm.hdr.vmode 3 + bit th.t.helper 2 + bit th.t.sup 1 +
    bit th.t.trap 0)

/-- The value of special register 0x930 + n for thread `l` (R35). -/
def Team.special (tm : Team) (l n : Nat) : Nat :=
  let h := tm.hdr
  let ix := tm.at_.index
  match n with
  | 0 => l % 16
  | 1 => l % h.teamX
  | 2 => l / h.teamX % h.teamY
  | 3 => l / h.teamX / h.teamY
  | 4 => ix % h.gridX
  | 5 => ix / h.gridX % h.gridY
  | 6 => ix / h.gridX / h.gridY
  | 7 => h.teamX
  | 8 => h.teamY
  | 9 => h.teamZ
  | 10 => h.gridX
  | 11 => h.gridY
  | 12 => h.gridZ
  | 13 => tm.at_.shW + 256 * tm.at_.shH
  | 14 => tm.at_.rank % tm.at_.shW + 256 * (tm.at_.rank / tm.at_.shW)
  | _ => tm.at_.core

-- event counters (R319)

def bumpEv (part : Nat) (ev : Ev) (n : Nat) (t : Tbl EvCtr) : Tbl EvCtr :=
  t.map (fun e => if e.2.part = part ∧ e.2.ev = ev then (e.1, { e.2 with val := e.2.val + BitVec.ofNat 64 n }) else e)
def State.countCore (s : State) (c part : Nat) (ev : Ev) (n : Nat := 1) : State :=
  s.modCore c (fun k => { k with ev := bumpEv part ev n k.ev })
def State.countCell (s : State) (c part : Nat) (ev : Ev) (n : Nat := 1) : State :=
  s.modCell c (fun k => { k with ev := bumpEv part ev n k.ev })
def State.countSlice (s : State) (c part : Nat) (ev : Ev) (n : Nat := 1) : State :=
  s.modSlice c (fun k => { k with ev := bumpEv part ev n k.ev })

-- the trace buffer (R148, R356, R357)

/-- A record of the trace buffer (R357), 32 bytes. -/
def traceRecord (time arg : DWord) (type tag unit thread ctx : Nat) (pc : PC) (val : Word) : List Byte :=
  leBytes 32 (time.toNat * 2 ^ 192 + arg.toNat * 2 ^ 128 + type % 16 * 2 ^ 124 + tag % 256 * 2 ^ 116 + unit % 128 * 2 ^ 109 +
    thread % 1024 * 2 ^ 99 + ctx % 2048 * 2 ^ 88 + pc.toNat * 2 ^ 32 + val.toNat)

/-- A record on its way to the partition's buffer (R356): it is dropped at once where the buffer is disabled, not configured or
of a lower label (R148); otherwise it is written, or dropped as full, with the add to HEAD. `core` counts a dropped tmark. -/
def emitTrace (s : State) (part : Nat) (core : Option Nat) (data : List Byte) (lab : Label) : State :=
  let p := s.part part
  let drop := match p.trace.cfg with
    | some c => !p.trace.on || decide (c.tlab < lab)
    | none => true
  if drop then
    let s := s.modPart part (fun p => { p with trace := { p.trace with dropped := p.trace.dropped + 1 } })
    match core with
    | some c => s.countCore c part .tmarkDrop
    | none => s
  else
    match p.trace.cfg with
    | some c =>
      let a : PAdd :=
        { part := part, ctx := p.hostCtx, core := core.getD 96, addr := c.head, n := 1, who := .head, data := data }
      ({ s with adds := Tbl.put s.adds s.newId a } : State).bumpId
    | none => s

/-- A notice (R357). Where the rules name no argument, no unit or no context, those fields are free (log 20). -/
def notice (s : State) (part tag : Nat) (arg : Option DWord) (unit ctx : Option Nat) : State :=
  let k := s.m.free
  emitTrace s.bumpFree part none
    (traceRecord (BitVec.ofNat 64 s.now) (arg.getD (Config.freeArg (3 * k))) 3 tag
      (unit.getD (Config.freeArg (3 * k + 1)).toNat) 0 (ctx.getD (Config.freeArg (3 * k + 2)).toNat) 0 0) 0

-- system registers of team, partition and core scope, whose writes are published at the end of the writer's park (R44, R143)

/-- The value that thread `l` of team `t` reads at its instruction `ic`: where an unpublished write of another lane set stands, the value before it
or the value now, a free choice (log 11); a write of the thread's own lane set hides the older ones. -/
def staleSys (t l ic : Nat) (sr : SysReg) (scope idx : Nat) : List UnpubSys → DWord → DWord
  | [], x => x
  | u :: us, x =>
    if u.sr ≠ sr ∨ u.scope ≠ scope ∨ u.idx ≠ idx then staleSys t l ic sr scope idx us x
    else if u.team = t ∧ u.lanes.contains l then x
    else staleSys t l ic sr scope idx us (if Config.freeBit [143, t, l, ic, sr.code, idx, us.length] then u.old else x)

/-- TVEC and SVEC as a lane's trap entry reads them. -/
def tvecFor (s : State) (t l : Nat) : PC :=
  (staleSys t l (s.thread t l).run.ic .tvec t 0 s.unpubSys ((s.team t).r.tvec.setWidth 64)).setWidth 52
def svecFor (s : State) (t l : Nat) : DWord :=
  let p := (s.team t).at_.part
  staleSys t l (s.thread t l).run.ic .svec p 0 s.unpubSys (s.part p).svec

/-- The writes, newest first, that are still unpublished: one whose writers' segments have all ended is published, and with it the older ones of the same
register, since every lane set now reads it or a later one (R44). -/
def stillOpen {α : Type} (key : α → List Nat) (live : α → List Nat) : List (List Nat) → List α → List α
  | _, [] => []
  | done, u :: us =>
    if done.contains (key u) then stillOpen key live done us
    else if live u = [] then stillOpen key live (key u :: done) us
    else u :: stillOpen key live done us

/-- Writes of team registers by lanes whose segment has ended and whose park is over: once no lane of the writer's set has its segment open,
they are published (R44, R143). -/
def publish (s : State) (t : Nat) (ls : List Nat) : State :=
  let left := fun (xs : List Nat) => xs.filter (fun l => !ls.contains l)
  let s := s.modTeam t (fun tm => { tm with
    unpub := stillOpen (fun u => [u.enc]) (·.live) [] (tm.unpub.map (fun u => { u with live := left u.live }))
    unpubR := stillOpen (fun u => [u.slot]) (·.live) [] (tm.unpubR.map (fun u => { u with live := left u.live })) })
  let us := s.unpubSys.map (fun u => if u.team = t then { u with live := left u.live } else u)
  { s with unpubSys := stillOpen (fun u => [u.sr.code, u.scope, u.idx]) (·.live) [] us }

-- halting a team, trap entry (R325, R326)

/-- The CTXID value of a team (R72). -/
def Team.ctxid (tm : Team) : DWord := BitVec.ofNat 64 tm.tag

/-- HaltTeam (R326): no thread of the team issues again; the slice kernel receives one report, with the second fault's code
under DOUBLE_FAULT. A team halts once. -/
def haltTeam (s : State) (t l : Nat) (double : Bool) (code2 : FaultCode) (tval : Nat) (pc : PC) : State :=
  let tm := s.team t
  if tm.halted then s
  else
    notice ((s.modTeam t (fun tm => { tm with halted := true, haltDouble := double })).report
      (.halt tm.tag tm.at_.core l code2.code (BitVec.ofNat 64 tval) (pc.setWidth 64) double))
      tm.at_.part 2 none (some tm.at_.core) tm.tag

/-- A thread whose segment begins anew, in the cycle given (R45, R245). -/
def TRun.newSeg (r : TRun) (cyc : Nat) : TRun :=
  { r with haz := [], segIc := r.ic, segCyc := cyc, park := none, xres := [], pend := none, age := 0, waitQ := none }

/-- A thread whose segment begins anew; an iteration that an `ovget` brought is bound now (R289). -/
def Thread.newSeg (th : Thread) (cyc : Nat) : Thread :=
  { th with
    run := th.run.newSeg cyc
    bound := (match th.binding with
      | some b => some b
      | none => th.bound)
    binding := none }

/-- TrapEntry (R325) of thread `l` of team `t`. The handler starts a segment, so the lane's part in what its lane set has written ends (R44,
R45). -/
def trapEntry (s : State) (t l : Nat) (code : FaultCode) (tval : Nat) (pcr apc : PC) (lab : Label) : State :=
  let tm := s.team t
  let th := tm.thread l
  let cyc := (s.core tm.at_.core).cyc
  if th.t.trap then haltTeam s t l true code tval pcr
  else
    let sup := decide (code = .accFirstUse)
    let target : DWord := if sup then svecFor s t l else (tvecFor s t l).setWidth 64
    if target = 0 then haltTeam s t l false code tval pcr
    else
      (publish s t [l]).modThread t l (fun th => { (th.newSeg cyc) with
        r := { th.r with pc := target.setWidth 52 &&& ~~~(3 : PC) }
        t := { th.t with
          trap := true
          sup := sup
          tpc := ⟨pcr.setWidth 64, lab⟩
          tapc := ⟨apc.setWidth 64, lab⟩
          tval := ⟨BitVec.ofNat 64 tval, lab⟩
          tcause := ⟨BitVec.ofNat 64 (code.code + bit sup 16), lab⟩ } })

/-- BACK of R181, placed in TVAL[63:53]: the thread's instructions from the access on, saturated. -/
def backBits (th : Thread) (ic : Nat) : Nat := min (th.run.ic - ic) 2047 * 2 ^ 53

/-- What the lane takes once nothing is owed: a fault delivered at the park before a precise one of a later instruction
(R181, R317, R338). -/
def deliver (s : State) (t l : Nat) : State :=
  let th := s.thread t l
  match th.out.sFault, th.run.pend with
  | some f, _ =>
    trapEntry (s.modThread t l (fun th => { th with
      out := { th.out with sFault := none }
      run := { th.run with pend := none } })) t l f.code (f.bits + backBits th f.ic) th.r.pc f.pc f.lab
  | none, some p =>
    trapEntry (s.modThread t l (fun th => { th with run := { th.run with pend := none } })) t l p.flt.code p.flt.tval
      th.r.pc th.r.pc p.lab
  | none, none => s

/-- A precise fault of the instruction at the thread's PC: the results of earlier instructions are completed first (R45). -/
def takeFault (s : State) (t l : Nat) (f : Flt) (lab : Label) : State :=
  let th := s.thread t l
  let s := s.modThread t l (fun th => { th with run := { th.run with pend := some ⟨f, lab⟩ } })
  if th.out.owes = [] then deliver s t l
  else (s.modThread t l (fun th => { th with run := { th.run with park := some ⟨s.newId, .fault⟩ } })).bumpId

/-- The threads of a team that have not exited. -/
def Team.live (tm : Team) : List Nat := (tm.threads.filter (fun e => !e.2.run.exited)).map Prod.fst

/-- Whether a context has a team on a core, and which (R69 VTIME). -/
def State.residentTeams (s : State) (p c : Nat) : List Nat :=
  (s.teams.filter (fun e => e.2.at_.part = p ∧ e.2.at_.ctx = c ∧ !e.2.ended)).map Prod.fst

end Sys2Proof.Machine
end

