-- ==== Sys2Proof/Machine/Translate.lean ====
section
/-! DEFINITION. Translation as a requester sees it: attribute words (R251), the lookup in the ATC and the level-2 cache
(R247, R248), the request of a walk (R249), and the delivery of a walk's answer (R257). -/

namespace Sys2Proof.Machine

open Sys2Proof

-- the attribute word (R251)

def attrPerm (a : Nat) : Nat := a % 8
def attrCclass (a : Nat) : Nat := a / 8 % 8
def attrLease (a : Nat) : Nat := a / 64 % 4
def attrLabel (a : Nat) : Label := BitVec.ofNat 2 (a / 256)
def attrSealed (a : Nat) : Bool := decide (a / 1024 % 2 = 1)
def attrCnt (a : Nat) : Bool := decide (a / 2048 % 2 = 1)
/-- COMP, ignored on a sealed page. -/
def attrComp (a : Nat) : Bool := decide (a / 4096 % 2 = 1) && !attrSealed a
def attrPsize (a : Nat) : Nat := a / 8192 % 32

/-- The duration of a lease class in nanoseconds (R165). -/
def leaseNs (c : Nat) : Nat := if c = 0 then 0 else if c = 1 then 64 else if c = 2 then 512 else 8000

/-- Permission masks (R251): a bit for read, write, execute. -/
def permRead : Nat := 1
def permWrite : Nat := 2
def permExec : Nat := 4
def permBoth : Nat := 3

/-- Whether every permission that an access needs is among those given. -/
def permsIn (need perms : Nat) : Bool :=
  (decide (need % 2 = 0) || decide (perms % 2 = 1)) && (decide (need / 2 % 2 = 0) || decide (perms / 2 % 2 = 1)) &&
  (decide (need / 4 % 2 = 0) || decide (perms / 4 % 2 = 1))

/-- The bits of w2 (R250): a load is 0. -/
def kindLoad : Nat := 0
def kindWrite : Nat := 1
def kindExec : Nat := 2
def kindEngine : Nat := 4
def kindEngineWrite : Nat := 5
def kindNested : Nat := 8

/-- Whether an entry holds an address of a context (R247). -/
def Xlat.hits (x : Xlat) (part tag va : Nat) : Bool :=
  decide (x.part = part) && decide (x.tag = tag) && decide (x.vbase ≤ va) && decide (va < x.vbase + 2 ^ x.psize)

/-- The physical address of an access (R251). -/
def Xlat.pa (x : Xlat) (va : Nat) : Nat := x.frame + va % 2 ^ x.psize

/-- One of several entries, by free bits (log 11). -/
def pick (key : List Nat) : Xlat → List Xlat → Xlat
  | x, [] => x
  | x, y :: ys => if Config.freeBit (247 :: ys.length :: key) then pick key y ys else x

/-- The entry hit. Where several hit, any may be used (R2, R247): a free choice of each access (log 11). -/
def hitOf (t : List Xlat) (part tag va : Nat) (key : List Nat) : Option Xlat :=
  match t.filter (fun x => x.hits part tag va) with
  | [] => none
  | x :: xs => some (pick (part :: tag :: va :: key) x xs)

/-- What tells one access of a requester from others in a free choice. -/
def Rqr.key : Rqr → List Nat
  | .thread t l => [0, t, l] | .cmd c n => [1, c, n] | .anchor c n => [2, c, n] | .sub n => [3, n] | .inb n => [4, n] | .add n => [5, n]
  | .call p n => [6, p, n]
def accessKey (s : State) (r : Rqr) : List Nat := s.m.steps :: r.key

/-- A fill, within the size of the cache (R246); which entry is replaced is not specified (R247). -/
def fillCache (size : Nat) (x : Xlat) (t : List Xlat) : List Xlat := (x :: t.filter (fun y => decide (y ≠ x))).take size

def State.fillAtc (s : State) (core : Nat) (x : Xlat) : State := s.modCore core (fun k => { k with atc := fillCache 512 x k.atc })
def State.fillL2 (s : State) (cell : Nat) (x : Xlat) : State := s.modCell cell (fun k => { k with l2 := fillCache 16384 x k.l2 })

/-- The entry dropped from the ATC and the level-2 cache (R248). -/
def State.dropXlat (s : State) (core : Nat) (x : Xlat) : State :=
  (s.modCore core (fun k => { k with atc := k.atc.filter (fun y => decide (y ≠ x)) })).modCell (cellOf core)
    (fun k => { k with l2 := k.l2.filter (fun y => decide (y ≠ x)) })

/-- Whether a walk serves a miss: same partition, tag, 4 KiB page and kind (R249). -/
def Walk.serves (w : Walk) (part tag va kind : Nat) : Bool :=
  decide (w.part = part) && decide (w.tag = tag) && decide (w.va / 4096 = va / 4096) && decide (w.kind = kind)

/-- A requester joined to a walk, once. -/
def Walk.join (w : Walk) (r : Rqr) (own : Nat) (last : Bool) : Walk :=
  if w.rqrs.any (fun q => decide (q.r = r)) then
    { w with rqrs := w.rqrs.map (fun q => if q.r = r then { q with last := q.last || last } else q) }
  else { w with rqrs := w.rqrs ++ [⟨r, own, last⟩] }

/-- A miss asks for a walk, merged into one that is queued or running (R249); a full queue of 64 makes it wait at its requester
(R246, R259). -/
def requestWalk (s : State) (cell : Nat) (r : Rqr) (part tag va own kind : Nat) (last : Bool := false) : State :=
  let k := s.cell cell
  let q := Tbl.getD k.queues part []
  let word := (s.ctx part (tag % 64)).word
  if k.procs.any (fun e => e.2.walk.serves part tag va kind) then
    s.modCell cell (fun k => { k with procs := k.procs.map (fun e =>
      if e.2.walk.serves part tag va kind then (e.1, { e.2 with walk := e.2.walk.join r own last }) else e) })
  else if q.any (fun w => w.serves part tag va kind) then
    s.modCell cell (fun k => { k with
      queues := Tbl.put k.queues part (q.map (fun w => if w.serves part tag va kind then w.join r own last else w)) })
  else if 64 ≤ q.length then s
  else
    (s.modCell cell (fun k => { k with
      queues := Tbl.put k.queues part (q ++ [{ id := s.newId, part, tag, va, kind, word, rqrs := [⟨r, own, last⟩] }]) })).bumpId

/-- What a translation comes to for now: an answer, with caches filled or changed, or a wait for a walk. -/
inductive XOut where
  | ans (s : State) (a : XAns)
  | wait (s : State)

/-- The answer that waits for an access: the last one (R248) before others. -/
def answerFor (res : List XRes) (va kind : Nat) : Option XRes :=
  let mine := res.filter (fun e => decide (e.page = va / 4096) && decide (e.kind = kind))
  match mine.find? XRes.last with
  | some e => some e
  | none => mine.head?

/-- The translation of `va` for a requester on a core (R247, R248). `res` holds the walk results that wait for it. An entry or a first answer that lacks
a permission which the access needs is dropped, and a walk of the access's own kind is asked for, whose answer is the last. `own` is the address that a
fault's TVAL shows (R258). -/
def xlate (s : State) (core : Nat) (r : Rqr) (res : List XRes) (part tag va own kind need : Nat) : XOut :=
  let again := fun (x : Xlat) => XOut.wait (requestWalk (s.dropXlat core x) (cellOf core) r part tag va own kind true)
  match answerFor res va kind with
  | some e =>
    match e.res with
    | .fail f => .ans s (.fail f)
    | .ok x => if e.last ∨ permsIn need (attrPerm x.attr) then .ans s (.ok x) else again x
  | none =>
    match hitOf (s.core core).atc part tag va (accessKey s r) with
    | some x => if permsIn need (attrPerm x.attr) then .ans s (.ok x) else again x
    | none =>
      match hitOf (s.cell (cellOf core)).l2 part tag va (accessKey s r) with
      | some x => if permsIn need (attrPerm x.attr) then .ans (s.fillAtc core x) (.ok x) else again x
      | none => .wait (requestWalk s (cellOf core) r part tag va own kind)

/-- The cell whose level-2 cache serves requests of a partition that come from no core (R235, R370): the lowest-numbered one that holds a
unit of the partition in service. -/
def homeCell (s : State) (part : Nat) : Nat :=
  ((s.cores.filter (fun c => decide (c.2.owner = some part) && !c.2.dead)).map (fun c => cellOf c.1)).foldl min 23

/-- As `xlate` for a request that comes from no core: no ATC is looked in or filled. -/
def xlateCell (s : State) (r : Rqr) (res : List XRes) (part tag va own kind need : Nat) : XOut :=
  let cell := homeCell s part
  let again := fun (x : Xlat) => XOut.wait (requestWalk (s.modCell cell (fun k => { k with
    l2 := k.l2.filter (fun y => decide (y ≠ x)) })) cell r part tag va own kind true)
  match answerFor res va kind with
  | some e =>
    match e.res with
    | .fail f => .ans s (.fail f)
    | .ok x => if e.last ∨ permsIn need (attrPerm x.attr) then .ans s (.ok x) else again x
  | none =>
    match hitOf (s.cell cell).l2 part tag va (accessKey s r) with
    | some x => if permsIn need (attrPerm x.attr) then .ans s (.ok x) else again x
    | none => .wait (requestWalk s cell r part tag va own kind)

/-- As `xlate` for a thread, which looks in its own waiting results. -/
def xlateThread (s : State) (t l va own kind need : Nat) : XOut :=
  let tm := s.team t
  xlate s tm.at_.core (.thread t l) (tm.thread l).run.xres tm.at_.part tm.tag va own kind need

/-- The answer as one requester takes it: its own address in the TVAL of a fault (R257, R258). -/
def XAns.forOwn (a : XAns) (own : Nat) : XAns :=
  match a with
  | .ok x => .ok x
  | .fail f => .fail { f with tval := f.tval + own % 2 ^ 52 }

/-- A requester that still stands where it asked. -/
def Rqr.alive (s : State) : Rqr → Bool
  | .thread t _ => (Tbl.find s.teams t).isSome
  | .cmd c id => (s.core c).cmds.any (fun k => decide (k.id = id))
  | .anchor c n => (s.core c).anchor.any (fun a => decide (a.id = n))
  | .sub n => (Tbl.find s.subs n).isSome
  | .inb n => (Tbl.find s.links.inb n).isSome
  | .add n => (Tbl.find s.adds n).isSome
  | .call p n => (s.part p).calls.any (fun c => decide (c.id = n))

/-- Whether a thread stands in a stopped group: it issues no more before its context is saved, and drops its answers then (R329). -/
def Team.stands (tm : Team) (l : Nat) : Bool := tm.groups.any (fun g => tm.stopped.contains g.1 && g.2.lanes.contains l)
/-- Whether all groups of a team have stopped: its engines drain to restart points (R330). -/
def Team.atStop (tm : Team) : Bool := tm.stop && tm.groups.all (fun g => tm.stopped.contains g.1)

/-- A requester that a stop has reached, for which a walk's result fills no entry (R330). -/
def Rqr.atStop (s : State) : Rqr → Bool
  | .thread t l => (s.team t).stands l
  | .cmd c id => ((s.core c).cmds.find? (fun k => decide (k.id = id))).any (fun m => (s.team m.team).atStop)
  | .anchor c n => (s.core c).anchor.any (fun a => decide (a.id = n) && (s.team a.team).atStop)
  | .sub _ => false
  | .inb _ => false
  | .add _ => false
  | .call _ _ => false

/-- The core of a requester, for the fill of its ATC (R247). The grid distributor and inbound requests use none. -/
def Rqr.coreOf (s : State) : Rqr → Option Nat
  | .thread t _ => some (s.team t).at_.core
  | .cmd c _ => some c
  | .anchor c _ => some c
  | .sub n =>
    match Tbl.find s.subs n with
    | some b => match b.src with
      | .launch c _ => some c
      | .waiter => none
      | .host _ _ => none
      | .peer _ _ => none
    | none => none
  | .inb _ => none
  | .add n =>
    match Tbl.find s.adds n with
    | some a => if a.core < 96 then some a.core else none
    | none => none
  | .call _ _ => none

/-- A walk's answer put where its requester finds it. -/
def giveResult (s : State) (r : Rqr) (x : XRes) : State :=
  if !r.alive s then s
  else
    match r with
    | .thread t l => s.modThread t l (fun th => { th with run := { th.run with xres := th.run.xres ++ [x] } })
    | .cmd c id => s.modCore c (fun k => { k with
        cmds := k.cmds.map (fun m => if m.id = id then { m with xres := m.xres ++ [x] } else m) })
    | .anchor c n => s.modCore c (fun k => { k with anchor := k.anchor.map (fun a => if a.id = n then { a with xres := a.xres ++ [x] } else a) })
    | .sub n => { s with subs := s.subs.map (fun e =>
        if e.1 = n then (e.1, { e.2 with xres := e.2.xres ++ [x] }) else e) }
    | .inb n => { s with links := { s.links with inb := s.links.inb.map (fun e =>
        if e.1 = n then (e.1, { e.2 with xres := e.2.xres ++ [x] }) else e) } }
    | .add n => { s with adds := s.adds.map (fun e => if e.1 = n then (e.1, { e.2 with xres := e.2.xres ++ [x] }) else e) }
    | .call p n => s.modPart p (fun q => { q with
        calls := q.calls.map (fun c => if c.id = n then { c with xres := c.xres ++ [x] } else c) })

/-- The end of a walk (R249, R252, R257): each requester receives the answer; a good one fills the level-2 cache and the
requesting cores' ATCs, unless `xinv` has barred it (R263) or no requester is left that has not stopped (R330). -/
def deliverWalk (s : State) (cell : Nat) (w : Walk) (a : XAns) : State :=
  let s := match a with
    | .fail _ => s
    | .ok x =>
      let live := w.rqrs.filter (fun q => q.r.alive s && !q.r.atStop s)
      if w.nofill ∨ live = [] then s
      else (live.filterMap (fun q => q.r.coreOf s)).foldl (fun s c => s.fillAtc c x) (s.fillL2 cell x)
  w.rqrs.foldl (fun s q => giveResult s q.r ⟨w.va / 4096, w.kind, a.forOwn q.own, q.last, w.id⟩) s

/-- Answers of walks that wait with their requesters and satisfy `bad` are dropped, so that the requesters walk again (R263, R355). -/
def forgetAnswers (s : State) (bad : Xlat → Bool) : State :=
  let keep := fun (rs : List XRes) => rs.filter (fun r => match r.res with
    | .ok x => !bad x
    | .fail _ => true)
  { s with
    teams := s.teams.map (fun t => (t.1, { t.2 with
      threads := t.2.threads.map (fun e => (e.1, { e.2 with run := { e.2.run with xres := keep e.2.run.xres } })) }))
    cores := s.cores.map (fun c => (c.1, { c.2 with
      cmds := c.2.cmds.map (fun m => { m with xres := keep m.xres })
      anchor := c.2.anchor.map (fun a => { a with xres := keep a.xres }) }))
    adds := s.adds.map (fun a => (a.1, { a.2 with xres := keep a.2.xres }))
    subs := s.subs.map (fun b => (b.1, { b.2 with xres := keep b.2.xres }))
    parts := s.parts.map (fun p => (p.1, { p.2 with calls := p.2.calls.map (fun c => { c with xres := keep c.xres }) }))
    links := { s.links with inb := s.links.inb.map (fun r => (r.1, { r.2 with xres := keep r.2.xres })) } }

/-- Whether a requester of a partition still holds an answer of a walk that satisfies `p`. A thread of a halted team, and one that has stopped, issues no
more and counts no more (R326, R329). -/
def answerWaits (s : State) (part : Nat) (p : XRes → Bool) : Bool :=
  s.teams.any (fun t => decide (t.2.at_.part = part) && !t.2.halted && t.2.threads.any (fun th => !t.2.stands th.1 && th.2.run.xres.any p)) ||
  s.cores.any (fun c => c.2.cmds.any (fun k => decide (k.part = part) && !(s.team k.team).atStop && k.xres.any p) ||
    c.2.anchor.any (fun a => decide (a.part = part) && !(s.team a.team).atStop && a.xres.any p)) ||
  s.adds.any (fun a => decide (a.2.part = part) && a.2.xres.any p) ||
  s.subs.any (fun b => decide (b.2.part = part) && b.2.xres.any p) ||
  (s.part part).calls.any (fun c => c.xres.any p) ||
  s.links.inb.any (fun r => decide (r.2.from_.part = part) && r.2.xres.any p)

end Sys2Proof.Machine
end

