-- ==== Sys2Proof/Machine/Lines.lean ====
section
/-! DEFINITION. Lines of device memory at their homes: places (R16 to R18), lease horizons (R165), how a line is stored (R160, R161), and bytes
written into the home cache. -/

namespace Sys2Proof.Machine

open Sys2Proof

-- physical places (R16, R17, R18, R365)

def regionOf (pa : Nat) : Nat := pa / 2 ^ 39
def sliceOf (pa : Nat) : Nat := pa / 2 ^ 34 % 32
def isLink (pa : Nat) : Bool := decide (0 < regionOf pa) && decide (regionOf pa < 0x1FF)
/-- An address that no core instruction reaches: metadata or the MMIO window. -/
def noSuch (pa : Nat) : Bool := decide (0x1FF ≤ regionOf pa) || (decide (regionOf pa = 0) && decide (0x3C0000000 ≤ pa % 2 ^ 34))

-- lines of device memory at their home

def bitAt (m i : Nat) : Bool := decide (m / 2 ^ i % 2 = 1)
def setBit (m i : Nat) (b : Bool) : Nat := if bitAt m i = b then m else if b then m + 2 ^ i else m - 2 ^ i

/-- The lease horizon that applies to a line (R165): its own while the slice's directory holds it, else the slice's. -/
def horizonOf (s : State) (l : Nat) : Nat := (s.line l).horizon.getD (s.slice (sliceOf (l * 256))).horizon

/-- T_w of a write performed now (R167): on a page of lease class 0 it is P. -/
def twOf (s : State) (l lease : Nat) : Nat := if lease = 0 then s.now else max s.now (horizonOf s l)

/-- The bytes of a line or of a part of it at its home, and the poison of a sector. -/
def homeRead (s : State) (pa n : Nat) : Nat := leNat (Mem.readN s.mem pa n)
def poisAt (s : State) (pa : Nat) : Bool := bitAt (s.line (pa / 256)).pois (pa % 256 / 64)

/-- A lease of a class granted on a line by its home (R165): the expiry, and the horizon that it raises. -/
def grantLease (s : State) (l cls : Nat) : State × Nat :=
  let e := s.now + leaseNs cls
  if cls = 0 then (s, e) else (s.modLine l (fun k => { k with horizon := some (max (horizonOf s l) e) }), e)


/-- How a line is stored: CMETH, CPARAM, NSEC and the stored sectors. -/
structure Packed where
  cmeth : Nat
  cparam : Nat
  data : List Byte
  deriving DecidableEq, Repr

def Packed.nsec (p : Packed) : Nat := p.data.length / 64

/-- A list of bytes filled with zeros to whole sectors. -/
def padSectors (bs : List Byte) : List Byte := bs ++ List.replicate ((64 - bs.length % 64) % 64) 0

def wordAt (bs : List Byte) (i : Nat) : Nat := leNat ((bs.drop (8 * i)).take 8)

/-- The deltas of a line against its first word. -/
def deltas (bs : List Byte) : List Int := (List.range 32).map (fun i => (wordAt bs i : Int) - wordAt bs 0)

/-- Whether every delta fits a signed width of k bytes. -/
def fitsWidth (k : Nat) (ds : List Int) : Bool := ds.all (fun d => decide (-(2 ^ (8 * k - 1) : Int) ≤ d) && decide (d < 2 ^ (8 * k - 1)))

def baseDelta (k : Nat) (bs : List Byte) : List Byte :=
  padSectors (bs.take 8 ++ (deltas bs).flatMap (fun d => leBytes k (d % 2 ^ (8 * k)).toNat))

/-- Step 1 of R161. -/
def packLine (comp : Bool) (bs : List Byte) : Packed :=
  if !comp then ⟨0, 0, bs⟩
  else if bs.all (fun b => decide (b = 0)) then ⟨1, 0, []⟩
  else if (List.range 64).all (fun i => decide ((bs.drop (4 * i)).take 4 = bs.take 4)) then ⟨2, 0, padSectors (bs.take 4)⟩
  else if fitsWidth 1 (deltas bs) then ⟨3, 0, baseDelta 1 bs⟩
  else if fitsWidth 2 (deltas bs) then ⟨3, 1, baseDelta 2 bs⟩
  else if fitsWidth 4 (deltas bs) then ⟨3, 2, baseDelta 4 bs⟩
  else ⟨0, 0, bs⟩

/-- The line that stored sectors hold. -/
def unpackLine (cmeth cparam : Nat) (bs : List Byte) : List Byte :=
  match cmeth with
  | 0 => bs.take 256
  | 1 => List.replicate 256 0
  | 2 => (List.replicate 64 (bs.take 4)).flatten
  | _ =>
    let k := 2 ^ cparam
    (List.range 32).flatMap (fun i =>
      let d := leNat ((bs.drop (8 + k * i)).take k)
      leBytes 8 (wordAt bs 0 + d + (if 2 ^ (8 * k - 1) ≤ d then 2 ^ 64 - 2 ^ (8 * k) else 0)))

/-- Record bits [63:0] (R160). -/
def recordOf (ver : Word) (pois sealed : Bool) (lab : Label) (p : Packed) : DWord :=
  BitVec.ofNat 64 (ver.toNat * 2 ^ 32 + bit pois 27 + bit sealed 26 + lab.toNat * 2 ^ 24 + p.cparam * 2 ^ 8 + p.nsec * 4 + p.cmeth)

/-- The numbers of keys (R348, R349): the device integrity key, and a partition's XTS, MAC and storage keys. -/
def deviceKey (s : State) : Nat := 4 * s.boot.key
def partKey (s : State) (part n : Nat) : Nat := 4 * (s.part part).keys + n

/-- The partition that owns the slice of a line. -/
def ownerPart (s : State) (l : Nat) : Nat := ((s.slice (sliceOf (l * 256))).owner).getD 0

def macKey (s : State) (l : Nat) (sealed : Bool) : Nat := if sealed then partKey s (ownerPart s l) 2 else deviceKey s

/-- The MAC that a record and its stored sectors should have (R160). -/
def macOf (s : State) (l : Nat) (rec_ : DWord) (data : List Byte) : DWord :=
  Config.mac (macKey s l (rec_.getLsbD 26)) (l * 256) rec_ data

/-- AES-256-XTS of a line's 256 bytes (R161; log 15): it keeps their number. -/
def cipher (key pa : Nat) (ver : Word) (bs : List Byte) : List Byte := (List.range bs.length).map (Config.encrypt key pa ver bs)

/-- Its inverse (log 15): `old` are the bytes of the line, which the home holds as they were when it was written back. Where the stored bytes are what
they encrypt to, they are the plaintext; for other stored bytes it is what the cipher makes of them. -/
def decipher (key pa : Nat) (ver : Word) (old bs : List Byte) : List Byte :=
  if cipher key pa ver old = bs then old else (List.range bs.length).map (Config.decrypt key pa ver bs)

/-- The stored form of a line that nothing has written back since the boot wrote every line as zero (R160, R376 step 4): the record's reset values. -/
def bootStored (s : State) (l : Nat) : Stored :=
  let zero := List.replicate 256 (0 : Byte)
  let rec_ := recordOf 0 false false 0 ⟨0, 0, zero⟩
  { record := rec_, mac := macOf s l rec_ zero, data := zero }
def storedOf (s : State) (l : Nat) : Stored := (Tbl.find s.stored l).getD (bootStored s l)

/-- A line's bytes, label and marks written back under a version (R161). A line with any poison mark is stored with POISON set
(log 25). -/
def storeLine (s : State) (l : Nat) (ver : Word) : State :=
  let k := s.line l
  let p := packLine (k.comp && !k.sealed) (Mem.readN s.mem (l * 256) 256)
  let data := if k.sealed then cipher (partKey s (ownerPart s l) 1) (l * 256) ver p.data else p.data
  let rec_ := recordOf ver (decide (k.pois ≠ 0)) k.sealed k.lab p
  { s with stored := Tbl.put s.stored l { record := rec_, mac := macOf s l rec_ data, data } }

/-- A line leaves the home cache and the slice's directory (R160, R161, R165): one that is not written yet is written back with the next VERSION; the
horizon is folded into the slice's. It is read from device memory before it is reached again. -/
def leaveHome (s : State) (l : Nat) : State :=
  let k := s.line l
  let s := if k.dirty then (storeLine s l (k.ver + 1)).modLine l (fun k => { k with ver := k.ver + 1, dirty := false }) else s
  (s.modLine l (fun k => { k with horizon := none, held := false, low := false, away := true })).modSlice (sliceOf (l * 256)) (fun d => { d with
    horizon := max d.horizon (k.horizon.getD 0) })

/-- Whether a line of a range of memory is not read back yet: what the slice kernel reads there waits (R161). -/
def rangeAway (s : State) (pa n : Nat) : Bool := (List.range ((n + 255) / 256)).any (fun i => (s.line (pa / 256 + i)).away)

/-- Lines that a home cache of 8 MiB can hold (R14). -/
def homeLines : Nat := 32768

/-- The lines of a slice that its home cache holds. -/
def heldIn (s : State) (slice : Nat) : List (Nat × Line) := s.lines.filter (fun e => (e.2.held || e.2.dirty) && decide (sliceOf (e.1 * 256) = slice))

/-- Room for one more line in a slice's home cache (R14): where it is full, one of the lines at the lowest replacement priority leaves it (R183, R251), or any
where there is none; which of them no rule names (log 87). -/
def makeRoom (s : State) (l : Nat) : State :=
  let held := heldIn s (sliceOf (l * 256))
  let low := held.filter (fun e => e.2.low)
  let from_ := (if low = [] then held else low).map Prod.fst
  if (s.line l).held ∨ (s.line l).dirty ∨ held.length < homeLines then s
  else (leaveHome s (from_.getD (Config.freeEntry s.m.free % from_.length) 0)).bumpFree

/-- What a page's CCLASS and an access's policy make of a line at its home: 0 none is allocated, 1 the lowest replacement priority, 2 normal (R183, R251). -/
def homeRank (cclass : Nat) (strm : Bool) : Nat := if cclass = 2 then 0 else if cclass = 1 ∨ strm then 1 else 2

/-- An access at its home brings its line into the home cache, as the page's CCLASS and the access's policy say; a line that a page without allocation
reaches stays where it is. -/
def homeTake (s : State) (l cclass : Nat) (strm : Bool) : State :=
  if homeRank cclass strm = 0 then s
  else (makeRoom s l).modLine l (fun k => { k with held := true, low := decide (homeRank cclass strm = 1) })

/-- A change `g` of a line at its home, which the home cache holds unwritten from then on (R160, R165). Where the page allocates no line and the home cache does
not hold it, the line goes on to device memory at once (R251). -/
def homePut (s : State) (l cclass : Nat) (strm : Bool) (g : State → State) : State :=
  let pass := decide (homeRank cclass strm = 0) && !(s.line l).held && !(s.line l).dirty
  let s := g (if pass then s else homeTake s l cclass strm)
  let s := s.modLine l (fun k => { k with dirty := true, away := false, horizon := some (horizonOf s l) })
  if pass then leaveHome s l else s

/-- Bytes written at their home with the page label and COMP recorded in the line (R153, R160). -/
def homeWrite (s : State) (pa : Nat) (bs : List Byte) (lab : Label) (comp sealed : Bool) (cclass : Nat := 0) (strm : Bool := false) : State :=
  homePut s (pa / 256) cclass strm (fun s =>
    ({ s with mem := Mem.writeN s.mem pa bs } : State).modLine (pa / 256) (fun k => { k with lab, comp, sealed }))

/-- A line whose sectors take poison marks at its home: a write of the line (R164, R176). -/
def homeMark (s : State) (l : Nat) (f : Line → Line) (cclass : Nat := 0) : State := homePut s l cclass false (fun s => s.modLine l f)

end Sys2Proof.Machine
end

