-- ==== Sys2Proof/Machine/Alu.lean ====
section
/-! DEFINITION. Integer arithmetic, logic, shifts and bit fields on values (R102, R105 to R109), packed pairs (R114) and
conversions (R116, R117). Values are 64 bits; a form of width n reads bits [n-1:0] of each operand. -/

namespace Sys2Proof.Machine

open Sys2Proof

/-- An operand read at the width and signedness of TYPE (R102). -/
def readTy (t : IntTy) (x : DWord) : Int :=
  match t with
  | .u32 => ((x.setWidth 32).toNat : Int)
  | .s32 => (x.setWidth 32).toInt
  | .u64 => (x.toNat : Int)
  | .s64 => x.toInt

/-- Wrap(x, n), zero-extended to 64 bits (R49). -/
def wrapN (n : Nat) (x : Int) : DWord := BitVec.ofNat 64 (x % (2 ^ n : Int)).toNat
/-- SatSigned(x, n) and SatUnsigned(x, n) (R49). -/
def satSigned (n : Nat) (x : Int) : Int := max (-(2 ^ (n - 1) : Int)) (min (2 ^ (n - 1) - 1) x)
def satUnsigned (n : Nat) (x : Int) : Int := max 0 (min (2 ^ n - 1) x)

/-- The result of a row-0x01 member: the exact value, saturated under SAT, as an n-bit pattern (R86, R102). -/
def intResult (t : IntTy) (sat : Bool) (x : Int) : DWord :=
  wrapN t.width (if sat then (if t.signed then satSigned t.width x else satUnsigned t.width x) else x)

/-- The exact values of row 0x01, min and max (R102). -/
def exAdd (a b _d : Int) (_n : Nat) : Int := a + b
def exSub (a b _d : Int) (_n : Nat) : Int := a - b
def exMul (a b _d : Int) (_n : Nat) : Int := a * b
def exMulhi (a b _d : Int) (n : Nat) : Int := a * b / (2 ^ n : Int)
def exMad (a b d : Int) (_n : Nat) : Int := a * b + d
def exMadhi (a b d : Int) (n : Nat) : Int := a * b / (2 ^ n : Int) + d
def exAbs (a _b _d : Int) (_n : Nat) : Int := (a.natAbs : Int)
def exNeg (a _b _d : Int) (_n : Nat) : Int := -a
def exMin (a b _d : Int) (_n : Nat) : Int := min a b
def exMax (a b _d : Int) (_n : Nat) : Int := max a b

/-- A member of row 0x01 (R102): operands read under TYPE, the exact value, then SAT or Wrap. -/
def intOp (ex : Int → Int → Int → Nat → Int) (t : IntTy) (sat : Bool) (a b d : DWord) : DWord :=
  intResult t sat (ex (readTy t a) (readTy t b) (readTy t d) t.width)

/-- The low n bits. -/
def low (w : Bool) (x : DWord) : DWord := if w then x else (x.setWidth 32).setWidth 64
def nBits (w : Bool) : Nat := if w then 64 else 32

/-- Row 0x04 (R106): the count is the 32-bit B operand, unsigned. -/
def shlOp (w : Bool) (a b : DWord) : DWord :=
  let c := (b.setWidth 32).toNat
  if nBits w ≤ c then 0 else low w (BitVec.ofNat 64 ((low w a).toNat * 2 ^ c))
def shrOp (w : Bool) (a b : DWord) : DWord :=
  let c := (b.setWidth 32).toNat
  if nBits w ≤ c then 0 else BitVec.ofNat 64 ((low w a).toNat / 2 ^ c)
def sraOp (w : Bool) (a b : DWord) : DWord :=
  let c := (b.setWidth 32).toNat
  let x : Int := if w then a.toInt else (a.setWidth 32).toInt
  wrapN (nBits w) (x / (2 ^ min c (nBits w - 1) : Int))
def rolOp (w : Bool) (a b : DWord) : DWord :=
  let n := nBits w
  let c := (b.setWidth 32).toNat % n
  let x := (low w a).toNat
  BitVec.ofNat 64 ((x * 2 ^ c + x / 2 ^ (n - c)) % 2 ^ n)
def rorOp (w : Bool) (a b : DWord) : DWord :=
  let n := nBits w
  let c := (b.setWidth 32).toNat % n
  let x := (low w a).toNat
  BitVec.ofNat 64 ((x / 2 ^ c + x * 2 ^ (n - c)) % 2 ^ n)

/-- pos and len of R107, clamped to the width. -/
def bfPos (n : Nat) (b : DWord) : Nat := min (b.toNat % 256) n
def bfLen (n : Nat) (b : DWord) : Nat := min (b.toNat / 256 % 256) (n - bfPos n b)

def bfeOp (t : IntTy) (a b : DWord) : DWord :=
  let n := t.width
  let pos := bfPos n b
  let len := bfLen n b
  let x := a.toNat / 2 ^ pos % 2 ^ len
  if len = 0 then 0
  else if t.signed ∧ 2 ^ (len - 1) ≤ x then wrapN n ((x : Int) - 2 ^ len) else BitVec.ofNat 64 x

def bfiOp (w : Bool) (a b d : DWord) : DWord :=
  let n := nBits w
  let pos := bfPos n b
  let len := bfLen n b
  let x := (low w d).toNat
  BitVec.ofNat 64 (x - x / 2 ^ pos % 2 ^ len * 2 ^ pos + a.toNat % 2 ^ len * 2 ^ pos)

def bitsOf (n x : Nat) : List Bool := (List.range n).map (fun i => decide (x / 2 ^ i % 2 = 1))

def popcOp (w : Bool) (a : DWord) : DWord := BitVec.ofNat 64 ((bitsOf (nBits w) a.toNat).filter id).length
def clzOp (w : Bool) (a : DWord) : DWord :=
  let x := (low w a).toNat
  BitVec.ofNat 64 (if x = 0 then nBits w else nBits w - 1 - Nat.log2 x)
def ctzOp (w : Bool) (a : DWord) : DWord :=
  BitVec.ofNat 64 ((bitsOf (nBits w) a.toNat).takeWhile (fun b => !b)).length
/-- A list of bits, low first, as a number. -/
def ofBits : List Bool → Nat
  | [] => 0
  | b :: bs => b.toNat + 2 * ofBits bs
def brevOp (w : Bool) (a : DWord) : DWord := BitVec.ofNat 64 (ofBits (bitsOf (nBits w) a.toNat).reverse)

/-- lea (R109). -/
def leaOp (sgd : Bool) (scale : Nat) (a b : DWord) : DWord :=
  a + BitVec.ofInt 64 ((if sgd then (b.setWidth 32).toInt else ((b.setWidth 32).toNat : Int)) * (2 ^ scale : Int))

/-- An FP32 operation on the low words. -/
def fp2 (g : Nat → Nat → Nat) (a b : DWord) : DWord := BitVec.ofNat 64 (g (a.toNat % 2 ^ 32) (b.toNat % 2 ^ 32))
def fp1 (g : Nat → Nat) (a : DWord) : DWord := BitVec.ofNat 64 (g (a.toNat % 2 ^ 32))

/-- The format of a packed pair (R100 FMT). -/
def halfFmt (bf : Bool) : FFmt := if bf then .bf16 else .f16

/-- A packed operation, each element on its own (R87, R114). -/
def packed2 (g : Nat → Nat → Nat) (a b : DWord) : DWord :=
  BitVec.ofNat 64 (g (a.toNat % 2 ^ 16) (b.toNat % 2 ^ 16) +
    2 ^ 16 * g (a.toNat / 2 ^ 16 % 2 ^ 16) (b.toNat / 2 ^ 16 % 2 ^ 16))
def packed3 (g : Nat → Nat → Nat → Nat) (a b d : DWord) : DWord :=
  BitVec.ofNat 64 (g (a.toNat % 2 ^ 16) (b.toNat % 2 ^ 16) (d.toNat % 2 ^ 16) +
    2 ^ 16 * g (a.toNat / 2 ^ 16 % 2 ^ 16) (b.toNat / 2 ^ 16 % 2 ^ 16) (d.toNat / 2 ^ 16 % 2 ^ 16))

/-- The range of an integer type of cvt (R116). -/
def cvtWidth : CvtTy → Nat
  | .u8 => 8 | .s8 => 8 | .u16 => 16 | .s16 => 16 | .u32 => 32 | .s32 => 32 | .u64 => 64 | .s64 => 64 | .f16 => 16
  | .bf16 => 16 | .f32 => 32
def cvtSigned : CvtTy → Bool
  | .s8 => true | .s16 => true | .s32 => true | .s64 => true | .u8 => false | .u16 => false | .u32 => false | .u64 => false
  | .f16 => false | .bf16 => false | .f32 => false
def cvtFmt : CvtTy → Option FFmt
  | .f16 => some .f16 | .bf16 => some .bf16 | .f32 => some .f32 | .u8 => none | .s8 => none | .u16 => none | .s16 => none
  | .u32 => none | .s32 => none | .u64 => none | .s64 => none
def cvtLo (t : CvtTy) : Int := if cvtSigned t then -(2 ^ (cvtWidth t - 1) : Int) else 0
def cvtHi (t : CvtTy) : Int := if cvtSigned t then 2 ^ (cvtWidth t - 1) - 1 else 2 ^ cvtWidth t - 1

/-- The integer source of cvt (R117). -/
def cvtSrcInt (t : CvtTy) (a : DWord) : Int :=
  let x := a.toNat % 2 ^ cvtWidth t
  if cvtSigned t ∧ 2 ^ (cvtWidth t - 1) ≤ x then (x : Int) - 2 ^ cvtWidth t else x

/-- An integer result: 8- and 16-bit results are extended to 32 bits as their type says (R117). -/
def cvtIntOut (t : CvtTy) (x : Int) : DWord :=
  let y := wrapN (cvtWidth t) x
  if cvtSigned t ∧ cvtWidth t < 32 then wrapN 32 (cvtSrcInt t y) else y

/-- The value that cvt writes, before an element is placed (R117). `hi` takes the source from A[31:16]. -/
def cvtOp (dt ft : CvtTy) (sat : Bool) (r : Rnd) (hi : Bool) (a : DWord) : DWord :=
  match cvtFmt ft, cvtFmt dt with
  | none, none =>
    let x := cvtSrcInt ft a
    cvtIntOut dt (if sat then max (cvtLo dt) (min (cvtHi dt) x) else x)
  | none, some g => BitVec.ofNat 64 (g.round r (FVal.ofInt (cvtSrcInt ft a)))
  | some s, none =>
    cvtIntOut dt ((s.decode (if hi then a.toNat / 2 ^ 16 % 2 ^ 16 else a.toNat % 2 ^ s.width)).toInt r (cvtLo dt) (cvtHi dt))
  | some s, some g =>
    BitVec.ofNat 64 (g.round r (s.decode (if hi then a.toNat / 2 ^ 16 % 2 ^ 16 else a.toNat % 2 ^ s.width)))

/-- The result placed in D (R116 ELEM). -/
def cvtPlace (dst : CvtDst) (y d : DWord) : DWord :=
  match dst with
  | .whole => y
  | .m0 => BitVec.ofNat 64 (y.toNat % 2 ^ 16 + d.toNat / 2 ^ 16 % 2 ^ 16 * 2 ^ 16)
  | .m1 => BitVec.ofNat 64 (d.toNat % 2 ^ 16 + y.toNat % 2 ^ 16 * 2 ^ 16)

/-- plut (R125). -/
def plutOp (table : BitVec 8) (a b : DWord) (p : Bool) : DWord :=
  let i := 4 * (decide (a ≠ 0)).toNat + 2 * (decide (b ≠ 0)).toNat + p.toNat
  BitVec.ofNat 64 (table.toNat / 2 ^ i % 2)

/-- The binary step of redux and scan (R122). -/
def redStep (o : RedOp) (x y : DWord) : DWord :=
  match o with
  | .int .add t => low t.wide (x + y)
  | .int .min t => if readTy t y < readTy t x then y else x
  | .int .max t => if readTy t x < readTy t y then y else x
  | .int .and _ => x &&& y
  | .int .or _ => x ||| y
  | .int .xor _ => x ^^^ y
  | .fadd r => fp2 (FFmt.f32.add r) x y
  | .fmin => fp2 FFmt.f32.least x y
  | .fmax => fp2 FFmt.f32.greatest x y

/-- The exclusive identity of scan (R122). -/
def redIdentity : RedOp → DWord
  | .int .add _ => 0
  | .int .min t => wrapN t.width (if t.signed then 2 ^ (t.width - 1) - 1 else 2 ^ t.width - 1)
  | .int .max t => if t.signed then wrapN t.width (-(2 ^ (t.width - 1))) else 0
  | .int .and t => wrapN t.width (2 ^ t.width - 1)
  | .int .or _ => 0
  | .int .xor _ => 0
  | .fadd _ => 0x80000000
  | .fmin => 0x7F800000
  | .fmax => 0xFF800000

/-- The new value of an atomic (R184); `d` is the comparand of `.cas`. -/
def atomNew (o : AtomOp) (old b d : DWord) : DWord :=
  match o with
  | .int .add t => low t.wide (old + b)
  | .int .min t => low t.wide (if readTy t b < readTy t old then b else old)
  | .int .max t => low t.wide (if readTy t old < readTy t b then b else old)
  | .int .and t => low t.wide (old &&& b)
  | .int .or t => low t.wide (old ||| b)
  | .int .xor t => low t.wide (old ^^^ b)
  | .int .exch t => low t.wide b
  | .int .cas t => if low t.wide old = low t.wide d then low t.wide b else low t.wide old
  | .fadd r => fp2 (FFmt.f32.add r) old b
  | .fmin => fp2 FFmt.f32.least old b
  | .fmax => fp2 FFmt.f32.greatest old b

end Sys2Proof.Machine
end

