-- ==== Sys2Proof/Machine/Flags.lean ====
section
/-! DEFINITION. The conditions that instructions write to predicates: the machine has no status flags (R86, R90), and every
comparison result is a predicate (R103, R111, R114, R50). -/

namespace Sys2Proof.Machine

open Sys2Proof

/-- The comparison of setp under TYPE (R103). -/
def intTest (c : Cmp) (t : IntTy) (a b : DWord) : Bool :=
  let x := readTy t a
  let y := readTy t b
  match c with
  | .eq => decide (x = y)
  | .ne => decide (x ≠ y)
  | .lt => decide (x < y)
  | .le => decide (x ≤ y)
  | .gt => decide (y < x)
  | .ge => decide (y ≤ x)

/-- The comparison of fsetp (R111). -/
def fpTest (c : FCmp) (a b : DWord) : Bool := FFmt.f32.test c (a.toNat % 2 ^ 32) (b.toNat % 2 ^ 32)

/-- The two comparisons of hsetp2: element 0, element 1 (R114). -/
def halfTest (bf : Bool) (c : FCmp) (a b : DWord) : Bool × Bool :=
  ((halfFmt bf).test c (a.toNat % 2 ^ 16) (b.toNat % 2 ^ 16),
   (halfFmt bf).test c (a.toNat / 2 ^ 16 % 2 ^ 16) (b.toNat / 2 ^ 16 % 2 ^ 16))

/-- A value written to a predicate: set when it is non-zero (R50). -/
def toPred (x : DWord) : Bool := decide (x.setWidth 32 ≠ (0 : Word))

end Sys2Proof.Machine
end

