-- ==== Sys2Proof/Machine/Operands.lean ====
section
/-! DEFINITION. Operands: reading (R33, R50) with the outcomes that R43 and R44 leave open, labels (R49), poison of registers
(R336), writing with the bookkeeping of the static contract (R42), and the checks of validating mode (R46). -/

namespace Sys2Proof.Machine

open Sys2Proof

/-- How an immediate is widened (R33). -/
inductive Kind where
  | int | f32 | pair (bf : Bool)
  deriving DecidableEq, Repr

/-- ImmValue(kind) (R33, R49), as 64 bits; a 32-bit kind has zeros above. -/
def immValue (k : Kind) (wide : Bool) (i : BitVec 8) : DWord :=
  match k with
  | .int => if wide then i.signExtend 64 else (i.signExtend 32).setWidth 64
  | .f32 => BitVec.ofNat 64 (FFmt.f32.round .rn (FVal.ofInt i.toInt))
  | .pair bf => BitVec.ofNat 64 ((halfFmt bf).round .rn (FVal.ofInt i.toInt) * 65537)

/-- A value with its label, as ReadOp returns them. -/
structure Src where
  val : DWord := 0
  lab : Label := 0
  deriving DecidableEq, Repr, Inhabited

/-- Whether a read at instruction `ic` comes before a fixed-latency write of the register has its latency (R42 rule 1). -/
def Haz.early (h : Haz) (ic enc : Nat) : Bool :=
  decide (h.enc = enc) && (match h.lat with | some n => decide (ic - h.ic < n) | none => false)

/-- A register read before a fixed-latency result of the segment has its latency: the value before the write, the value that it gives, or the value
now, a free choice; a write that such a result may still overtake counts as one of them (R43, log 11). A variable-latency result reads as the
register stands. -/
def staleHaz (key : List Nat) (ic enc : Nat) : List Haz → Reg → Reg
  | [], r => r
  | h :: hs, r =>
    staleHaz key ic enc hs
      (if h.enc = enc ∧ h.lat.isSome ∧ (h :: hs).any (fun g => g.early ic enc) then
        (if Config.freeBit (43 :: h.ic :: enc :: key) then h.old else if Config.freeBit (430 :: h.ic :: enc :: key) then h.new else r)
      else r)

/-- An s or h register whose writer's segment has not ended: the old value or the new one for other lane sets (R44, log 11); a write of the
reader's own lane set hides the older ones. -/
def staleTeam (key : List Nat) (l enc : Nat) : List Unpub → Reg → Reg
  | [], r => r
  | u :: us, r =>
    if u.enc ≠ enc then staleTeam key l enc us r
    else if u.lanes.contains l then r
    else staleTeam key l enc us (if Config.freeBit (44 :: us.length :: enc :: key) then u.old else r)

/-- The register with operand encoding `enc` as it stands for thread `l` of team `t` (R30). -/
def regNow (s : State) (t l enc : Nat) : Reg :=
  let tm := s.team t
  let th := tm.thread l
  if enc < 0x800 then tm.vreg th enc
  else if enc < 0x900 then tm.sreg (enc - 0x800)
  else if enc < 0x908 then
    let p := tm.preg th (enc - 0x900)
    ⟨if p.val then 1 else 0, p.lab, false⟩
  else tm.hreg (enc - 0x920)

/-- The register as thread `l`'s next instruction reads it. -/
def regRead (s : State) (t l enc : Nat) : Reg :=
  let tm := s.team t
  let th := tm.thread l
  let key := [t, l, th.run.ic]
  staleHaz key th.run.ic enc th.run.haz (staleTeam key l enc tm.unpub (regNow s t l enc))

/-- A register pair from its even register (R32, R50). -/
def pairRead (s : State) (t l enc : Nat) : Src :=
  let lo := regRead s t l enc
  let hi := regRead s t l (enc + 1)
  ⟨BitVec.ofNat 64 (lo.val.toNat + hi.val.toNat * 2 ^ 32), lo.lab.join hi.lab⟩

def oneRead (s : State) (t l enc : Nat) : Src :=
  let r := regRead s t l enc
  ⟨r.val.setWidth 64, r.lab⟩

/-- ReadOp and ReadOp64 of every operand but a queue and a handle, whose reads `mov` and `umov` give (R50). -/
def readOp (s : State) (t l : Nat) (k : Kind) (wide : Bool) (o : Operand) : Src :=
  match o with
  | .v n => if wide then pairRead s t l n.toNat else oneRead s t l n.toNat
  | .s n => if wide then pairRead s t l (0x800 + n.toNat) else oneRead s t l (0x800 + n.toNat)
  | .p n => oneRead s t l (0x900 + n.toNat)
  | .h n => oneRead s t l (0x920 + n.toNat)
  | .x n => ⟨BitVec.ofNat 64 ((s.team t).special l n.toNat), 0⟩
  | .imm i => ⟨immValue k wide i, 0⟩
  | .q _ => {}
  | .z => {}

/-- Whether the guard reads a predicate, and whether it passes (R36, R49). -/
def guardReads (c : Ctl) : Bool := decide (c.gP ≠ 7)
def guardPred (s : State) (t l : Nat) (c : Ctl) : Reg := regRead s t l (0x900 + c.gP.toNat)
def guardPasses (s : State) (t l : Nat) (c : Ctl) : Bool :=
  if guardReads c then decide ((guardPred s t l c).val = 1) != c.gN else !c.gN
def guardLab (s : State) (t l : Nat) (c : Ctl) : Label := if guardReads c then (guardPred s t l c).lab else 0

/-- The active lanes: those of the lane set that the guard passes (R36, R49). A lane that faults before the effect is one of them; a lane whose
guard read breaks the contract counts by the value that it reads (DESIGN CHOICE, log 86). -/
def passing (s : State) (i : Iss) (c : Ctl) : List Nat := i.lanes.filter (fun l => guardPasses s i.team l c)

/-- The lane that reads for the whole lane set: Lowest() (R49), or the lowest active lane that is no helper (R37, R82, R192). -/
def leader (s : State) (i : Iss) (w : Who) (c : Ctl) : Option Nat :=
  (passing s i c).find? (fun l => decide (w ≠ .real) || !(s.thread i.team l).t.helper)

/-- That lane, where it has not faulted before the effect: `act` are the lanes that have not. -/
def leads (s : State) (i : Iss) (f : Form) (act : List Nat) : Option Nat :=
  match leader s i f.who f.c with
  | some l => if act.contains l then some l else none
  | none => none

/-- PCLabel(l). -/
def pcLabel (s : State) (t l : Nat) : Label := (s.thread t l).r.pcl

/-- Lab(a, …) (R49): the labels given, the PC label and the guard's label. -/
def labOf (s : State) (t l : Nat) (c : Ctl) (ls : List Label) : Label :=
  Label.joinAll (ls ++ [pcLabel s t l, guardLab s t l c])

/-- Encodings of the registers that a destination names (R30, R32); two predicates are those of hsetp2 (R114). -/
def encsOf (wide : Bool) : Operand → List Nat
  | .v n => if wide then [n.toNat, n.toNat + 1] else [n.toNat]
  | .s n => if wide then [0x800 + n.toNat, 0x801 + n.toNat] else [0x800 + n.toNat]
  | .p n => if wide then [0x900 + n.toNat, 0x901 + n.toNat] else [0x900 + n.toNat]
  | .h n => [0x920 + n.toNat]
  | .q _ => []
  | .x _ => []
  | .imm _ => []
  | .z => []

/-- Encodings of the registers that a source names: a predicate is read alone, in a 64-bit position too (R50). -/
def readEncs (wide : Bool) : Operand → List Nat
  | .p n => [0x900 + n.toNat]
  | .v n => encsOf wide (.v n)
  | .s n => encsOf wide (.s n)
  | .h n => encsOf wide (.h n)
  | .q _ => []
  | .x _ => []
  | .imm _ => []
  | .z => []

/-- The operand encoding of R30. -/
def encOf : Operand → Nat
  | .v n => n.toNat
  | .s n => 0x800 + n.toNat
  | .p n => 0x900 + n.toNat
  | .q n => 0x910 + n.toNat
  | .h n => 0x920 + n.toNat
  | .x n => 0x930 + n.toNat
  | .imm _ => 0xFFE
  | .z => 0xFFF

/-- The registers that a form reads, with the FIELD of R46: D, A, B, then the predicate that AUX names (log 17). -/
def formReads (f : Form) : List (Nat × Nat) :=
  (if f.dSrc then (readEncs f.sd.wide f.d).map (Prod.mk 0) else []) ++
  (readEncs f.sa.wide f.a).map (Prod.mk 1) ++
  (match f.block, f.a with
   | 0, _ => []
   | n + 1, .s i => (List.range n).map (fun j => (1, 0x801 + i.toNat + j))
   | _ + 1, _ => []) ++
  (readEncs f.sb.wide f.b).map (Prod.mk 2) ++
  (match f.pC with | some p => [(3, 0x900 + p.toNat)] | none => [])

/-- The registers that lane `l` of the lane set reads (R37, R126, R127): operands that one lane reads for all are read in no other. -/
def readsOf (s : State) (i : Iss) (l : Nat) (f : Form) : List (Nat × Nat) :=
  (formReads f).filter (fun e => decide (f.whoOf e.1 = .each) || decide (leader s i (f.whoOf e.1) f.c = some l))

/-- The registers that a form writes in D. -/
def formWrites (f : Form) : List Nat := if f.lat = .none then [] else encsOf (f.sd.wide || f.sd.pEven) f.d

/-- TVAL of STATIC_HAZARD (R46). -/
def hazTval (dist rule field enc : Nat) : Nat := min dist 255 * 2 ^ 16 + rule * 2 ^ 14 + field * 2 ^ 12 + enc

/-- A read of `enc` that breaks rule 1 or 2 of R42. Where it breaks a rule against several earlier writes, the newest of them is the one that DIST and RULE
name, here and in `writeHazard` (DESIGN CHOICE, log 92). -/
def readHazard (th : Thread) (field enc : Nat) : Option Nat :=
  th.run.haz.findSome? (fun h =>
    if h.enc ≠ enc then none
    else
      match h.lat with
      | none => some (hazTval 0 1 field enc)
      | some n => if th.run.ic - h.ic < n then some (hazTval (th.run.ic - h.ic) 0 field enc) else none)

/-- What a write of `enc` at instruction `ic` under a latency class breaks against an earlier write of the segment: rule 2 or rule 4 of R42. Rule 4
compares two latencies, and a Q of variable latency has none: no distance is asked of it, so a load may issue over a fixed-latency result in flight
(DESIGN CHOICE, log 86). -/
def Haz.breaks (h : Haz) (ic : Nat) (lat : Lat) (enc : Nat) : Option Nat :=
  if h.enc ≠ enc then none
  else
    match h.lat, lat with
    | none, _ => some (hazTval 0 1 0 enc)
    | some p, .fix q => if ic - h.ic + q < p + 1 then some (hazTval (ic - h.ic) 3 0 enc) else none
    | some _, .var => none
    | some _, .none => none

/-- A write of `enc` under a latency class that breaks rule 2 or 4 of R42, against any earlier write of the segment. -/
def writeHazard (th : Thread) (lat : Lat) (enc : Nat) : Option Nat := th.run.haz.findSome? (fun h => h.breaks th.run.ic lat enc)

/-- The guard read that breaks the contract (R46). -/
def guardHazard (th : Thread) (c : Ctl) : Option Nat :=
  if guardReads c then readHazard th 3 (0x900 + c.gP.toNat) else none

/-- The first other read or write of the word that breaks the contract in a lane (R46). A write of s or h that one lane performs for all is checked
in each active lane, since each is bound by it (`writeReg`). -/
def formHazard (s : State) (i : Iss) (l : Nat) (f : Form) : Option Nat :=
  let th := s.thread i.team l
  match (readsOf s i l f).findSome? (fun e => readHazard th e.1 e.2) with
  | some v => some v
  | none => (formWrites f).findSome? (writeHazard th f.lat)

/-- ADDR of a poisoned register (R336). -/
def poisonTval (enc : Nat) : Nat := 2 ^ 51 + enc

/-- The slot of a form's field D, A or B. -/
def fieldSlot (f : Form) : Nat → Sys2Proof.Slot
  | 0 => f.sd
  | 1 => f.sa
  | _ => f.sb

/-- Registers in the order in which they are read, up to the first that is poisoned, with the pair's other half where that one is the low half of a
64-bit operand (R50). -/
def readUpTo (bad : Nat → Bool) (f : Form) : List (Nat × Nat) → List Nat
  | [] => []
  | e :: es =>
    if bad e.2 then
      e.2 :: ((es.take 1).filter (fun x => decide (x.1 = e.1) && decide (x.2 = e.2 + 1) && (fieldSlot f e.1).wide)).map Prod.snd
    else e.2 :: readUpTo bad f es

/-- The fault of the first poisoned register that the lane reads in one of the fields, in their order (R336), with Lab of what had been read when it
was found (R70). -/
def poisonIn (s : State) (i : Iss) (l : Nat) (f : Form) (fields : List Nat) : Option (Flt × Label) :=
  let rs := readsOf s i l f
  let order := fields.flatMap (fun n => rs.filter (fun e => decide (e.1 = n)))
  let bad := fun e => decide (e < 0x900) && (regRead s i.team l e).pois
  match (order.map Prod.snd).find? bad with
  | some e => some (⟨.memPoison, poisonTval e⟩, labOf s i.team l f.c ((readUpTo bad f order).map (fun e => (regRead s i.team l e).lab)))
  | none => none

/-- The first poisoned register that the form reads, in the order A, B, D (R336). -/
def poisonRead (s : State) (i : Iss) (l : Nat) (f : Form) : Option (Flt × Label) := poisonIn s i l f [1, 2, 0]

-- writing

/-- A write that rule 4 of R42 does not order after an earlier one of the segment may be lost to it: the register then holds what that one gives it
(R43, log 11). -/
def overtaken (key : List Nat) (ic : Nat) (lat : Lat) (enc : Nat) : List Haz → Reg → Reg
  | [], r => r
  | h :: hs, r =>
    overtaken key ic lat enc hs
      (if (h.breaks ic lat enc).isSome ∧ h.lat.isSome then (if Config.freeBit (42 :: h.ic :: enc :: key) then h.new else r) else r)

/-- The register with encoding `enc` given a value. -/
def setReg (s : State) (t l enc : Nat) (r : Reg) : State :=
  if enc < 0x800 then s.modThread t l (fun th => { th with r := { th.r with v := Tbl.put th.r.v enc r } })
  else if enc < 0x900 then s.modTeam t (fun tm => { tm with r := { tm.r with s := Tbl.put tm.r.s (enc - 0x800) r } })
  else if enc < 0x908 then
    s.modThread t l (fun th => { th with r := { th.r with p := Tbl.put th.r.p (enc - 0x900) ⟨decide (r.val ≠ 0), r.lab⟩ } })
  else s.modTeam t (fun tm => { tm with r := { tm.r with h := Tbl.put tm.r.h (enc - 0x920) r } })

/-- The hazard of a write noted for threads (R42). -/
def noteHaz (s : State) (t : Nat) (ls : List Nat) (enc : Nat) (lat : Option Nat) (old new : Reg) : State :=
  ls.foldl (fun s l => s.modThread t l (fun th => { th with
    run := { th.run with haz := ⟨enc, lat, th.run.ic, old, new⟩ :: th.run.haz } })) s

/-- What a register holds once a value is written to it: a predicate is set by a value that is not zero (R50). -/
def asHeld (enc : Nat) (r : Reg) : Reg := if 0x900 ≤ enc ∧ enc < 0x908 then ⟨if r.val ≠ 0 then 1 else 0, r.lab, false⟩ else r

/-- A fixed-latency write of one register by thread `l`; `act` are the lanes that the instruction is active in, `set` the lane
set. Writes of s and h registers stay unpublished (R44); of two writes with no order between them, for which R44 allows either as the final value,
the later to issue stands (DESIGN CHOICE, log 88). Such a write binds each active lane by its latency; a lane that is guarded off at it does
nothing at all (R36), and reads the new value unchecked (DESIGN CHOICE, log 86). -/
def writeReg (s : State) (t l : Nat) (act set : List Nat) (lat : Lat) (enc : Nat) (r : Reg) : State :=
  let th := s.thread t l
  let old := regNow s t l enc
  let n := match lat with | .fix n => some n | .var => none | .none => none
  let s := setReg s t l enc (overtaken [t, l, th.run.ic] th.run.ic lat enc th.run.haz r)
  if enc < 0x800 ∨ (0x900 ≤ enc ∧ enc < 0x908) then noteHaz s t [l] enc n old (asHeld enc r)
  else
    (noteHaz s t act enc n old (asHeld enc r)).modTeam t (fun tm => { tm with unpub := { enc, lanes := set, old } :: tm.unpub })

/-- WriteOp and WriteOp64 of a v, s, p or h destination (R50). A pair takes one label. -/
def writeOp (s : State) (t l : Nat) (act set : List Nat) (lat : Lat) (wide : Bool) (d : Operand) (x : DWord) (lab : Label) :
    State :=
  match encsOf wide d with
  | [] => s
  | [e] => writeReg s t l act set lat e ⟨x.setWidth 32, lab, false⟩
  | e :: e' :: _ =>
    writeReg (writeReg s t l act set lat e ⟨x.setWidth 32, lab, false⟩) t l act set lat e'
      ⟨(x >>> 32).setWidth 32, lab, false⟩

end Sys2Proof.Machine
end

