-- ==== Sys2Proof/Machine/Issue.lean ====
section
/-! DEFINITION. The skeleton of every issue (R51): which lanes fault before the instruction's effect, which are guarded off
and which are active; the effect; the next PC (R130), the segment's end (R41), and the counts of R42, R76, R319. -/

namespace Sys2Proof.Machine

open Sys2Proof

/-- What stands before the effect in one lane: a fault (R46, R336), guarded off (R36), or active. -/
inductive Stage where
  | fault (f : Flt) (lab : Label)
  | off
  | act
  deriving DecidableEq, Repr

/-- What the effect comes to in one lane: the sequential successor (R130), another PC, the same PC (a thread that ends), no issue yet (a lane that
waits alone, R126), or a precise fault. -/
inductive Out where
  | next
  | jump (pc : PC)
  | stay
  | wait
  | fault (f : Flt) (lab : Label)
  deriving DecidableEq, Repr

/-- What the effect comes to in the lane set: it holds at issue, to be tried again, or it is done; lanes not listed have
`Out.next`. -/
inductive Eff where
  | hold (s : State)
  | done (s : State) (outs : List (Nat × Out))

/-- How an instruction ends a segment beyond its S and F bits: as if S were set (R308), as a reform point (R135), or by ending
its active threads (R137). -/
inductive SegEnd where
  | plain | asS | reform | exit
  deriving DecidableEq, Repr

/-- The stage of lane `l` of the lane set (R51). Outside validating mode the contract is not checked. -/
def stageOf (s : State) (i : Iss) (l : Nat) (f : Form) : Stage :=
  let tm := s.team i.team
  match (if tm.hdr.vmode then guardHazard (tm.thread l) f.c else none) with
  | some v => .fault ⟨.staticHazard, v⟩ (pcLabel s i.team l)
  | none =>
    if !guardPasses s i.team l f.c then .off
    else
      match (if tm.hdr.vmode then formHazard s i l f else none) with
      | some v => .fault ⟨.staticHazard, v⟩ (labOf s i.team l f.c [])
      | none =>
        match (if f.late then none else poisonRead s i l f) with
        | some (g, lab) => .fault g lab
        | none => .act

/-- A thread past its instruction, at `pc` (R130, R42, R76). -/
def advance (s : State) (t l : Nat) (pc : PC) : State :=
  s.modThread t l (fun th => { th with
    r := { th.r with pc := pc }
    run := { th.run with ic := th.run.ic + 1, age := 0, xres := [], waitH := none, waitQ := none } })

/-- The end of the instruction in one active lane. -/
def settle (s : State) (t l : Nat) (o : Out) : State :=
  match o with
  | .next => advance s t l ((s.thread t l).r.pc + 12)
  | .jump p => advance s t l p
  | .stay => advance s t l (s.thread t l).r.pc
  | .wait => s.modThread t l (fun th => { th with run := { th.run with age := th.run.age + 1 } })
  | .fault f lab => takeFault s t l f lab

def outOf (outs : List (Nat × Out)) (l : Nat) : Out :=
  match outs.find? (fun e => decide (e.1 = l)) with
  | some e => e.2
  | none => .next

/-- The end of the instruction in one lane of the lane set. -/
def settleStage (s : State) (t l : Nat) (st : Stage) (o : Out) : State :=
  match st with
  | .fault f lab => takeFault s t l f lab
  | .off => settle s t l .next
  | .act => settle s t l o

/-- Whether a lane's instruction did not complete: it faulted, or waits. -/
def faulted (st : Stage) (o : Out) : Bool :=
  match st, o with
  | .fault _ _, _ => true
  | .act, .fault _ _ => true
  | .act, .next => false
  | .act, .jump _ => false
  | .act, .stay => false
  | .act, .wait => true
  | .off, _ => false

/-- The park that the instruction puts a lane in, if any (R40, R41, R135, R137, R308). -/
def parkOf (e : SegEnd) (c : Ctl) (act : Bool) : Option ParkKind :=
  if decide (e = .exit) && act then some .exit
  else if decide (e = .reform) || c.f then some .reform
  else if decide (e = .asS) || c.s then some .seg
  else none

/-- Y of the group whose lanes issue, and the cycle of its issue (R245, R46). -/
def noteGroup (s : State) (t : Nat) (lanes : List Nat) (y : Bool) : State :=
  let cyc := (s.core (s.team t).at_.core).cyc
  s.modTeam t (fun tm => { tm with groups := tm.groups.map (fun e =>
    if e.2.lanes.any (fun l => lanes.contains l) then (e.1, { e.2 with y := e.2.y || y, lastIss := some cyc }) else e) })

/-- Whether a lane set of the second port issues in the cycle in which its group's primary port has issued (R76). -/
def bothIssue (s : State) (i : Iss) : Bool :=
  i.second && (s.team i.team).groups.any (fun g => g.2.lanes.any i.lanes.contains && decide (g.2.lastIss = some (s.core i.core).cyc))

/-- The events of an issue: `issued`, and `dual` where both ports have issued (R319). -/
def countIssue (s : State) (core part : Nat) (both : Bool) : State :=
  let s := s.countCore core part .issued
  if both then s.countCore core part .dual else s

/-- A lane set that holds at issue: its lanes were selected and did not issue (R76). -/
def holdLanes (s : State) (t : Nat) (lanes : List Nat) : State :=
  lanes.foldl (fun s l => s.modThread t l (fun th => { th with run := { th.run with age := th.run.age + 1 } })) s

/-- Lanes parked together under one number (R41). -/
def parkLanes (s : State) (t : Nat) (ls : List (Nat × ParkKind)) : State :=
  if ls = [] then s
  else
    let id := s.newId
    (ls.foldl (fun s e => s.modThread t e.1 (fun th => { th with run := { th.run with park := some ⟨id, e.2⟩ } })) s).bumpId

/-- Issue of the current lane set (R51). With nothing issuing, nothing happens. -/
def issueWith (e : SegEnd) (f : Form) (eff : State → Iss → List Nat → Eff) (s : State) : State :=
  match s.m.cur with
  | .lanes i =>
    let act := i.lanes.filter (fun l => decide (stageOf s i l f = .act))
    match eff s i act with
    | .hold s' => holdLanes s' i.team i.lanes
    | .done s' outs =>
      let s1 := i.lanes.foldl (fun s1 l => settleStage s1 i.team l (stageOf s i l f) (outOf outs l)) s'
      let s2 := countIssue (noteGroup s1 i.team i.lanes f.c.y) i.core (s.team i.team).at_.part (bothIssue s i)
      parkLanes s2 i.team (i.lanes.filterMap (fun l =>
        if faulted (stageOf s i l f) (outOf outs l) then none
        else (parkOf e f.c (act.contains l)).map (fun k => (l, k))))
  | .walker _ _ => s
  | .none => s

/-- The form of an instruction of a core. -/
def formOf (i : Instr) : Form := (coreForm i).getD { c := default, opc := 0 }

/-- The three sources of a form in one lane: A, B, and D where D is read. -/
structure Srcs where
  a : Src := {}
  b : Src := {}
  d : Src := {}
  p : Src := {}
  deriving DecidableEq, Repr, Inhabited

/-- The sources read (R50), with the predicate that AUX names (R104, R125). -/
def readSrcs (s : State) (t l : Nat) (k : Kind) (f : Form) : Srcs :=
  { a := readOp s t l k f.sa.wide f.a
    b := readOp s t l k f.sb.wide f.b
    d := if f.dSrc then readOp s t l k f.sd.wide f.d else {}
    p := match f.pC with | some p => oneRead s t l (0x900 + p.toNat) | none => {} }

/-- Lab of the sources that a form reads. -/
def srcsLab (s : State) (t l : Nat) (f : Form) (x : Srcs) : Label := labOf s t l f.c [x.a.lab, x.b.lab, x.d.lab, x.p.lab]

/-- An instruction that computes in each lane from its own sources and writes D (R98 to R118, R125): all lanes read the state at
issue. -/
def aluEff (k : Kind) (f : Form) (op : Srcs → DWord) (s : State) (i : Iss) (act : List Nat) : Eff :=
  .done (act.foldl (fun s' l =>
    let x := readSrcs s i.team l k f
    writeOp s' i.team l act i.lanes f.lat f.sd.wide f.d (op x) (srcsLab s i.team l f x)) s) []

def issueAlu (k : Kind) (f : Form) (op : Srcs → DWord) (s : State) : State := issueWith .plain f (aluEff k f op) s

end Sys2Proof.Machine
end

