-- ==== Sys2Proof/Machine/Queues.lean ====
section
/-! DEFINITION. Results owed to threads (R41, R181), queue registers (R214), handles (R216 to R218), and the meanings of `mov`,
`umov`, `htest` and `hmov` (R108, R126, R228, R231). -/

namespace Sys2Proof.Machine

open Sys2Proof

-- queue registers

def State.modQueue (s : State) (t q : Nat) (f : Queue → Queue) : State :=
  s.modTeam t (fun tm => { tm with r := { tm.r with q := Tbl.upd tm.r.q q {} f } })

/-- Pushes of engines that waited take the room there is (R214): 64 elements, less the places held for elements that threads will push. -/
def Queue.settle (q : Queue) : Queue :=
  let n := 64 - q.kept - q.elems.length
  { q with elems := q.elems ++ (q.excess.take n).map Prod.snd, excess := q.excess.drop n }

/-- Elements pushed by an engine's command or the anchor, by its number, each as room allows; a push ends a loop queue's end state (R214, R289). -/
def Queue.push (q : Queue) (xs : List QElem) (src : Nat := 0) : Queue :=
  if xs = [] then q else ({ q with excess := q.excess ++ xs.map (Prod.mk src), ended := false } : Queue).settle

/-- Whether elements of an engine's command still wait for room (R214). -/
def Queue.waits (q : Queue) (src : Nat) : Bool := q.excess.any (fun e => decide (e.1 = src))

/-- Whether a thread's push of `n` elements has room (R214). -/
def Queue.room (q : Queue) (n : Nat) : Bool := decide (q.excess = []) && decide (q.elems.length + q.kept + n ≤ 64)

-- results owed

/-- An element that was popped for queue `q` is pushed there, or its place given up (R108, R214). -/
def pushKept (s : State) (t q : Nat) (x : Option QElem) : State :=
  s.modQueue t q (fun k => ({ k with kept := k.kept - 1, elems := k.elems ++ x.toList, ended := k.ended && x.isNone } : Queue).settle)

/-- The destination of a variable-latency result. -/
def destOf (wide : Bool) : Operand → Dest
  | .v n => .v n.toNat wide
  | .s n => .s n.toNat wide
  | .p n => .p n.toNat
  | .q n => .q n.toNat
  | .h _ => .none
  | .x _ => .none
  | .imm _ => .none
  | .z => .none

/-- Whether a form's result is one that a fence waits for: a load's, an atomic's, a pop's or a counter read's (R169). -/
def Form.counts (f : Form) : Bool :=
  !([opcOf 0x11 5, opcOf 0x1A 0, opcOf 0x1A 4, opcOf 0x1C 3, opcOf 0x1C 4, opcOf 0x1E 1].contains f.opc) &&
  !(decide (f.opc = opcOf 0x1C 0) && decide (f.d = .z))

/-- An owed result noted for thread `l` under the number `id` (R41), with the hazards of its destination (R42). A destination in
s stays unpublished (R44). `addr` and `wr` go into the TVAL of a fault delivered at the park. -/
def oweResult (s : State) (t l : Nat) (act set : List Nat) (f : Form) (id : Nat) (lab : Label) (wr : Bool) (addr : Nat) : State :=
  let th := s.thread t l
  let s := s.modThread t l (fun th' => { th' with
    out := { th'.out with owes := th'.out.owes ++ [{ id, pc := th.r.pc, ic := th.run.ic, dest := destOf f.sd.wide f.d, lab, wr, addr, counts := Form.counts f }] } })
  (formWrites f).foldl (fun s e =>
    let old := regNow s t l e
    if e < 0x800 ∨ (0x900 ≤ e ∧ e < 0x908) then noteHaz s t [l] e none old old
    else (noteHaz s t act e none old old).modTeam t (fun tm => { tm with unpub := { enc := e, lanes := set, old } :: tm.unpub })) s

/-- A destination given the value of a returned result. -/
def setDest (s : State) (t l : Nat) (d : Dest) (x : DWord) (lab : Label) : State :=
  let one := fun (s : State) e => setReg s t l e ⟨x.setWidth 32, lab, false⟩
  let two := fun (s : State) e => setReg (one s e) t l (e + 1) ⟨(x >>> 32).setWidth 32, lab, false⟩
  match d with
  | .none => s
  | .v n w => if w then two s n else one s n
  | .s n w => if w then two s (0x800 + n) else one s (0x800 + n)
  | .p n => one s (0x900 + n)
  | .q n => pushKept s t n (some ⟨x.setWidth 32, lab, false⟩)

/-- The earliest fault of the segment that is delivered at the park (R181, R317, R338). -/
def noteSFault (s : State) (t l : Nat) (f : SFault) : State :=
  s.modThread t l (fun th => { th with out := { th.out with sFault :=
    match th.out.sFault with
    | some g => if g.ic ≤ f.ic then some g else some f
    | none => some f } })

/-- TVAL bits of R180: WR and ADDR. -/
def accessBits (wr : Bool) (addr : Nat) : Nat := bit wr 52 + addr % 2 ^ 52

/-- How an owed result comes back: a value with its label, a poison mark with the label of what was read, or a refused add (R181, R317). -/
inductive Ret where
  | val (x : DWord) (lab : Label)
  | poison (lab : Label := 0)
  | refused (bits : Nat)
  deriving DecidableEq, Repr

/-- A result that does not come leaves its destination as it is; a place held in a queue is given up (R214). -/
def giveUp (s : State) (t : Nat) (d : Dest) : State :=
  match d with
  | .q n => pushKept s t n none
  | .none => s
  | .v _ _ => s
  | .s _ _ => s
  | .p _ => s

/-- A result returned to a thread: it is owed no more; its destination is written, or the fault waits for the park. -/
def returnResult (s : State) (t l id : Nat) (r : Ret) : State :=
  match (s.thread t l).out.owes.find? (fun o => decide (o.id = id)) with
  | none => s
  | some o =>
    let s := s.modThread t l (fun th => { th with out := { th.out with
      owes := th.out.owes.filter (fun o => decide (o.id ≠ id)) } })
    match r with
    | .val x lab => setDest s t l o.dest x (lab.join o.lab)
    | .poison lab =>
      noteSFault (giveUp s t o.dest) t l ⟨o.ic, o.pc, .memPoison, accessBits o.wr o.addr, Label.joinAll [o.lab, o.flab, lab]⟩
    | .refused bits => noteSFault (giveUp s t o.dest) t l ⟨o.ic, o.pc, .counterLimit, bits, o.lab.join o.flab⟩

-- pops

/-- What a pop of a loop queue returns once the loop has ended and the queue is empty (R289). -/
def loopEnd : DWord := 0xFFFFFFFF

/-- Whether a new pop of a queue finds it in its end state and empty (R289): each element left has its claim. -/
def Queue.atEnd (q : Queue) : Bool := q.ended && decide (q.elems.length ≤ q.claims.length)

/-- The loop that a team has active (R280). -/
def loopOf (s : State) (t : Nat) : Option Loop :=
  match (s.core (s.team t).at_.core).anchor with
  | some a => if a.team = t then some a else none
  | none => none

/-- An index that arrives at a thread: an iteration of the batch in progress will be bound to it at its park (R289). Of two that arrive in one segment the
later stands (DESIGN CHOICE, log 92). -/
def bindIndex (s : State) (t l : Nat) (x : Word) : State :=
  match loopOf s t with
  | none => s
  | some a =>
    match a.batch.find? (fun e => decide (e.idx = x.toNat) && !e.ended) with
    | none => s
    | some e => s.modThread t l (fun th => { th with binding := some { idx := e.idx, slot := e.slot } })

/-- The oldest element given to the oldest claim, where that claim is a thread's (R214). -/
def deliverClaim (s : State) (t q : Nat) : State :=
  let qu := (s.team t).queue q
  match qu.claims, qu.elems with
  | .thread l id :: cs, e :: es =>
    let s := s.modQueue t q (fun k => ({ k with claims := cs, elems := es } : Queue).settle)
    let binds := (s.thread t l).out.owes.any (fun o => decide (o.id = id) && o.bindSlot)
    let s := if binds && !e.pois then bindIndex s t l e.val else s
    returnResult s t l id (if e.pois then .poison e.lab else .val (e.val.setWidth 64) e.lab)
  | .thread l id :: cs, [] =>
    if qu.ended then
      let lab := ((s.thread t l).out.owes.find? (fun o => decide (o.id = id))).map Owe.endLab
      returnResult (s.modQueue t q (fun k => { k with claims := cs })) t l id (.val loopEnd (lab.getD 0))
    else s
  | .row _ :: _, _ => s
  | [], _ => s

/-- Claims at the head of a queue in its end state answered (R289). -/
def answerEnd : Nat → State → Nat → Nat → State
  | 0, s, _, _ => s
  | n + 1, s, t, q => answerEnd n (deliverClaim s t q) t q

/-- A loop that is no longer active: its queue enters its end state (R280, R289). -/
def closeLoop (s : State) (core : Nat) : State :=
  match (s.core core).anchor with
  | none => s
  | some a =>
    let s := (s.modCore core (fun k => { k with anchor := none })).modQueue a.team a.qn (fun q => { q with ended := true })
    answerEnd ((s.team a.team).queue a.qn).claims.length s a.team a.qn

-- handles

/-- The fields of a token (R216). -/
def tokCore (w : Word) : Nat := w.toNat / 2 ^ 25
def tokEntry (w : Word) : Nat := w.toNat / 2 ^ 16 % 512
def tokGen (w : Word) : Nat := w.toNat % 2 ^ 16
def mkToken (core entry gen : Nat) : Word := BitVec.ofNat 32 (core * 2 ^ 25 + entry * 2 ^ 16 + gen)

def State.handle (s : State) (core entry : Nat) : HEnt := Tbl.getD (s.core core).hnd entry {}
def State.modHandle (s : State) (core entry : Nat) (f : HEnt → HEnt) : State :=
  s.modCore core (fun k => { k with hnd := Tbl.upd k.hnd entry {} f })

/-- The teams of a team's cluster that hold their places, by their numbers (R155). -/
def clusterTeams (s : State) (t : Nat) : List Nat :=
  let p := (s.team t).at_
  (s.teams.filter (fun e => e.2.at_.part = p.part ∧ e.2.at_.ctx = p.ctx ∧ e.2.at_.grid = p.grid ∧ e.2.at_.clu = p.clu)).map Prod.fst

/-- The team of a cluster rank. -/
def rankTeam (s : State) (t rank : Nat) : Option Nat := (clusterTeams s t).find? (fun u => decide ((s.team u).at_.rank = rank))

/-- What a handle's token stands for (R217, R218). -/
inductive HRead where
  | pending
  | done (e : HEnt)
  | null
  | stale
  deriving DecidableEq, Repr

def readToken (s : State) (t : Nat) (w : Word) : HRead :=
  if w = 0 then .null
  else
    let e := s.handle (tokCore w) (tokEntry w)
    if e.gen ≠ tokGen w ∨ !(clusterTeams s t).any (fun u => decide ((s.team u).at_.core = tokCore w)) then .stale
    else
      match e.st with
      | .pending => .pending
      | .done => .done e
      | .free => .stale

/-- The status word that htest returns (R218, R228). -/
def HRead.status : HRead → Word
  | .pending => 0xFD
  | .null => 0xFE
  | .stale => 0xFF
  | .done e => e.status

/-- Entries that are done and whose token no h register of the module holds are freed (R217). -/
def sweepHandles (s : State) (core : Nat) : State :=
  let held := fun w => s.teams.any (fun e => !e.2.ended && e.2.r.h.any (fun r => decide (r.2.val = w)))
  s.modCore core (fun k => { k with hnd := k.hnd.map (fun e =>
    if e.2.st = .done ∧ !held (mkToken core e.1 e.2.gen) then (e.1, { e.2 with st := .free }) else e) })

/-- A free entry of a core's handle table, which one is not specified (R216; log 12). -/
def freeEntry (s : State) (core : Nat) : Option Nat :=
  let start := Config.freeEntry s.m.free % 512
  (List.range 512).map (fun i => (start + i) % 512) |>.find? (fun e => decide ((s.handle core e).st = .free))

/-- A new handle: the entry taken, its token, and the state with the entry pending (R216). -/
def takeHandle (s : State) (core : Nat) (lab : Label) : Option (Nat × Word × State) :=
  match freeEntry s core with
  | none => none
  | some e =>
    let g := (s.handle core e).gen
    let g' := if g = 0xFFFF then 1 else g + 1
    some (e, mkToken core e g',
      (s.modHandle core e (fun _ => { st := .pending, gen := g', status := 0, flt := none, lab })).bumpFree)

/-- A command's end recorded in its entry: status word and fault (R218). -/
def endHandle (s : State) (core entry : Nat) (status : Nat) (flt : Option Flt) : State :=
  sweepHandles (s.modHandle core entry (fun h =>
    if h.st = .pending then { h with st := .done, status := BitVec.ofNat 32 status, flt } else h)) core

/-- The read of an h register through ReadOp in a lane: a wait, a status word, or the recorded fault (R218). -/
inductive HVal where
  | wait (w : Word)
  | val (x : Src)
  | fault (f : Flt) (lab : Label)
  deriving DecidableEq, Repr

def readHandle (s : State) (t l : Nat) (n : Nat) : HVal :=
  let r := regRead s t l (0x920 + n)
  match readToken s t r.val with
  | .pending => .wait r.val
  | .null => .val ⟨0xFE, r.lab⟩
  | .stale => .val ⟨0xFF, r.lab⟩
  | .done e =>
    match e.flt with
    | some f => .fault f r.lab
    | none => .val ⟨e.status.setWidth 64, r.lab⟩

/-- Lanes that wait on a handle (R76, R83). -/
def waitHandle (s : State) (t : Nat) (ls : List Nat) (w : Word) : State :=
  ls.foldl (fun s l => s.modThread t l (fun th => { th with run := { th.run with waitH := some w } })) s

-- mov

/-- An owed result that a pop claims from a queue; a queue in its end state answers at once (R289). A fault of the pop takes the label `flab`. -/
def claimLane (s : State) (t l q id : Nat) (bind : Bool) (flab : Label) : State :=
  let s := s.modThread t l (fun th => { th with out := { th.out with owes := th.out.owes.map (fun o =>
    if o.id = id then { o with bindSlot := bind, endLab := pcLabel s t l, flab } else o) } })
  if ((s.team t).queue q).atEnd then returnResult s t l id (.val loopEnd (pcLabel s t l))
  else s.modQueue t q (fun k => { k with claims := k.claims ++ [.thread l id] })

/-- A pop in each active lane, claimed at issue in ascending lane position (R108, R214). -/
def popEff (f : Form) (q : Nat) (s : State) (i : Iss) (act : List Nat) : Eff :=
  .done (act.foldl (fun s l =>
    let id := s.newId
    claimLane (oweResult s.bumpId i.team l act i.lanes f id 0 false q) i.team l q id false (labOf s i.team l f.c [])) s) []

/-- Lanes that wait for room in a queue (R76, R214). -/
def waitQueue (s : State) (t : Nat) (ls : List Nat) (q n : Nat) : State :=
  ls.foldl (fun s l => s.modThread t l (fun th => { th with run := { th.run with waitQ := some (q, n) } })) s

/-- Elements pushed by lanes, one from each, once there is room for all of them (R108, R214); with no lane there is nothing to wait for (R36). -/
def pushAll (s : State) (t q : Nat) (xs : List QElem) : Option State :=
  if xs = [] then some s
  else if ((s.team t).queue q).room xs.length then some (s.modQueue t q (fun k => k.push xs))
  else none

def pushEff (f : Form) (q : Nat) (s : State) (i : Iss) (act : List Nat) : Eff :=
  let xs := act.map (fun l =>
    let x := readOp s i.team l .int false f.a
    (⟨x.val.setWidth 32, labOf s i.team l f.c [x.lab], false⟩ : QElem))
  match pushAll s i.team q xs with
  | some s' => .done s' []
  | none => .hold (waitQueue s i.team act q act.length)

/-- A pop and a push in one instruction. It holds at issue until queue `q'` has room for one element from each active lane, and keeps those places;
the pops are claimed at issue, and each element is pushed, with its own label, when it has arrived, which the lane set's park waits for. A poisoned
element is not pushed, and its lane takes MEM_POISON at the park (R108, R214; log 19). -/
def moveEff (f : Form) (q q' : Nat) (s : State) (i : Iss) (act : List Nat) : Eff :=
  if act = [] then .done s []
  else if !((s.team i.team).queue q').room act.length then .hold (waitQueue s i.team act q' act.length)
  else popEff f q (s.modQueue i.team q' (fun k => { k with kept := k.kept + act.length })) i act

/-- A read of a handle in each active lane: the lane set waits for the command, then each lane takes the status or the
command's fault (R108, R218). The value is pushed where D is a queue. -/
def handleEff (f : Form) (n : Nat) (s : State) (i : Iss) (act : List Nat) : Eff :=
  let rs := act.map (fun l => (l, readHandle s i.team l n))
  match rs.findSome? (fun e => match e.2 with | .wait w => some w | .val _ => none | .fault _ _ => none) with
  | some w => .hold (waitHandle s i.team act w)
  | none =>
    let outs := rs.filterMap (fun e => match e.2 with
      | .fault g lab => some (e.1, Out.fault g (labOf s i.team e.1 f.c [lab]))
      | .val _ => none
      | .wait _ => none)
    let vals := rs.filterMap (fun e => match e.2 with
      | .val x => some (e.1, (⟨x.val, labOf s i.team e.1 f.c [x.lab]⟩ : Src))
      | .fault _ _ => none
      | .wait _ => none)
    match f.d with
    | .q q =>
      match pushAll s i.team q.toNat (vals.map (fun e => ⟨e.2.val.setWidth 32, e.2.lab, false⟩)) with
      | some s' => .done s' outs
      | none => .hold (waitQueue s i.team act q.toNat vals.length)
    | d => .done (vals.foldl (fun s e => writeOp s i.team e.1 act i.lanes f.lat false d e.2.val e.2.lab) s) outs

def movEff (f : Form) (s : State) (i : Iss) (act : List Nat) : Eff :=
  match f.a, f.d with
  | .q q, .q q' => moveEff f q.toNat q'.toNat s i act
  | .q q, _ => popEff f q.toNat s i act
  | .h n, _ => handleEff f n.toNat s i act
  | _, .q q => pushEff f q.toNat s i act
  | _, _ => aluEff .int f (fun x => x.a.val) s i act

/-- `mov` (R108). -/
def execMov (c : Ctl) (wide : Bool) (d a : Operand) (s : State) : Host.Outcome State Fault Refusal :=
  .next (issueWith .plain (formOf (.mov c wide d a)) (movEff (formOf (.mov c wide d a))) s)

/-- `umov`: one lane writes a team register (R126). A handle that is not done is waited for by that lane alone: the other lanes have nothing to do
and go on (DEDUCED, log 86). -/
def umovEff (f : Form) (s : State) (i : Iss) (act : List Nat) : Eff :=
  match leads s i f act with
  | none => .done s []
  | some l =>
    let put := fun (x : Src) =>
      Eff.done (writeOp s i.team l act i.lanes f.lat f.sd.wide f.d x.val (labOf s i.team l f.c [x.lab])) []
    match f.a with
    | .h n =>
      match readHandle s i.team l n.toNat with
      | .wait w => if i.lanes = [l] then .hold (waitHandle s i.team [l] w) else .done (waitHandle s i.team [l] w) [(l, .wait)]
      | .val x => put x
      | .fault g lab => .done s [(l, .fault g (labOf s i.team l f.c [lab]))]
    | _ => put (readOp s i.team l .int f.sa.wide f.a)

def execUmov (c : Ctl) (wide : Bool) (d a : Operand) (s : State) : Host.Outcome State Fault Refusal :=
  .next (issueWith .plain (formOf (.umov c wide d a)) (umovEff (formOf (.umov c wide d a))) s)

-- htest, hmov

/-- The value of htest: the status word, or whether CODE is 0x00 or 0x02 for a predicate. Its label is HLabel and nothing more (R228). -/
def htestVal (d : Operand) (w : Word) : DWord :=
  match d with
  | .p _ => BitVec.ofNat 64 (decide (w.toNat % 256 = 0 ∨ w.toNat % 256 = 2)).toNat
  | _ => w.setWidth 64

def htestEff (f : Form) (s : State) (i : Iss) (act : List Nat) : Eff :=
  .done (act.foldl (fun s' l =>
    let r := regRead s i.team l (encOf f.a)
    writeOp s' i.team l act i.lanes f.lat false f.d (htestVal f.d (readToken s i.team r.val).status) r.lab) s) []

/-- `htest` (R228). -/
def execHtest (c : Ctl) (d a : Operand) (s : State) : Host.Outcome State Fault Refusal :=
  .next (issueWith .plain (formOf (.htest c d a)) (htestEff (formOf (.htest c d a))) s)

/-- hmov moves a token (R231): into an h register once, by Lowest(); into v in each active lane. A move from h keeps HLabel
as it is. -/
def hmovEff (f : Form) (s : State) (i : Iss) (act : List Nat) : Eff :=
  let lab := fun l (x : Src) => match f.a with
    | .h _ => x.lab
    | _ => labOf s i.team l f.c [x.lab]
  let one := fun s' l =>
    let x := readOp s i.team l .int false f.a
    writeOp s' i.team l act i.lanes f.lat false f.d x.val (lab l x)
  match f.d with
  | .h _ =>
    match leads s i f act with
    | none => .done s []
    | some l => .done (sweepHandles (one s l) (tokCore (regNow s i.team l (encOf f.d)).val)) []
  | _ => .done (act.foldl one s) []

def execHmov (c : Ctl) (d a : Operand) (s : State) : Host.Outcome State Fault Refusal :=
  .next (issueWith .plain (formOf (.hmov c d a)) (hmovEff (formOf (.hmov c d a))) s)

end Sys2Proof.Machine
end

