-- ==== Sys2Proof/Machine/Memory.lean ====
section
/-! DEFINITION. The memories as accesses reach them: places and lines (R16, R153 to R155, R160), the checks of an access
(R180), the cover map's filter (R291), the L1 (R159, R165, R167), requests in flight (R168), and team shared memory (R172). -/

namespace Sys2Proof.Machine

open Sys2Proof

/-- A value of n bytes as a load delivers it (R182). -/
def extendVal (n : Nat) (sx : Bool) (x : Nat) : DWord :=
  if sx ∧ 2 ^ (8 * n - 1) ≤ x then BitVec.ofNat 64 (x + 2 ^ 32 - 2 ^ (8 * n)) else BitVec.ofNat 64 x

-- the L1, by sector number

/-- A live copy of a sector (R165). -/
def l1Live (s : State) (core pa : Nat) : Option L1Sector :=
  match Tbl.find (s.core core).l1 (pa / 64) with
  | some k => if s.now < k.expiry then some k else none
  | none => none

/-- Bytes of a list replaced from an offset on. -/
def patch (bs : List Byte) (off : Nat) (new : List Byte) : List Byte := bs.take off ++ new ++ bs.drop (off + new.length)

/-- A store's bytes put into the core's copy in its cycle of issue (R167), whose label rises to the page's (R153; log 61). -/
def l1Store (s : State) (core pa : Nat) (bs : List Byte) (lab : Label) : State :=
  s.modCore core (fun k => { k with l1 := k.l1.map (fun e =>
    if e.1 = pa / 64 then (e.1, { e.2 with bytes := patch e.2.bytes (pa % 64) bs, lab := e.2.lab.join lab }) else e) })

/-- Sectors that an L1 of 256 KiB can hold (R12). -/
def l1Sectors : Nat := 4096

/-- A copy put into the L1; where it is full, one that no rule names is replaced (log 87). -/
def l1Put (s : State) (core sector : Nat) (k : L1Sector) : State :=
  let have_ := Tbl.keys (s.core core).l1
  let s := if have_.contains sector ∨ have_.length < l1Sectors then s
    else (s.modCore core (fun k => { k with
      l1 := Tbl.del k.l1 (have_.getD (Config.freeEntry s.m.free % have_.length) 0) })).bumpFree
  s.modCore core (fun c => { c with l1 := Tbl.put c.l1 sector k })

/-- The copy of a sector dropped (R185). -/
def l1Drop (s : State) (core pa : Nat) : State := s.modCore core (fun k => { k with l1 := Tbl.del k.l1 (pa / 64) })

-- team shared memory (R155, R172)

/-- The team and offset that a shared address of `n` bytes names for an access of team `t` (R155); with `own`, RANK must be 0. -/
def sharedPlace (s : State) (t ea n : Nat) (own : Bool) : Option (Nat × Nat) :=
  let rank := ea / 2 ^ 20 % 16
  let off := ea % 2 ^ 19
  if 2 ^ 24 ≤ ea ∨ ea / 2 ^ 19 % 2 = 1 then none
  else
    match (if rank = 0 then some t else if own then none else rankTeam s t (rank - 1)) with
    | none => none
    | some u => if off + n ≤ (s.team u).al.shLen then some (u, off) else none

def Team.shLab (tm : Team) (off : Nat) : Label := Tbl.getD tm.sh.lab (off / 256) tm.hdr.lfloor
def Team.shPois (tm : Team) (off : Nat) : Bool := Tbl.getD tm.sh.pois (off / 64) false

/-- A write into team shared memory: the line's label rises (R155); a partial write to a poisoned sector is discarded as under
R162, and one that covers a sector clears its mark. -/
def sharedWrite (s : State) (u off : Nat) (bs : List Byte) (lab : Label) : State :=
  if (s.team u).shPois off ∧ bs.length < 64 then s
  else
    s.modTeam u (fun tm => { tm with sh := {
      bytes := Mem.writeN tm.sh.bytes off bs
      lab := Tbl.put tm.sh.lab (off / 256) ((tm.shLab off).join lab)
      pois := if 64 ≤ bs.length then Tbl.del tm.sh.pois (off / 64) else tm.sh.pois } })

-- engine ownership (R174)

/-- The store pages that a stream may write, from its first on (R195, R210). -/
def Stream.pages (x : Stream) (pBase : Nat) : List Nat :=
  (List.range ((x.m + 31) / 32 * (x.n / 32))).map (pBase + x.acc.base + x.p0 + ·)

/-- Stamps of the streams in flight on a core that own a store page (R174, R201); one that has drained to a row boundary owns none (R330). -/
def streamOwners (s : State) (core page : Nat) : List Nat :=
  (s.core core).quad.fly.filterMap (fun e => match e.ins with
    | .mstream x =>
      if (x.pages (s.team e.team).al.pBase).contains page ∧ !((s.team e.team).atStop && x.popped.isEmpty) then some x.stamp else none
    | .mld _ _ _ _ _ _ _ _ _ => none
    | .mswap => none
    | .mread _ _ _ _ _ => none
    | .mzero _ _ _ _ => none
    | .mrel => none)

/-- Whether a command owns no line because its team has stopped (R330): it has drained, or it stands at a restart point: a copy between two lines, a
quantisation that has written none, a command whose gate is not met. -/
def Cmd.gaveUp (s : State) (m : Cmd) : Bool :=
  m.drained || ((s.team m.team).atStop && (match m.work with
    | .copy _ => true
    | .quant _ => decide (m.pos = 0)
    | .xinv _ _ _ => true))

/-- Stamps of the engine commands that own a line (R174); one that has stopped owns none until it resumes (R330). -/
def cmdOwners (s : State) (k : LineK) : List Nat :=
  (s.cores.flatMap (fun c => c.2.cmds)).filterMap (fun m =>
    if !m.gaveUp s && m.owned.any (fun e => decide (e.2 = k)) then some m.stamp else none)

/-- Stamps of all commands that own a line. -/
def owners (s : State) (k : LineK) : List Nat :=
  cmdOwners s k ++ (match k with
    | .acc c l => streamOwners s c (l / 16)
    | .mem _ => [] | .sh _ _ => [] | .wb _ _ => [] | .ab _ _ => [])

def owned (s : State) (k : LineK) : Bool := decide (owners s k ≠ [])
/-- Whether a command with an earlier stamp than `stamp` owns the line. -/
def ownedBefore (s : State) (k : LineK) (stamp : Nat) : Bool := (owners s k).any (fun n => decide (n < stamp))

/-- Whether a line of memory has left its home and is not read back yet (R161). -/
def LineK.away (s : State) : LineK → Bool
  | .mem l => (s.line l).away
  | .sh _ _ => false | .wb _ _ => false | .ab _ _ => false | .acc _ _ => false

/-- Whether an access that reaches a line at its home waits: an engine owns the line (R174), or it is being read from device memory (R161). -/
def closed (s : State) (k : LineK) : Bool := owned s k || k.away s
/-- The same for a command with a stamp: it waits for owners with an earlier one. -/
def closedBefore (s : State) (k : LineK) (stamp : Nat) : Bool := ownedBefore s k stamp || k.away s

/-- Whether an operation on a counter waits so. -/
def CtrKey.closed (s : State) : CtrKey → Bool
  | .line pa => Machine.closed s (.mem (pa / 256))
  | .near _ _ => false

/-- A stamp of this nanosecond: by the restores before it (R330), then by core, counted from 1, and order of issue (R174). At 0 in place of a core stand
commands that a restore brings back. -/
def stampAt (s : State) (core : Nat) : Nat := ((s.now * 2 ^ 64 + s.m.epoch) * 97 + core) * 2 ^ 64 + s.newId

/-- The stamp of a command that issues now (R174). -/
def stampNow (s : State) (core : Nat) : Nat := stampAt s (core + 1)

/-- The team whose shared memory a request goes to, and the counter that one goes to. -/
def ReqKind.shTeam : ReqKind → Option Nat
  | .shLoad u => some u | .shStore u => some u | .shAtomic u _ _ => some u
  | .load _ _ => none | .store => none | .atomic _ _ => none | .pref _ => none | .cadd _ _ => none | .cread _ => none
  | .arm _ _ _ => none | .disarm _ _ => none | .reply _ _ _ => none
def ReqKind.key : ReqKind → Option CtrKey
  | .cadd k _ => some k | .cread k => some k | .arm k _ _ => some k | .disarm k _ => some k
  | .load _ _ => none | .store => none | .atomic _ _ => none | .pref _ => none | .shLoad _ => none | .shStore _ => none
  | .shAtomic _ _ _ => none | .reply _ _ _ => none

/-- Whether an access of a team to its own shared memory waits: an engine owns the line, or an earlier access waits there. -/
def sharedBusy (s : State) (core t off : Nat) : Bool :=
  owned s (.sh t (off / 256)) ||
  (s.core core).out.any (fun r => decide (r.kind.shTeam = some t) && r.parts.any (fun p => decide (p.off / 256 = off / 256)))

-- addresses and the checks of orders 1 to 3 (R179, R180)

/-- What an access address names. -/
inductive Addr where
  | bad (f : Flt)
  | glob (va own : Nat)
  | shr (team off : Nat)
  deriving DecidableEq, Repr

/-- A local offset as a global address (R154). -/
def localVa (s : State) (t l off : Nat) : Nat :=
  let tm := s.team t
  ((s.ctx tm.at_.part tm.at_.ctx).lbase + (tm.at_.lt * 1024 + l) * 65536 + off) % 2 ^ 52

/-- ea (R179), as a number of 64 or 32 bits. -/
def eaOf (sp : Space) (a b : DWord) : Nat :=
  if sp = .g then (a + BitVec.signExtend 64 (b.setWidth 32 : Word)).toNat
  else ((a.setWidth 32 : Word) + (b.setWidth 32 : Word)).toNat

def formAddr (s : State) (t l : Nat) (sp : Space) (wr : Bool) (n ea : Nat) : Addr :=
  let tv := accessBits wr ea
  match sp with
  | .wb => .bad ⟨.bufferPort, tv⟩
  | .ab => .bad ⟨.bufferPort, tv⟩
  | .acc => .bad ⟨.bufferPort, tv⟩
  | .g => if ea % n ≠ 0 then .bad ⟨.misaligned, tv⟩ else .glob (ea % 2 ^ 52) (ea % 2 ^ 52)
  | .l =>
    if ea % n ≠ 0 then .bad ⟨.misaligned, tv⟩
    else if 65536 < ea + n then .bad ⟨.localRange, tv⟩
    else .glob (localVa s t l ea) ea
  | .s =>
    if ea % n ≠ 0 then .bad ⟨.misaligned, tv⟩
    else
      match sharedPlace s t ea n false with
      | some (u, off) => .shr u off
      | none => .bad ⟨.sharedRange, tv⟩

/-- One lane's access: the label of its address (Lab of R49), the address as a TVAL shows it, and, for a global one, the
translation. -/
structure Acc where
  l : Nat
  lab : Label
  own : Nat
  addr : Addr
  xa : Option XAns := none
  deriving DecidableEq, Repr

/-- The translations of a lane set's accesses: caches fill, walks are asked for; `xa` stays none where a walk runs. -/
def xlateAccs (s : State) (t kind need : Nat) : List Acc → State × List Acc
  | [] => (s, [])
  | a :: as =>
    match a.addr with
    | .glob va own =>
      match xlateThread s t a.l va own kind need with
      | .ans s' x => let r := xlateAccs s' t kind need as; (r.1, { a with xa := some x } :: r.2)
      | .wait s' => let r := xlateAccs s' t kind need as; (r.1, a :: r.2)
    | .bad _ => let r := xlateAccs s t kind need as; (r.1, a :: r.2)
    | .shr _ _ => let r := xlateAccs s t kind need as; (r.1, a :: r.2)

/-- Whether an access still waits for its walk. -/
def Acc.waits (a : Acc) : Bool :=
  match a.addr with
  | .glob _ _ => a.xa.isNone
  | .bad _ => false
  | .shr _ _ => false

/-- Orders 5 to 7 of R180 on a translation. -/
def pageFault (x : Xlat) (need : Nat) (wr : Bool) (own : Nat) : Option Flt :=
  let tv := accessBits wr own
  if !permsIn need (attrPerm x.attr) then some ⟨.pagePermission, tv⟩
  else if attrSealed x.attr then some ⟨.sealedAccess, tv⟩
  else if wr && attrCnt x.attr then some ⟨.counterStore, tv⟩
  else none

-- the cover map's checks and filter (R280, R291)

/-- Bytes of a cell (R281). -/
def cellBytes (c : Nat) : Nat := if c = 0 then 16 else if c = 1 then 64 else if c = 2 then 256 else 4096

/-- Whether an access of n bytes touches the region. -/
def Loop.touches (a : Loop) (va n : Nat) : Bool :=
  decide (va < a.rbase + a.ncells * a.size) && decide (a.rbase < va + n)

/-- The 64-byte sector of the cover-map store that holds a cell's entry of 12 bits (R286, R163). -/
def coverSector (c : Nat) : Nat := 12 * c / 512

/-- A cover-map entry (R286). -/
def covBit (e : Nat) : Bool := bitAt e 11
def wrBit (e : Nat) : Bool := bitAt e 10
def slotOf (e : Nat) : Nat := e % 256

/-- The cells of a bound iteration. -/
def Loop.cellsOf (a : Loop) (idx : Nat) : List Nat :=
  match a.batch.find? (fun e => decide (e.idx = idx)) with
  | some e => e.cells
  | none => []

/-- The T_w of a store that a team's loop accepted (R292). -/
def noteAccepted (s : State) (t tw : Nat) : State :=
  if (loopOf s t).isNone then s
  else
    s.modCore (s.team t).at_.core (fun k => { k with anchor := k.anchor.map (fun a => { a with tw := max a.tw tw }) })

/-- How the loop takes an access. -/
inductive Ovw where
  | pass
  | fault (c : FaultCode)
  | suppress (s : State)
  | accept (s : State)

/-- The check of a read or of a reduction (R291). -/
def ovwCheck (s : State) (t va n : Nat) (c : FaultCode) : Option FaultCode :=
  match loopOf s t with
  | some a => if a.touches va n then some c else none
  | none => none

/-- The check and filter of a store (R291). A store whose cell's entry is poisoned consumes the mark (R163, R336; DESIGN CHOICE, log 86). -/
def ovwStore (s : State) (t l va n : Nat) : Ovw :=
  match loopOf s t with
  | none => .pass
  | some a =>
    if !a.touches va n then .pass
    else
      let core := (s.team t).at_.core
      let c := (va - a.rbase) / a.size
      match (s.thread t l).bound with
      | none => .fault .ovwOutside
      | some b =>
        if va < a.rbase ∨ !(a.cellsOf b.idx).contains c then .fault .ovwOutside
        else if Tbl.getD (s.core core).coverPois (coverSector c) false then .fault .memPoison
        else
          let s := s.modThread t l (fun th => { th with bound := th.bound.map (fun b => { b with
            written := (List.range n).foldl (fun w i => Tbl.put w (va - a.rbase + i) true) b.written }) })
          let e := Tbl.getD (s.core core).cover c 0
          if covBit e ∨ (wrBit e ∧ slotOf e < b.slot) then .suppress s
          else .accept (s.modCore core (fun k => { k with cover := Tbl.put k.cover c (1024 + b.slot) }))

-- requests (R159, R168)

/-- A request put behind those that the core has in flight. -/
def addReq (s : State) (core : Nat) (r : Req) : State := s.modCore core (fun k => { k with out := k.out ++ [r] })
def dropReq (s : State) (core id : Nat) : State :=
  s.modCore core (fun k => { k with out := k.out.filter (fun r => decide (r.id ≠ id)) })
def findReq (s : State) (core id : Nat) : Option Req := (s.core core).out.find? (fun r => decide (r.id = id))

def CtrKey.isLine : CtrKey → Bool | .line _ => true | .near _ _ => false

/-- Whether a request goes to a line of this module's or another's memory. -/
def ReqKind.onLine (k : ReqKind) : Bool :=
  match k with
  | .load _ _ => true | .store => true | .atomic _ _ => true | .pref _ => true
  | .shLoad _ => false | .shStore _ => false | .shAtomic _ _ _ => false | .reply _ _ _ => false
  | .cadd c _ => c.isLine | .cread c => c.isLine | .arm c _ _ => c.isLine | .disarm c _ => c.isLine

/-- Whether two requests reach one line of one team's shared memory. -/
def Req.meetsShared (q r : Req) : Bool :=
  decide (q.kind.shTeam = r.kind.shTeam) && q.parts.any (fun a => r.parts.any (fun b => decide (a.off / 256 = b.off / 256)))

/-- Whether two requests reach one near counter for one thread. -/
def Req.meetsNear (q r : Req) : Bool :=
  decide (q.kind.key = r.kind.key) && q.parts.any (fun a => r.parts.any (fun b => decide (a.team = b.team) && decide (a.thread = b.thread)))

/-- Whether no earlier request of its core comes before it: one to its line (R168 item 1), one to its line of a team's shared memory, so that accesses of one
thread to one location keep their order (R168 item 3, R172), or one of its thread to its near counter (R168 item 3). No rule orders the arrival of others (R25). -/
def oldest (s : State) (core : Nat) (r : Req) : Bool :=
  let before := (s.core core).out.takeWhile (fun q => decide (q.id ≠ r.id))
  if r.kind.onLine then !before.any (fun q => q.kind.onLine && decide (q.line = r.line))
  else if r.kind.shTeam.isSome then !before.any (fun q => q.meetsShared r)
  else if r.kind.key.isSome then !before.any (fun q => q.meetsNear r)
  else true

/-- Miss-status entries of a core (R12). -/
def mseCount : Nat := 512

/-- Whether a request has its miss-status entries: earlier requests take theirs first (R159). -/
def hasMse (s : State) (core : Nat) (r : Req) : Bool :=
  let before := (s.core core).out.takeWhile (fun q => decide (q.id ≠ r.id))
  decide (r.mse = 0) || decide ((before.map Req.mse).foldl (· + ·) r.mse ≤ mseCount)

/-- Whether a request of `n` more sectors finds too few free entries (R159). -/
def mseFull (s : State) (core n : Nat) : Bool :=
  decide (0 < n) && decide (mseCount < ((s.core core).out.map Req.mse).foldl (· + ·) n)

/-- What a lane's access adds to a request of its lane set. -/
structure Piece where
  line : Nat
  kind : ReqKind
  part : Part
  deriving DecidableEq, Repr

/-- The pieces of one line, together, in lane order (R159). Loads that reach one line through pages of which only some may be cached make a request
of each kind (log 61). -/
def groupPieces : Nat → List Piece → List (Piece × List Part)
  | 0, _ => []
  | _, [] => []
  | k + 1, p :: ps =>
    let same := fun (q : Piece) => decide (q.line = p.line) && decide (q.kind = p.kind)
    (p, p.part :: (ps.filter same).map Piece.part) :: groupPieces k (ps.filter (fun q => !same q))

/-- The label, lease class, CCLASS and COMP of the page that a part was translated by (R251). -/
def Part.pageLab (p : Part) : Label := match p.x with | some x => attrLabel x.attr | none => 0
def Part.lease (p : Part) : Nat := match p.x with | some x => attrLease x.attr | none => 0
def Part.cclass (p : Part) : Nat := match p.x with | some x => attrCclass x.attr | none => 0
def Part.attr (p : Part) : Option Nat := p.x.map Xlat.attr
def Part.comp (p : Part) : Bool := match p.x with | some x => attrComp x.attr | none => false

-- links (R365 to R369)

/-- The window that a physical address goes through, where it can be reached: its connection is not lost and its port is up (R365, R368). -/
def windowOf (s : State) (part pa : Nat) : Option Window :=
  let r := regionOf pa
  match Tbl.find s.links.windows r with
  | some w => if w.valid ∧ Tbl.find s.links.winPart r = some part ∧ !s.links.lost.contains r ∧ (Tbl.getD s.links.ports w.port {}).up then some w
    else none
  | none => none

/-- Payload bytes outstanding from a partition to an endpoint (R369). -/
def outstanding (s : State) (part : Nat) (d : Endpoint) : Nat :=
  ((s.links.reqs.filter (fun e => e.2.part = part ∧ e.2.dest = d)).map (fun e => e.2.bytes)).foldl (· + ·) 0

/-- Whether a request of `n` payload bytes waits at its issuer (R369). -/
def sendHeld (s : State) (part pa n : Nat) : Bool :=
  match windowOf s part pa with
  | some w => decide ((s.part part).sendWin < outstanding s part w.dest + n) && decide (outstanding s part w.dest ≠ 0)
  | none => false

/-- The remote address that a physical address in a window names (R365). -/
def remoteAt (w : Window) (pa : Nat) : Nat := (w.rbase + pa % 2 ^ 39) % 2 ^ 52

/-- A link request noted under its number, with its messages, each at a physical address of the window. -/
def sendLink (s : State) (part core id pa n : Nat) (msgs : List (Nat × OutOp)) (lab : Label := 0) : State :=
  match windowOf s part pa with
  | some w =>
    let q : LReq := {
      part, core, req := id, region := regionOf pa, port := w.port, dest := w.dest, tctx := w.tctx,
      msgs := msgs.map (fun m => (remoteAt w m.1, m.2)), bytes := n, lab }
    { s with links := { s.links with reqs := Tbl.put s.links.reqs id q } }
  | none => s

/-- The message of one part of a core's request (R366). -/
def Req.message (r : Req) (p : Part) : Option OutOp :=
  match r.kind with
  | .load _ _ => some (.read p.n)
  | .store => some (.write p.n p.data)
  | .atomic o ret => some (.atomic o ret p.data p.cmp)
  | .cadd _ lim => some (.add p.data lim)
  | .cread _ => some .cread
  | .pref _ => none | .shLoad _ => none | .shStore _ => none | .shAtomic _ _ _ => none | .arm _ _ _ => none
  | .disarm _ _ => none | .reply _ _ _ => none

/-- A core's request sent through its window: one message for each lane. -/
def sendReq (s : State) (part core : Nat) (r : Req) (n : Nat) : State :=
  sendLink s part core r.id (r.line * 256) n (r.parts.filterMap (fun p => (r.message p).map (fun m => (r.line * 256 + p.off, m))))

/-- The counts of a lane's outstanding acknowledgements (R167, R169). -/
def outStores (s : State) (t l : Nat) (f : Nat → Nat) : State :=
  s.modThread t l (fun th => { th with out := { th.out with stores := f th.out.stores } })
def outAcks (s : State) (t l : Nat) (f : Nat → Nat) : State :=
  s.modThread t l (fun th => { th with out := { th.out with acks := f th.out.acks } })
def outOwn (s : State) (t l : Nat) (f : Nat → Nat) : State :=
  s.modThread t l (fun th => { th with out := { th.out with own := f th.out.own } })
/-- A write into team `u`'s shared memory that will be performed by a request. -/
def outShared (s : State) (t l u : Nat) (f : Nat → Nat) : State := if u = t then outOwn s t l f else outAcks s t l f
def outLinks (s : State) (t l : Nat) (f : Nat → Nat) : State :=
  s.modThread t l (fun th => { th with out := { th.out with links := f th.out.links } })

/-- T_w returned to a lane (R167). -/
def returnTw (s : State) (t l tw : Nat) : State :=
  s.modThread t l (fun th => { th with out := { th.out with tw := max th.out.tw tw } })

/-- The conditions of a fence at a scope over lanes, with those of every narrower one (R169, R187): of the results that a lane is owed, those of loads,
atomics, pops and counter reads. -/
def fenceMet (s : State) (t : Nat) (ls : List Nat) (sc : Scope) : Bool :=
  ls.all (fun l =>
    let th := s.thread t l
    !th.out.owes.any Owe.counts && decide (th.out.own = 0) &&
      (decide (sc = .team) || (decide (th.out.acks = 0) &&
        (decide (sc = .clu) || (decide (th.out.stores = 0) && decide (th.out.tw ≤ s.now) &&
          (decide (sc = .dev) || decide (th.out.links = 0)))))))

/-- The condition under which a command issues (R174): Now() has reached the largest T_w returned to any active lane, every
global store has returned, and stores into shared memory are performed. -/
def commandMayIssue (s : State) (t : Nat) (ls : List Nat) : Bool :=
  ls.all (fun l =>
    let th := s.thread t l
    decide (th.out.stores = 0) && decide (th.out.tw ≤ s.now) && decide (th.out.acks = 0) && decide (th.out.own = 0))

end Sys2Proof.Machine
end

