-- ==== Sys2Proof/Machine/MemEvents.lean ====
section
/-! DEFINITION. The events of the memories: responses and fills (R165, R166, R170, R182), the performance of stores and atomics
(R164, R167, R171, R172), lines between home cache and device memory (R160 to R162), errors of on-chip memories (R163, R335, R336),
the end of a fence's wait (R169) and the arrival of queue elements (R214). -/

namespace Sys2Proof.Machine

open Sys2Proof

-- responses

/-- A result given to one lane: a helper receives 0 in place of a poison mark (R82, R181). -/
def respond (s : State) (id : Nat) (p : Part) (x : DWord) (lab : Label) (pois : Bool) : State :=
  if !pois then returnResult s p.team p.thread id (.val x lab)
  else if (s.thread p.team p.thread).t.helper then returnResult s p.team p.thread id (.val 0 0)
  else returnResult s p.team p.thread id .poison

/-- The loads of a request performed at the home now (R166, R182); the home cache takes the line (R251). -/
def respondHome (s : State) (r : Req) : State :=
  r.parts.foldl (fun s p =>
    let pa := r.line * 256 + p.off
    respond (homeTake s r.line p.cclass p.strm) r.id p (extendVal p.n p.sx (homeRead s pa p.n)) (p.pageLab.join (s.line r.line).lab) (poisAt s pa)) s

/-- Sectors of a line that a request's parts touch; all four for a prefetch (R159, R186). -/
def sectorsHit (r : Req) : List Nat :=
  if r.parts = [] then List.range 4 else (List.range 4).filter (fun i => r.parts.any (fun p => decide (p.off / 64 = i)))

/-- Requests of a core to a line that issued after request `id`. -/
def laterReqs (s : State) (core id line : Nat) : List Req :=
  (((s.core core).out.dropWhile (fun q => decide (q.id ≠ id))).drop 1).filter (fun q => q.kind.onLine && decide (q.line = line))

/-- A sector's bytes as a fill brings them, with the core's later stores applied (R167). -/
def sectorBytes (s : State) (pa : Nat) (later : List Req) : List Byte :=
  later.foldl (fun bs q =>
    match q.kind with
    | .store => q.parts.foldl (fun bs p =>
        if p.off / 64 = pa % 256 / 64 then patch bs (p.off % 64) (leBytes p.n p.data.toNat) else bs) bs
    | _ => bs) (Mem.readN s.mem pa 64)

/-- The label of a sector as a fill brings it, raised by the pages of those stores (R153; log 61). -/
def sectorLabel (s : State) (pa : Nat) (later : List Req) : Label :=
  later.foldl (fun lab q =>
    match q.kind with
    | .store => q.parts.foldl (fun lab p => if p.off / 64 = pa % 256 / 64 then lab.join p.pageLab else lab) lab
    | _ => lab) (s.line (pa / 256)).lab

/-- Whether a later atomic of the core has dropped the sector (R185). -/
def dropsSector (i : Nat) (q : Req) : Bool :=
  match q.kind with
  | .atomic _ _ => q.parts.any (fun p => decide (p.off / 64 = i))
  | _ => false

/-- The sectors of a request put into the L1 with an expiry. -/
def installSectors (s : State) (core : Nat) (r : Req) (e : Nat) : State :=
  let later := laterReqs s core r.id r.line
  let secs := (sectorsHit r).filter (fun i => !later.any (dropsSector i))
  secs.foldl (fun s i =>
    let pa := r.line * 256 + 64 * i
    l1Put s core (pa / 64) { bytes := sectorBytes s pa later, lab := sectorLabel s pa later, pois := poisAt s pa, expiry := e }) s

/-- A load's data put into the copies that the L1 holds of the sectors it read (R170). -/
def refreshSectors (s : State) (core : Nat) (r : Req) : State :=
  let later := laterReqs s core r.id r.line
  (sectorsHit r).foldl (fun s i =>
    let pa := r.line * 256 + 64 * i
    s.modCore core (fun k => { k with l1 := k.l1.map (fun e =>
      if e.1 = pa / 64 then (e.1, { e.2 with
        bytes := sectorBytes s pa later, lab := sectorLabel s pa later, pois := poisAt s pa }) else e) })) s

/-- A `.strm` load keeps nothing for a later hit, and its thread may not read an older value again (R170, R166): the copies of the sectors it read
are dropped. -/
def dropSectors (s : State) (core : Nat) (r : Req) : State := (sectorsHit r).foldl (fun s i => l1Drop s core (r.line * 256 + 64 * i)) s

/-- Whether a request to a line may be performed at its home now (R159, R168, R174). -/
def mayPerform (s : State) (core : Nat) (r : Req) : Bool :=
  !r.link && oldest s core r && hasMse s core r && !closed s (.mem r.line)

/-- A cluster request may be performed at the owning core now (R172, R174). -/
def mayShared (s : State) (core u : Nat) (r : Req) : Bool :=
  oldest s core r && r.parts.all (fun p => !owned s (.sh u (p.off / 256)))

/-- The value of a counter as a read at its home finds it (R300, R309): value, poison. -/
def counterValue (s : State) (k : CtrKey) : DWord × Bool :=
  match k with
  | .line pa => (BitVec.ofNat 64 (homeRead s pa 8), poisAt s pa)
  | .near t i => let n := (s.team t).nearAt i; (n.value, n.pois)

/-- MEMORY_RESPONSE: the read of a request that fills no L1 sector, or a reply that stands in the core (R166, R170, R172, R309). -/
def memoryResponse (s : State) (core req : Nat) : Host.Outcome State Fault Refusal :=
  match findReq s core req with
  | none => .next s
  | some r =>
    let one := fun (f : State → Part → State) => .next (r.parts.foldl f (dropReq s core req))
    match r.kind with
    | .reply x lab pois => one (fun s p => respond s req p x lab pois)
    | .load false lease =>
      if !mayPerform s core r then .next s
      else if noSuch (r.line * 256) then .fault (.noSuchAddress (r.line * 256))
      else
        let s := if lease = 0 then dropSectors s core r else refreshSectors s core r
        .next (respondHome (dropReq s core req) r)
    | .shLoad u =>
      if !mayShared s core u r then .next s
      else one (fun s p =>
        let tm := s.team u
        respond s req p (extendVal p.n p.sx (leNat (Mem.readN tm.sh.bytes p.off p.n))) (tm.shLab p.off) (tm.shPois p.off))
    | .cread c =>
      if r.link ∨ !oldest s core r ∨ c.closed s then .next s
      else one (fun s p => let v := counterValue s c; respond s req p v.1 0 v.2)
    | .load true _ => .next s
    | .store => .next s
    | .atomic _ _ => .next s
    | .pref _ => .next s
    | .shStore _ => .next s
    | .shAtomic _ _ _ => .next s
    | .cadd _ _ => .next s
    | .arm _ _ _ => .next s
    | .disarm _ _ => .next s

def execMemoryResponse (core req : Nat) (s : State) : Host.Outcome State Fault Refusal := memoryResponse s core req

/-- L1_FILL: the home grants the lease and serves the fill (R165, R167). A prefetch that finds an engine's line at its home, or a line that would fault a
load, is dropped (R186). -/
def l1Fill (s : State) (core req : Nat) : Host.Outcome State Fault Refusal :=
  match findReq s core req with
  | none => .next s
  | some r =>
    let fill := fun lease =>
      if !mayPerform s core r then .next s
      else if noSuch (r.line * 256) then .fault (.noSuchAddress (r.line * 256))
      else
        let s := match r.x with | some x => homeTake s r.line (attrCclass x.attr) false | none => s
        let (s, e) := grantLease s r.line lease
        .next (respondHome (dropReq (installSectors s core r e) core req) r)
    match r.kind with
    | .load true lease => fill lease
    | .pref lease =>
      if oldest s core r ∧ (owned s (.mem r.line) ∨ (s.line r.line).pois ≠ 0) then .next (dropReq s core req) else fill lease
    | .load false _ => .next s
    | .store => .next s
    | .atomic _ _ => .next s
    | .shLoad _ => .next s
    | .shStore _ => .next s
    | .shAtomic _ _ _ => .next s
    | .cadd _ _ => .next s
    | .cread _ => .next s
    | .arm _ _ _ => .next s
    | .disarm _ _ => .next s
    | .reply _ _ _ => .next s

def execL1Fill (core req : Nat) (s : State) : Host.Outcome State Fault Refusal := l1Fill s core req

/-- LEASE_EXPIRY: the sectors of a line whose leases have ended leave the L1 (R165). -/
def execLeaseExpiry (core line : Nat) (s : State) : Host.Outcome State Fault Refusal :=
  .next (s.modCore core (fun k => { k with l1 := k.l1.filter (fun e => decide (e.1 / 4 ≠ line) || decide (s.now < e.2.expiry)) }))

-- stores and atomics

/-- One lane's bytes of a store at the home: discarded in a poisoned sector, since no store of threads covers a line (R159, R162). -/
def storePart (r : Req) (s : State) (p : Part) : State :=
  let pa := r.line * 256 + p.off
  if poisAt s pa then s else homeWrite s pa (leBytes p.n p.data.toNat) p.pageLab p.comp false p.cclass p.strm

/-- The acknowledgement of a write to the home: T_w to each lane (R167); `tw` gives it by the lease class of the lane's page. -/
def ackParts (s : State) (r : Req) (tw : Nat → Nat) : State :=
  r.parts.foldl (fun s p =>
    let s := outStores (returnTw s p.team p.thread (tw p.lease)) p.team p.thread (· - 1)
    if p.ovw then noteAccepted s p.team (tw p.lease) else s) s

/-- The spill store of a call comes back to the park that it is owed to (R78); other stores are owed to none. -/
def spillBack (s : State) (r : Req) (p : Part) : State := returnResult s p.team p.thread r.id (.val 0 0)

/-- STORE_PERFORM: at the home (R164, R167), or in another team's shared memory (R172). -/
def storePerform (s : State) (core req : Nat) : Host.Outcome State Fault Refusal :=
  match findReq s core req with
  | none => .next s
  | some r =>
    match r.kind with
    | .store =>
      if !mayPerform s core r then .next s
      else if noSuch (r.line * 256) then .fault (.noSuchAddress (r.line * 256))
      else .next (r.parts.foldl (fun s p => spillBack s r p) (ackParts (r.parts.foldl (storePart r) (dropReq s core req)) r (twOf s r.line)))
    | .shStore u =>
      if !mayShared s core u r then .next s
      else .next (r.parts.foldl (fun s p =>
        outShared (sharedWrite s u p.off (leBytes p.n p.data.toNat) p.lab) p.team p.thread u (· - 1)) (dropReq s core req))
    | .load _ _ => .next s
    | .atomic _ _ => .next s
    | .pref _ => .next s
    | .shLoad _ => .next s
    | .shAtomic _ _ _ => .next s
    | .cadd _ _ => .next s
    | .cread _ => .next s
    | .arm _ _ _ => .next s
    | .disarm _ _ => .next s
    | .reply _ _ _ => .next s

def execStorePerform (core req : Nat) (s : State) : Host.Outcome State Fault Refusal := storePerform s core req

/-- One lane's read-modify-write at the home (R171): a poisoned location is not written, and an atom returns the mark (R181). -/
def atomicPart (r : Req) (o : AtomOp) (ret : Bool) (s : State) (p : Part) : State :=
  let pa := r.line * 256 + p.off
  let old := BitVec.ofNat 64 (homeRead s pa p.n)
  let pois := poisAt s pa
  let lab := p.pageLab.join (s.line r.line).lab
  let s := if pois then s else homeWrite s pa (leBytes p.n (atomNew o old p.data p.cmp).toNat) p.pageLab p.comp false p.cclass
  if ret then respond s r.id p old lab pois else s

/-- A read-modify-write on shared memory at its core (R171, R172): the state after, the old value, its label and its poison. -/
def sharedAtomic (s : State) (u off n : Nat) (o : AtomOp) (b d : DWord) (lab : Label) : State × DWord × Label × Bool :=
  let tm := s.team u
  let old := BitVec.ofNat 64 (leNat (Mem.readN tm.sh.bytes off n))
  (sharedWrite s u off (leBytes n (atomNew o old b d).toNat) lab, old, tm.shLab off, tm.shPois off)

/-- Whether two lanes' parts of a line meet. -/
def Part.meets (p q : Part) : Bool := decide (p.off < q.off + q.n) && decide (q.off < p.off + p.n)

/-- The parts of an atomic that may be performed next: those whose bytes no earlier lane's reaches (R185). -/
def readyParts : List Part → List Part → List Part
  | _, [] => []
  | before, p :: ps => (if before.any p.meets then [] else [p]) ++ readyParts (p :: before) ps

/-- The part performed next, any of those (R25). -/
def nextPart (s : State) (r : Req) : Option Part :=
  let ps := readyParts [] r.parts
  ps[Config.freeEntry s.m.free % ps.length]?

/-- A request without a part that has been performed; with its last one it is over. -/
def takePart (s : State) (core : Nat) (r : Req) (p : Part) : State :=
  let left := r.parts.erase p
  (if left = [] then dropReq s core r.id
   else s.modCore core (fun k => { k with out := k.out.map (fun q => if q.id = r.id then { q with parts := left } else q) })).bumpFree

/-- ATOMIC_PERFORM: one lane of a request, those that name one location in ascending lane position; an atomic of another agent may fall between two (R171,
R185). -/
def atomicPerform (s : State) (core req : Nat) : Host.Outcome State Fault Refusal :=
  match findReq s core req with
  | none => .next s
  | some r =>
    match r.kind with
    | .atomic o ret =>
      if !mayPerform s core r then .next s
      else if noSuch (r.line * 256) then .fault (.noSuchAddress (r.line * 256))
      else
        .next (match nextPart s r with
          | none => dropReq s core req
          | some p => ackParts (atomicPart r o ret (takePart s core r p) p) { r with parts := [p] } (twOf s r.line))
    | .shAtomic u o ret =>
      if !mayShared s core u r then .next s
      else
        .next (match nextPart s r with
          | none => dropReq s core req
          | some p =>
            let q := sharedAtomic (takePart s core r p) u p.off p.n o p.data p.cmp p.lab
            let s := outShared q.1 p.team p.thread u (· - 1)
            if ret then respond s req p q.2.1 q.2.2.1 q.2.2.2 else s)
    | .load _ _ => .next s
    | .store => .next s
    | .pref _ => .next s
    | .shLoad _ => .next s
    | .shStore _ => .next s
    | .cadd _ _ => .next s
    | .cread _ => .next s
    | .arm _ _ _ => .next s
    | .disarm _ _ => .next s
    | .reply _ _ _ => .next s

def execAtomicPerform (core req : Nat) (s : State) : Host.Outcome State Fault Refusal := atomicPerform s core req

-- lines as device memory stores them (R160, R161)

/-- LINE_WRITE_BACK: a line leaves the home cache and the directory, written back if it is not yet (R160, R161, R165). -/
def execLineWriteBack (line : Nat) (s : State) : Host.Outcome State Fault Refusal := .next (leaveHome s line)

/-- A line as its stored form reads (R161). -/
def loadLine (s : State) (l : Nat) (st : Stored) : State :=
  let r := st.record
  let sealed := r.getLsbD 26
  let data := st.data.take (64 * ((r >>> 2).toNat % 8))
  let plain := if sealed then decipher (partKey s (ownerPart s l) 1) (l * 256) ((r >>> 32).setWidth 32) (Mem.readN s.mem (l * 256) 256) data
    else data
  ({ s with mem := Mem.writeN s.mem (l * 256) (unpackLine (r.toNat % 4) ((r >>> 8).toNat % 256) plain) } : State).modLine l
    (fun k => { k with away := false, lab := (r >>> 24).setWidth 2, sealed, ver := (r >>> 32).setWidth 32, pois := if r.getLsbD 27 then 15 else 0 })

/-- A line that has left its home read from device memory, its MAC checked (R161). A mismatch waits for its correction. -/
def readStored (s : State) (line : Nat) : State :=
  let st := storedOf s line
  if !(s.line line).away ∨ st.mac ≠ macOf s line st.record st.data then s else loadLine s line st

/-- LINE_READ. -/
def execLineRead (line : Nat) (s : State) : Host.Outcome State Fault Refusal := .next (readStored s line)

/-- Bit i of the search of R162 flipped: record, MAC, then the stored data bits. -/
def flipStored (st : Stored) (i : Nat) : Stored :=
  if i < 64 then { st with record := st.record ^^^ (1 <<< i) }
  else if i < 128 then { st with mac := st.mac ^^^ (1 <<< (i - 64)) }
  else { st with data := st.data.modify ((i - 128) / 8) (fun b => b ^^^ (1 <<< ((i - 128) % 8))) }

/-- A stored bit of a line flips (R162): a line that its home does not hold is read anew before it is reached. -/
def flipLine (s : State) (line b : Nat) : State :=
  let s : State := { s with stored := Tbl.put s.stored line (flipStored (storedOf s line) b) }
  if (s.line line).held ∨ (s.line line).dirty then s else s.modLine line (fun k => { k with away := true })

/-- Partitions whose allowance holds a frame, for the notices of a retired one (R360). -/
def partsHolding (s : State) (pa : Nat) : List Nat :=
  (s.parts.filter (fun e => e.2.live && e.2.ranges.any (fun r =>
    r.2.valid && decide (r.2.base ≤ pa) && decide (pa < r.2.base + r.2.len * 4096)))).map Prod.fst

/-- A line poisoned (R162): the slice kernel is told; a frame that partitions share is retired, with their notices, whose CTX is free (R360, log 20).
Translations of the frame that an ATC or a level-2 cache holds stay there; only new walks fail (DESIGN CHOICE, log 88: a drop is stated for a retired slice
alone). -/
def poisonLine (s : State) (line : Nat) : State :=
  let pa := line * 256
  let slice := sliceOf pa
  let s := (s.modLine line (fun k => { k with away := false, pois := 15 })).report (.linePoison pa)
  let s := s.countSlice slice (ownerPart s line) .linePoison
  let ps := partsHolding s pa
  if ps.length < 2 then s
  else
    ps.foldl (fun s p => notice s p 5 (some (BitVec.ofNat 64 (pa / 4096 * 4096))) none none)
      (s.modSlice slice (fun d => { d with retired := pa / 4096 * 4096 :: d.retired }))

/-- A line whose MAC does not match (R162): the first flip in order that makes it match corrects the line; with none it is poisoned, with a fresh MAC. -/
def correctStored (s : State) (line : Nat) : State :=
  let st := storedOf s line
  if !(s.line line).away ∨ st.mac = macOf s line st.record st.data then s
  else
    let tries := (List.range (128 + 8 * st.data.length)).map (flipStored st)
    match tries.find? (fun t => decide (t.mac = macOf s line t.record t.data)) with
    | some t =>
      (loadLine { s with stored := Tbl.put s.stored line t } line t).countSlice (sliceOf (line * 256)) (ownerPart s line) .lineFix
    | none =>
      let rec_ := st.record ||| (1 <<< 27)
      poisonLine { s with stored := Tbl.put s.stored line { st with record := rec_, mac := macOf s line rec_ st.data } } line

/-- LINE_CORRECTION. -/
def execLineCorrection (line : Nat) (s : State) : Host.Outcome State Fault Refusal := .next (correctStored s line)

/-- A line back at its home, where it had left it. -/
def fetchLine (s : State) (line : Nat) : State := correctStored (readStored s line) line

-- on-chip memories (R163, R335, R336)

def setPois (t : Tbl Bool) (i : Nat) : Tbl Bool := Tbl.put t i true

/-- A sector of the home cache takes a mark, in a clean line too: only an L1 drops a line and fetches it again (R163). A line that its home does not hold has
none there. -/
def markHome (s : State) (sector : Nat) : State :=
  if (s.line (sector / 4)).away then s
  else (homeMark s (sector / 4) (fun k => { k with pois := setBit k.pois (sector % 4) true })).report (.linePoison (sector / 4 * 256))

/-- An on-chip memory's data that fails its check (R163, R335, R336): an L1 line and an instruction-cache line are dropped, a word that
was fetched ahead and never issued is dropped and counted, a register is poisoned, and any other memory's sector takes a mark. A sector that came over
the mesh is marked wherever it has gone (`flitL1`, `flitHome`). -/
def doubleError (s : State) (pl : EccPlace) : State :=
  match pl with
  | .l1 core line => s.modCore core (fun k => { k with l1 := k.l1.filter (fun e => decide (e.1 / 4 ≠ line)) })
  | .icache core line => s.modCore core (fun k => { k with icache := Tbl.del k.icache line })
  | .home sector => markHome s sector
  | .flitHome sector => markHome s sector
  | .flitL1 core sector => s.modCore core (fun k => { k with l1 := k.l1.map (fun e =>
      if e.1 = sector then (e.1, { e.2 with pois := true }) else e) })
  | .ahead core part => s.countCore core part .fetchAhead
  | .queue _ team q i => s.modQueue team q (fun k => { k with elems := k.elems.modify i (fun e => { e with pois := true }) })
  | .near _ team i => s.modTeam team (fun tm => { tm with
      r := { tm.r with near := Tbl.put tm.r.near i { tm.nearAt i with pois := true } } })
  | .cover core sector => s.modCore core (fun k => { k with coverPois := setPois k.coverPois sector })
  | .walker cell sector => s.modCell cell (fun k => { k with wdc := k.wdc.map (fun e =>
      if e.1 = sector / 4 then (e.1, { e.2 with pois := setBit e.2.pois (sector % 4) true }) else e) })
  | .shared _ team sector => s.modTeam team (fun tm => { tm with sh := { tm.sh with pois := setPois tm.sh.pois sector } })
  | .wbuf core sector => s.modCore core (fun k => { k with bufs := { k.bufs with wbPois := setPois k.bufs.wbPois sector } })
  | .abuf core sector => s.modCore core (fun k => { k with bufs := { k.bufs with abPois := setPois k.bufs.abPois sector } })
  | .acc core sector => s.modCore core (fun k => { k with bufs := { k.bufs with accPois := setPois k.bufs.accPois sector } })
  | .vreg _ team thread n => s.modThread team thread (fun th => { th with
      r := { th.r with v := Tbl.put th.r.v n { (s.team team).vreg th n with pois := true } } })
  | .sreg _ team n => s.modTeam team (fun tm => { tm with r := { tm.r with s := Tbl.put tm.r.s n { tm.sreg n with pois := true } } })

/-- ONCHIP_ECC_ERROR: a single-bit error is corrected in place. -/
def execOnchipEccError (double : Bool) (pl : EccPlace) (s : State) : Host.Outcome State Fault Refusal :=
  .next (if double then doubleError s pl else s)

-- fences and queues

/-- FENCE_CONDITIONS_HOLD: a lane set that a fence holds goes on once the conditions of R169 are met over its active lanes. -/
def execFenceConditionsHold (core team thread : Nat) (s : State) : Host.Outcome State Fault Refusal :=
  .next (match (s.thread team thread).run.held with
    | none => s
    | some (sc, act) =>
      if (s.team team).at_.core = core ∧ fenceMet s team act sc then
        s.modTeam team (fun tm => { tm with threads := tm.threads.map (fun e =>
          if e.2.run.held = some (sc, act) then (e.1, { e.2 with run := { e.2.run with held := none } }) else e) })
      else s)

/-- QUEUE_ELEMENT_ARRIVAL: the oldest claim takes the oldest element (R214). -/
def execQueueElementArrival (core team q : Nat) (s : State) : Host.Outcome State Fault Refusal :=
  .next (if (s.team team).at_.core = core then deliverClaim s team q else s)

end Sys2Proof.Machine
end

