-- ==== Sys2Proof/Machine/Access.lean ====
section
/-! DEFINITION. The meanings of rows 0x18 and 0x19 and of `uld` (R127, R177 to R190): loads, stores, atomics, reductions,
prefetches, fences and buffer reservations. An access leaves its lane set as requests; the events of MemEvents perform them. -/

namespace Sys2Proof.Machine

open Sys2Proof

/-- The access of one lane (R179); for atom and red B is the operand. -/
def accOf (s : State) (t l : Nat) (f : Form) (sp : Space) (wr : Bool) (n : Nat) (offs : Bool) : Acc :=
  let a := readOp s t l .int (decide (sp = .g)) f.a
  let b := if offs then readOp s t l .int false f.b else {}
  let ea := eaOf sp a.val b.val
  { l, lab := labOf s t l f.c [a.lab, b.lab], own := ea % 2 ^ 52, addr := formAddr s t l sp wr n ea }

/-- The physical address of an access that has one. -/
def Acc.pa (a : Acc) : Option (Xlat × Nat × Nat) :=
  match a.addr, a.xa with
  | .glob va _, some (.ok x) => some (x, va, x.pa va)
  | _, _ => none

/-- Whether requests through link windows wait at their issuer: `pas` are the addresses, of `n` bytes each, and those that go to one endpoint count
together (R369). -/
def sendsHeld (s : State) (part n : Nat) (pas : List Nat) : Bool :=
  let dest := fun pa => (windowOf s part pa).map Window.dest
  pas.any (fun pa => sendHeld s part pa (n * (pas.filter (fun q => decide (dest q = dest pa))).length))

/-- Whether accesses of a lane set wait so. -/
def linksHeld (s : State) (part n : Nat) (as : List Acc) : Bool :=
  sendsHeld s part n (as.filterMap (fun a => match a.pa with
    | some (_, _, pa) => if isLink pa then some pa else none
    | none => none))

/-- A request refused on a lost connection (R367, R368): the notice of tag 4. -/
def lostNotice (s : State) (part ctx pa : Nat) : State :=
  notice s part 4 (some (BitVec.ofNat 64 (regionOf pa))) none (some (tagOf part ctx))

-- loads

/-- What a load comes to in one lane at issue. -/
inductive LdRes where
  | fault (f : Flt)
  | reply (val : DWord) (lab : Label) (pois : Bool)
  | shr (u off : Nat)
  | fetch (x : Xlat) (pa : Nat)
  deriving DecidableEq, Repr

/-- Whether the L1 may hold a page's lines (R165, R302, R366). -/
def cacheable (x : Xlat) (pa : Nat) : Bool := decide (attrLease x.attr ≠ 0) && !attrCnt x.attr && !isLink pa

/-- A read at the core: a helper receives 0 in place of a poison mark (R82, R181). -/
def readReply (helper : Bool) (x : DWord) (lab : Label) (pois : Bool) : LdRes :=
  if helper && pois then .reply 0 0 false else .reply x lab pois

/-- A load of n bytes after its translation (R180 orders 4 to 8, R182). -/
def ldRes (s : State) (t core : Nat) (pol : Policy) (n : Nat) (sx : Bool) (a : Acc) : LdRes :=
  let helper := (s.thread t a.l).t.helper
  let bad := fun f => if helper then LdRes.reply 0 0 false else .fault f
  match a.addr with
  | .bad f => .fault f
  | .shr u off =>
    if u = t ∧ !sharedBusy s core t off then
      let tm := s.team t
      readReply helper (extendVal n sx (leNat (Mem.readN tm.sh.bytes off n))) (tm.shLab off) (tm.shPois off)
    else .shr u off
  | .glob va own =>
    match a.xa with
    | none => .reply 0 0 false
    | some (.fail f) => bad f
    | some (.ok x) =>
      match pageFault x permRead false own with
      | some f => bad f
      | none =>
        match ovwCheck s t va n .ovwRead with
        | some c => bad ⟨c, accessBits false own⟩
        | none =>
          let pa := x.pa va
          match (if pol = .l1 ∧ cacheable x pa then l1Live s core pa else none) with
          | some k =>
            readReply helper (extendVal n sx (leNat ((k.bytes.drop (pa % 64)).take n))) ((attrLabel x.attr).join k.lab) k.pois
          | none => .fetch x pa

/-- How a load request is performed: with a fill under the page's lease, at the home with its data put into the L1's copy
(lease 1), or at the home alone (lease 0) (R170). -/
def ldKind (pol : Policy) (x : Xlat) (pa : Nat) : ReqKind :=
  match pol with
  | .l1 => if cacheable x pa then .load true (attrLease x.attr) else .load false 1
  | .byp => .load false 1
  | .strm => .load false (if cacheable x pa then 0 else 1)

/-- A request with one part answered to its lane at once, or sent to a team of the cluster. -/
def oneReq (s : State) (t core : Nat) (act set : List Nat) (f : Form) (wr : Bool) (k : ReqKind) (a : Acc) (p : Part) : State :=
  let id := s.newId
  oweResult (addReq s.bumpId core { id, kind := k, parts := [p] }) t a.l act set f id a.lab wr a.own

/-- The sectors of a line that accesses touch and the L1 does not hold under a live lease (R159). -/
def missing (s : State) (core line : Nat) (sectors : List Nat) : Nat :=
  (sectors.filter (fun j => (l1Live s core (line * 256 + 64 * j)).isNone)).length
def sectorsOf (ps : List Part) : List Nat := (List.range 4).filter (fun i => ps.any (fun p => decide (p.off / 64 = i)))

/-- A request that takes miss-status entries: each is a miss, and a request that finds too few is counted (R159, R319). -/
def missReq (s : State) (core part : Nat) (r : Req) : State :=
  let full := mseFull s core r.mse
  let s := (addReq s core r).countCore core part .l1Miss r.mse
  if full then s.countCore core part .mseFull else s

/-- The requests of a lane set's loads, with the results that its lanes are owed. -/
def sendLoads (s : State) (t core : Nat) (act set : List Nat) (f : Form) (pol : Policy) (n : Nat) (sx : Bool)
    (rs : List (Acc × LdRes)) : State :=
  let part := (s.team t).at_.part
  let mk := fun (a : Acc) off => ({ team := t, thread := a.l, off, n, sx } : Part)
  let s1 := rs.foldl (fun s e =>
    match e.2 with
    | .reply x lab pois => oneReq s t core act set f false (.reply x lab pois) e.1 (mk e.1 0)
    | .shr u off => oneReq s t core act set f false (.shLoad u) e.1 (mk e.1 off)
    | .fetch _ _ => s
    | .fault _ => s) s
  let ps := rs.filterMap (fun e => match e.2 with
    | .fetch x pa => some ({ line := pa / 256, kind := ldKind pol x pa, part := { mk e.1 (pa % 256) with x := some x } } : Piece)
    | .reply _ _ _ => none
    | .shr _ _ => none
    | .fault _ => none)
  (groupPieces ps.length ps).foldl (fun s g =>
    let pa := g.1.line * 256
    let id := s.newId
    let link := isLink pa
    let lost := link && (windowOf s part pa).isNone
    let r : Req :=
      if lost then { id, kind := .reply 0 0 true, line := g.1.line, parts := g.2 }
      else { id, kind := g.1.kind, line := g.1.line, parts := g.2, mse := missing s core g.1.line (sectorsOf g.2), link }
    let s := missReq s.bumpId core part r
    let s := if lost then lostNotice s part (s.team t).at_.ctx pa
      else if link then sendReq s part core r (n * g.2.length)
      else s
    g.2.foldl (fun s p =>
      match rs.find? (fun e => decide (e.1.l = p.thread)) with
      | some e => oweResult s t p.thread act set f id e.1.lab false e.1.own
      | none => s) s) s1

/-- The lanes of a load (R182): `ls` are the lanes that load, `act` the active lanes. -/
def loadLanes (f : Form) (sp : Space) (pol : Policy) (n : Nat) (sx : Bool) (s : State) (i : Iss) (act ls : List Nat) : Eff :=
  let as := ls.map (fun l => accOf s i.team l f sp false n true)
  let (s1, as1) := xlateAccs s i.team kindLoad permRead as
  if as1.any Acc.waits ∨ linksHeld s1 (s1.team i.team).at_.part n as1 then .hold s1
  else
    let rs := as1.map (fun a => (a, ldRes s1 i.team i.core pol n sx a))
    .done (sendLoads s1 i.team i.core act i.lanes f pol n sx rs)
      (rs.filterMap (fun e => match e.2 with
        | .fault g => some (e.1.l, .fault g e.1.lab)
        | .reply _ _ _ => none
        | .shr _ _ => none
        | .fetch _ _ => none))

def LdWidth.sext : LdWidth → Bool
  | .s8 => true | .s16 => true | .u8 => false | .u16 => false | .b32 => false | .b64 => false

/-- `ld` (R182). -/
def execLd (c : Ctl) (sp : Space) (w : LdWidth) (pol : Policy) (d a b : Operand) (s : State) :
    Host.Outcome State Fault Refusal :=
  .next (issueWith .plain (formOf (.ld c sp w pol d a b))
    (fun s i act => loadLanes (formOf (.ld c sp w pol d a b)) sp pol w.bytes (LdWidth.sext w) s i act act) s)

/-- `uld`: the lowest lane loads, once (R127). -/
def execUld (c : Ctl) (wide : Bool) (d a b : Operand) (s : State) : Host.Outcome State Fault Refusal :=
  .next (issueWith .plain (formOf (.uld c wide d a b))
    (fun s i act => loadLanes (formOf (.uld c wide d a b)) .g .l1 (if wide then 8 else 4) false s i act
      (leads s i (formOf (.uld c wide d a b)) act).toList) s)

-- stores

/-- What a store or an atomic leaves to be sent: to its line, or to a team of the cluster. -/
inductive Sent where
  | piece (p : Piece)
  | shr (a : Acc) (u : Nat) (p : Part)
  deriving DecidableEq, Repr

/-- A store of n bytes in one lane, after its translation (R180 orders 4 to 9, R183, R291). -/
def stLane (f : Form) (pol : Policy) (n : Nat) (i : Iss) (s : State) (a : Acc) : State × Out × List Sent :=
  let t := i.team
  let x := readOp s t a.l .int f.sd.wide f.d
  let lab := a.lab.join x.lab
  let bytes := leBytes n x.val.toNat
  match a.addr with
  | .bad g => (s, .fault g a.lab, [])
  | .shr u off =>
    if (s.thread t a.l).t.helper then (s, .next, [])
    else if u = t ∧ !sharedBusy s i.core t off then (sharedWrite s t off bytes lab, .next, [])
    else (outShared s t a.l u (· + 1), .next, [.shr a u { team := t, thread := a.l, off, n, data := x.val, lab }])
  | .glob va own =>
    if (s.thread t a.l).t.helper then (s, .next, [])
    else
      match a.xa with
      | none => (s, .next, [])
      | some (.fail g) => (s, .fault g a.lab, [])
      | some (.ok p) =>
        match pageFault p permWrite true own with
        | some g => (s, .fault g a.lab, [])
        | none =>
          let flow := decide (attrLabel p.attr < lab)
          let bad := (s, Out.fault ⟨.labelFlow, accessBits true own⟩ lab, [])
          let pa := p.pa va
          let go := fun (s : State) (ovw : Bool) =>
            let s := if isLink pa then outLinks s t a.l (· + 1)
              else outStores (l1Store s i.core pa bytes (attrLabel p.attr)) t a.l (· + 1)
            (s, Out.next, [Sent.piece {
              line := pa / 256, kind := .store, part := {
                team := t, thread := a.l, off := pa % 256, n, data := x.val, x := some p, ovw, strm := decide (pol = .strm) } }])
          match ovwStore s t a.l va n with
          | .fault c => (s, .fault ⟨c, accessBits true own⟩ a.lab, [])
          | .suppress s' => if flow then bad else (returnTw s' t a.l s.now, .next, [])
          | .accept s' => if flow then bad else go s' true
          | .pass => if flow then bad else go s false

/-- The requests of a lane set's stores, atomics and reductions; `owed` whether lanes wait for the old value. -/
def sendWrites (s : State) (i : Iss) (act : List Nat) (f : Form) (n : Nat) (teamKind : Nat → ReqKind) (owed : Bool) (as : List Acc)
    (xs : List Sent) : State :=
  let t := i.team
  let part := (s.team t).at_.part
  let owe := fun (s : State) id (p : Part) =>
    if !owed then s
    else
      match as.find? (fun a => decide (a.l = p.thread)) with
      | some a => oweResult s t p.thread act i.lanes f id a.lab true a.own
      | none => s
  let s1 := xs.foldl (fun s x =>
    match x with
    | .shr _ u p =>
      let id := s.newId
      owe (addReq s.bumpId i.core { id, kind := teamKind u, parts := [p] }) id p
    | .piece _ => s) s
  let ps := xs.filterMap (fun x => match x with | .piece p => some p | .shr _ _ _ => none)
  (groupPieces ps.length ps).foldl (fun s g =>
    let pa := g.1.line * 256
    let id := s.newId
    let link := isLink pa
    let lost := link && (windowOf s part pa).isNone
    let s := if lost then
        -- a refused write is discarded; a refused atomic returns a poison mark (R367)
        let s := g.2.foldl (fun s p => outLinks s t p.thread (· - 1)) (lostNotice s part (s.team t).at_.ctx pa)
        if owed then addReq s.bumpId i.core { id, kind := .reply 0 0 true, parts := g.2 } else s.bumpId
      else
        let r : Req := { id, kind := g.1.kind, line := g.1.line, parts := g.2, link }
        let s := addReq s.bumpId i.core r
        if link then sendReq s part i.core r (n * g.2.length) else s
    g.2.foldl (fun s p => owe s id p) s) s1

/-- The lanes of a store, an atomic or a reduction in ascending lane position. -/
def foldLanes (g : State → Acc → State × Out × List Sent) : State → List Acc → State × List (Nat × Out) × List Sent
  | s, [] => (s, [], [])
  | s, a :: as =>
    let r := g s a
    let q := foldLanes g r.1 as
    (q.1, (a.l, r.2.1) :: q.2.1, r.2.2 ++ q.2.2)

/-- Translations of the lanes that need one: a helper's writes are not translated (R82). -/
def xlateWrites (s : State) (t kind need : Nat) (as : List Acc) : State × List Acc :=
  let real := as.filter (fun a => !(s.thread t a.l).t.helper)
  let r := xlateAccs s t kind need real
  (r.1, as.map (fun a => (r.2.find? (fun b => decide (b.l = a.l))).getD { a with xa := some (.fail default) }))

def storeLanes (f : Form) (sp : Space) (pol : Policy) (n : Nat) (s : State) (i : Iss) (act : List Nat) : Eff :=
  let as := act.map (fun l => accOf s i.team l f sp true n true)
  let (s1, as1) := xlateWrites s i.team kindWrite permWrite as
  if as1.any Acc.waits ∨ linksHeld s1 (s1.team i.team).at_.part n as1 then .hold s1
  else
    let r := foldLanes (stLane f pol n i) s1 as1
    .done (sendWrites r.1 i act f n .shStore false as1 r.2.2) r.2.1

/-- `st` (R183). -/
def execSt (c : Ctl) (sp : Space) (w : StWidth) (pol : Policy) (d a b : Operand) (s : State) :
    Host.Outcome State Fault Refusal :=
  .next (issueWith .plain (formOf (.st c sp w pol d a b)) (storeLanes (formOf (.st c sp w pol d a b)) sp pol w.bytes) s)

-- atomics and reductions

/-- The permissions that an atomic (`ret`) or a reduction needs (R180, order 5): a reduction reads nothing back. -/
def atomPerms (ret : Bool) : Nat := if ret then permBoth else permWrite

/-- An atomic or reduction in one lane (R184, R185); `ret` for atom. -/
def atLane (f : Form) (n : Nat) (o : AtomOp) (ret : Bool) (i : Iss) (act : List Nat) (s : State) (a : Acc) :
    State × Out × List Sent :=
  let t := i.team
  let b := readOp s t a.l (match o with | .int _ _ => .int | .fadd _ => .f32 | .fmin => .f32 | .fmax => .f32) o.wide f.b
  let d := if o.isCas then readOp s t a.l .int f.sd.wide f.d else {}
  let lab := Label.joinAll [a.lab, b.lab, d.lab]
  let back := fun (s : State) x lx pois (own : Nat) =>
    if ret then oneReq s t i.core act i.lanes f true (.reply x lx pois) { a with own } { team := t, thread := a.l, off := 0, n }
    else s
  match a.addr with
  | .bad g => (s, .fault g a.lab, [])
  | .shr u off =>
    if (s.thread t a.l).t.helper then (back s 0 lab false a.own, .next, [])
    else if u = t ∧ !sharedBusy s i.core t off then
      let r := sharedAtomic s t off n o b.val d.val lab
      (back r.1 r.2.1 r.2.2.1 r.2.2.2 a.own, .next, [])
    else
      (outShared s t a.l u (· + 1), .next,
        [.shr a u { team := t, thread := a.l, off, n, data := b.val, cmp := d.val, lab }])
  | .glob va own =>
    if (s.thread t a.l).t.helper then (back s 0 lab false own, .next, [])
    else
      match a.xa with
      | none => (s, .next, [])
      | some (.fail g) => (s, .fault g a.lab, [])
      | some (.ok p) =>
        match pageFault p (atomPerms ret) true own with
        | some g => (s, .fault g a.lab, [])
        | none =>
          match ovwCheck s t va n (if ret then .ovwRead else .ovwPartial) with
          | some c => (s, .fault ⟨c, accessBits true own⟩ a.lab, [])
          | none =>
            if attrLabel p.attr < lab then (s, .fault ⟨.labelFlow, accessBits true own⟩ lab, [])
            else
              let pa := p.pa va
              let s := if isLink pa then outLinks s t a.l (· + 1)
                else outStores (l1Drop s i.core pa) t a.l (· + 1)
              (s, .next, [.piece {
                line := pa / 256, kind := .atomic o ret,
                part := { team := t, thread := a.l, off := pa % 256, n, data := b.val, cmp := d.val, x := some p } }])

def atomLanes (f : Form) (o : AtomOp) (sp : Space) (ret : Bool) (s : State) (i : Iss) (act : List Nat) : Eff :=
  let n := if o.wide then 8 else 4
  let as := act.map (fun l => accOf s i.team l f sp true n false)
  let (s1, as1) := xlateWrites s i.team kindWrite (atomPerms ret) as
  if as1.any Acc.waits ∨ linksHeld s1 (s1.team i.team).at_.part n as1 then .hold s1
  else
    let r := foldLanes (atLane f n o ret i act) s1 as1
    .done (sendWrites r.1 i act f n (fun u => .shAtomic u o ret) ret as1 r.2.2) r.2.1

/-- `atom` (R184). -/
def execAtom (c : Ctl) (o : AtomOp) (sp : Space) (d a b : Operand) (s : State) : Host.Outcome State Fault Refusal :=
  .next (issueWith .plain (formOf (.atom c o sp d a b)) (atomLanes (formOf (.atom c o sp d a b)) o sp true) s)

/-- `red` (R184). -/
def execRed (c : Ctl) (o : AtomOp) (sp : Space) (a b : Operand) (s : State) : Host.Outcome State Fault Refusal :=
  .next (issueWith .plain (formOf (.red c o sp a b)) (atomLanes (formOf (.red c o sp a b)) o sp false) s)

-- prefetch

/-- The line that a lane's prefetch brings into its home cache, if nothing drops it (R186). -/
def prefHome (s : State) (t : Nat) (a : Acc) : Option (Nat × Xlat) :=
  match a.addr, a.xa with
  | .glob va own, some (.ok x) =>
    let pa := x.pa va
    if (s.thread t a.l).t.helper ∨ (pageFault x permRead false own).isSome ∨ attrCnt x.attr ∨
        (ovwCheck s t va 1 .ovwRead).isSome ∨ owned s (.mem (pa / 256)) ∨ isLink pa ∨ noSuch pa ∨ (s.line (pa / 256)).pois ≠ 0 then none
    else some (pa / 256, x)
  | _, _ => none

/-- The line that a lane's prefetch fills, if nothing drops it (R186). -/
def prefLine (s : State) (t core : Nat) (a : Acc) : Option (Nat × Xlat) :=
  match a.addr, a.xa with
  | .glob va own, some (.ok x) =>
    let pa := x.pa va
    if (s.thread t a.l).t.helper ∨ (pageFault x permRead false own).isSome ∨ attrCnt x.attr ∨
        (ovwCheck s t va 1 .ovwRead).isSome ∨ owned s (.mem (pa / 256)) ∨ !cacheable x pa ∨
        missing s core (pa / 256) (List.range 4) = 0 then none
    else some (pa / 256, x)
  | _, _ => none

/-- A prefetch asks for the whole line, once for each line of the lane set; `.home` brings the line into its home cache only. -/
def prefLanes (f : Form) (sp : Space) (home : Bool) (s : State) (i : Iss) (act : List Nat) : Eff :=
  let as := act.map (fun l => accOf s i.team l f sp false 1 true)
  let (s1, as1) := xlateWrites s i.team kindLoad permRead as
  if as1.any Acc.waits then .hold s1
  else if home then
    .done ((as1.filterMap (prefHome s1 i.team)).foldl (fun s e => homeTake s e.1 (attrCclass e.2.attr) false) s1) []
  else
    let part := (s.team i.team).at_.part
    let ls := (as1.filterMap (prefLine s1 i.team i.core)).foldl (fun ls e => if ls.any (fun x => decide (x.1 = e.1)) then ls else ls ++ [e]) []
    .done (ls.foldl (fun s e =>
      missReq s.bumpId i.core part {
        id := s.newId, kind := .pref (attrLease e.2.attr), line := e.1, parts := [], x := some e.2,
        mse := missing s i.core e.1 (List.range 4) }) s1) []

/-- `pref` (R186). -/
def execPref (c : Ctl) (sp : Space) (home : Bool) (a b : Operand) (s : State) : Host.Outcome State Fault Refusal :=
  .next (issueWith .plain (formOf (.pref c sp home a b)) (prefLanes (formOf (.pref c sp home a b)) sp home) s)

-- fence

/-- A fence issues at once and holds its lane set until the conditions of R169 are met over its active lanes (R187). -/
def fenceEff (sc : Scope) (s : State) (i : Iss) (act : List Nat) : Eff :=
  if fenceMet s i.team act sc then .done s []
  else .done (i.lanes.foldl (fun s l => s.modThread i.team l (fun th => { th with
    run := { th.run with held := some (sc, act) } })) s) []

/-- `fence` (R187). -/
def execFence (c : Ctl) (sc : Scope) (s : State) : Host.Outcome State Fault Refusal :=
  .next (issueWith .plain (formOf (.fence c sc)) (fenceEff sc) s)

-- buffer reservations

/-- A reservation record as thread `l` reads it (R188): unpublished writes of other lane sets are a free choice (R44). -/
def staleResv (key : List Nat) (l n : Nat) : List UnpubResv → Resv → Resv
  | [], r => r
  | u :: us, r =>
    if u.slot ≠ n then staleResv key l n us r
    else if u.lanes.contains l then r
    else staleResv key l n us (if Config.freeBit (188 :: us.length :: n :: key) then u.old else r)
def resvRead (s : State) (t l n : Nat) : Resv :=
  staleResv [t, l, (s.thread t l).run.ic] l n (s.team t).unpubR ((s.team t).resvAt n)

/-- The allotment of a buffer, in bytes or pages (R157), and its base. -/
def Team.bufLen (tm : Team) : Buf → Nat | .wb => tm.al.wLen | .ab => tm.al.aLen | .acc => tm.al.pLen
def Team.bufBase (tm : Team) : Buf → Nat | .wb => tm.al.wBase | .ab => tm.al.aBase | .acc => tm.al.pBase

/-- The DX format of a slot. -/
def Fmt.dx : Fmt → Option DxFmt
  | .dx8 => some .dx8 | .dx6 => some .dx6 | .dx4 => some .dx4 | .bf16 => none | .f16 => none | .f32 => none | .bytes => none

/-- WHY of a record that breaks R157 (R190): the lowest that applies. -/
def resvWhy (tm : Team) (r : Resv) : Nat :=
  let isDx := (Fmt.dx r.fmt).isSome
  if r.buf ≠ .acc ∧ (r.base % 256 ≠ 0 ∨ r.len % 256 ≠ 0 ∨ r.len = 0) then 1
  else if tm.bufLen r.buf < r.base + r.len then 2
  else if (decide (r.fmt = .f32) != decide (r.buf = .acc)) ∨ (r.soff ≠ 0 ∧ !isDx) then 3
  else if (if r.fmt = .f32 ∨ r.fmt = .bytes then decide (r.blk ≠ 0) else decide (r.blk < 1) || decide (1024 < r.blk)) then 4
  else
    match Fmt.dx r.fmt with
    | some d =>
      let row := r.blk * dxArea d
      if r.soff ≠ 0 ∧ (r.soff < row ∨ r.len < r.soff + r.soff / row * r.blk * 2) then 5 else 0
    | none => 0

def resvTval (why slot : Nat) : Nat := why * 16 + slot

/-- The units of a range: 256 bytes of W and A, one page of the store (R188). -/
def unitsOf (b : Buf) (base len : Nat) : List Nat :=
  match b with
  | .acc => (List.range len).map (base + ·)
  | .wb => (List.range (len / 256)).map (base / 256 + ·)
  | .ab => (List.range (len / 256)).map (base / 256 + ·)

def Team.marks (tm : Team) : Buf → Tbl Label | .wb => tm.r.wMarks | .ab => tm.r.aMarks | .acc => tm.r.pMarks
def Team.setMarks (tm : Team) (b : Buf) (m : Tbl Label) : Team :=
  match b with
  | .wb => { tm with r := { tm.r with wMarks := m } }
  | .ab => { tm with r := { tm.r with aMarks := m } }
  | .acc => { tm with r := { tm.r with pMarks := m } }

/-- A slot given a record; the old one stays readable by other lane sets (R44). -/
def putResv (s : State) (t slot : Nat) (set : List Nat) (r : Resv) : State :=
  s.modTeam t (fun tm => { tm with
    unpubR := { slot, lanes := set, old := tm.resvAt slot } :: tm.unpubR
    r := { tm.r with resv := Tbl.put tm.r.resv slot r } })

def resvEff (f : Form) (buf : Buf) (fmt : Fmt) (lab : Label) (slot : Nat) (s : State) (i : Iss) (act : List Nat) : Eff :=
  match leads s i f act with
  | none => .done s []
  | some l =>
    let a := readOp s i.team l .int true f.a
    let b := readOp s i.team l .int false f.b
    let d := readOp s i.team l .int false f.d
    let base := a.val.toNat % 2 ^ 32
    let len := a.val.toNat / 2 ^ 32
    let r : Resv := { valid := true, lab := 0, buf, fmt, soff := b.val.toNat % 2 ^ 24, blk := d.val.toNat % 2 ^ 16, len, base }
    let tm := s.team i.team
    let labs := labOf s i.team l f.c [a.lab, b.lab, d.lab]
    let why := resvWhy tm r
    if why ≠ 0 then .done s [(l, .fault ⟨.reservation, resvTval why slot⟩ labs)]
    else
      let us := unitsOf buf base len
      let m := tm.marks buf
      let lab' := Label.joinAll (lab :: labs :: us.map (fun u => Tbl.getD m u 0))
      let s := s.modTeam i.team (fun tm => tm.setMarks buf (us.foldl (fun m u => Tbl.put m u lab') m))
      .done (putResv s i.team slot i.lanes { r with lab := lab' }) []

/-- `resv` (R188). -/
def execResv (c : Ctl) (buf : Buf) (fmt : Fmt) (lab : Label) (slot : BitVec 4) (d a b : Operand) (s : State) :
    Host.Outcome State Fault Refusal :=
  .next (issueWith .plain (formOf (.resv c buf fmt lab slot d a b))
    (resvEff (formOf (.resv c buf fmt lab slot d a b)) buf fmt lab slot.toNat) s)

def resfreeEff (all : Bool) (slot : Nat) (f : Form) (s : State) (i : Iss) (act : List Nat) : Eff :=
  match leads s i f act with
  | none => .done s []
  | some _ =>
    let ns := if all then List.range 16 else [slot]
    .done (ns.foldl (fun s n =>
      let r := (s.team i.team).resvAt n
      if r.valid then putResv s i.team n i.lanes { r with valid := false } else s) s) []

/-- `resfree` (R189). -/
def execResfree (c : Ctl) (all : Bool) (slot : BitVec 4) (s : State) : Host.Outcome State Fault Refusal :=
  .next (issueWith .plain (formOf (.resfree c all slot)) (resfreeEff all slot.toNat (formOf (.resfree c all slot))) s)

end Sys2Proof.Machine
end

