-- ==== Sys2Proof/Machine/Control.lean ====
section
/-! DEFINITION. The meanings of rows 0x10 to 0x13 (R130 to R149): branches, calls and the return stack, reforming, traps and
the return from them, system registers, labels, trace marks, calls to the slice kernel and launches. -/

namespace Sys2Proof.Machine

open Sys2Proof

-- branches (R131 to R134)

/-- TVAL of LABEL_BRANCH (R134). -/
def branchTval (src : Bool) (pcl lab : Label) : Nat := bit src 4 + pcl.toNat * 4 + lab.toNat

/-- The LABEL_BRANCH of a lane, if its guard's or its target's label exceeds the PC label (R131, R132, R134). -/
def branchFault (s : State) (t l : Nat) (c : Ctl) (target : Option Label) : Option (Flt × Label) :=
  let pcl := pcLabel s t l
  let g := guardLab s t l c
  match (if pcl < g then some (branchTval false pcl g) else none), target with
  | some v, la => some (⟨.labelBranch, v⟩, labOf s t l c [la.getD 0])
  | none, some la => if pcl < la then some (⟨.labelBranch, branchTval true pcl la⟩, labOf s t l c [la]) else none
  | none, none => none

/-- The target of bra and call (R131). -/
def dispTarget (pc : PC) (disp : BitVec 8) : PC := pc + 12 + 12 * disp.signExtend 52

/-- The target of jmp and calli: bits [63:52] and [1:0] are ignored (R132). -/
def regTarget (a : DWord) : PC := a.setWidth 52 &&& ~~~(3 : PC)

/-- Where each active lane goes, or its LABEL_BRANCH. -/
inductive Aim where
  | to (pc : PC)
  | bad (f : Flt) (lab : Label)
  deriving DecidableEq, Repr

def aimDisp (s : State) (t : Nat) (c : Ctl) (disp : BitVec 8) (l : Nat) : Aim :=
  match branchFault s t l c none with
  | some (f, lab) => .bad f lab
  | none => .to (dispTarget (s.thread t l).r.pc disp)

def aimReg (s : State) (t : Nat) (f : Form) (l : Nat) : Aim :=
  let a := readOp s t l .int true f.a
  match branchFault s t l f.c (some a.lab) with
  | some (g, lab) => .bad g lab
  | none => .to (regTarget a.val)

def Aim.out : Aim → Out
  | .to pc => .jump pc
  | .bad f lab => .fault f lab

def branchEff (aim : State → Nat → Nat → Aim) (s : State) (i : Iss) (act : List Nat) : Eff :=
  .done s (act.map (fun l => (l, (aim s i.team l).out)))

/-- `bra` (R131). -/
def execBra (c : Ctl) (disp : BitVec 8) (s : State) : Host.Outcome State Fault Refusal :=
  .next (issueWith .plain (formOf (.bra c disp)) (branchEff (fun s t l => aimDisp s t c disp l)) s)

/-- `jmp` (R132). -/
def execJmp (c : Ctl) (a : Operand) (s : State) : Host.Outcome State Fault Refusal :=
  .next (issueWith .plain (formOf (.jmp c a)) (branchEff (fun s t l => aimReg s t (formOf (.jmp c a)) l)) s)

-- the return stack (R78)

def rsdMax : Nat := 1028

/-- TVAL of a CALL_STACK that stands for a fault of the spill or refill. -/
def slotTval (off : Nat) : Nat := 2 ^ 63 + off

/-- The local offset of entry k. -/
def slotOff (k : Nat) : Nat := 8 * (k - 1)

/-- A spill or refill access of a lane: its slot's local offset. -/
def slotAcc (s : State) (c : Ctl) (t l off : Nat) : Acc :=
  { l, lab := labOf s t l c [], own := off, addr := .glob (localVa s t l off) off }

/-- A partial write at its home: discarded where the sector is poisoned (R162), and its T_w (R167). -/
def storeHome (s : State) (pa : Nat) (bs : List Byte) (x : Xlat) : State × Nat :=
  let s' := if poisAt s pa then s else homeWrite s pa bs (attrLabel x.attr) (attrComp x.attr) false (attrCclass x.attr)
  (s', twOf s (pa / 256) (attrLease x.attr))

/-- A spill store on its way to its home as any store is (R25, R167), or through a link window (R366), owed to the park of the call's segment (R78). -/
def sendSpill (s : State) (core t l : Nat) (x : Xlat) (pa : Nat) (v : PC) (ovw : Bool) : State :=
  let th := s.thread t l
  let id := s.newId
  let link := isLink pa
  let s := if link then outLinks s t l (· + 1) else outStores (l1Store s core pa (leBytes 8 v.toNat) (attrLabel x.attr)) t l (· + 1)
  let s := s.modThread t l (fun th' => { th' with
    out := { th'.out with owes := th'.out.owes ++ [{ id, pc := th.r.pc, ic := th.run.ic, counts := false }] } })
  let r : Req := {
    id, kind := .store, line := pa / 256, link
    parts := [{ team := t, thread := l, off := pa % 256, n := 8, data := v.setWidth 64, x := some x, ovw }] }
  let s := addReq s.bumpId core r
  if link then sendReq s (s.team t).at_.part core r 8 else s

/-- The spill store of a lane (R78): none where it would fault. One on a lost connection is discarded (R367). -/
def spill (s : State) (core t : Nat) (a : Acc) (v : PC) : Option State :=
  match a.addr, a.xa with
  | .glob va own, some (.ok x) =>
    let pa := x.pa va
    let place := (s.team t).at_
    let go := fun (s : State) ovw =>
      if isLink pa && (windowOf s place.part pa).isNone then lostNotice s place.part place.ctx pa else sendSpill s core t a.l x pa v ovw
    if (pageFault x permWrite true own).isSome ∨ attrLabel x.attr < pcLabel s t a.l then none
    else
      match ovwStore s t a.l va 8 with
      | .fault _ => none
      | .suppress s' => some (returnTw s' t a.l s.now)
      | .accept s' => some (go s' true)
      | .pass => some (go s false)
  | _, _ => none

/-- The slot of a refill that may be loaded: its translation, address and physical address; none where the load would fault (R78, R180). -/
def slotOf? (s : State) (t : Nat) (a : Acc) : Option (Xlat × Nat × Nat) :=
  match a.addr, a.pa with
  | .glob _ own, some (x, va, pa) => if (pageFault x permRead false own).isSome ∨ (ovwCheck s t va 8 .ovwRead).isSome then none else some (x, va, pa)
  | _, _ => none

/-- The read of a slot that a `ret` has sent through a link window, by its lane, the lane's instruction count and the address. -/
def slotRead (s : State) (core t l va : Nat) : Option DescRead :=
  (s.core core).desc.find? (fun d => d.slot && decide (d.team = t) && decide (d.lane = l) && decide (d.ic = (s.thread t l).run.ic) && decide (d.va = va))

/-- Reads of slots by these lanes forgotten: their `ret` has issued. -/
def dropSlots (s : State) (core t : Nat) (ls : List Nat) : State :=
  let p := fun (d : DescRead) => d.slot && decide (d.team = t) && ls.contains d.lane
  if (s.core core).desc.any p then s.modCore core (fun k => { k with desc := k.desc.filter (fun d => !p d) }) else s

/-- The read of a slot behind a link window sent (R154, R366), once, and not while the sender must wait (R369). -/
def askSlot (core t : Nat) (s : State) (a : Acc) : State :=
  match slotOf? s t a with
  | none => s
  | some (_, va, pa) =>
    let part := (s.team t).at_.part
    if !isLink pa ∨ (slotRead s core t a.l va).isSome ∨ (windowOf s part pa).isNone ∨ sendHeld s part pa 8 then s
    else
      let id := s.newId
      let d : DescRead := { team := t, lane := a.l, ic := (s.thread t a.l).run.ic, va, id, slot := true }
      (sendLink (dropSlots s.bumpId core t [a.l]) part core id pa 8 [(pa, .read 8)]).modCore core (fun k => { k with desc := k.desc ++ [d] })

/-- A live copy of the slot in the L1, which serves the refill as it serves any load (R166). -/
def slotHit (s : State) (core : Nat) (x : Xlat) (pa : Nat) : Option L1Sector := if cacheable x pa then l1Live s core pa else none

/-- Whether a refill waits: for an answer through its window, or, where no live copy serves it, for the core's earlier accesses to the line and for the line at
its home (R161, R168, R174). -/
def slotWaits (s : State) (core t : Nat) (a : Acc) : Bool :=
  match slotOf? s t a with
  | none => false
  | some (x, va, pa) =>
    if isLink pa then
      match slotRead s core t a.l va with
      | some d => d.ans.isNone
      | none => (windowOf s (s.team t).at_.part pa).isSome
    else
      (slotHit s core x pa).isNone &&
        ((s.core core).out.any (fun r => r.kind.onLine && decide (r.line = pa / 256)) || closed s (.mem (pa / 256)))

/-- A slot loaded at its home: a fill under the page's lease where the L1 may hold it (R165), else its data is put into the copy that the L1 holds (R170). -/
def fillSlot (s : State) (core t l : Nat) (x : Xlat) (pa : Nat) : State :=
  let line := pa / 256
  let r : Req := {
    id := s.newId, kind := .load (cacheable x pa) (attrLease x.attr), line
    parts := [{ team := t, thread := l, off := pa % 256, n := 8, x := some x }] }
  let s := (homeTake s line (attrCclass x.attr) false).countCore core (s.team t).at_.part .l1Miss
  if cacheable x pa then let g := grantLease s line (attrLease x.attr); installSectors g.1 core r g.2 else refreshSectors s core r

/-- The refill load of a lane (R78): its value, or none where it would fault or brings a poison mark. -/
def refill (s : State) (core t : Nat) (a : Acc) : State × Option PC :=
  match slotOf? s t a with
  | none => (s, none)
  | some (x, va, pa) =>
    if isLink pa then
      match slotRead s core t a.l va with
      | some d => (s, d.ans.join.map (fun bs => pcOf (leNat bs)))
      | none => (lostNotice s (s.team t).at_.part (s.team t).at_.ctx pa, none)
    else
      match slotHit s core x pa with
      | some k => (s, if k.pois then none else some (pcOf (leNat ((k.bytes.drop (pa % 64)).take 8))))
      | none => (fillSlot s core t a.l x pa, if poisAt s pa then none else some (pcOf (homeRead s pa 8)))

/-- A call in one lane: the push of PC + 12, then the target. `a` is the spill, where one is needed. -/
def callLane (s : State) (c : Ctl) (core t l : Nat) (tgt : PC) (a : Option Acc) : State × Out :=
  let th := s.thread t l
  let n := th.r.rsd
  let lab := labOf s t l c []
  if rsdMax ≤ n then (s, .fault ⟨.callStack, rsdMax⟩ lab)
  else
    let push := fun (s : State) => s.modThread t l (fun th => { th with
      r := { th.r with ret := (th.r.pc + 12) :: th.r.ret.take 3, rsd := n + 1 } })
    match a with
    | none => (push s, .jump tgt)
    | some a =>
      match spill s core t a (th.r.ret.getD 3 0) with
      | some s' => (push s', .jump tgt)
      | none => (s, .fault ⟨.callStack, slotTval a.own⟩ lab)

/-- A ret in one lane (R133, R78). -/
def retLane (s : State) (c : Ctl) (core t l : Nat) (a : Option Acc) : State × Out :=
  let th := s.thread t l
  let n := th.r.rsd
  let lab := labOf s t l c []
  match n, th.r.ret with
  | 0, _ => (s, .fault ⟨.callStack, 0⟩ lab)
  | _ + 1, [] => (s, .fault ⟨.callStack, 0⟩ lab)
  | k + 1, top :: rest =>
    let pop := fun (s : State) extra => s.modThread t l (fun th => { th with r := { th.r with ret := rest ++ extra, rsd := k } })
    match a with
    | none => (pop s [], .jump top)
    | some a =>
      match refill s core t a with
      | (s, some v) => (pop s [v], .jump top)
      | (s, none) => (s, .fault ⟨.callStack, slotTval a.own⟩ lab)

/-- The fold of a return-stack instruction over its lanes. -/
def foldStack (g : State → Nat → State × Out) : State → List Nat → State × List (Nat × Out)
  | s, [] => (s, [])
  | s, l :: ls =>
    let r := g s l
    let q := foldStack g r.1 ls
    (q.1, (l, r.2) :: q.2)

/-- Calls of the active lanes (R131, R132): a LABEL_BRANCH comes first, then the push (R151). -/
def callEff (c : Ctl) (aim : State → Nat → Nat → Aim) (s : State) (i : Iss) (act : List Nat) : Eff :=
  let t := i.team
  let needs := act.filter (fun l =>
    let n := (s.thread t l).r.rsd
    (match aim s t l with | .to _ => true | .bad _ _ => false) && decide (4 ≤ n) && decide (n < rsdMax))
  let r := xlateAccs s t kindWrite permWrite (needs.map (fun l => slotAcc s c t l (slotOff ((s.thread t l).r.rsd - 3))))
  if r.2.any Acc.waits ∨ linksHeld r.1 (s.team t).at_.part 8 r.2 then .hold r.1
  else
    let q := foldStack (fun s' l =>
      match aim s t l with
      | .bad f lab => (s', .fault f lab)
      | .to pc => callLane s' c i.core t l pc (r.2.find? (fun a => decide (a.l = l)))) r.1 act
    .done q.1 q.2

/-- Returns of the active lanes (R133). -/
def retEff (c : Ctl) (s : State) (i : Iss) (act : List Nat) : Eff :=
  let t := i.team
  let needs := act.filter (fun l => (branchFault s t l c none).isNone && decide (5 ≤ (s.thread t l).r.rsd))
  let r := xlateAccs s t kindLoad permRead (needs.map (fun l => slotAcc s c t l (slotOff ((s.thread t l).r.rsd - 4))))
  let s1 := r.2.foldl (askSlot i.core t) r.1
  if r.2.any Acc.waits ∨ r.2.any (slotWaits s1 i.core t) then .hold s1
  else
    let q := foldStack (fun s' l =>
      match branchFault s t l c none with
      | some (f, lab) => (s', .fault f lab)
      | none => retLane s' c i.core t l (r.2.find? (fun a => decide (a.l = l)))) s1 act
    .done (dropSlots q.1 i.core t needs) q.2

/-- `call` (R131). -/
def execCall (c : Ctl) (disp : BitVec 8) (s : State) : Host.Outcome State Fault Refusal :=
  .next (issueWith .plain (formOf (.call c disp)) (callEff c (fun s t l => aimDisp s t c disp l)) s)

/-- `calli` (R132). -/
def execCalli (c : Ctl) (a : Operand) (s : State) : Host.Outcome State Fault Refusal :=
  .next (issueWith .plain (formOf (.calli c a)) (callEff c (fun s t l => aimReg s t (formOf (.calli c a)) l)) s)

/-- `ret` (R133). -/
def execRet (c : Ctl) (s : State) : Host.Outcome State Fault Refusal :=
  .next (issueWith .plain (formOf (.ret c)) (retEff c) s)

-- reshaping the group (R135 to R137)

/-- `reform` (R135). -/
def execReform (c : Ctl) (s : State) : Host.Outcome State Fault Refusal :=
  .next (issueWith .reform (formOf (.reform c)) (fun s _ _ => .done s []) s)

def demoteEff (s : State) (i : Iss) (act : List Nat) : Eff :=
  .done (act.foldl (fun s l => s.modThread i.team l (fun th => { th with t := { th.t with helper := true } })) s) []

/-- `demote` (R136). -/
def execDemote (c : Ctl) (s : State) : Host.Outcome State Fault Refusal :=
  .next (issueWith .plain (formOf (.demote c)) demoteEff s)

/-- `exit`: each active lane's thread parks at the exit and ends when its park does (R137). -/
def execExit (c : Ctl) (s : State) : Host.Outcome State Fault Refusal :=
  .next (issueWith .exit (formOf (.exit c)) (fun s _ act => .done s (act.map (fun l => (l, .stay)))) s)

-- traps and return (R138, R139)

def trapEff (f : Form) (s : State) (i : Iss) (act : List Nat) : Eff :=
  .done s (act.map (fun l =>
    let a := readOp s i.team l .int false f.a
    (l, .fault ⟨.trap, a.val.toNat⟩ (labOf s i.team l f.c [a.lab]))))

/-- `trap` (R138). -/
def execTrap (c : Ctl) (a : Operand) (s : State) : Host.Outcome State Fault Refusal :=
  .next (issueWith .plain (formOf (.trap c a)) (trapEff (formOf (.trap c a))) s)

/-- `brk` (R138). -/
def execBrk (c : Ctl) (code : BitVec 8) (s : State) : Host.Outcome State Fault Refusal :=
  .next (issueWith .plain (formOf (.brk c code))
    (fun s i act => .done s (act.map (fun l => (l, .fault ⟨.break_, code.toNat⟩ (labOf s i.team l c []))))) s)

/-- TVAL of PRIVILEGE (R145). -/
def privTval (rte declass wr : Bool) (sr : Nat) : Nat := bit rte 10 + bit declass 9 + bit wr 8 + sr

/-- The return of a lane from trap mode (R139). -/
def rteLane (nx : Bool) (c : Ctl) (t : Nat) (s : State) (l : Nat) : State × Out :=
  let th := s.thread t l
  if th.t.trap then
    (s.modThread t l (fun th => { th with t := { th.t with trap := false, sup := false } }),
     .jump ((th.t.tpc.val.setWidth 52 + (if nx then 12 else 0)) &&& ~~~(3 : PC)))
  else (s, .fault ⟨.privilege, privTval true false false 0⟩ (labOf s t l c []))

def rteEff (nx : Bool) (c : Ctl) (s : State) (i : Iss) (act : List Nat) : Eff :=
  let q := foldStack (rteLane nx c i.team) s act
  .done q.1 q.2

/-- `rte` (R139). -/
def execRte (c : Ctl) (nx : Bool) (s : State) : Host.Outcome State Fault Refusal :=
  .next (issueWith .plain (formOf (.rte c nx)) (rteEff nx c) s)

-- system registers (R142 to R145)

/-- Whether a lane may read, and write, a register (R69, R144). -/
def mayRead (sr : SysReg) (sup : Bool) : Bool :=
  match sr with
  | .svec => sup | .accown => sup | .tstat => true | .tpc => true | .tcause => true | .tval => true | .tvec => true
  | .ctxid => true | .time => true | .vtime => true | .tapc => true
def mayWrite (sr : SysReg) (sup : Bool) : Bool :=
  match sr with
  | .tvec => true | .tpc => sup | .tapc => sup | .tcause => sup | .tval => sup | .accown => sup | .svec => sup
  | .tstat => false | .ctxid => false | .time => false | .vtime => false

/-- An element of ACCOWN (R69): 0xFFFF at reset. -/
def accownAt (s : State) (core i : Nat) : Nat := Tbl.getD (s.core core).accown i 0xFFFF

/-- The value and label of a system register as thread `l` sees it; `i` is the ACCOWN element (R142, R70). Registers that carry no
label of their own yield the PC label, but an ACCOWN element, which R142's pseudocode gives Lab(li) (DEDUCED, log 92: R70 speaks of any other register). -/
def sysRead (s : State) (t l : Nat) (c : Ctl) (sr : SysReg) (i : Src) : DWord × Label :=
  let tm := s.team t
  let th := tm.thread l
  let pcl := pcLabel s t l
  match sr with
  | .tstat => (tm.tstat th, pcl)
  | .tpc => (th.t.tpc.val, labOf s t l c [th.t.tpc.lab])
  | .tapc => (th.t.tapc.val, labOf s t l c [th.t.tapc.lab])
  | .tcause => (th.t.tcause.val, labOf s t l c [th.t.tcause.lab])
  | .tval => (th.t.tval.val, labOf s t l c [th.t.tval.lab])
  | .tvec => ((tvecFor s t l).setWidth 64, pcl)
  | .svec => (svecFor s t l, pcl)
  | .ctxid => (tm.ctxid, pcl)
  | .accown =>
    (staleSys t l th.run.ic .accown tm.at_.core i.val.toNat s.unpubSys (BitVec.ofNat 64 (accownAt s tm.at_.core i.val.toNat)),
     labOf s t l c [i.lab])
  | .time => (BitVec.ofNat 64 s.now, pcl)
  | .vtime => (BitVec.ofNat 64 ((s.ctx tm.at_.part tm.at_.ctx).vtime / 1000), pcl)

/-- TVAL of an index out of range (R145). -/
def indexTval (i field enc : Nat) : Nat := min i 0xFFFF * 2 ^ 16 + field * 2 ^ 12 + enc

/-- The fault of a system-register move in one lane (R142, R143, R151): PRIVILEGE, then the index as it is read, then A where the lane reads it; `ix`
is the index operand. -/
def sysFault (s : State) (i : Iss) (l : Nat) (f : Form) (sr : SysReg) (wr : Bool) (ix : Operand) : Option (Flt × Label) :=
  let t := i.team
  let sup := (s.thread t l).t.sup
  let rest := if wr then poisonIn s i l f [1] else none
  if !(if wr then mayWrite sr sup else mayRead sr sup) then
    some (⟨.privilege, privTval false false wr sr.code⟩, labOf s t l f.c [])
  else if sr = .accown then
    match poisonIn s i l f [if wr then 2 else 1] with
    | some e => some e
    | none =>
      let x := readOp s t l .int false ix
      if 768 ≤ x.val.toNat then
        some (⟨.illegalOperand, indexTval x.val.toNat (if wr then 2 else 1) (encOf ix)⟩, labOf s t l f.c [x.lab])
      else if wr then poisonIn s i l f [2, 1] else none
  else rest

def rdsrEff (f : Form) (sr : SysReg) (s : State) (i : Iss) (act : List Nat) : Eff :=
  let t := i.team
  let ok := act.filter (fun l => (sysFault s i l f sr false f.a).isNone)
  .done (ok.foldl (fun s' l =>
      let x := sysRead s t l f.c sr (readOp s t l .int false f.a)
      writeOp s' t l act i.lanes f.lat true f.d x.1 x.2) s)
    (act.filterMap (fun l => (sysFault s i l f sr false f.a).map (fun e => (l, .fault e.1 e.2))))

/-- `rdsr` (R142). -/
def execRdsr (c : Ctl) (sr : SysReg) (d idx : Operand) (s : State) : Host.Outcome State Fault Refusal :=
  .next (issueWith .plain (formOf (.rdsr c sr d idx)) (rdsrEff (formOf (.rdsr c sr d idx)) sr) s)

/-- A write kept unpublished until the writer's park ends (R143, R44). -/
def noteSys (s : State) (t : Nat) (set : List Nat) (sr : SysReg) (scope idx : Nat) (old : DWord) : State :=
  { s with unpubSys := { team := t, lanes := set, sr, scope, idx, old } :: s.unpubSys }

/-- The write of a system register by thread `l` (R143). Of two writes with no order between them, which leave one of the two values, the later to issue
stands (DESIGN CHOICE, log 92). -/
def sysWrite (s : State) (t l : Nat) (set : List Nat) (sr : SysReg) (idx : Nat) (a : DWord) (lab : Label) : State :=
  let tm := s.team t
  let pcv : DWord := (a.setWidth 52 &&& ~~~(3 : PC)).setWidth 64
  match sr with
  | .tpc => s.modThread t l (fun th => { th with t := { th.t with tpc := ⟨pcv, lab⟩ } })
  | .tapc => s.modThread t l (fun th => { th with t := { th.t with tapc := ⟨pcv, lab⟩ } })
  | .tcause => s.modThread t l (fun th => { th with t := { th.t with tcause := ⟨a &&& 0x1FFFF, lab⟩ } })
  | .tval => s.modThread t l (fun th => { th with t := { th.t with tval := ⟨a, lab⟩ } })
  | .tvec =>
    (noteSys s t set .tvec t 0 (tm.r.tvec.setWidth 64)).modTeam t (fun tm => { tm with
      r := { tm.r with tvec := a.setWidth 52 &&& ~~~(3 : PC) } })
  | .svec => (noteSys s t set .svec tm.at_.part 0 (s.part tm.at_.part).svec).modPart tm.at_.part (fun p => { p with svec := a })
  | .accown =>
    (noteSys s t set .accown tm.at_.core idx (BitVec.ofNat 64 (accownAt s tm.at_.core idx))).modCore tm.at_.core
      (fun k => { k with accown := Tbl.put k.accown idx (a.toNat % 65536) })
  | .tstat => s
  | .ctxid => s
  | .time => s
  | .vtime => s

def wrsrEff (f : Form) (sr : SysReg) (s : State) (i : Iss) (act : List Nat) : Eff :=
  let t := i.team
  let ok := act.filter (fun l => (sysFault s i l f sr true f.b).isNone && (threadScope sr || decide (leader s i .low f.c = some l)))
  .done (ok.foldl (fun s' l =>
      let a := readOp s t l .int true f.a
      sysWrite s' t l i.lanes sr (readOp s t l .int false f.b).val.toNat a.val (labOf s t l f.c [a.lab])) s)
    (act.filterMap (fun l => (sysFault s i l f sr true f.b).map (fun e => (l, .fault e.1 e.2))))

/-- `wrsr` (R143). -/
def execWrsr (c : Ctl) (sr : SysReg) (a idx : Operand) (s : State) : Host.Outcome State Fault Refusal :=
  .next (issueWith .plain (formOf (.wrsr c sr a idx)) (wrsrEff (formOf (.wrsr c sr a idx)) sr) s)

-- labels (R146, R147)

def raiseEff (lab : Label) (s : State) (i : Iss) (act : List Nat) : Eff :=
  .done (act.foldl (fun s l => s.modThread i.team l (fun th => { th with r := { th.r with pcl := th.r.pcl.join lab } })) s) []

/-- `raise` (R146). -/
def execRaise (c : Ctl) (lab : Label) (s : State) : Host.Outcome State Fault Refusal :=
  .next (issueWith .plain (formOf (.raise c lab)) (raiseEff lab) s)

/-- The translation by which a lane set's instruction at `va` was fetched: that of its first lane, `l`. -/
def fetchXlat (s : State) (t l va : Nat) : Option Xlat :=
  match xlateThread s t l va va kindExec permExec with
  | .ans _ (.ok x) => some x
  | .ans _ (.fail _) => none
  | .wait _ => none

/-- Declassify authority of a code page (R347). -/
def pageDeclass (s : State) (part : Nat) (x : Xlat) : Bool :=
  let w := (s.part part).declass
  decide (w.2 ≠ 0) && decide (w.1 * 4096 ≤ x.frame) && decide (x.frame + 2 ^ x.psize ≤ (w.1 + w.2) * 4096) &&
  permsIn permExec (attrPerm x.attr) && decide (attrPerm x.attr / 2 % 2 = 0)

/-- Whether the page, or both pages, of the lane set's instruction have declassify authority (R147). -/
def mayDeclass (s : State) (i : Iss) : Bool :=
  let t := i.team
  let l := i.lanes.headD 0
  let pc := i.pc.toNat
  [pc, (pc + 11) % 2 ^ 52].all (fun va =>
    match fetchXlat s t l va with
    | some x => pageDeclass s (s.team t).at_.part x
    | none => false)

def declassEff (f : Form) (lab : Label) (s : State) (i : Iss) (act : List Nat) : Eff :=
  let t := i.team
  let may := fun l => (s.thread t l).t.sup && mayDeclass s i
  let fault := fun l => if may l then poisonIn s i l f [1] else some (⟨.privilege, privTval false true false 0⟩, labOf s t l f.c [])
  .done ((act.filter (fun l => (fault l).isNone)).foldl (fun s' l =>
      writeOp s' t l act i.lanes f.lat false f.d (readOp s t l .int false f.a).val lab) s)
    (act.filterMap (fun l => (fault l).map (fun e => (l, .fault e.1 e.2))))

/-- `declass` (R147). -/
def execDeclass (c : Ctl) (lab : Label) (d a : Operand) (s : State) : Host.Outcome State Fault Refusal :=
  .next (issueWith .plain (formOf (.declass c lab d a)) (declassEff (formOf (.declass c lab d a)) lab) s)

-- trace marks (R148, R357)

def tmarkEff (f : Form) (tag : BitVec 8) (s : State) (i : Iss) (act : List Nat) : Eff :=
  let t := i.team
  let tm := s.team t
  let v := (s.ctx tm.at_.part tm.at_.ctx).vtime / 1000
  .done ((act.filter (fun l => !(s.thread t l).t.helper)).foldl (fun s' l =>
    let a := readOp s t l .int false f.a
    emitTrace s' tm.at_.part (some i.core)
      (traceRecord (BitVec.ofNat 64 s.now) (BitVec.ofNat 64 v) 1 tag.toNat i.core l tm.tag (s.thread t l).r.pc
        (a.val.setWidth 32)) (labOf s t l f.c [a.lab])) s) []

/-- `tmark` (R148). -/
def execTmark (c : Ctl) (tag : BitVec 8) (a : Operand) (s : State) : Host.Outcome State Fault Refusal :=
  .next (issueWith .plain (formOf (.tmark c tag a)) (tmarkEff (formOf (.tmark c tag a)) tag) s)

-- svc and launch (R140, R149)

/-- A result that is returned to its lane with no access: a request that stands in the core as a reply. -/
def replyLane (s : State) (i : Iss) (act : List Nat) (f : Form) (l : Nat) (x : DWord) (lab : Label) : State :=
  let id := s.newId
  oweResult (addReq s.bumpId i.core { id, kind := .reply x 0 false, parts := [{ team := i.team, thread := l, off := 0, n := 8 }] })
    i.team l act i.lanes f id lab false 0

/-- A call from each active lane that is no helper, once a device-scope release holds for its earlier accesses (R140). -/
def svcEff (f : Form) (num : BitVec 8) (s : State) (i : Iss) (act : List Nat) : Eff :=
  let t := i.team
  let tm := s.team t
  let real := act.filter (fun l => !(s.thread t l).t.helper)
  if !real.all (fun l => fenceMet s t [l] .dev) then .hold s
  else
    .done (act.foldl (fun s' l =>
      let a := readOp s t l .int true f.a
      let lab := labOf s t l f.c [a.lab]
      if (s.thread t l).t.helper then replyLane s' i act f l 0 lab
      else
        let id := s'.newId
        (oweResult s'.bumpId t l act i.lanes f id lab false 0).modPart tm.at_.part (fun p => { p with
          calls := p.calls ++ [{ id, team := t, thread := l, owe := id, ctx := tm.at_.ctx, tag := tm.tag,
                                 num := num.toNat, a := a.val, lab }] })) s) []

/-- `svc` (R140). -/
def execSvc (c : Ctl) (num : BitVec 8) (d a : Operand) (s : State) : Host.Outcome State Fault Refusal :=
  .next (issueWith .plain (formOf (.svc c num d a)) (svcEff (formOf (.svc c num d a)) num) s)

/-- The handle register of a command written by l0: the token with HLabel, and the entry that the register held freed where
nothing else holds it (R216, R217). -/
def writeToken (s : State) (i : Iss) (act : List Nat) (f : Form) (l : Nat) (tok : Word) (lab : Label) : State :=
  sweepHandles (writeOp s i.team l act i.lanes f.lat false f.d (tok.setWidth 64) lab)
    (tokCore (regNow s i.team l (encOf f.d)).val)

/-- A launch (R149): one submission from the lowest active lane that is no helper. -/
def launchEff (f : Form) (s : State) (i : Iss) (act : List Nat) : Eff :=
  let t := i.team
  let tm := s.team t
  match leads s i f act with
  | none => .done s []
  | some l =>
    let a := readOp s t l .int true f.a
    let b := readOp s t l .int false f.b
    let lab := labOf s t l f.c [a.lab, b.lab]
    let th := s.thread t l
    if th.out.stores ≠ 0 ∨ s.now < th.out.tw then .hold s
    else
      match takeHandle s i.core lab with
      | none => .hold s
      | some (e, tok, s1) =>
        let b' : Sub := {
          src := .launch i.core e, part := tm.at_.part, ctx := tm.at_.ctx, addr := a.val, queue := b.val.toNat % 64,
          bad := decide (64 ≤ b.val.toNat) || decide (a.val.toNat % 256 ≠ 0), hlab := lab, team := some t, lanes := i.lanes }
        let s2 := ({ s1 with subs := Tbl.put s1.subs s1.newId b' } : State).bumpId
        .done (writeToken s2 i act f l tok lab) []

/-- `launch` (R149). -/
def execLaunch (c : Ctl) (d a b : Operand) (s : State) : Host.Outcome State Fault Refusal :=
  .next (issueWith .plain (formOf (.launch c d a b)) (launchEff (formOf (.launch c d a b))) s)

end Sys2Proof.Machine
end

