-- ==== Sys2Proof/Machine/Blocks.lean ====
section
/-! DEFINITION. What command instructions share (R37, R220 to R222): parameter blocks, their fields and reserved ranges, and the
check of an accumulator page's owner (R333). -/

namespace Sys2Proof.Machine

open Sys2Proof

/-- Bits hi to lo of a structure held as a number. -/
def fieldOf (b hi lo : Nat) : Nat := b / 2 ^ lo % 2 ^ (hi + 1 - lo)

/-- The lowest of the ranges (hi, lo), ascending, that is not zero. -/
def reservedAt (b : Nat) (rs : List (Nat × Nat)) : Option Nat := (rs.find? (fun r => decide (fieldOf b r.1 r.2 ≠ 0))).map Prod.snd

/-- A fault of a field, by the position of its bit 0 (R222). -/
def fieldFlt (c : FaultCode) (lo : Nat) : Flt := ⟨c, 2 ^ 63 + lo⟩

/-- The lowest field that offends: position, whether it does. -/
def firstField (fs : List (Nat × Bool)) : Option Nat := (fs.find? Prod.snd).map Prod.fst

/-- What reading a block comes to: the access waits for an engine (R174), a fault of order 1, or the block with its label. -/
inductive BlkRes where
  | hold
  | fault (f : Flt) (lab : Label)
  | ok (b : Nat) (lab : Label)
  deriving DecidableEq, Repr

/-- The block of n bytes that A names in lane `l` (R220): s registers under `.u`, else the team's own shared memory. A poisoned
block is MEM_POISON in l0 (log 26). -/
def readBlock (s : State) (t core l : Nat) (f : Form) (n : Nat) : BlkRes :=
  match f.block, f.a with
  | k + 1, .s i =>
    let rs := (List.range (k + 1)).map (fun j => regRead s t l (0x800 + i.toNat + j))
    .ok (rs.foldr (fun r x => r.val.toNat + 2 ^ 32 * x) 0) (Label.joinAll (rs.map Reg.lab))
  | _, _ =>
    let a := readOp s t l .int false f.a
    let ea := a.val.toNat
    let tv := accessBits false ea
    if ea % n ≠ 0 then .fault ⟨.misaligned, tv⟩ a.lab
    else
      match sharedPlace s t ea n true with
      | none => .fault ⟨.sharedRange, tv⟩ a.lab
      | some (u, off) =>
        let tm := s.team u
        if sharedBusy s core u off then .hold
        else if tm.shPois off then .fault ⟨.memPoison, tv⟩ (a.lab.join (tm.shLab off))
        else .ok (leNat (Mem.readN tm.sh.bytes off n)) (a.lab.join (tm.shLab off))

/-- Whether a thread stands in trap mode for ACC_FIRST_USE of page `p` (R333). -/
def Thread.handles (th : Thread) (p : Nat) : Bool :=
  th.t.trap && decide (th.t.tcause.val.toNat % 2 ^ 16 = FaultCode.accFirstUse.code) && decide (th.t.tval.val.toNat = p)

/-- Whether a lane of the core other than lane `l` of team `t` stands in trap mode for ACC_FIRST_USE of page `p` (R333). -/
def accHeld (s : State) (core t l p : Nat) : Bool :=
  s.teams.any (fun e => decide (e.2.at_.core = core) && e.2.threads.any (fun th => decide ((e.1, th.1) ≠ (t, l)) && th.2.handles p))

/-- The check of R333 over pages, against ACCOWN as it stands at issue (R143): the lowest page that fails, held at issue while another lane traps for
it, or none. -/
inductive AccRes where
  | hold
  | fault (p : Nat)
  | ok
  deriving DecidableEq, Repr

def accCheck (s : State) (t l : Nat) (pages : List Nat) : AccRes :=
  let tm := s.team t
  match pages.filter (fun p => decide (accownAt s tm.at_.core p ≠ tm.tag)) with
  | [] => .ok
  | p :: ps => if accHeld s tm.at_.core t l (ps.foldl min p) then .hold else .fault (ps.foldl min p)

/-- The TVAL of a fault against a slot (R222). -/
def slotFlt (c : FaultCode) (wr : Bool) (n : Nat) : Flt := ⟨c, accessBits wr n⟩

end Sys2Proof.Machine
end

