-- ==== Sys2Proof/Machine/Schedule.lean ====
section
/-! DEFINITION. One cycle of a core: eligible lanes (R76), the issue choice of its eight schedulers (R245), the lane sets that
issue, ages and waits, heats that qualify (R80), and groups that become clean under a stop request (R328). -/

namespace Sys2Proof.Machine

open Sys2Proof

/-- Whether a thread's next instruction may issue (R76, R41, R187, R308): not while it waits for a handle, a counter, a fence, or room in a queue
(R214). -/
def eligible (s : State) (t l : Nat) : Bool :=
  let r := (s.thread t l).run
  !r.exited && r.park.isNone && r.held.isNone && r.waitC.isNone && r.pend.isNone &&
  (match r.waitH with
   | some w => decide (readToken s t w ≠ .pending)
   | none => true) &&
  (match r.waitQ with
   | some q => ((s.team t).queue q.1).room q.2
   | none => true)

/-- A group that a scheduler may choose: team, slot, priority, its eligible lanes with their PCs, segment start. -/
structure Cand where
  team : Nat
  slot : Nat
  prio : Nat
  wait : Nat
  y : Bool
  start : Nat
  lanes : List (Nat × PC)
  deriving DecidableEq, Repr

def minNat (d : Nat) : List Nat → Nat
  | [] => d
  | x :: xs => xs.foldl min x

/-- Whether validating mode keeps a group from issuing in this cycle (R46): at most one lane set in any 8 cycles. -/
def spaced (tm : Team) (g : Group) (cyc : Nat) : Bool :=
  tm.hdr.vmode && (match g.lastIss with | some c => decide (cyc < c + 8) | none => false)

/-- The candidates of a scheduler (R245). Slot n belongs to scheduler n / 32 (R12). -/
def candidates (s : State) (core sched : Nat) : List Cand :=
  let cyc := (s.core core).cyc
  s.teams.flatMap (fun e =>
    let tm := e.2
    if tm.at_.core ≠ core ∨ tm.ended ∨ tm.halted then []
    else tm.groups.filterMap (fun g =>
      let ls := g.2.lanes.filter (eligible s e.1)
      if g.1 / 32 ≠ sched ∨ ls = [] ∨ tm.stopped.contains g.1 ∨ spaced tm g.2 cyc then none
      else some ⟨e.1, g.1, tm.hdr.prio, g.2.wait, g.2.y, minNat 0 (ls.map (fun l => (tm.thread l).run.segCyc)),
        ls.map (fun l => (l, (tm.thread l).r.pc))⟩))

/-- The order of R245, steps 1 to 5. -/
def Cand.before (x y : Cand) : Bool :=
  if x.prio ≠ y.prio then decide (y.prio < x.prio)
  else if decide (512 ≤ x.wait) != decide (512 ≤ y.wait) then decide (512 ≤ x.wait)
  else if 512 ≤ x.wait ∧ x.wait ≠ y.wait then decide (y.wait < x.wait)
  else if x.y != y.y then !x.y
  else if x.start ≠ y.start then decide (x.start < y.start)
  else decide (x.slot < y.slot)

/-- IssueChoice(scheduler). -/
def issueChoice : List Cand → Option Cand
  | [] => none
  | c :: cs => some (cs.foldl (fun a b => if b.before a then b else a) c)

/-- The lowest PC of lanes. -/
def lowestPc : List (Nat × PC) → Option PC
  | [] => none
  | e :: es => some (es.foldl (fun p f => if f.2 < p then f.2 else p) e.2)

/-- The starved PC: the one whose oldest lane, of age 1,024 or more, is oldest; ties to the lower PC (R76). -/
def starvedPc (age : Nat → Nat) (ls : List (Nat × PC)) : Option PC :=
  match ls.filter (fun e => decide (1024 ≤ age e.1)) with
  | [] => none
  | e :: es =>
    some (es.foldl (fun a f =>
      if age a.1 < age f.1 ∨ (age f.1 = age a.1 ∧ f.2 < a.2) then f else a) e).2

def insertLane (l : Nat) : List Nat → List Nat
  | [] => [l]
  | x :: xs => if l % 16 < x % 16 then l :: x :: xs else x :: insertLane l xs

/-- The lanes at a PC by ascending lane position. -/
def lanesAt (ls : List (Nat × PC)) (p : PC) : List Nat := ((ls.filter (fun e => decide (e.2 = p))).map Prod.fst).foldr insertLane []

/-- The PCs that a chosen group issues at: the primary port's, then the second port's (R76); in validating mode one (R46). -/
def issuePcs (vmode : Bool) (age : Nat → Nat) (ls : List (Nat × PC)) : List PC :=
  match lowestPc ls with
  | none => []
  | some p =>
    if vmode then [(starvedPc age ls).getD p]
    else
      let rest := ls.filter (fun e => decide (e.2 ≠ p))
      match starvedPc age rest, lowestPc rest with
      | some q, _ => [p, q]
      | none, some q => [p, q]
      | none, none => [p]

/-- The lane sets of a chosen group; the lower PC first (R76). -/
def issuesOf (s : State) (core : Nat) (c : Cand) : List Iss :=
  let ps := issuePcs (s.team c.team).hdr.vmode (fun l => (s.thread c.team l).run.age) c.lanes
  let mk := fun second p => ({ core, team := c.team, lanes := lanesAt c.lanes p, pc := p, second } : Iss)
  match ps with
  | [] => []
  | [p] => [mk false p]
  | p :: q :: _ => [mk false p, mk true q]

/-- One scheduler's cycle: waits and ages counted, Y cleared, the lane sets put in the queue (R76, R245). -/
def schedule (s : State) (core sched : Nat) : State :=
  let cs := candidates s core sched
  match issueChoice cs with
  | none => s
  | some g =>
    let is := issuesOf s core g
    let going := is.flatMap Iss.lanes
    let s := cs.foldl (fun s c => s.modTeam c.team (fun tm => { tm with groups := tm.groups.map (fun e =>
      if e.1 = c.slot then (e.1, { e.2 with wait := if c.slot = g.slot then 0 else e.2.wait + 1,
                                            y := if c.slot = g.slot then false else e.2.y }) else e) })) s
    let s := (g.lanes.filter (fun e => !going.contains e.1)).foldl (fun s e => s.modThread g.team e.1 (fun th => { th with
      run := { th.run with age := th.run.age + 1 } })) s
    { s with m := { s.m with issueQ := s.m.issueQ ++ is } }

/-- Groups that are no candidates have a wait of 0: the wait counts consecutive cycles (R245). A group that the limit of R46 holds back is none
(DESIGN CHOICE, log 86). -/
def clearWaits (s : State) (core : Nat) : State :=
  { s with teams := s.teams.map (fun e =>
      if e.2.at_.core ≠ core then e
      else (e.1, { e.2 with groups := e.2.groups.map (fun g =>
        if g.2.lanes.any (eligible s e.1) && !spaced e.2 g.2 (s.core core).cyc then g
        else (g.1, { g.2 with wait := 0 })) })) }

/-- The lane positions that a team has threads at: those of threads that have not exited (R80, R243). -/
def Team.positions (tm : Team) : List Nat := (List.range 16).filter (fun p => tm.live.any (fun l => decide (l % 16 = p)))

/-- Whether a heat may be drawn (R80): full, or 128 cycles old. -/
def Heat.qualified (tm : Team) (cyc : Nat) (h : Heat) : Bool := decide (h.lanes.length = tm.positions.length) || decide (h.opened + 128 ≤ cyc + h.aged)

/-- The team's free group slots. -/
def Team.freeSlots (tm : Team) : List Nat := tm.al.slots.filter (fun n => (Tbl.find tm.groups n).isNone)

/-- Heats that have qualified and find no free slot begin their count (R81). -/
def ageHeats (s : State) (core : Nat) : State :=
  let cyc := (s.core core).cyc
  { s with teams := s.teams.map (fun e =>
      if e.2.at_.core ≠ core ∨ e.2.freeSlots ≠ [] then e
      else (e.1, { e.2 with heats := e.2.heats.map (fun h =>
        if h.qualified e.2 cyc ∧ h.since.isNone then { h with since := some cyc } else h) })) }

/-- Whether a group is clean (R328): every live lane at one PC, each parked at a segment end or waiting, nothing owed, no
lane in trap mode. -/
def Team.clean (tm : Team) (g : Group) : Bool :=
  let ls := g.lanes.filter (fun l => !(tm.thread l).run.exited)
  match ls with
  | [] => true
  | l :: _ =>
    ls.all (fun k =>
      let th := tm.thread k
      decide (th.r.pc = (tm.thread l).r.pc) && decide (th.out.owes = []) && th.out.sFault.isNone && th.run.pend.isNone &&
      !th.t.trap && (th.run.park.isSome || (decide (th.run.ic = th.run.segIc) && th.run.haz = [])))

/-- Groups of teams under a stop request that have become clean are stopped (R328). -/
def stopClean (s : State) (core : Nat) : State :=
  { s with teams := s.teams.map (fun e =>
      if e.2.at_.core ≠ core ∨ !e.2.stop then e
      else (e.1, { e.2 with stopped := e.2.stopped ++
        ((e.2.groups.filter (fun g => !e.2.stopped.contains g.1 && e.2.clean g.2)).map Prod.fst) })) }

/-- The length of a core cycle in picoseconds (R21, R380): the clock counts in 100 MHz. -/
def corePeriod (s : State) : Nat := 10000 / s.boot.clock

/-- Where the next core cycle begins: at 2.5 GHz on a multiple of 400 ps from power good, so that two fill a walker cycle; while throttled after a whole
cycle (R21). -/
def nextDue (s : State) (due : Nat) : Nat := if s.boot.clock = 25 then (s.ps / 400 + 1) * 400 else max due s.ps + corePeriod s

/-- The eight schedulers in the order in which their lane sets of one cycle are taken: no rule gives one, so it is free (R25; log 83). -/
def schedOrder (key : List Nat) : List Nat := freeOrder (25 :: key) (List.range 8)

/-- One cycle of a core. -/
def cycleCore (s : State) (core : Nat) : State :=
  let s := s.modCore core (fun k => { k with cyc := k.cyc + 1, due := nextDue s k.due })
  let s := ageHeats (clearWaits (stopClean s core) core) core
  (schedOrder [core, (s.core core).cyc]).foldl (fun s k => schedule s core k) s

end Sys2Proof.Machine
end

