-- ==== Sys2Proof/Machine/Heats.lean ====
section
/-! DEFINITION. Groups and heats of a team (R75, R79 to R81, R240, R243): leaving a group, filing into a heat, drawing, and the
forced reform, with the events HEAT_DRAW and FORCED_REFORM. -/

namespace Sys2Proof.Machine

open Sys2Proof

/-- Whether a thread is in a group, and whether it is in a heat. -/
def Team.grouped (tm : Team) (l : Nat) : Bool := tm.groups.any (fun g => g.2.lanes.contains l)
def Team.inHeat (tm : Team) (l : Nat) : Bool := tm.heats.any (fun h => h.lanes.contains l)

/-- A thread leaves its group; a group left with no threads frees its slot (R79). -/
def Team.leave (tm : Team) (l : Nat) : Team :=
  let gs := tm.groups.map (fun g => (g.1, { g.2 with lanes := g.2.lanes.filter (fun k => decide (k ≠ l)) }))
  { tm with groups := gs.filter (fun g => decide (g.2.lanes ≠ [])) }

/-- Whether a heat takes a thread at a PC: its key is that PC, and the thread's lane position is free (R79). -/
def Heat.takes (h : Heat) (pc : PC) (l : Nat) : Bool := decide (h.key = pc) && !h.lanes.any (fun k => decide (k % 16 = l % 16))

/-- The oldest heat that takes the thread receives it; heats stand in the order in which they opened. -/
def fileInto (l id cyc : Nat) (pc : PC) : List Heat → List Heat
  | [] => [{ id, key := pc, lanes := [l], opened := cyc }]
  | h :: hs => if h.takes pc l then { h with lanes := h.lanes ++ [l] } :: hs else h :: fileInto l id cyc pc hs

/-- A thread is filed into a heat keyed by its next PC (R79). -/
def Team.file (tm : Team) (l id cyc : Nat) : Team :=
  let tm := tm.leave l
  { tm with heats := fileInto l id cyc (tm.thread l).r.pc tm.heats }

/-- Filing of a thread of the state, with a number for a heat that opens. -/
def fileThread (s : State) (t l : Nat) : State :=
  let cyc := (s.core (s.team t).at_.core).cyc
  (s.modTeam t (fun tm => tm.file l s.newId cyc)).bumpId

/-- A heat becomes a fresh group in a slot; its threads begin a segment (R80, R245). -/
def drawHeat (s : State) (t : Nat) (h : Heat) (slot : Nat) : State :=
  let core := (s.team t).at_.core
  let cyc := (s.core core).cyc
  (s.modTeam t (fun tm => { tm with
    heats := tm.heats.filter (fun k => decide (k.id ≠ h.id))
    groups := Tbl.put tm.groups slot { lanes := h.lanes, formed := cyc }
    threads := tm.threads.map (fun e => if h.lanes.contains e.1 then
      (e.1, { e.2 with run := { e.2.run with age := 0, segCyc := cyc } }) else e) })).countCore core (s.team t).at_.part .heatDraw

/-- The heat drawn next: full heats first, then the oldest (R80). -/
def nextHeat (tm : Team) (cyc : Nat) : Option Heat :=
  let qs := tm.heats.filter (Heat.qualified tm cyc)
  match qs.find? (fun h => decide (h.lanes.length = tm.positions.length)) with
  | some h => some h
  | none => qs.head?

/-- HEAT_DRAW: the slot that a forced reform freed goes to the heat that caused it (R81), and where that heat has a slot already, to the next; otherwise
the next heat takes the lowest free slot (R240). The forced reform is in progress until its slot is free. -/
def execHeatDraw (core team : Nat) (s : State) : Host.Outcome State Fault Refusal :=
  .next (
    let tm := s.team team
    let cyc := (s.core core).cyc
    let free := tm.freeSlots
    let slots := tm.al.slots.filter (fun n => free.contains n)
    let least := fun (l : List Nat) => l.find? (fun n => l.all (fun m => decide (n ≤ m)))
    if tm.at_.core ≠ core ∨ tm.halted then s
    else
      let next := fun (s : State) => match nextHeat tm cyc, least slots with
        | some h, some n => drawHeat s team h n
        | _, _ => s
      match tm.forced with
      | none => next s
      | some (slot, id) =>
        if !slots.contains slot then next s
        else
          let s := s.modTeam team (fun tm => { tm with forced := none })
          match tm.heats.find? (fun h => decide (h.id = id)) with
          | some h => drawHeat s team h slot
          | none => next s)

/-- The order of R81 on groups: fewest threads, formed earliest, lowest slot. -/
def forceBefore (a b : Nat × Group) : Bool :=
  if a.2.lanes.length ≠ b.2.lanes.length then decide (a.2.lanes.length < b.2.lanes.length)
  else if a.2.formed ≠ b.2.formed then decide (a.2.formed < b.2.formed)
  else decide (a.1 < b.1)

def forceChoice : Tbl Group → Option (Nat × Group)
  | [] => none
  | g :: gs => some (gs.foldl (fun a b => if forceBefore b a then b else a) g)

/-- The heat that has waited 1,024 cycles (R81). Of several, the one that has waited longest causes the next forced reform, and of equals the one that was
opened earlier (DESIGN CHOICE, log 92). -/
def starvedHeat (tm : Team) (cyc : Nat) : Option Heat :=
  let late := tm.heats.filter (fun h => match h.since with | some c => decide (c + 1024 ≤ cyc) | none => false)
  late.find? (fun h => late.all (fun k => decide (h.since.getD 0 ≤ k.since.getD 0)))

/-- FORCED_REFORM (R81): one group of the team is marked; its threads that wait on counters leave it at once, parked still or not. -/
def execForcedReform (core team : Nat) (s : State) : Host.Outcome State Fault Refusal :=
  .next (
    let tm := s.team team
    if tm.at_.core ≠ core ∨ tm.forced.isSome ∨ tm.freeSlots ≠ [] then s
    else
      match starvedHeat tm (s.core core).cyc, forceChoice tm.groups with
      | some h, some (slot, g) =>
        let s := s.modTeam team (fun tm => { tm with
          forced := some (slot, h.id)
          groups := Tbl.put tm.groups slot { g with force := true } })
        (g.lanes.foldl (fun s l =>
          if (s.thread team l).run.waitC.isSome then s.modTeam team (fun tm => tm.leave l) else s) s).countCore core tm.at_.part
            .forcedReform
      | _, _ => s)

end Sys2Proof.Machine
end

