-- ==== Sys2Proof/Machine/Counters.lean ====
section
/-! DEFINITION. Counters (R299 to R317): addresses and their checks, the home's operations, waiters and their actions, the meanings
of row 0x1C, and COUNTER_ADD_HOME. -/

namespace Sys2Proof.Machine

open Sys2Proof

-- counter addresses (R301, R316)

def isNear (c : DWord) : Bool := decide (c.toNat / 2 ^ 52 = 1)
/-- COUNTER_RANGE with its TVAL (R317). -/
def rangeFlt (why : Nat) (c : DWord) : Flt := ⟨.counterRange, bit (isNear c) 56 + why * 2 ^ 52 + c.toNat % 2 ^ 52⟩
/-- The TVAL of COUNTER_LIMIT but for BACK (R317). -/
def limitBits (c : DWord) : Nat := bit (isNear c) 52 + c.toNat % 2 ^ 52

/-- Where a counter operation comes to: a wait for a walk, a fault of orders 2 to 6, or the counter. -/
inductive Loc where
  | wait (s : State)
  | bad (s : State) (f : Flt)
  | ok (s : State) (k : CtrKey)

/-- The counter that an address names (R301, R316 orders 2 to 6). `x` translates; `own` is false where a link window may be named;
`t` is the team whose cluster near counters belong to. -/
def locate (s : State) (t : Option Nat) (c : DWord) (wr own : Bool) (x : State → Nat → XOut) : Loc :=
  let n := c.toNat
  let va := n % 2 ^ 52
  if n / 2 ^ 52 = 0 then
    if va % 64 ≠ 0 then .bad s ⟨.misaligned, accessBits wr va⟩
    else
      match x s va with
      | .wait s => .wait s
      | .ans s (.fail f) => .bad s f
      | .ans s (.ok p) =>
        let pa := p.pa va
        if !permsIn (if wr then permWrite else permRead) (attrPerm p.attr) then .bad s ⟨.pagePermission, accessBits wr va⟩
        else if !attrCnt p.attr then .bad s (rangeFlt 4 c)
        else if own ∧ isLink pa then .bad s (rangeFlt 5 c)
        else .ok s (.line pa)
  else if n / 2 ^ 52 ≠ 1 ∨ va / 2 ^ 12 ≠ 0 ∨ va / 16 % 16 ≠ 0 then .bad s (rangeFlt 2 c)
  else
    match t with
    | none => .bad s (rangeFlt 2 c)
    | some t =>
      let rank := va / 256 % 16
      if rank = 0 then .ok s (.near t (va % 16))
      else
        match rankTeam s t (rank - 1) with
        | some u => .ok s (.near u (va % 16))
        | none => .bad s (rangeFlt 3 c)

/-- The counter that a lane's operation names. -/
def locateLane (s : State) (t l : Nat) (c : DWord) (wr own : Bool) : Loc :=
  locate s (some t) c wr own (fun s va => xlateThread s t l va va (if wr then kindWrite else kindLoad)
    (if wr then permWrite else permRead))

-- the home of a counter

def ctrValue (s : State) (k : CtrKey) : DWord :=
  match k with
  | .line pa => BitVec.ofNat 64 (homeRead s pa 8)
  | .near t i => ((s.team t).nearAt i).value
def ctrLimit (s : State) (k : CtrKey) : DWord :=
  match k with
  | .line pa => BitVec.ofNat 64 (homeRead s (pa + 8) 8)
  | .near t i => ((s.team t).nearAt i).limit
def ctrPois (s : State) (k : CtrKey) : Bool :=
  match k with
  | .line pa => poisAt s pa
  | .near t i => ((s.team t).nearAt i).pois

def modNear (s : State) (t i : Nat) (f : Near → Near) : State :=
  s.modTeam t (fun tm => { tm with r := { tm.r with near := Tbl.put tm.r.near i (f (tm.nearAt i)) } })

/-- Bytes of a counter line written by the counter unit (R300) with COMP and CCLASS of the page that the operation came by (R251); `x` is its attribute word. Where
none came by a page, the line keeps its COMP. -/
def ctrBytes (s : State) (pa : Nat) (bs : List Byte) (x : Option Nat) : State :=
  homeWrite s pa bs 0 ((x.map attrComp).getD (s.line (pa / 256)).comp) false ((x.map attrCclass).getD 0)

def ctrSet (s : State) (k : CtrKey) (v : DWord) (x : Option Nat := none) : State :=
  match k with
  | .line pa => ctrBytes s pa (leBytes 8 v.toNat) x
  | .near t i => modNear s t i (fun n => { n with value := v })
def ctrSetLimit (s : State) (k : CtrKey) (v : DWord) (x : Option Nat := none) : State :=
  match k with
  | .line pa => ctrBytes s (pa + 8) (leBytes 8 v.toNat) x
  | .near t i => modNear s t i (fun n => { n with limit := v })

/-- A value meets a threshold (R303). -/
def meets (v t : DWord) : Bool := decide (0 ≤ (v - t).toInt)

def WAct.armedByDevice : WAct → Bool
  | .resume _ _ => true | .gateCmd _ _ => true | .gateQuad _ _ => true | .gateAnchor _ _ => true
  | .launch _ _ => false | .post _ _ => false | .add _ _ => false | .noop => false

/-- WAIT, ARMED, SPILL and WHEAD of a counter line as its armed waiters make them (R300). The index that WHEAD holds is free but
never 0, which stands for none (log 21). -/
def syncLine (s : State) (k : CtrKey) (x : Option Nat := none) : State :=
  match k with
  | .near _ _ => s
  | .line pa =>
    let ws := s.waiters.filter (fun w => decide (w.ctr = k))
    let head := match ws.find? Waiter.spilled with
      | some w => max 1 (Config.spillIndex w.seq).toNat
      | none => 0
    ctrBytes s (pa + 16) (leBytes 16 (head +
      (bit (ws.any (fun w => w.act.armedByDevice)) 64 + bit (ws.any (fun w => !w.act.armedByDevice)) 65 + bit (ws.any Waiter.spilled) 66))) x

/-- Waiters of a slice's counter lines that hold entries of the slice (R314). -/
def entriesUsed (s : State) (pa : Nat) : Nat :=
  (s.waiters.filter (fun w => !w.spilled && (match w.ctr with
    | .line q => decide (sliceOf q = sliceOf pa)
    | .near _ _ => false))).length

/-- A waiter armed at a counter, spilled where its slice has no free entry (R314). -/
def armWaiter (s : State) (w : Waiter) (x : Option Nat := none) : State :=
  match w.ctr with
  | .near _ _ => { s with waiters := s.waiters ++ [w] }
  | .line pa =>
    let full := decide (16384 ≤ entriesUsed s pa)
    let s := syncLine { s with waiters := s.waiters ++ [{ w with spilled := full }] } w.ctr x
    if full then s.countSlice (sliceOf pa) w.part .waiterSpill else s

def dropWaiters (s : State) (k : CtrKey) (p : Waiter → Bool) (x : Option Nat := none) : State :=
  syncLine { s with waiters := s.waiters.filter (fun w => !(decide (w.ctr = k) && p w)) } k x

-- firing (R312, R314)

/-- The order of armed waiters: by Wrap(threshold - V0, 64), then by arrival. -/
def insertWaiter (v0 : DWord) (w : Waiter) : List Waiter → List Waiter
  | [] => [w]
  | x :: xs =>
    if (w.thr - v0).ult (x.thr - v0) ∨ (w.thr = x.thr ∧ w.seq < x.seq) then w :: x :: xs else x :: insertWaiter v0 w xs
def sortWaiters (v0 : DWord) (ws : List Waiter) : List Waiter := ws.foldr (insertWaiter v0) []

/-- A thread's wait met with a value in cycle `cyc` (R308): a lane whose park has ended becomes eligible for its segment now (R76, R245). -/
def Thread.met (th : Thread) (v : DWord) (cyc : Nat) : Thread :=
  match th.run.waitC with
  | none => th
  | some w =>
    let put := fun (t : Tbl Reg) n (x : Word) => Tbl.put t n ⟨x, w.lab, false⟩
    let regs := match w.dest with
      | .v n _ => put (put th.r.v n (v.setWidth 32)) (n + 1) ((v >>> 32).setWidth 32)
      | .none => th.r.v
      | .s _ _ => th.r.v
      | .p _ => th.r.v
      | .q _ => th.r.v
    { th with r := { th.r with v := regs }, run := { th.run with waitC := none, segCyc := if th.run.park.isNone then cyc else th.run.segCyc } }

/-- A lane of a team meets its wait; a thread outside any group is filed (R80). -/
def Team.meet (tm : Team) (v : DWord) (id cyc l : Nat) : Team :=
  let tm := tm.modThread l (fun th => th.met v cyc)
  if tm.grouped l ∨ tm.inHeat l ∨ (tm.thread l).run.park.isSome then tm else tm.file l id cyc

/-- The lanes of a resume waiter meet their waits, in a saved image where their context is swapped out (R314). -/
def resumeTeam (s : State) (part ctx team : Nat) (ls : List Nat) (v : DWord) : State :=
  let cyc := (s.core (s.team team).at_.core).cyc
  if (Tbl.find s.teams team).isSome then
    ls.foldl (fun s l => (s.modTeam team (fun tm => tm.meet v s.newId cyc l)).bumpId) s
  else
    (s.modCtx part ctx (fun c => { c with
      wake := c.wake || c.paged
      saved := c.saved.map (fun i => { i with teams := i.teams.map (fun u =>
        if u.uid = team then { u with team := ls.foldl (fun tm l => tm.meet v (s.newId + l) 0 l) u.team } else u) }) })).bumpId

/-- A gated command starts its work, or is marked so in a saved image (R312). -/
def openGate (s : State) (part ctx : Nat) (core id : Nat) : State :=
  let go := fun (m : Cmd) => if m.id = id then { m with gateMet := true } else m
  let s := s.modCore core (fun k => { k with cmds := k.cmds.map go })
  if (Tbl.find (s.part part).ctxs ctx).isNone then s
  else s.modCtx part ctx (fun c => { c with
    saved := c.saved.map (fun i => { i with teams := i.teams.map (fun u => { u with cmds := u.cmds.map go }) }) })

def MIns.open_ : MIns → MIns
  | .mstream x => .mstream { x with gateMet := true }
  | .mld a b c d e f g h i => .mld a b c d e f g h i
  | .mswap => .mswap
  | .mread a b c d e => .mread a b c d e
  | .mzero a b c d => .mzero a b c d
  | .mrel => .mrel

def Quad.open_ (q : Quad) (id : Nat) : Quad :=
  { q with fly := q.fly.map (fun e => if e.id = id then { e with ins := e.ins.open_ } else e) }

def openQuad (s : State) (part ctx : Nat) (core id : Nat) : State :=
  let s := s.modCore core (fun k => { k with quad := k.quad.open_ id })
  if (Tbl.find (s.part part).ctxs ctx).isNone then s
  else s.modCtx part ctx (fun c => { c with
    saved := c.saved.map (fun i => { i with teams := i.teams.map (fun u => { u with quad := u.quad.open_ id }) }) })

/-- The loop that a waiter gates, by its number (R287). -/
def Loop.opened (id : Nat) (a : Loop) : Loop := if a.id = id then { a with gateMet := true } else a
def openAnchor (s : State) (part ctx core id : Nat) : State :=
  let s := s.modCore core (fun k => { k with anchor := k.anchor.map (Loop.opened id) })
  if (Tbl.find (s.part part).ctxs ctx).isNone then s
  else s.modCtx part ctx (fun c => { c with
    saved := c.saved.map (fun i => { i with teams := i.teams.map (fun u => { u with loop := u.loop.map (Loop.opened id) }) }) })

/-- Whether a port is up and bound to an endpoint's module or host tray (R364). -/
def portTo (s : State) (dst : Endpoint) : Bool :=
  s.links.ports.any (fun p => p.2.up && decide (p.2.remote.toNat / 2 ^ 14 = dst.toNat / 2 ^ 14))

/-- Whether a message for an endpoint can leave the module (R364, R368). -/
def reachable (s : State) (part : Nat) (dst : Endpoint) : Bool :=
  portTo s dst && !s.links.windows.any (fun w =>
    decide (Tbl.find s.links.winPart w.1 = some part) && decide (w.2.dest = dst) && s.links.lost.contains w.1)

/-- An event counted where the counter's home is: its slice, or a near counter's core (log 87). -/
def countHome (s : State) (k : CtrKey) (part : Nat) (e : Ev) : State :=
  match k with
  | .line pa => s.countSlice (sliceOf pa) part e
  | .near t _ => s.countCore (s.team t).at_.core part e

/-- The action of a waiter that fires with a value (R312); those that follow it in the firing order wait, for a launch and an add, until it is
performed. -/
def fire (s : State) (w : Waiter) (v : DWord) (rest : List (Waiter × DWord)) : State :=
  match w.act with
  | .resume t ls => resumeTeam s w.part w.ctx t ls v
  | .gateCmd core id => openGate s w.part w.ctx core id
  | .gateQuad core id => openQuad s w.part w.ctx core id
  | .gateAnchor core id => openAnchor s w.part w.ctx core id
  | .launch r q =>
    let b : Sub := { src := .waiter, part := w.part, ctx := w.ctx, addr := BitVec.ofNat 64 r, queue := q, rest }
    ({ s with subs := Tbl.put s.subs s.newId b } : State).bumpId
  | .post dst msg => if reachable s w.part dst then s.report (.postOut dst msg) else countHome s w.ctr w.part .postDrop
  | .add ctr n =>
    let a : PAdd := { part := w.part, ctx := w.ctx, core := 96, addr := ctr, n, who := .chain, rest }
    ({ s with adds := Tbl.put s.adds s.newId a } : State).bumpId
  | .noop => s

/-- Whether an action is performed in a step of its own. -/
def WAct.later : WAct → Bool
  | .launch _ _ => true | .add _ _ => true
  | .resume _ _ => false | .gateCmd _ _ => false | .gateQuad _ _ => false | .gateAnchor _ _ => false | .post _ _ => false
  | .noop => false

/-- The actions of fired waiters performed in order (R314): those after a launch or an add follow it. -/
def fireRest : State → List (Waiter × DWord) → State
  | s, [] => s
  | s, x :: xs => if x.1.act.later then fire s x.1 x.2 xs else fireRest (fire s x.1 x.2 []) xs

/-- Every armed waiter that the value now meets fires, in order (R307, R314). -/
def fireAll (s : State) (k : CtrKey) (v0 v1 : DWord) (x : Option Nat := none) : State :=
  let met := s.waiters.filter (fun w => decide (w.ctr = k) && meets v1 w.thr)
  if met = [] then s
  else fireRest (dropWaiters s k (fun w => meets v1 w.thr) x) ((sortWaiters v0 met).map (fun w => (w, v1)))

/-- What an add comes to at its home (R304, R307, R336). -/
inductive AddRes where
  | ok (s : State) (old : DWord)
  | refused
  | poison

/-- An add at the home (R307); `x` is the attribute word of the page that it came by. -/
def homeAdd (s : State) (k : CtrKey) (n : DWord) (x : Option Nat := none) : AddRes :=
  let v := ctrValue s k
  let lim := ctrLimit s k
  if ctrPois s k then .poison
  else if n = 0 then .ok s v
  else if lim ≠ 0 ∧ 0 < (v + n - lim).toInt then .refused
  else .ok (fireAll (ctrSet s k (v + n) x) k v (v + n) x) v

/-- `cadd.lim` at the home (R307). -/
def homeLim (s : State) (k : CtrKey) (n : DWord) (x : Option Nat := none) : AddRes :=
  let v := ctrValue s k
  let lim := ctrLimit s k
  if ctrPois s k then .poison
  else if n = 0 ∨ (n - v).toInt < 0 ∨ (lim ≠ 0 ∧ (n - lim).toInt < 0) then .refused
  else .ok (ctrSetLimit s k n x) v

-- lanes of row 0x1C

/-- What a lane's operation on a counter comes to before its effect: a walk, a fault, nothing (a helper's), or the counter. -/
inductive LaneCtr where
  | wait
  | bad (f : Flt)
  | quiet
  | ok (k : CtrKey)
  deriving DecidableEq, Repr

structure CLane where
  l : Nat
  c : DWord
  n : DWord
  lab : Label
  r : LaneCtr
  deriving DecidableEq, Repr

/-- The lanes located in ascending order, the state threaded through their translations. -/
def locateLanes (g : State → CLane → State × LaneCtr) : State → List CLane → State × List CLane
  | s, [] => (s, [])
  | s, x :: xs =>
    let r := g s x
    let q := locateLanes g r.1 xs
    (q.1, { x with r := r.2 } :: q.2)

def Loc.lane : Loc → State × LaneCtr
  | .wait s => (s, .wait)
  | .bad s f => (s, .bad f)
  | .ok s k => (s, .ok k)

/-- Lanes' faults, with their labels. -/
def laneFaults (xs : List CLane) : List (Nat × Out) :=
  xs.filterMap (fun x => match x.r with
    | .bad f => some (x.l, .fault f x.lab)
    | .wait => none
    | .quiet => none
    | .ok _ => none)

def laneKeys (xs : List CLane) : List (CLane × CtrKey) :=
  xs.filterMap (fun x => match x.r with
    | .ok k => some (x, k)
    | .wait => none
    | .quiet => none
    | .bad _ => none)

/-- The two 64-bit operands of a lane, with Lab of them. -/
def ctrOperands (s : State) (t : Nat) (f : Form) (l : Nat) : CLane :=
  let c := readOp s t l .int true f.a
  let n := readOp s t l .int f.sb.wide f.b
  { l, c := c.val, n := n.val, lab := labOf s t l f.c [c.lab, n.lab], r := .wait }

def keyLink : CtrKey → Bool | .line pa => isLink pa | .near _ _ => false
def keyLine : CtrKey → Nat | .line pa => pa / 256 | .near _ _ => 0
def keyPa : CtrKey → Nat | .line pa => pa | .near _ _ => 0

/-- Whether no earlier access of the core to a counter's line, or to a near counter, is in flight (R168 item 1, R173), and the line is open to one that reaches
its home (R161, R174). -/
def quiet (s : State) (core : Nat) (k : CtrKey) : Bool :=
  match k with
  | .line pa => !k.closed s && !(s.core core).out.any (fun r => r.kind.onLine && decide (r.line = pa / 256))
  | .near _ _ => !(s.core core).out.any (fun r => decide (r.kind.key = some k))

/-- The attribute word of a translation that has been answered. -/
def XOut.attr : XOut → Option Nat
  | .ans _ (.ok p) => some p.attr
  | .ans _ (.fail _) => none
  | .wait _ => none

/-- The translation by which a lane's operation has found its counter, which is in use until the request is performed (R263). -/
def ctrXlat (s : State) (t : Nat) (x : CLane) (k : CtrKey) (wr : Bool) : Option Xlat :=
  let va := x.c.toNat % 2 ^ 52
  match k with
  | .near _ _ => none
  | .line _ =>
    match xlateThread s t x.l va va (if wr then kindWrite else kindLoad) (if wr then permWrite else permRead) with
    | .ans _ (.ok p) => some p
    | .ans _ (.fail _) => none
    | .wait _ => none

/-- A lane's request to a counter, with the result it is owed. -/
def ctrRequest (s : State) (i : Iss) (act : List Nat) (f : Form) (x : CLane) (k : CtrKey) (kind : ReqKind) (wr : Bool) : State :=
  let id := s.newId
  let part := (s.team i.team).at_.part
  let link := keyLink k
  let p : Part := { team := i.team, thread := x.l, off := keyPa k % 256, n := 8, data := x.n, cmp := x.c, lab := x.lab, x := ctrXlat s i.team x k wr }
  let r : Req := { id, kind, line := keyLine k, parts := [p], link }
  let s := addReq s.bumpId i.core r
  let s := if link then sendReq (if wr then outLinks s i.team x.l (· + 1) else s) part i.core r 8 else s
  oweResult s i.team x.l act i.lanes f id x.lab wr (x.c.toNat % 2 ^ 52)

/-- A fault of this instruction that is delivered at the park (R181, R317, R336). -/
def parkFault (s : State) (t : Nat) (l : Nat) (code : FaultCode) (bits : Nat) (lab : Label) : State :=
  let th := s.thread t l
  noteSFault s t l ⟨th.run.ic, th.r.pc, code, bits, lab⟩

/-- Whether a counter's window is lost (R365, R367). -/
def lostKey (s : State) (part : Nat) (k : CtrKey) : Bool := keyLink k && (windowOf s part (keyPa k)).isNone

/-- Lanes whose requests through a window must wait (R369). -/
def heldKeys (s : State) (part : Nat) (xs : List (CLane × CtrKey)) : Bool :=
  sendsHeld s part 8 ((xs.filter (fun x => keyLink x.2)).map (fun x => keyPa x.2))

/-- The checks of a `cadd` in one lane (R316). -/
def caddLane (t : Nat) (lim : Bool) (s : State) (x : CLane) : State × LaneCtr :=
  if !lim ∧ 2 ^ 62 ≤ x.n.toNat then (s, .bad (rangeFlt 1 x.c))
  else
    match (locateLane s t x.l x.c true false).lane with
    | (s, .ok k) => if x.lab ≠ 0 then (s, .bad ⟨.labelFlow, accessBits true (x.c.toNat % 2 ^ 52)⟩) else (s, .ok k)
    | r => r

def caddEff (f : Form) (m : CaddMode) (s : State) (i : Iss) (act : List Nat) : Eff :=
  let t := i.team
  let part := (s.team t).at_.part
  let lim := decide (m = .lim)
  let (s1, xs) := locateLanes (caddLane t lim) s (act.map (ctrOperands s t f))
  let ks := laneKeys xs
  let ready := match m with
    | .rel sc => fenceMet s1 t act sc
    | .plain => true
    | .lim => true
  if xs.any (fun x => decide (x.r = .wait)) ∨ !ready ∨ heldKeys s1 part ks then .hold s1
  else
    .done (ks.foldl (fun s x =>
      let k := x.2
      if (s.thread t x.1.l).t.helper then (if f.d = .z then s else replyLane s i act f x.1.l 0 x.1.lab)
      else if lostKey s part k then
        parkFault (lostNotice s part (s.team t).at_.ctx (keyPa k)) t x.1.l .counterLimit (limitBits x.1.c) x.1.lab
      else ctrRequest s i act f x.1 k (.cadd k lim) true) s1) (laneFaults xs)

/-- `cadd` (R307). -/
def execCadd (c : Ctl) (m : CaddMode) (d a b : Operand) (s : State) : Host.Outcome State Fault Refusal :=
  .next (issueWith .plain (formOf (.cadd c m d a b)) (caddEff (formOf (.cadd c m d a b)) m) s)

/-- A wait met at issue: D receives the value (R308). -/
def metNow (s : State) (i : Iss) (act : List Nat) (f : Form) (x : CLane) (v : DWord) : State :=
  let id := s.newId
  returnResult (oweResult s.bumpId i.team x.l act i.lanes f id x.lab false (x.c.toNat % 2 ^ 52)) i.team x.l id (.val v 0)

/-- Lanes that wait on one counter with one threshold, together (R314). -/
def shareWaits : Nat → List (CLane × CtrKey) → List ((CtrKey × DWord) × List Nat)
  | 0, _ => []
  | _, [] => []
  | n + 1, x :: xs =>
    let same := fun (y : CLane × CtrKey) => decide (y.2 = x.2) && decide (y.1.n = x.1.n)
    ((x.2, x.1.n), x.1.l :: (xs.filter same).map (fun y => y.1.l)) :: shareWaits n (xs.filter (fun y => !same y))

def cwaitEff (f : Form) (s : State) (i : Iss) (act : List Nat) : Eff :=
  let t := i.team
  let tm := s.team t
  let (s1, xs) := locateLanes (fun s x => (locateLane s t x.l x.c false true).lane) s (act.map (ctrOperands s t f))
  let ks := laneKeys xs
  if xs.any (fun x => decide (x.r = .wait)) ∨ !ks.all (fun x => quiet s1 i.core x.2) then .hold s1
  else
    let bad := ks.filter (fun x => ctrPois s1 x.2)
    let met := ks.filter (fun x => !ctrPois s1 x.2 && meets (ctrValue s1 x.2) x.1.n)
    let unmet := ks.filter (fun x => !ctrPois s1 x.2 && !meets (ctrValue s1 x.2) x.1.n)
    let s2 := bad.foldl (fun s x => parkFault s t x.1.l .memPoison (accessBits false (x.1.c.toNat % 2 ^ 52)) x.1.lab) s1
    let s3 := met.foldl (fun s x => metNow s i act f x.1 (ctrValue s x.2)) s2
    let s4 := unmet.foldl (fun s x => s.modThread t x.1.l (fun th => { th with
      run := { th.run with waitC := some ⟨destOf true f.d, x.1.lab⟩ } })) s3
    let s5 := (shareWaits unmet.length unmet).foldl (fun s g =>
      armWaiter s.bumpId
        { ctr := g.1.1, thr := g.1.2, seq := s.newId, act := .resume t g.2, part := tm.at_.part, ctx := tm.at_.ctx }
        ((unmet.find? (fun y => decide (y.2 = g.1.1))).bind (fun y => (ctrXlat s1 t y.1 y.2 false).map Xlat.attr))) s4
    .done s5 (laneFaults xs)

/-- `cwait` (R308): it parks its lane set as if S were set. -/
def execCwait (c : Ctl) (d a b : Operand) (s : State) : Host.Outcome State Fault Refusal :=
  .next (issueWith .asS (formOf (.cwait c d a b)) (cwaitEff (formOf (.cwait c d a b))) s)

/-- A helper's read raises nothing beyond order 3 (R82): translation faults, PAGE_PERMISSION and WHY 4 are quiet. -/
def creadLane (t : Nat) (s : State) (x : CLane) : State × LaneCtr :=
  match (locateLane s t x.l x.c false false).lane with
  | (s, .bad f) =>
    let early := decide (f.code = .misaligned) ||
      (decide (f.code = .counterRange) && decide (f.tval / 2 ^ 52 % 16 < 4))
    if (s.thread t x.l).t.helper && !early then (s, .quiet) else (s, .bad f)
  | r => r

def creadEff (f : Form) (s : State) (i : Iss) (act : List Nat) : Eff :=
  let t := i.team
  let part := (s.team t).at_.part
  let one := fun l =>
    let c := readOp s t l .int true f.a
    ({ l, c := c.val, n := 0, lab := labOf s t l f.c [c.lab], r := .wait } : CLane)
  let (s1, xs) := locateLanes (creadLane t) s (act.map one)
  let ks := laneKeys xs
  if xs.any (fun x => decide (x.r = .wait)) ∨ heldKeys s1 part ks then .hold s1
  else
    .done (xs.foldl (fun s x =>
      match x.r with
      | .ok k =>
        if lostKey s part k then
          ctrRequest (lostNotice s part (s.team t).at_.ctx (keyPa k)) i act f x (.near t 0) (.reply 0 0 true) false
        else ctrRequest s i act f x k (.cread k) false
      | .quiet => replyLane s i act f x.l 0 x.lab
      | .wait => s
      | .bad _ => s) s1) (laneFaults xs)

/-- `cread` (R309). -/
def execCread (c : Ctl) (d a : Operand) (s : State) : Host.Outcome State Fault Refusal :=
  .next (issueWith .plain (formOf (.cread c d a)) (creadEff (formOf (.cread c d a))) s)

-- carm and cdisarm

/-- An endpoint identifier that R364 allows. -/
def endpointOk (x : Nat) : Bool := decide (x < 2 ^ 31) && decide (x / 32 % 512 = 0)

/-- The checks of a waiter block, order 1 (R310, R316). -/
def armBlockFault (b : Nat) : Option Flt :=
  match reservedAt b [(191, 136), (511, 320)] with
  | some lo => some (fieldFlt .reservedBits lo)
  | none =>
    let act := fieldOf b 135 128
    let a0 := fieldOf b 255 192
    let a1 := fieldOf b 319 256
    let bad := firstField [
      (128, decide (act < 2) || decide (4 < act)),
      (192, (decide (act = 2) && decide (a0 % 256 ≠ 0)) || (decide (act = 3) && !endpointOk a0) || (decide (act = 4) && decide (2 ^ 52 ≤ a0))),
      (256, (decide (act = 2) && decide (64 ≤ a1)) || (decide (act = 4) && decide (2 ^ 62 ≤ a1)))]
    bad.map (fieldFlt .commandForm)

/-- The action that a waiter block names (R310). -/
def armAct (b : Nat) : WAct :=
  let a0 := fieldOf b 255 192
  let a1 := fieldOf b 319 256
  if fieldOf b 135 128 = 2 then .launch a0 (a1 % 64)
  else if fieldOf b 135 128 = 3 then .post (BitVec.ofNat 32 a0) (BitVec.ofNat 64 a1)
  else .add (BitVec.ofNat 64 a0) (BitVec.ofNat 64 a1)

/-- `carm` waiters of a home: of a counter's slice or core (R311). -/
def sameHome (s : State) (k k' : CtrKey) : Bool :=
  match k, k' with
  | .line p, .line q => decide (sliceOf p = sliceOf q)
  | .near t _, .near u _ => decide ((s.team t).at_.core = (s.team u).at_.core)
  | _, _ => false

/-- Whether the home has no room for a `carm` (R314). -/
def armFull (s : State) (part : Nat) (k : CtrKey) : Bool :=
  let carms := s.waiters.filter (fun w => decide (w.token ≠ 0))
  match k with
  | .line _ => decide ((s.part part).carmQuota ≤ (carms.filter (fun w => decide (w.part = part) && (match w.ctr with
      | .line _ => true | .near _ _ => false))).length)
  | .near _ _ => decide (8 ≤ (carms.filter (fun w => decide (w.ctr = k))).length)

/-- A new token of a home: any that is not zero and not held (R311; log 21). -/
def newToken (s : State) (k : CtrKey) : Word :=
  let held := (s.waiters.filter (fun w => sameHome s w.ctr k)).map Waiter.token
  let start := (Config.freeWord s.m.free).toNat
  (((List.range (held.length + 2)).map (fun i => BitVec.ofNat 32 (start + i))).find? (fun w => decide (w ≠ 0) && !held.contains w)).getD 0

/-- A waiter armed at its counter's home, as one operation of its order (R311): the token, or none for a poisoned counter. -/
def armHome (s : State) (k : CtrKey) (thr : DWord) (a : WAct) (part ctx : Nat) (x : Option Nat := none) : State × Option Word :=
  if ctrPois s k then (s, none)
  else if armFull s part k then (s, some 0)
  else
    let tok := newToken s k
    let w : Waiter := { ctr := k, thr, seq := s.newId, act := a, token := tok, part, ctx }
    let s := s.bumpFree.bumpId
    (if meets (ctrValue s k) thr then fire s w (ctrValue s k) [] else armWaiter s w x, some tok)

/-- A `carm` waiter removed at its home: status 0 where one held the token, else 1 (R313). -/
def disarmHome (s : State) (k : CtrKey) (tok : Word) (x : Option Nat := none) : State × Nat :=
  match s.waiters.find? (fun w => !w.act.armedByDevice && decide (w.token = tok) && decide (w.token ≠ 0) && sameHome s w.ctr k) with
  | some w => (dropWaiters s w.ctr (fun v => decide (v.seq = w.seq)) (if w.ctr = k then x else none), 0)
  | none => (s, 1)

def carmEff (f : Form) (s : State) (i : Iss) (act : List Nat) : Eff :=
  let t := i.team
  match leads s i f act with
  | none => .done s []
  | some l =>
    let fault := fun (s : State) g lab => Eff.done s [(l, .fault g (labOf s t l f.c [lab]))]
    match readBlock s t i.core l f 64 with
    | .hold => .hold s
    | .fault g lab => fault s g lab
    | .ok b blab =>
      match armBlockFault b with
      | some g => fault s g blab
      | none =>
        let c := BitVec.ofNat 64 (fieldOf b 63 0)
        match locateLane s t l c false true with
        | .wait s => .hold s
        | .bad s g => fault s g blab
        | .ok s k =>
          let lab := labOf s t l f.c [blab]
          if lab ≠ 0 then fault s ⟨.labelFlow, accessBits false (c.toNat % 2 ^ 52)⟩ blab
          else
            let a := if (s.thread t l).t.helper then WAct.noop else armAct b
            .done (ctrRequest s i act f { l, c, n := 0, lab, r := .ok k } k (.arm k (BitVec.ofNat 64 (fieldOf b 127 64)) a) false) []

/-- `carm` (R311). -/
def execCarm (c : Ctl) (d a : Operand) (s : State) : Host.Outcome State Fault Refusal :=
  .next (issueWith .plain (formOf (.carm c d a)) (carmEff (formOf (.carm c d a))) s)

def cdisarmEff (f : Form) (s : State) (i : Iss) (act : List Nat) : Eff :=
  let t := i.team
  match leads s i f act with
  | none => .done s []
  | some l =>
    let x := ctrOperands s t f l
    match locateLane s t l x.c false true with
    | .wait s => .hold s
    | .bad s g => .done s [(l, .fault g x.lab)]
    | .ok s k => .done (ctrRequest s i act f x k (.disarm k (x.n.setWidth 32)) false) []

/-- `cdisarm` (R313). -/
def execCdisarm (c : Ctl) (d a b : Operand) (s : State) : Host.Outcome State Fault Refusal :=
  .next (issueWith .plain (formOf (.cdisarm c d a b)) (cdisarmEff (formOf (.cdisarm c d a b))) s)

-- COUNTER_ADD_HOME

/-- A thread's add, `carm` or `cdisarm` at its counter's home: the old value, the token or the status; or COUNTER_LIMIT or MEM_POISON at the park
(R307, R311, R313, R317, R336). -/
def addThread (s : State) (core req : Nat) : State :=
  match findReq s core req with
  | none => s
  | some r =>
    match r.kind, r.parts with
    | .cadd k lim, [p] =>
      if r.link ∨ !oldest s core r ∨ k.closed s then s
      else
        let s := dropReq s core req
        match (if lim then homeLim s k p.data p.attr else homeAdd s k p.data p.attr) with
        | .ok s old =>
          let s := match k with
            | .line _ => returnTw s p.team p.thread s.now
            | .near _ _ => s
          returnResult s p.team p.thread req (.val old 0)
        | .refused => returnResult s p.team p.thread req (.refused (limitBits p.cmp))
        | .poison => returnResult s p.team p.thread req .poison
    | .arm k thr a, [p] =>
      if !oldest s core r ∨ k.closed s then s
      else
        let x := armHome (dropReq s core req) k thr a (s.team p.team).at_.part (s.team p.team).at_.ctx p.attr
        returnResult x.1 p.team p.thread req (match x.2 with
          | some tok => .val (tok.setWidth 64) 0
          | none => .poison)
    | .disarm k tok, [p] =>
      if !oldest s core r ∨ k.closed s then s
      else
        let x := disarmHome (dropReq s core req) k tok p.attr
        returnResult x.1 p.team p.thread req (.val (BitVec.ofNat 64 x.2) 0)
    | _, _ => s

/-- What the giver of a pending add is told at its end (R174, R203, R218, R242, R292, R304, R312): the fault that refused it, if one
did. -/
def addDone (s : State) (a : PAdd) (k : Option CtrKey) (f : Option Flt) : State :=
  let limit : Bool := match f with
    | some g => decide (g.code = .counterLimit)
    | none => false
  match a.who with
  | .cmd core entry status => endHandle s core entry (if f.isSome then status / 256 * 256 + 0x80 else status) f
  | .stream core entry status =>
    endHandle s core entry (if limit then status / 256 * 256 + 0x04 else if f.isSome then status / 256 * 256 + 0x80 else status) f
  | .loop core entry status =>
    let s := if limit then s.report (.addRefused a.part) else s
    let s := endHandle s core entry (if f.isSome then status / 256 * 256 + 0x80 else status) f
    match (s.core core).anchor with
    | some k => if k.entry = entry ∧ k.adding then closeLoop s core else s
    | none => s
  | .grid => if f.isSome then s.report (.addRefused a.part) else s
  | .chain =>
    match k with
    | some k => if limit then countHome s k a.part .chainRefused else s
    | none => s
  | .head => s

/-- The translation of a pending add's address: as an engine's write; as a `cadd` for a waiter's add and the trace buffer. -/
def xlateAdd (s : State) (n : Nat) (a : PAdd) (va kind need : Nat) : XOut :=
  let tag := tagOf a.part a.ctx
  if a.core < 96 then xlate s a.core (.add n) a.xres a.part tag va va kind need
  else xlateCell s (.add n) a.xres a.part tag va va kind need

/-- Whether a pending add waits for its counter's line: a command's completion for owners with an earlier stamp, any other as a thread's access does (R174; for
the adds of grids, waiters and the trace buffer a DESIGN CHOICE, log 92). -/
def PAdd.waits (s : State) (a : PAdd) (k : CtrKey) : Bool :=
  match k, a.stamp with
  | .line pa, some n => closedBefore s (.mem (pa / 256)) n
  | .line _, none => k.closed s
  | .near _ _, _ => false

/-- A record dropped: its partition counts it, and a `tmark`'s core does (R148, R319). -/
def dropTrace (s : State) (a : PAdd) : State :=
  let s := s.modPart a.part (fun p => { p with trace := { p.trace with dropped := p.trace.dropped + 1 } })
  if a.core < 96 then s.countCore a.core a.part .tmarkDrop else s

/-- A trace record on its way (R356): dropped when the buffer is full, else written; the add to HEAD follows as a `cadd.rel.dev`.
Its addresses are translated in the context that the slice kernel names (log 27). -/
def writeTrace (s : State) (n : Nat) (a : PAdd) : State :=
  let gone := fun (s : State) => dropTrace { s with adds := Tbl.del s.adds n } a
  match (s.part a.part).trace.cfg with
  | none => gone s
  | some c =>
    let at_ := fun (s : State) (d : DWord) => locate s none d false true (fun s va => xlateAdd s n a va kindEngine permRead)
    match at_ s c.head with
    | .wait s => s
    | .bad s _ => gone s
    | .ok s h =>
      match at_ s c.tail with
      | .wait s => s
      | .bad s _ => gone s
      | .ok s t =>
        let head := ctrValue s h
        if h.closed s ∨ t.closed s then s
        else if (c.cap : Int) ≤ (head - ctrValue s t).toInt then gone s
        else
          let va := (c.base + 32 * (head.toNat % c.cap)) % 2 ^ 52
          match xlateAdd s n a va kindEngineWrite permWrite with
          | .wait s => s
          | .ans s (.fail _) => gone s
          | .ans s (.ok x) =>
            let pa := x.pa va
            if (pageFault x permWrite true va).isSome ∨ isLink pa ∨ noSuch pa then gone s
            else if closed s (.mem (pa / 256)) then s
            else
              let r := storeHome s pa a.data x
              { r.1 with adds := Tbl.put r.1.adds n { a with data := [], after := max a.after r.2, addr := c.head } }

/-- Whether an earlier record of the partition stands before this add. -/
def traceBehind (s : State) (n : Nat) (a : PAdd) : Bool :=
  decide (a.who = .head) && s.adds.any (fun e => decide (e.1 < n) && decide (e.2.who = .head) && decide (e.2.part = a.part))

/-- The end of a pending add: who gave it is told, and the actions that follow it are performed (R314). -/
def endAdd (s : State) (n : Nat) (a : PAdd) (k : Option CtrKey) (f : Option Flt) : State :=
  fireRest (addDone { s with adds := Tbl.del s.adds n } a k f) a.rest

/-- A waiter's add whose counter lies behind a link window travels as a message and is performed by the target module (R312, R315); on a lost
connection it is refused (R368). -/
def addLink (s : State) (n : Nat) (a : PAdd) (k : CtrKey) : State :=
  let pa := keyPa k
  if (windowOf s a.part pa).isNone then endAdd (lostNotice s a.part a.ctx pa) n a (some k) (some ⟨.counterLimit, limitBits a.addr⟩)
  else if sendHeld s a.part pa 8 then s
  else
    let id := s.newId
    sendLink ({ s with adds := Tbl.put s.adds n { a with link := some id, key := some k } } : State).bumpId a.part a.core id pa 8
      [(pa, .add a.n false)]

/-- An add that an engine, a grid end, a waiter or the trace buffer has pending. -/
def addPending (s : State) (n : Nat) : State :=
  match Tbl.find s.adds n with
  | none => s
  | some a =>
    if s.now < a.after ∨ traceBehind s n a ∨ a.link.isSome then s
    else if a.who = .head ∧ a.data ≠ [] then writeTrace s n a
    else
      let done := fun (s : State) k f => endAdd s n a k f
      let thread := decide (a.who = .chain) || decide (a.who = .head)
      let x := fun s va => xlateAdd s n a va (if thread then kindWrite else kindEngineWrite) permWrite
      match (match a.key with
        | some k => Loc.ok s k
        | none => locate s a.team a.addr true (!decide (a.who = AddWho.chain)) x) with
      | .wait s => s
      | .bad s f => done s none (some f)
      | .ok s k =>
        if keyLink k then addLink s n a k
        else if a.waits s k then s
        else
          match homeAdd s k a.n (x s (a.addr.toNat % 2 ^ 52)).attr with
          | .ok s _ => done s (some k) none
          | .refused => done s (some k) (some ⟨.counterLimit, limitBits a.addr⟩)
          | .poison => done s (some k) (some ⟨.memPoison, accessBits true (a.addr.toNat % 2 ^ 52)⟩)

/-- COUNTER_ADD_HOME. -/
def execCounterAddHome (r : AddRef) (s : State) : Host.Outcome State Fault Refusal :=
  .next (match r with
    | .thread core req => addThread s core req
    | .pending n => addPending s n)

end Sys2Proof.Machine
end

