-- ==== Sys2Proof/Machine/Slots.lean ====
section
/-! DEFINITION. Buffer slots as quadrants and engines reach them: the bytes, labels and marks of a core's buffers (R152, R156 to
R158), where blocks lie in a slot (R194), and what commands share at issue: the gate (R221) and the queue places (R213). -/

namespace Sys2Proof.Machine

open Sys2Proof

-- the buffers of a core, by byte

def Bufs.mem (k : Bufs) : Buf → Mem | .wb => k.wb | .ab => k.ab | .acc => k.acc
def Bufs.pois (k : Bufs) : Buf → Tbl Bool | .wb => k.wbPois | .ab => k.abPois | .acc => k.accPois
def Bufs.put (k : Bufs) (b : Buf) (m : Mem) (p : Tbl Bool) : Bufs :=
  match b with
  | .wb => { k with wb := m, wbPois := p }
  | .ab => { k with ab := m, abPois := p }
  | .acc => { k with acc := m, accPois := p }

def bufRead (s : State) (core : Nat) (b : Buf) (a n : Nat) : Nat := leNat (Mem.readN ((s.core core).bufs.mem b) a n)
/-- Whether a mark lies on any sector of `n` bytes. -/
def bufPois (s : State) (core : Nat) (b : Buf) (a n : Nat) : Bool :=
  (List.range ((a + n + 63) / 64 - a / 64)).any (fun i => Tbl.getD ((s.core core).bufs.pois b) (a / 64 + i) false)
def bufWrite (s : State) (core : Nat) (b : Buf) (a : Nat) (bs : List Byte) : State :=
  s.modCore core (fun k => { k with bufs := k.bufs.put b (Mem.writeN (k.bufs.mem b) a bs) (k.bufs.pois b) })
/-- The mark of one sector set or cleared (R163). -/
def bufMark (s : State) (core : Nat) (b : Buf) (sector : Nat) (m : Bool) : State :=
  s.modCore core (fun k =>
    let p := if m then Tbl.put (k.bufs.pois b) sector true else Tbl.del (k.bufs.pois b) sector
    { k with bufs := k.bufs.put b (k.bufs.mem b) p })

/-- The line of a buffer that holds a byte. -/
def bufLineK (core : Nat) (b : Buf) (a : Nat) : LineK :=
  match b with
  | .wb => .wb core (a / 256)
  | .ab => .ab core (a / 256)
  | .acc => .acc core (a / 256)

/-- The label of an accumulator page (R201, R205). -/
def accLabel (s : State) (core page : Nat) : Label := Tbl.getD (s.core core).bufs.accLab page 0
def raiseAcc (s : State) (core page : Nat) (lab : Label) : State :=
  s.modCore core (fun k => { k with bufs := { k.bufs with
    accLab := Tbl.put k.bufs.accLab page ((Tbl.getD k.bufs.accLab page 0).join lab) } })

-- accumulator pages between contexts (R333, R334)

/-- A poison mask of a line by its sectors. -/
def sectorMask (p : Nat → Bool) : Nat := ((List.range 4).map (fun i => bit (p i) i)).foldl (· + ·) 0

/-- Whether the partition's memory has a range of bytes. -/
def ownsRange (s : State) (part pa len : Nat) : Bool :=
  (List.range ((len + 255) / 256)).all (fun i =>
    let a := pa + 256 * i
    !noSuch a && !isLink a && decide ((s.slice (sliceOf a)).owner = some part))

/-- Where a context's save area holds a page of a core (R334; the layout is the slice kernel's: log 49). -/
def areaOf (c : Ctx) (core page : Nat) : Nat := c.area + (core * 768 + page) * 4096

/-- One page written to the save area: bytes, label and marks (R334). -/
def spillPage (c : Ctx) (s : State) (cp : Nat × Nat) : State :=
  let pa := areaOf c cp.1 cp.2
  let bs := Mem.readN (s.core cp.1).bufs.acc (cp.2 * 4096) 4096
  (List.range 16).foldl (fun s i =>
    (homeWrite s (pa + 256 * i) ((bs.drop (256 * i)).take 256) (accLabel s cp.1 cp.2) false false).modLine (pa / 256 + i) (fun k => { k with
      pois := sectorMask (fun j => bufPois s cp.1 .acc (cp.2 * 4096 + 256 * i + 64 * j) 1) })) s

/-- One page read back from the save area: bytes, label and marks (R334). -/
def fillPage (c : Ctx) (s : State) (cp : Nat × Nat) : State :=
  let pa := areaOf c cp.1 cp.2
  let s := (List.range 16).foldl (fun s i => homeTake s (pa / 256 + i) 0 false) s
  s.modCore cp.1 (fun k => { k with bufs := { k.bufs with
    acc := Mem.writeN k.bufs.acc (cp.2 * 4096) (Mem.readN s.mem pa 4096)
    accPois := (List.range 64).foldl (fun p i =>
      if bitAt (s.line (pa / 256 + i / 4)).pois (i % 4) then Tbl.put p (cp.2 * 64 + i) true else Tbl.del p (cp.2 * 64 + i)) k.bufs.accPois
    accLab := Tbl.put k.bufs.accLab cp.2 (Label.joinAll ((List.range 16).map (fun i => (s.line (pa / 256 + i)).lab))) } })

/-- A page as an instruction or command already issued under `tag` finds it. Its check of ACCOWN has passed; where the page has been retagged since, by a
handler or a page-out between its context's stop and its resume, the slice kernel hands the page back as its handler of R334 does: the owner's bytes are
spilled, the context's own read back, and the element set. No page is read for a context before the other's data is spilled (R333, R339). None where a save
area is not memory of its partition, or is being read from device memory (R161): the instruction waits (DESIGN CHOICE, log 90: R333 and R334 name only the
access that issues). -/
def handOver (s : State) (core tag page : Nat) : Option State :=
  let o := accownAt s core page
  if o = tag then some s
  else
    let c := s.ctx (tag / 64) (tag % 64)
    let d := s.ctx (o / 64) (o % 64)
    if !ownsRange s (tag / 64) (areaOf c core page) 4096 ∨ rangeAway s (areaOf c core page) 4096 ∨ o ≠ 0xFFFF && !ownsRange s (o / 64) (areaOf d core page) 4096 then none
    else
      let s := if o = 0xFFFF then s else spillPage d s (core, page)
      some ((fillPage c s (core, page)).modCore core (fun k => { k with accown := Tbl.put k.accown page tag }))

def handOvers (s : State) (core tag : Nat) : List Nat → Option State
  | [] => some s
  | p :: ps => (handOver s core tag p).bind (fun s => handOvers s core tag ps)

-- slots

/-- Where a slot's range starts in its buffer, and its length, in bytes (R157, R158). -/
def slotBase (tm : Team) (r : Resv) : Nat :=
  match r.buf with
  | .acc => (tm.al.pBase + r.base) * 4096
  | .wb => tm.al.wBase + r.base
  | .ab => tm.al.aBase + r.base
def Resv.bytes (r : Resv) : Nat := if r.buf = .acc then r.len * 4096 else r.len

/-- A store page of an accumulator slot (R195). -/
def slotPage (tm : Team) (r : Resv) (q : Nat) : Nat := tm.al.pBase + r.base + q

/-- BF16 and FP16 rows hold 2-byte elements and no header; DX rows hold blocks (R194). -/
def isHalf (f : Fmt) : Bool := decide (f = .bf16) || decide (f = .f16)
def isDx (f : Fmt) : Bool := (Fmt.dx f).isSome

/-- Bytes of the elements of a block. -/
def elemBytes (f : Fmt) : Nat :=
  match Fmt.dx f with
  | some d => dxArea d
  | none => 64

/-- Offsets of the elements and the header of block j of row r (R194). -/
def elemOff (r : Resv) (row j : Nat) : Nat :=
  match Fmt.dx r.fmt with
  | none => row * r.blk * 64 + 64 * j
  | some d => if r.soff = 0 then row * r.blk * dxBlock d + dxBlock d * j + 2 else row * r.blk * dxArea d + dxArea d * j
def headOff (r : Resv) (row j : Nat) : Option Nat :=
  match Fmt.dx r.fmt with
  | none => none
  | some d => some (if r.soff = 0 then row * r.blk * dxBlock d + dxBlock d * j else r.soff + row * r.blk * 2 + 2 * j)

/-- Whether a block's bytes lie in the range, and its elements below SOFF (R194). -/
def blockFits (r : Resv) (row j : Nat) : Bool :=
  let e := elemOff r row j + elemBytes r.fmt
  decide (e ≤ r.len) && (decide (r.soff = 0) || decide (e ≤ r.soff)) &&
  (match headOff r row j with
   | some h => decide (h + 2 ≤ r.len)
   | none => true)

/-- The byte ranges of a block in its buffer: header, then elements. -/
def blockSpans (base : Nat) (r : Resv) (row j : Nat) : List (Nat × Nat) :=
  (match headOff r row j with
   | some h => [(base + h, 2)]
   | none => []) ++ [(base + elemOff r row j, elemBytes r.fmt)]

/-- The lines of a byte range of a buffer. -/
def spanLines (core : Nat) (b : Buf) (a n : Nat) : List LineK :=
  if n = 0 then [] else (List.range ((a + n - 1) / 256 - a / 256 + 1)).map (fun i => bufLineK core b (a + 256 * i))

def blockLines (core base : Nat) (r : Resv) (row j : Nat) : List LineK :=
  (blockSpans base r row j).flatMap (fun e => spanLines core r.buf e.1 e.2)

/-- A block by a reader of byte ranges: E_lo, E_hi, the element area. -/
def blockWith (rd : Nat → Nat → Nat) (base : Nat) (r : Resv) (row j : Nat) : Nat × Nat × Nat :=
  let h := match headOff r row j with
    | some h => rd (base + h) 2
    | none => 0
  (h % 256, h / 256, rd (base + elemOff r row j) (elemBytes r.fmt))

/-- A block as it stands in its buffer. -/
def rawBlock (s : State) (core base : Nat) (r : Resv) (row j : Nat) : Nat × Nat × Nat := blockWith (bufRead s core r.buf) base r row j

def blockPois (s : State) (core base : Nat) (r : Resv) (row j : Nat) : Bool :=
  (blockSpans base r row j).any (fun e => bufPois s core r.buf e.1 e.2)

/-- The 32 values of a block (R88, R94); the quadrant reads subnormal halves as zeros (R96). -/
def blockVals (f : Fmt) (flush : Bool) (x : Nat × Nat × Nat) : List FVal :=
  match Fmt.dx f with
  | some d => dxDecode d x.1 x.2.1 x.2.2
  | none =>
    let h : FFmt := if f = .bf16 then .bf16 else .f16
    (List.range 32).map (fun i =>
      let b := x.2.2 / 2 ^ (16 * i) % 2 ^ 16
      if flush then h.decodeFlush b else h.decode b)

-- command blocks and gates

/-- GATE, GTHR, DONE and DAMT of a block (R220). -/
def gateOf (b : Nat) : Gate :=
  { gate := BitVec.ofNat 64 b, gthr := BitVec.ofNat 64 (fieldOf b 127 64), done := BitVec.ofNat 64 (fieldOf b 191 128),
    damt := BitVec.ofNat 64 (fieldOf b 255 192) }

/-- COUNTER_RANGE of a DAMT of 2^62 or more (R222 order 3, R316). -/
def damtFault (g : Gate) : Option Flt := if 2 ^ 62 ≤ g.damt.toNat then some (rangeFlt 1 g.done) else none

/-- What a gate comes to at issue: a walk or an earlier access to wait for, a fault to record, open, or closed with its waiter armed. -/
inductive GateRes where
  | hold (s : State)
  | bad (s : State) (f : Flt)
  | opened (s : State)
  | shut (s : State)

/-- The gate of a command that issues from lane `l` (R221, R303). -/
def gateStart (s : State) (t l core : Nat) (g : Gate) (act : WAct) : GateRes :=
  if g.gate = 0 then .opened s
  else
    let x := fun s va => xlateThread s t l va va kindEngine permRead
    match locate s (some t) g.gate false true x with
    | .wait s => .hold s
    | .bad s f => .bad s f
    | .ok s k =>
      if !quiet s core k then .hold s
      else if ctrPois s k then .bad s ⟨.memPoison, accessBits false (g.gate.toNat % 2 ^ 52)⟩
      else if meets (ctrValue s k) g.gthr then .opened s
      else
        let tm := s.team t
        .shut (armWaiter s.bumpId { ctr := k, thr := g.gthr, seq := s.newId, act, part := tm.at_.part, ctx := tm.at_.ctx }
          (x s (g.gate.toNat % 2 ^ 52)).attr)

/-- The waiter of a command's gate dropped, where it stands. -/
def dropGate (s : State) (act : WAct) : State :=
  match s.waiters.find? (fun w => decide (w.act = act)) with
  | some w => dropWaiters s w.ctr (fun v => decide (v.seq = w.seq))
  | none => s

end Sys2Proof.Machine
end

