-- ==== Sys2Proof/Machine/Matrix.lean ====
section
/-! DEFINITION. The matrix quadrant (R191 to R210): the meanings of row 0x1A, the order in which the instructions of one quadrant
take effect, and the events in which they do. -/

namespace Sys2Proof.Machine

open Sys2Proof

-- the order of effects (R209)

/-- The items that an instruction touches. Two reads of one item are ordered too, and so are the pushes to one queue. -/
structure MItems where
  shadow : Bool := false
  active : Bool := false
  pages : List Nat := []
  queue : Option Nat := none
  all : Bool := false
  deriving DecidableEq, Repr

def MFly.items (s : State) (e : MFly) : MItems :=
  match e.ins with
  | .mld _ _ _ _ _ _ _ _ _ => { shadow := true }
  | .mswap => { shadow := true, active := true }
  | .mstream x => { active := true, pages := x.pages (s.team e.team).al.pBase }
  | .mread p _ _ q taken => { pages := if taken then [] else [p], queue := some q }
  | .mzero ps _ _ _ => { pages := ps }
  | .mrel => { all := true }

def MItems.meet (a b : MItems) : Bool :=
  a.all || b.all || (a.shadow && b.shadow) || (a.active && b.active) || a.pages.any b.pages.contains ||
  (a.queue.isSome && decide (a.queue = b.queue))

/-- Whether an mread has read its rows and the queue has taken all of them (R204, R214). -/
def readDone (s : State) (e : MFly) : Bool :=
  match e.ins with
  | .mread _ _ _ q taken => taken && !((s.team e.team).queue q).waits e.id
  | .mld _ _ _ _ _ _ _ _ _ => false | .mswap => false | .mstream _ => false | .mzero _ _ _ _ => false | .mrel => false

/-- The instructions of a quadrant that have not taken effect, in issue order. -/
def flyOf (s : State) (core : Nat) : List MFly := (s.core core).quad.fly.filter (fun e => !readDone s e)

/-- Whether every earlier instruction of the quadrant that shares an item has taken effect. -/
def flyReady (s : State) (core : Nat) (e : MFly) : Bool :=
  ((flyOf s core).takeWhile (fun d => decide (d.id ≠ e.id))).all (fun d => !(d.items s).meet (e.items s))

/-- The first instruction of a kind that may take effect now. -/
def firstReady (s : State) (core : Nat) (p : MIns → Bool) : Option MFly :=
  (flyOf s core).find? (fun e => p e.ins && flyReady s core e)

def modQuad (s : State) (core : Nat) (f : Quad → Quad) : State := s.modCore core (fun k => { k with quad := f k.quad })
def addFly (s : State) (core : Nat) (e : MFly) : State := modQuad s core (fun q => { q with fly := q.fly ++ [e] })
def dropFly (s : State) (core id : Nat) : State :=
  modQuad s core (fun q => { q with fly := q.fly.filter (fun e => decide (e.id ≠ id)) })

/-- The 16 lines of a store page. -/
def pageLines (core page : Nat) : List LineK := (List.range 16).map (fun i => .acc core (page * 16 + i))

/-- The elements that an mread pushes: rows in turn, columns ascending, with the page's label and their sector's mark (R204). -/
def readRows (s : State) (core page first count : Nat) : List QElem :=
  (List.range count).flatMap (fun r => (List.range 32).map (fun c =>
    let a := page * 4096 + (first + r) * 128 + c * 4
    { val := BitVec.ofNat 32 (bufRead s core .acc a 4), lab := accLabel s core page, pois := bufPois s core .acc a 4 }))

/-- An instruction in flight given its new state. -/
def setIns (s : State) (core id : Nat) (m : MIns) : State :=
  modQuad s core (fun q => { q with fly := q.fly.map (fun e => if e.id = id then { e with ins := m } else e) })

def putStream (s : State) (core id : Nat) (x : Stream) : State := setIns s core id (.mstream x)

/-- An mread that may take effect, with the state in which its page is its context's (`handOver`) and its operands: no engine command owns the page
(R174, R204). -/
def readTakes (s : State) (core : Nat) (e : MFly) : Option (State × Nat × Nat × Nat × Nat) :=
  match e.ins with
  | .mread p f c q taken =>
    if taken || !(pageLines core p).all (fun k => decide (cmdOwners s k = [])) || !flyReady s core e then none
    else (handOver s core (s.team e.team).tag p).map (fun s => (s, p, f, c, q))
  | .mld _ _ _ _ _ _ _ _ _ => none | .mswap => none | .mstream _ => none | .mzero _ _ _ _ => none | .mrel => none

/-- The mreads that may take effect do so. -/
def settleReads : Nat → State → Nat → State
  | 0, s, _ => s
  | n + 1, s, core =>
    match (flyOf s core).findSome? (fun e => (readTakes s core e).map (Prod.mk e)) with
    | none => s
    | some (e, s, p, f, c, q) =>
      settleReads n (modQuad ((setIns s core e.id (.mread p f c q true)).modQueue e.team q (fun k =>
        k.push (readRows s core p f c) e.id)) core (fun q => { q with owner := some e.team })) core

/-- What may now take effect by itself does: mreads whose elements the queue has taken leave, and those whose pages are free read them. -/
def settleQuad (s : State) (core : Nat) : State :=
  let s := modQuad s core (fun q => { q with fly := q.fly.filter (fun e => !readDone s e) })
  let s := settleReads (flyOf s core).length s core
  modQuad s core (fun q => { q with fly := q.fly.filter (fun e => !readDone s e) })

-- checks at issue (R193, R197, R210)

def stateFlt (why : Nat) : Flt := ⟨.matrixState, why⟩
def irecOf (s : State) (core : Nat) : IRec := (s.core core).quad.irec

/-- WHY of an instruction from a quadrant that is lent, or owned by another team (R193). -/
def ownWhy (q : IRec) (t : Nat) : Option Nat :=
  match q.role, q.owner with
  | .lent _, _ => some 2
  | _, some u => if u = t then none else some 1
  | _, none => none

/-- The first fault of a list in order. -/
def firstFlt (fs : List (Option Flt)) : Option Flt := fs.findSome? id
def fltIf (c : Bool) (f : Flt) : Option Flt := if c then some f else none

/-- KN and NN at most (R197). -/
def tileMax (r : Role) : Nat × Nat :=
  match r with
  | .leader .h => (4, 8)
  | .leader .v => (8, 4)
  | .leader .q => (8, 8)
  | .alone => (4, 4)
  | .lent _ => (4, 4)

/-- The claim of R193. -/
def claimQuad (s : State) (core t : Nat) : State :=
  modQuad s core (fun q => { q with irec := { q.irec with owner := some t } })

/-- An instruction of row 0x1A in l0 (R192); with no such lane it does nothing. -/
def matrixEff (f : Form) (g : State → Iss → List Nat → Nat → Eff) (s : State) (i : Iss) (act : List Nat) : Eff :=
  match leads s i f act with
  | none => .done s []
  | some l => g s i act l

/-- Lanes owed the completion of an instruction (R198). -/
def oweLanes (s : State) (i : Iss) (act : List Nat) (f : Form) (id : Nat) (lab : Label) : State :=
  i.lanes.foldl (fun s l => oweResult s i.team l act i.lanes f id lab false 0) s

def payLanes (s : State) (t : Nat) (ls : List Nat) (id : Nat) : State :=
  ls.foldl (fun s l => returnResult s t l id (.val 0 0)) s

-- source lines that a quadrant has read (R174)

/-- The lines of a byte range, by their numbers. -/
def lineNums (a n : Nat) : List Nat := if n = 0 then [] else (List.range ((a + n - 1) / 256 - a / 256 + 1)).map (a / 256 + ·)

/-- A line of a buffer as it stands. -/
def bufSnap (s : State) (core : Nat) (b : Buf) (l : Nat) : Snap :=
  { line := l, bytes := Mem.readN ((s.core core).bufs.mem b) (256 * l) 256, lab := 0,
    pois := ((List.range 4).map (fun i => bit (bufPois s core b (256 * l + 64 * i) 64) i)).foldl (· + ·) 0 }

/-- The number that a byte range of lines once read holds, and whether a mark lies on it. -/
def snapsRead (xs : List Snap) (a n : Nat) : Nat :=
  leNat ((List.range n).map (fun i => match xs.find? (fun e => decide (e.line = (a + i) / 256)) with
    | some e => e.bytes.getD ((a + i) % 256) 0
    | none => 0))
def snapsPois (xs : List Snap) (a n : Nat) : Bool :=
  xs.any (fun e => (List.range 4).any (fun i => bitAt e.pois i && decide (a < 256 * e.line + 64 * i + 64) && decide (256 * e.line + 64 * i < a + n)))

-- mld

def mldFault (q : IRec) (t r0 b n : Nat) (r : Resv) : Option Flt :=
  let kb0 := b % 256
  let kn := b / 256 % 256
  let nn := b / 65536 % 256
  let mx := tileMax q.role
  firstFlt [
    (ownWhy q t).map stateFlt,
    fltIf (r.valid && !(isHalf r.fmt || isDx r.fmt)) (stateFlt 5),
    fltIf (decide (2 ^ 24 ≤ b) || decide (kn = 0) || decide (mx.1 < kn) || decide (nn = 0) || decide (mx.2 < nn) ||
      (r.valid && decide (r.blk < kb0 + kn))) (stateFlt 6),
    fltIf (r.valid && decide (r.buf ≠ .wb)) (slotFlt .bufferPort false n),
    fltIf (!r.valid) ⟨.reservation, resvTval 6 n⟩,
    fltIf (!blockFits r (r0 + 32 * nn - 1) (kb0 + kn - 1)) ⟨.reservation, resvTval 7 n⟩]

def mldEff (f : Form) (n : Nat) : State → Iss → List Nat → Eff := matrixEff f (fun s i act l =>
  let t := i.team
  let a := readOp s t l .int false f.a
  let b := readOp s t l .int false f.b
  let lab := labOf s t l f.c [a.lab, b.lab]
  let r := resvRead s t l n
  match mldFault (irecOf s i.core) t a.val.toNat b.val.toNat n r with
  | some g => .done s [(l, .fault g lab)]
  | none =>
    let x := b.val.toNat
    let kb0 := x % 256
    let kn := x / 256 % 256
    let nn := x / 65536 % 256
    let id := s.newId
    let wl := r.lab.join lab
    let e : MFly := { id, team := t, ins := .mld r a.val.toNat kb0 kn nn wl (stampNow s i.core) i.lanes [] }
    let s := addFly (claimQuad s.bumpId i.core t) i.core e
    let s := modQuad s i.core (fun q => { q with
      irec := { q.irec with shadow := some { k := 32 * kn, n := 32 * nn, fmt := r.fmt, lab := wl, kb0 } } })
    .done (oweLanes s i act f id lab) [])

/-- `mld` (R198). -/
def execMld (c : Ctl) (slot : BitVec 4) (a b : Operand) (s : State) : Host.Outcome State Fault Refusal :=
  .next (issueWith .plain (formOf (.mld c slot a b)) (mldEff (formOf (.mld c slot a b)) slot.toNat) s)

/-- The blocks of a tile's column `n` in its slot: row and block (R198). -/
def tileCol (r0 kb0 kn n : Nat) : List (Nat × Nat) := (List.range kn).map (fun j => (r0 + n, kb0 + j))

/-- The source lines of an `mld`, by their numbers in the W-buffer. -/
def tileLines (base : Nat) (r : Resv) (r0 kb0 kn nn : Nat) : List Nat :=
  ((List.range (32 * nn)).flatMap (fun n => (tileCol r0 kb0 kn n).flatMap (fun e =>
    (blockSpans base r e.1 e.2).flatMap (fun p => lineNums p.1 p.2)))).eraseDups

/-- The tile that an `mld` has read: its columns' blocks, and the columns in which a poison mark was read (R198, R209). -/
def readTile (ss : List Snap) (base : Nat) (r : Resv) (r0 kb0 kn nn : Nat) (lab : Label) : Tile :=
  { k := 32 * kn, n := 32 * nn, fmt := r.fmt, lab, kb0,
    cols := (List.range (32 * nn)).map (fun n => (tileCol r0 kb0 kn n).map (fun e => blockWith (snapsRead ss) base r e.1 e.2)),
    pois := (List.range (32 * nn)).map (fun n => (tileCol r0 kb0 kn n).any (fun e =>
      (blockSpans base r e.1 e.2).any (fun p => snapsPois ss p.1 p.2))) }

def isMld : MIns → Bool
  | .mld _ _ _ _ _ _ _ _ _ => true
  | .mswap => false | .mstream _ => false | .mread _ _ _ _ _ => false | .mzero _ _ _ _ => false | .mrel => false

/-- The tile stands in the shadow plane, and the lane set is owed no more (R198). -/
def mldDone (s : State) (core : Nat) (e : MFly) (lanes : List Nat) (tile : Tile) : State :=
  let s := modQuad (dropFly s core e.id) core (fun q => { q with owner := some e.team, shadow := some tile })
  settleQuad (payLanes s e.team lanes e.id) core

/-- MLD_COMPLETE: one of the source lines left, any that no earlier-stamped command owns, is read whole (R174, R25); with the last one read the tile is in the
shadow plane. -/
def execMldComplete (core : Nat) (s : State) : Host.Outcome State Fault Refusal :=
  .next (match firstReady s core isMld with
    | none => s
    | some e =>
      match e.ins with
      | .mld r r0 kb0 kn nn lab stamp lanes ss =>
        let base := slotBase (s.team e.team) r
        let left := (tileLines base r r0 kb0 kn nn).filter (fun l => !ss.any (fun k => decide (k.line = l)))
        let can := left.filter (fun l => !ownedBefore s (bufLineK core r.buf (256 * l)) stamp)
        match can[Config.freeEntry s.m.free % can.length]? with
        | none => if left = [] then mldDone s core e lanes (readTile ss base r r0 kb0 kn nn lab) else s
        | some l =>
          let ss := ss ++ [bufSnap s core r.buf l]
          if left.length = 1 then mldDone s core e lanes (readTile ss base r r0 kb0 kn nn lab)
          else setIns s.bumpFree core e.id (.mld r r0 kb0 kn nn lab stamp lanes ss)
      | .mswap => s
      | .mstream _ => s
      | .mread _ _ _ _ _ => s
      | .mzero _ _ _ _ => s
      | .mrel => s)

-- mswap

def mswapEff (f : Form) : State → Iss → List Nat → Eff := matrixEff f (fun s i _ l =>
  let q := irecOf s i.core
  match firstFlt [(ownWhy q i.team).map stateFlt, fltIf q.shadow.isNone (stateFlt 3)] with
  | some g => .done s [(l, .fault g (labOf s i.team l f.c []))]
  | none =>
    let s' := addFly (claimQuad s.bumpId i.core i.team) i.core { id := s.newId, team := i.team, ins := .mswap }
    .done (modQuad s' i.core (fun q => { q with irec := { q.irec with active := q.irec.shadow, shadow := none } })) [])

/-- `mswap` (R199). -/
def execMswap (c : Ctl) (s : State) : Host.Outcome State Fault Refusal :=
  .next (issueWith .plain (formOf (.mswap c)) (mswapEff (formOf (.mswap c))) s)

/-- MSWAP_TAKE_EFFECT. -/
def execMswapTakeEffect (core : Nat) (s : State) : Host.Outcome State Fault Refusal :=
  .next (match firstReady s core (fun m => decide (m = .mswap)) with
    | none => s
    | some e =>
      settleQuad (modQuad (dropFly s core e.id) core (fun q => { q with
        owner := some e.team, active := q.shadow, shadow := none })) core)

-- mstream

/-- The reserved ranges of the block, ascending (R200). -/
def streamZeros : List (Nat × Nat) := [(311, 309), (319, 316), (511, 360)]

/-- Orders 1 to 7 of R210 once the block is read; `ar` is the A slot's record of a stream that reads one. Where both slots offend at one order, the
accumulator slot is the one reported (DESIGN CHOICE, log 86). -/
def streamFault (q : IRec) (t b : Nat) (cr ar : Resv) (hlab : Label) : Option Flt :=
  let srcn := fieldOf b 307 304
  let acs := fieldOf b 315 312
  let qsrc := fieldOf b 308 308 = 1
  let m := fieldOf b 303 288
  let kb0 := fieldOf b 359 352
  let a := !qsrc && ar.valid
  let tile := q.active.getD { k := 32, n := 32, fmt := .bf16, lab := 0 }
  let kn := tile.k / 32
  let flow := Label.joinAll [tile.lab, if qsrc then 0 else ar.lab, hlab]
  firstFlt [
    (reservedAt b streamZeros).map (fieldFlt .reservedBits),
    damtFault (gateOf b),
    (ownWhy q t).map stateFlt,
    fltIf q.active.isNone (stateFlt 4),
    fltIf (a && decide (ar.fmt ≠ tile.fmt)) (stateFlt 5),
    fltIf (decide (m = 0) || decide (4096 < m) || (a && decide (ar.blk < kb0 + kn))) (stateFlt 6),
    fltIf (qsrc && isDx tile.fmt) (stateFlt 7),
    fltIf (cr.valid && decide (cr.buf ≠ .acc)) (slotFlt .bufferPort true acs),
    fltIf (a && decide (ar.buf ≠ .ab)) (slotFlt .bufferPort false srcn),
    fltIf (!cr.valid) ⟨.reservation, resvTval 6 acs⟩,
    fltIf (!qsrc && !ar.valid) ⟨.reservation, resvTval 6 srcn⟩,
    fltIf (decide (cr.len < fieldOf b 351 320 + (m + 31) / 32 * (tile.n / 32))) ⟨.reservation, resvTval 7 acs⟩,
    fltIf (a && !blockFits ar (fieldOf b 287 256 + m - 1) (kb0 + kn - 1)) ⟨.reservation, resvTval 7 srcn⟩,
    fltIf (decide (cr.lab < flow)) (slotFlt .labelFlow true acs)]

/-- Streams in a quadrant's command queue (R213). -/
def streamCount (s : State) (core : Nat) : Nat :=
  ((flyOf s core).filter (fun e => match e.ins with
    | .mstream _ => true
    | .mld _ _ _ _ _ _ _ _ _ => false | .mswap => false | .mread _ _ _ _ _ => false | .mzero _ _ _ _ => false | .mrel => false)).length

def mstreamEff (f : Form) : State → Iss → List Nat → Eff := matrixEff f (fun s i act l =>
  let t := i.team
  let core := i.core
  let tm := s.team t
  let a := readOp s t l .int false f.a
  let v := readOp s t l .int false f.b
  if !commandMayIssue s t act ∨ 16 ≤ streamCount s core ∨ (freeEntry s core).isNone then .hold s
  else
    match readBlock s t core l f 64 with
    | .hold => .hold s
    | .fault g lab => .done s [(l, .fault g (labOf s t l f.c [a.lab, v.lab, lab]))]
    | .ok b blab =>
      let lab := labOf s t l f.c [a.lab, v.lab, blab]
      let srcn := fieldOf b 307 304
      let acs := fieldOf b 315 312
      let qsrc := fieldOf b 308 308 = 1
      let cr := resvRead s t l acs
      let ar := resvRead s t l srcn
      let q := irecOf s core
      match streamFault q t b cr ar lab with
      | some g => .done s [(l, .fault g lab)]
      | none =>
        let id := s.newId
        let x : Stream := {
          entry := 0, kb0 := fieldOf b 359 352, p0 := fieldOf b 351 320, accN := acs, acc := cr,
          src := if qsrc then none else some ar, qn := srcn, m := fieldOf b 303 288, row0 := fieldOf b 287 256,
          v := v.val.toNat, n := match q.active with | some k => k.n | none => 0,
          gate := gateOf b, hlab := lab, stamp := stampNow s core }
        match accCheck s t l (x.pages tm.al.pBase) with
        | .hold => .hold s
        | .fault p => .done s [(l, .fault ⟨.accFirstUse, p⟩ lab)]
        | .ok =>
          let go := fun (s : State) (gateMet : Bool) (flt : Option Flt) =>
            match takeHandle s core lab with
            | none => Eff.hold s
            | some (e, tok, s) =>
              let x := { x with entry := e, gateMet, flt }
              .done (writeToken (addFly (claimQuad s core t) core { id, team := t, ins := .mstream x }) i act f l tok lab) []
          match gateStart s.bumpId t l core x.gate (.gateQuad core id) with
          | .hold s => .hold s
          | .bad s g => go s true (some g)
          | .opened s => go s true none
          | .shut s => go s false none)

/-- `mstream` (R200, R201). -/
def execMstream (c : Ctl) (d a b : Operand) (s : State) : Host.Outcome State Fault Refusal :=
  .next (issueWith .plain (formOf (.mstream c d a b)) (mstreamEff (formOf (.mstream c d a b))) s)

def isStream : MIns → Option Stream
  | .mstream x => some x
  | .mld _ _ _ _ _ _ _ _ _ => none | .mswap => none | .mread _ _ _ _ _ => none | .mzero _ _ _ _ => none | .mrel => none

/-- Whether a stream has a claim in its queue: it is inside a row. -/
def inRow (s : State) (core t : Nat) (x : Stream) : Bool := x.src.isNone && ((s.team t).queue x.qn).claims.contains (.row core)

def dropClaim (s : State) (core t q : Nat) : State :=
  s.modQueue t q (fun k => ({ k with claims := k.claims.filter (fun c => decide (c ≠ .row core)) } : Queue).settle)

/-- One output row accumulated (R97, R195, R201, R207): `vals` the activation row, `lab` its label, `pois` its marks. -/
def accumRow (s : State) (core t : Nat) (x : Stream) (tile : Tile) (vals : List FVal) (lab : Label) (pois : Bool) : State :=
  let tm := s.team t
  let page := fun n => slotPage tm x.acc (x.p0 + x.row / 32 * (tile.n / 32) + n / 32)
  let s := (List.range tile.n).foldl (fun s n =>
    let a := page n * 4096 + x.row % 32 * 128 + n % 32 * 4
    let ws := (tile.cols.getD n []).flatMap (blockVals tile.fmt true)
    let v := dotAcc (isDx tile.fmt) (bufRead s core .acc a 4) (List.zipWith FVal.mul vals ws)
    let s := bufWrite s core .acc a (leBytes 4 v)
    if pois || tile.pois.getD n false then bufMark s core .acc (a / 64) true else s) s
  (List.range (tile.n / 32)).foldl (fun s c => raiseAcc s core (page (32 * c)) (Label.joinAll [tile.lab, lab, x.hlab])) s

/-- The two halves of a popped element, in a tile's format (R215). -/
def pairVals (f : Fmt) (e : QElem) : List FVal :=
  let h : FFmt := if f = .bf16 then .bf16 else .f16
  [h.decodeFlush (e.val.toNat % 65536), h.decodeFlush (e.val.toNat / 65536)]

/-- A row that comes from a queue: claimed at its time slot, delivered as elements arrive (R214); a label above the accumulator slot's
ends the stream (R203): its elements up to and including that one have left the queue, and the row's claim on the others is dropped (DESIGN CHOICE,
log 86). -/
def queueRow (s : State) (core : Nat) (e : MFly) (x : Stream) (tile : Tile) : State :=
  let t := e.team
  let s := if inRow s core t x then s else s.modQueue t x.qn (fun k => { k with claims := k.claims ++ [.row core] })
  let qu := (s.team t).queue x.qn
  match qu.claims with
  | .row c :: _ =>
    if c ≠ core then s
    else
      let want := tile.k / 2 - x.popped.length
      let got := qu.elems.take want ++ (if qu.ended then List.replicate (want - qu.elems.length) ⟨0xFFFFFFFF, 0, false⟩ else [])
      let fit := got.takeWhile (fun q => decide (q.lab ≤ x.acc.lab))
      let tooMany := decide (fit.length < got.length)
      let used := if tooMany then fit.length + 1 else got.length
      let s := s.modQueue t x.qn (fun k => ({ k with elems := k.elems.drop used } : Queue).settle)
      let row := x.popped ++ fit
      if tooMany then
        putStream (dropClaim s core t x.qn) core e.id
          { x with popped := [], code := some 3, flt := some (slotFlt .labelFlow true x.accN) }
      else if row.length < tile.k / 2 then putStream s core e.id { x with popped := row }
      else
        let pois := row.any QElem.pois
        let s := accumRow (dropClaim s core t x.qn) core t x tile (row.flatMap (pairVals tile.fmt)) (Label.joinAll (row.map QElem.lab)) pois
        putStream s core e.id { x with popped := [], row := x.row + 1, pois := x.pois || pois || tile.pois.any id }
  | .thread _ _ :: _ => s
  | [] => s

/-- A row that is read from an A slot, once no earlier-stamped command owns its lines (R174, R194). A line that the stream has read is not read again:
each is read once, whole. -/
def slotRow (s : State) (core : Nat) (e : MFly) (x : Stream) (tile : Tile) (r : Resv) : State :=
  let base := slotBase (s.team e.team) r
  let js := (List.range (tile.k / 32)).map (x.kb0 + ·)
  let row := x.row0 + x.row
  let spans := js.flatMap (blockSpans base r row)
  let need := (spans.flatMap (fun e => lineNums e.1 e.2)).eraseDups
  let fresh := need.filter (fun l => !x.snaps.any (fun e => decide (e.line = l)))
  if fresh.any (fun l => ownedBefore s (bufLineK core r.buf (256 * l)) x.stamp) then s
  else
    let snaps := x.snaps ++ fresh.map (bufSnap s core r.buf)
    let vals := js.flatMap (fun j => blockVals r.fmt true (blockWith (snapsRead snaps) base r row j))
    let pois := spans.any (fun e => snapsPois snaps e.1 e.2)
    putStream (accumRow s core e.team x tile vals r.lab pois) core e.id
      { x with row := x.row + 1, snaps, pois := x.pois || pois || tile.pois.any id }

/-- The store pages that a stream's next row adds to. -/
def Stream.rowPages (x : Stream) (tm : Team) : List Nat :=
  (List.range (x.n / 32)).map (fun c => slotPage tm x.acc (x.p0 + x.row / 32 * (x.n / 32) + c))

/-- Whether an engine command with an earlier stamp owns a page that the row writes. -/
def rowHeld (s : State) (core t : Nat) (x : Stream) : Bool :=
  ((x.rowPages (s.team t)).flatMap (pageLines core)).any
    (fun k => (cmdOwners s k).any (fun n => decide (n < x.stamp)))

/-- MSTREAM_ROW: the row in its time slot (R201). -/
def execMstreamRow (core : Nat) (s : State) : Host.Outcome State Fault Refusal :=
  .next (match firstReady s core (fun m => (isStream m).isSome) with
    | none => s
    | some e =>
      match isStream e.ins, (s.core core).quad.active with
      | some x, some tile =>
        if !x.gateMet ∨ x.flt.isSome ∨ x.code.isSome ∨ x.m ≤ x.row ∨ ((x.cancel ∨ (s.team e.team).atStop) ∧ !inRow s core e.team x) then s
        else if x.v ≤ x.row then putStream s core e.id { x with row := x.row + 1 }
        else if rowHeld s core e.team x then s
        else
          match handOvers s core (s.team e.team).tag (x.rowPages (s.team e.team)) with
          | none => s
          | some s =>
            modQuad (match x.src with
              | none => queueRow s core e x tile
              | some r => slotRow s core e x tile r) core (fun q => { q with owner := some e.team })
      | some _, none => s
      | none, _ => s)

/-- The end of a stream (R201, R203): its pages are free, DONE is added to where the rules say so, the handle is done. One that is cancelled before its
end is CODE 0x01 even where its last row is done (DESIGN CHOICE, log 86). -/
def endStream (s : State) (core : Nat) (e : MFly) (x : Stream) : State :=
  let s := dropFly s core e.id
  let rows := min x.v x.row * 65536
  let tm := s.team e.team
  let s := match x.flt, x.code with
    | some f, c => endHandle s core x.entry (rows + c.getD 0x80) (some f)
    | none, some c => endHandle s core x.entry (rows + c) none
    | none, none =>
      if x.cancel then endHandle s core x.entry (rows + 1) none
      else
        let status := rows + if x.pois then 2 else 0
        if x.gate.done = 0 then endHandle s core x.entry status none
        else
          let a : PAdd := {
            part := tm.at_.part, ctx := tm.at_.ctx, core, addr := x.gate.done, n := x.gate.damt,
            who := .stream core x.entry status, team := some e.team, stamp := some x.stamp }
          ({ s with adds := Tbl.put s.adds s.newId a } : State).bumpId
  settleQuad s core

/-- MSTREAM_COMPLETE: every row is done, or the stream has ended early at a row boundary. -/
def execMstreamComplete (core : Nat) (s : State) : Host.Outcome State Fault Refusal :=
  .next (match firstReady s core (fun m => (isStream m).isSome) with
    | none => s
    | some e =>
      match isStream e.ins with
      | none => s
      | some x =>
        if x.flt.isSome ∨ x.code.isSome ∨ (x.cancel ∧ !inRow s core e.team x) ∨ (x.gateMet ∧ x.row = x.m) then endStream s core e x
        else s)

-- mread and mzero

def mreadEff (f : Form) (n : Nat) : State → Iss → List Nat → Eff := matrixEff f (fun s i _ l =>
  let t := i.team
  let tm := s.team t
  let a := readOp s t l .int false f.a
  let b := readOp s t l .int false f.b
  let lab := labOf s t l f.c [a.lab, b.lab]
  let r := resvRead s t l n
  let x := b.val.toNat
  let first := x % 256
  let count := x / 256 % 256
  match firstFlt [
    (ownWhy (irecOf s i.core) t).map stateFlt,
    fltIf (decide (65536 ≤ x) || decide (count = 0) || decide (32 < count) || decide (32 < first + count)) (stateFlt 6),
    fltIf (r.valid && decide (r.buf ≠ .acc)) (slotFlt .bufferPort false n),
    fltIf (!r.valid) ⟨.reservation, resvTval 6 n⟩,
    fltIf (decide (r.len ≤ a.val.toNat)) ⟨.reservation, resvTval 7 n⟩] with
  | some g => .done s [(l, .fault g lab)]
  | none =>
    let p := slotPage tm r a.val.toNat
    match accCheck s t l [p], f.d with
    | .hold, _ => .hold s
    | .fault p, _ => .done s [(l, .fault ⟨.accFirstUse, p⟩ lab)]
    | .ok, .q q =>
      .done (settleQuad (addFly (claimQuad s.bumpId i.core t) i.core
        { id := s.newId, team := t, ins := .mread p first count q.toNat false }) i.core) []
    | .ok, _ => .done s [])

/-- `mread` (R204). -/
def execMread (c : Ctl) (slot : BitVec 4) (d a b : Operand) (s : State) : Host.Outcome State Fault Refusal :=
  .next (issueWith .plain (formOf (.mread c slot d a b)) (mreadEff (formOf (.mread c slot d a b)) slot.toNat) s)

def mzeroEff (f : Form) (n : Nat) : State → Iss → List Nat → Eff := matrixEff f (fun s i act l =>
  let t := i.team
  let tm := s.team t
  let a := readOp s t l .int false f.a
  let b := readOp s t l .int false f.b
  let lab := labOf s t l f.c [a.lab, b.lab]
  let r := resvRead s t l n
  let cnt := b.val.toNat
  match firstFlt [
    (ownWhy (irecOf s i.core) t).map stateFlt,
    fltIf (decide (cnt = 0) || decide (768 < cnt)) (stateFlt 6),
    fltIf (r.valid && decide (r.buf ≠ .acc)) (slotFlt .bufferPort true n),
    fltIf (!r.valid) ⟨.reservation, resvTval 6 n⟩,
    fltIf (decide (r.len < a.val.toNat + cnt)) ⟨.reservation, resvTval 7 n⟩] with
  | some g => .done s [(l, .fault g lab)]
  | none =>
    let ps := (List.range cnt).map (fun j => slotPage tm r (a.val.toNat + j))
    match accCheck s t l ps with
    | .hold => .hold s
    | .fault p => .done s [(l, .fault ⟨.accFirstUse, p⟩ lab)]
    | .ok =>
      let id := s.newId
      let e : MFly := { id, team := t, ins := .mzero ps lab (stampNow s i.core) i.lanes }
      .done (oweLanes (addFly (claimQuad s.bumpId i.core t) i.core e) i act f id lab) [])

/-- `mzero` (R205). -/
def execMzero (c : Ctl) (slot : BitVec 4) (a b : Operand) (s : State) : Host.Outcome State Fault Refusal :=
  .next (issueWith .plain (formOf (.mzero c slot a b)) (mzeroEff (formOf (.mzero c slot a b)) slot.toNat) s)

/-- Pages zeroed, their marks cleared and their label set (R205). -/
def zeroPages (s : State) (core : Nat) (ps : List Nat) (lab : Label) : State :=
  s.modCore core (fun k => { k with bufs := { k.bufs with
    acc := k.bufs.acc.filter (fun e => !ps.contains (e.1 / 4096))
    accPois := k.bufs.accPois.filter (fun e => !ps.contains (e.1 / 64))
    accLab := ps.foldl (fun m p => Tbl.put m p lab) k.bufs.accLab } })

def isMzero : MIns → Bool
  | .mzero _ _ _ _ => true
  | .mld _ _ _ _ _ _ _ _ _ => false | .mswap => false | .mstream _ => false | .mread _ _ _ _ _ => false | .mrel => false

/-- MZERO_COMPLETE. -/
def execMzeroComplete (core : Nat) (s : State) : Host.Outcome State Fault Refusal :=
  .next (match firstReady s core isMzero with
    | none => s
    | some e =>
      match e.ins with
      | .mzero ps lab stamp lanes =>
        if (ps.flatMap (pageLines core)).any (fun k => (cmdOwners s k).any (fun n => decide (n < stamp))) then s
        else
          match handOvers s core (s.team e.team).tag ps with
          | none => s
          | some s =>
            let s := modQuad (zeroPages (dropFly s core e.id) core ps lab) core (fun q => { q with owner := some e.team })
            settleQuad (payLanes s e.team lanes e.id) core
      | .mld _ _ _ _ _ _ _ _ _ => s
      | .mswap => s
      | .mstream _ => s
      | .mread _ _ _ _ _ => s
      | .mrel => s)

-- mfuse and mrel

/-- The members of a group led from a core; none where the leader's position does not allow the shape (R206, R10). -/
def membersOf (sh : Shape) (core : Nat) : Option (List Nat) :=
  let pos := posOf core
  match sh with
  | .h => if pos = 0 ∨ pos = 2 then some [core + 1] else none
  | .v => if pos = 0 ∨ pos = 1 then some [core + 8] else none
  | .q => if pos = 0 then some [core + 1, core + 8, core + 9] else none

/-- Whether a quadrant is idle for a fusion (R206). -/
def idleQuad (s : State) (core : Nat) (member : Bool) : Bool :=
  let q := (s.core core).quad
  decide (flyOf s core = []) && q.irec.shadow.isNone && q.irec.active.isNone && decide (q.irec.role = .alone) &&
  (!member || q.irec.owner.isNone)

def edgeFlt (why core : Nat) : Flt := ⟨.fuseEdge, why * 256 + core⟩

def mfuseEff (f : Form) (sh : Shape) : State → Iss → List Nat → Eff := matrixEff f (fun s i _ l =>
  let t := i.team
  let core := i.core
  let part := (s.team t).at_.part
  let ms := membersOf sh core
  let hosts := (clusterTeams s t).filterMap (fun u => if (s.team u).ended then none else some (s.team u).at_.core)
  match firstFlt ([
    (ownWhy (irecOf s core) t).map stateFlt,
    fltIf (!idleQuad s core false || (ms.getD []).any (fun c => !idleQuad s c true)) (stateFlt 8),
    fltIf ms.isNone (edgeFlt 0 core)] ++
    (ms.getD []).map (fun c =>
      if (s.core c).owner ≠ some part then some (edgeFlt 1 c) else fltIf (!hosts.contains c) (edgeFlt 2 c))) with
  | some g => .done s [(l, .fault g (labOf s t l f.c []))]
  | none =>
    let set := fun (s : State) c (r : Role) => modQuad s c (fun q => { q with
      owner := some t, role := r, irec := { q.irec with owner := some t, role := r } })
    .done ((ms.getD []).foldl (fun s c => set s c (.lent core)) (set s core (.leader sh))) [])

/-- `mfuse` (R206). -/
def execMfuse (c : Ctl) (sh : Shape) (s : State) : Host.Outcome State Fault Refusal :=
  .next (issueWith .plain (formOf (.mfuse c sh)) (mfuseEff (formOf (.mfuse c sh)) sh) s)

/-- The quadrants of a group: the leader's and its members'. -/
def groupOf (role : Role) (core : Nat) : List Nat :=
  match role with
  | .leader sh => core :: (membersOf sh core).getD []
  | .alone => [core]
  | .lent _ => [core]

/-- An mrel of a quadrant or of the group that it leads: the issue records stand free at once (R191, R208). -/
def release (s : State) (core t : Nat) : State :=
  let id := s.newId
  (groupOf (irecOf s core).role core).foldl (fun s c =>
    modQuad s c (fun q => { q with irec := {}, fly := q.fly ++ [{ id, team := t, ins := .mrel }] })) s.bumpId

def mrelEff (f : Form) : State → Iss → List Nat → Eff := matrixEff f (fun s i _ l =>
  let t := i.team
  let q := irecOf s i.core
  let bad := fun why => Eff.done s [(l, .fault (stateFlt why) (labOf s t l f.c []))]
  match q.role, q.owner with
  | .lent ld, some u => if (clusterTeams s u).contains t then .done (release s ld t) [] else bad 2
  | .lent _, none => bad 2
  | _, some u => if u = t then .done (release s i.core t) [] else bad 1
  | _, none => .done (addFly s.bumpId i.core { id := s.newId, team := t, ins := .mrel }) [])

/-- `mrel` (R208). -/
def execMrel (c : Ctl) (s : State) : Host.Outcome State Fault Refusal :=
  .next (issueWith .plain (formOf (.mrel c)) (mrelEff (formOf (.mrel c))) s)

/-- MREL_TAKE_EFFECT: on a member's core it is the leader's. -/
def execMrelTakeEffect (core : Nat) (s : State) : Host.Outcome State Fault Refusal :=
  .next (
    let c := match (s.core core).quad.role with
      | .lent ld => ld
      | .alone => core
      | .leader _ => core
    match firstReady s c (fun m => decide (m = .mrel)) with
    | none => s
    | some e =>
      (groupOf (s.core c).quad.role c).foldl (fun s k =>
        settleQuad (modQuad (dropFly s k e.id) k (fun q => { q with
          owner := none, role := .alone, shadow := none, active := none })) k) s)

end Sys2Proof.Machine
end

