-- ==== Sys2Proof/Machine/EngineOps.lean ====
section
/-! DEFINITION. What engine commands share (R174, R220 to R224, R230): issue, endpoints, reading a source line, writing a destination
line, and the end of a command. -/

namespace Sys2Proof.Machine

open Sys2Proof

-- commands

def findCmd (s : State) (core id : Nat) : Option Cmd := (s.core core).cmds.find? (fun m => decide (m.id = id))
def modCmd (s : State) (core id : Nat) (f : Cmd → Cmd) : State :=
  s.modCore core (fun k => { k with cmds := k.cmds.map (fun m => if m.id = id then f m else m) })
def dropCmd (s : State) (core id : Nat) : State :=
  s.modCore core (fun k => { k with cmds := k.cmds.filter (fun m => decide (m.id ≠ id)) })

/-- The engine of a command: copy, quantisation, or none for `xinv`. -/
def Work.engine : Work → Nat | .copy _ => 0 | .quant _ => 1 | .xinv _ _ _ => 2
/-- Places in the engines' command queues (R213). -/
def Work.places : Work → Nat | .copy _ => 64 | .quant _ => 32 | .xinv _ _ _ => 512
def queued (s : State) (core : Nat) (w : Work) : Nat :=
  ((s.core core).cmds.filter (fun m => decide (m.work.engine = w.engine))).length

/-- Whether an engine has a command in progress: one of its first eight whose gates are open, by stamp (R221). Where the gate of an earlier command opens
while eight later ones are in progress, it takes the place of the eighth, which waits as it stands until it is among the first eight again (DESIGN CHOICE,
log 88). A command that has drained is none of them, and a quantisation of a stopped team that has begun blocks completes them wherever it stands (R330). -/
def inProgress (s : State) (core : Nat) (m : Cmd) : Bool :=
  m.gateMet && (((s.team m.team).atStop && decide (m.pos ≠ 0) && decide (m.work.engine = 1)) ||
  decide (((s.core core).cmds.filter (fun k =>
    k.gateMet && !k.drained && decide (k.work.engine = m.work.engine) && decide (k.stamp < m.stamp))).length < 8))

/-- The end of a command (R218): its ownership ends, and its handle holds the status. -/
def endCmd (s : State) (core : Nat) (m : Cmd) (status : Nat) (f : Option Flt) : State :=
  settleQuad (endHandle (dropCmd s core m.id) core m.entry status f) core

/-- A command that has done its work: DONE is added to, where there is one (R174, R221). -/
def landCmd (s : State) (core : Nat) (m : Cmd) (status : Nat) : State :=
  if m.gate.done = 0 then endCmd s core m status none
  else
    let a : PAdd := {
      part := m.part, ctx := m.ctx, core, addr := m.gate.done, n := m.gate.damt, who := .cmd core m.entry status,
      team := some m.team, stamp := some m.stamp }
    settleQuad ({ (dropCmd s core m.id) with adds := Tbl.put s.adds s.newId a } : State).bumpId core

-- endpoints (R223)

/-- Where an endpoint starts in its space, in bytes. -/
def EndPt.start (tm : Team) : EndPt → Nat
  | .glob va => va
  | .sh _ off => off
  | .slot _ r off => slotBase tm r + off
  | .nvme _ off => off

/-- A byte position in an endpoint's space: virtual addresses wrap (R153). -/
def EndPt.wrap (e : EndPt) (x : Nat) : Nat :=
  match e with
  | .glob _ => x % 2 ^ 52
  | .sh _ _ => x
  | .slot _ _ _ => x
  | .nvme _ _ => x

/-- The owned form of a line of an endpoint outside global memory. -/
def EndPt.key (core : Nat) (e : EndPt) (u : Nat) : Option LineK :=
  match e with
  | .sh t _ => some (.sh t u)
  | .slot _ r _ => some (bufLineK core r.buf (u * 256))
  | .glob _ => none
  | .nvme _ _ => none

/-- A list without repeats, in order of first appearance. -/
def dedup (l : List Nat) : List Nat := l.foldl (fun ls x => if ls.contains x then ls else ls ++ [x]) []

/-- The lines of a byte range of an endpoint. -/
def EndPt.lines (e : EndPt) (a n : Nat) : List Nat :=
  if n = 0 then [] else (List.range ((a + n - 1) / 256 - a / 256 + 1)).map (fun i => e.wrap (a + 256 * i) / 256)

-- reading a source line (R174, R224)

/-- What one step of an engine on a line comes to: it waits, it records a fault, the address does not exist, or it is done. -/
inductive LnRes (α : Type) where
  | wait (s : State)
  | fault (s : State) (f : Flt)
  | bad (pa : Nat)
  | done (s : State) (x : α)

/-- A request of a command through a link window, under a number of its own (R366, R369). -/
def linkOut (s : State) (core : Nat) (m : Cmd) (pa n : Nat) (op : OutOp) (lab : Label) : State :=
  sendLink s.bumpId m.part core s.newId pa n [(pa, op)] lab

/-- A line of an endpoint read whole for a command. -/
def readLine (s : State) (core : Nat) (m : Cmd) (e : EndPt) (u : Nat) : LnRes Snap :=
  match e with
  | .nvme _ _ => .wait s
  | .sh t _ =>
    if ownedBefore s (.sh t u) m.stamp then .wait s
    else
      let tm := s.team t
      .done s ⟨u, Mem.readN tm.sh.bytes (u * 256) 256, tm.shLab (u * 256), sectorMask (fun i => tm.shPois (u * 256 + 64 * i))⟩
  | .slot _ r _ =>
    if ownedBefore s (bufLineK core r.buf (u * 256)) m.stamp then .wait s
    else
      match (if r.buf = .acc ∧ !m.sup then handOver s core (tagOf m.part m.ctx) (u / 16) else some s) with
      | none => .wait s
      | some s =>
        .done s ⟨u, Mem.readN ((s.core core).bufs.mem r.buf) (u * 256) 256,
          r.lab, sectorMask (fun i => bufPois s core r.buf (u * 256 + 64 * i) 1)⟩
  | .glob _ =>
    let va := u * 256
    match xlate s core (.cmd core m.id) m.xres m.part (tagOf m.part m.ctx) va va kindEngine permRead with
    | .wait s => .wait s
    | .ans s (.fail f) => .fault s f
    | .ans s (.ok x) =>
      let pa := x.pa va
      let l := pa / 256
      if !permsIn permRead (attrPerm x.attr) then .fault s ⟨.pagePermission, accessBits false va⟩
      else if noSuch pa then .bad pa
      else if isLink pa then
        if (windowOf s m.part pa).isNone then .done (lostNotice s m.part m.ctx pa) ⟨u, List.replicate 256 0, attrLabel x.attr, 15⟩
        else if m.lreads.any (fun e => decide (e.2 = u)) ∨ sendHeld s m.part pa 256 then .wait s
        else .wait (modCmd (linkOut s core m pa 256 (.read 256) (attrLabel x.attr)) core m.id (fun k => { k with lreads := k.lreads ++ [(s.newId, u)] }))
      else if closedBefore s (.mem l) m.stamp then .wait s
      else
        .done (homeTake s l (attrCclass x.attr) false)
          ⟨u, Mem.readN s.mem (l * 256) 256, (attrLabel x.attr).join (s.line l).lab, (s.line l).pois⟩

/-- Source lines made present among the command's copies, each read once. -/
def acquire (s : State) (core id : Nat) (e : EndPt) : List Nat → LnRes Unit
  | [] => .done s ()
  | u :: us =>
    match findCmd s core id with
    | none => .wait s
    | some m =>
      if m.snaps.any (fun k => decide (k.line = u)) then acquire s core id e us
      else
        match readLine s core m e u with
        | .wait s => .wait s
        | .fault s f => .fault s f
        | .bad pa => .bad pa
        | .done s k => acquire (modCmd s core id (fun m => { m with snaps := m.snaps ++ [k], xres := [] })) core id e us

/-- A line's copy; where there is none, zeros. -/
def snapAt (ss : List Snap) (u : Nat) : Snap := (ss.find? (fun k => decide (k.line = u))).getD ⟨u, [], 0, 0⟩
def snapByte (ss : List Snap) (a : Nat) : Byte := (snapAt ss (a / 256)).bytes.getD (a % 256) 0
def snapRead (ss : List Snap) (a n : Nat) : Nat := leNat ((List.range n).map (fun i => snapByte ss (a + i)))
def snapPois (ss : List Snap) (a n : Nat) : Bool := (List.range n).any (fun i => bitAt (snapAt ss ((a + i) / 256)).pois ((a + i) % 256 / 64))

-- writing a destination line (R162, R174)

/-- The bytes of a line as one write carries them; none: skipped. -/
abbrev LineData := List (Option Byte)

def LineData.full (d : LineData) : Bool := d.all Option.isSome
def LineData.count (d : LineData) : Nat := (d.filter Option.isSome).length
/-- Whether a sector is covered, and whether it is touched. -/
def LineData.covers (d : LineData) (i : Nat) : Bool := ((d.drop (64 * i)).take 64).all Option.isSome
def LineData.touches (d : LineData) (i : Nat) : Bool := ((d.drop (64 * i)).take 64).any Option.isSome

/-- The line after the write: bytes of a marked sector that the write does not clear are discarded. -/
def mergeLine (old : List Byte) (d : LineData) (marked clears : Nat → Bool) : List Byte :=
  (List.range 256).map (fun o =>
    let i := o / 64
    match d.getD o none with
    | some b => if marked i && !clears i then old.getD o 0 else b
    | none => old.getD o 0)

/-- A line of memory written, or marked, under a translation, whose label it records either way (R153, R164): its T_w (R167). Only a write of all 256 bytes
clears marks (R162). -/
def writeMem (s : State) (l : Nat) (x : Xlat) (d : LineData) (mark : Bool) : State × Nat :=
  let k := s.line l
  let tw := twOf s l (attrLease x.attr)
  if mark then
    (homeMark s l (fun k => { k with pois := 15, lab := attrLabel x.attr, comp := attrComp x.attr, sealed := attrSealed x.attr })
      (attrCclass x.attr), tw)
  else if (List.range 4).all (fun i => !d.touches i || (bitAt k.pois i && !d.full)) then (s, tw)
  else
    let bs := mergeLine (Mem.readN s.mem (l * 256) 256) d (bitAt k.pois) (fun _ => d.full)
    (homeWrite (s.modLine l (fun k => { k with pois := if d.full then 0 else k.pois })) (l * 256) bs (attrLabel x.attr) (attrComp x.attr)
      (attrSealed x.attr) (attrCclass x.attr), tw)

/-- A line of a team's shared memory written or marked; its label rises (R155). -/
def writeShared (s : State) (t u : Nat) (d : LineData) (lab : Label) (mark : Bool) : State :=
  let tm := s.team t
  let a := u * 256
  let secs := List.range 4
  if mark then
    s.modTeam t (fun tm => { tm with sh := { tm.sh with
      lab := Tbl.put tm.sh.lab u ((tm.shLab a).join lab)
      pois := secs.foldl (fun p i => Tbl.put p (4 * u + i) true) tm.sh.pois } })
  else
    let bs := mergeLine (Mem.readN tm.sh.bytes a 256) d (fun i => tm.shPois (a + 64 * i)) d.covers
    s.modTeam t (fun tm => { tm with sh := {
      bytes := Mem.writeN tm.sh.bytes a (bs.take (tm.al.shLen - a))
      lab := Tbl.put tm.sh.lab u ((tm.shLab a).join lab)
      pois := secs.foldl (fun p i => if d.covers i then Tbl.del p (4 * u + i) else p) tm.sh.pois } })

/-- A line of a core's buffer written or marked; an accumulator page's label rises. -/
def writeBuf (s : State) (core : Nat) (b : Buf) (u : Nat) (d : LineData) (lab : Label) (mark : Bool) : State :=
  let a := u * 256
  let secs := List.range 4
  if mark then secs.foldl (fun s i => bufMark s core b (4 * u + i) true) s
  else
    let bs := mergeLine (Mem.readN ((s.core core).bufs.mem b) a 256) d (fun i => bufPois s core b (a + 64 * i) 1) d.covers
    let s := secs.foldl (fun s i => if d.covers i then bufMark s core b (4 * u + i) false else s) (bufWrite s core b a bs)
    if b = .acc then raiseAcc s core (u / 16) lab else s

/-- Ownership of destination line `pos` given up. -/
def disown (s : State) (core id pos : Nat) : State :=
  modCmd s core id (fun m => { m with owned := m.owned.filter (fun e => decide (e.1 ≠ pos)) })

/-- Destination line `pos` of a command, line `u` of its endpoint, written or marked: its T_w. -/
def putLine (s : State) (core : Nat) (m : Cmd) (e : EndPt) (pos u : Nat) (d : LineData) (lab : Label) (mark : Bool) : LnRes Nat :=
  match e with
  | .nvme _ _ => .wait s
  | .sh t _ =>
    if ownedBefore s (.sh t u) m.stamp then .wait s else .done (writeShared (disown s core m.id pos) t u d lab mark) 0
  | .slot n r _ =>
    if ownedBefore s (bufLineK core r.buf (u * 256)) m.stamp then .wait s
    else if !mark ∧ r.lab < lab then .fault s (slotFlt .labelFlow true n)
    else .done (writeBuf (disown s core m.id pos) core r.buf u d lab mark) 0
  | .glob _ =>
    let va := u * 256
    match xlate s core (.cmd core m.id) m.xres m.part (tagOf m.part m.ctx) va va kindEngineWrite permWrite with
    | .wait s => .wait s
    | .ans s (.fail f) => .fault s f
    | .ans s (.ok x) =>
      let pa := x.pa va
      let l := pa / 256
      let s := if m.owned.contains (pos, .mem l) then s else disown s core m.id pos
      if !permsIn permWrite (attrPerm x.attr) then .fault s ⟨.pagePermission, accessBits true va⟩
      else if attrCnt x.attr then .fault s ⟨.counterStore, accessBits true va⟩
      else if attrLabel x.attr < lab then .fault s ⟨.labelFlow, accessBits true va⟩
      else if noSuch pa then .bad pa
      else if isLink pa then
        if (windowOf s m.part pa).isNone then
          .done (modCmd (lostNotice s m.part m.ctx pa) core m.id (fun k => { k with refused := true })) 0
        else if sendHeld s m.part pa d.count then .wait s
        else .done (modCmd (linkOut s core m pa d.count (.put d mark) 0) core m.id (fun k => { k with lacks := k.lacks ++ [s.newId] })) 0
      else if closedBefore s (.mem l) m.stamp then .wait s
      else
        let r := writeMem (disown s core m.id pos) l x d mark
        .done r.1 r.2

-- issue (R221)

/-- What ownership of the destination comes to at issue: a walk to wait for, or the lines owned. A line whose translation faults, and one
of another module, is not owned (R174). -/
inductive OwnRes where
  | hold (s : State)
  | ok (s : State) (ls : List (Nat × LineK))

def ownLines (s : State) (t l core : Nat) (e : EndPt) : List (Nat × Nat) → OwnRes
  | [] => .ok s []
  | (pos, u) :: us =>
    match e with
    | .nvme _ _ => .ok s []
    | .sh _ _ => .ok s (((pos, u) :: us).filterMap (fun x => (e.key core x.2).map (Prod.mk x.1)))
    | .slot _ _ _ => .ok s (((pos, u) :: us).filterMap (fun x => (e.key core x.2).map (Prod.mk x.1)))
    | .glob _ =>
      match xlateThread s t l (u * 256) (u * 256) kindEngineWrite permWrite with
      | .wait s => .hold s
      | .ans s a =>
        match ownLines s t l core e us with
        | .hold s => .hold s
        | .ok s ls =>
          match a with
          | .fail _ => .ok s ls
          | .ok x => .ok s (if isLink (x.pa (u * 256)) then ls else (pos, .mem (x.pa (u * 256) / 256)) :: ls)

/-- A command issued once its checks have passed: the wait for a free handle entry and a place in its engine, ownership, the gate, the handle
(R221). -/
def issueCmd (s : State) (i : Iss) (act : List Nat) (f : Form) (l : Nat) (dst : EndPt) (lines : List Nat) (m : Cmd) : Eff :=
  let t := i.team
  if m.work.places ≤ queued s i.core m.work ∨ (freeEntry s i.core).isNone then .hold s
  else
  match ownLines s t l i.core dst ((List.range lines.length).zip lines) with
  | .hold s => .hold s
  | .ok s ls =>
    let id := s.newId
    let stamp := stampNow s i.core
    let go := fun (s : State) (gateMet : Bool) (flt : Option Flt) =>
      match takeHandle s i.core m.hlab with
      | none => Eff.hold s
      | some (e, tok, s) =>
        let m := { m with id, stamp, entry := e, owned := ls, gateMet, flt }
        .done (writeToken (s.modCore i.core (fun k => { k with cmds := k.cmds ++ [m] })) i act f l tok m.hlab) []
    match gateStart s.bumpId t l i.core m.gate (.gateCmd i.core id) with
    | .hold s => .hold s
    | .bad s g => go s true (some g)
    | .opened s => go s true none
    | .shut s => go s false none

/-- The skeleton of copy, quant, rqt and xinv (R221): l0, the conditions of R174, the block, then `g`. A command that waits for an entry or a place reads
and checks its block again at every attempt, and what it read last stands (DESIGN CHOICE, log 88). -/
def commandEff (f : Form) (n : Nat) (g : State → Iss → List Nat → Nat → Nat → Label → Eff) (s : State) (i : Iss)
    (act : List Nat) : Eff :=
  match leads s i f act with
  | none => .done s []
  | some l =>
    if !commandMayIssue s i.team act then .hold s
    else
      let a := if f.block = 0 then (readOp s i.team l .int false f.a).lab else 0
      match readBlock s i.team i.core l f n with
      | .hold => .hold s
      | .fault flt lab => .done s [(l, .fault flt (labOf s i.team l f.c [a, lab]))]
      | .ok b lab => g s i act l b (a.join lab)

end Sys2Proof.Machine
end

