-- ==== Sys2Proof/Machine/Copy.lean ====
section
/-! DEFINITION. The copy engine (R223, R224): the meaning of `copy` and the work of a copy, one destination line at a time. -/

namespace Sys2Proof.Machine

open Sys2Proof

-- geometry (R224)

/-- Rows and bytes of a row that are not skipped, under the valid count. -/
def CopyW.realRows (w : CopyW) (v : Nat) : Nat := min (min w.rows v) (if w.svrows = 0 then w.rows else w.svrows)
def CopyW.realBytes (w : CopyW) : Nat := if w.svbytes = 0 then w.rbytes else min w.rbytes w.svbytes

/-- The destination lines in the order in which rows first touch them. One whose bytes are all skipped is a destination line too: it is owned, reached
and written as one write that changes no byte (R174), or marked where it is not delivered (R176; DESIGN CHOICE, log 87). -/
def CopyW.dstLines (w : CopyW) (tm : Team) : List Nat :=
  dedup ((List.range w.rows).flatMap (fun r => w.dst.lines (w.dst.wrap (w.dst.start tm + r * w.dstride)) w.rbytes))

/-- The source byte of destination byte `a`, from the last row that covers it; none where it is skipped. -/
def CopyW.srcOf (w : CopyW) (tm : Team) (v a : Nat) : Option Nat :=
  let at_ := fun r => (a + 2 ^ 52 - (w.dst.start tm + r * w.dstride) % 2 ^ 52) % 2 ^ 52
  ((List.range (w.realRows v)).reverse.find? (fun r => decide (at_ r < w.realBytes))).map (fun r =>
    w.src.wrap (w.src.start tm + r * w.sstride + at_ r))

/-- The source byte of each byte of destination line `u`. -/
def CopyW.lineMap (w : CopyW) (tm : Team) (v u : Nat) : List (Option Nat) :=
  (List.range 256).map (fun o => w.srcOf tm v (u * 256 + o))

/-- Whether source line and destination line numbers name the same space. -/
def EndPt.sameSpace (a b : EndPt) : Bool :=
  match a, b with
  | .glob _, .glob _ => true
  | .sh t _, .sh u _ => decide (t = u)
  | .slot _ r _, .slot _ q _ => decide (r.buf = q.buf)
  | _, _ => false

/-- Source lines of a copy that are destination lines too and are read before the copy's own writes: a free choice (R224, log 14). -/
def CopyW.early (w : CopyW) (tm : Team) (v id : Nat) : List Nat :=
  if !w.src.sameSpace w.dst then []
  else
    let ds := w.dstLines tm
    (dedup (ds.flatMap (fun u => (w.lineMap tm v u).filterMap (Option.map (· / 256))))).filter (fun u =>
      ds.contains u && Config.freeBit [224, id, u])

-- the checks at issue (R222, R223)

/-- What a copy block holds. -/
structure CopyB where
  skind : Nat
  dkind : Nat
  src : Nat
  dst : Nat
  rows : Nat
  rbytes : Nat
  sstride : Nat
  dstride : Nat
  svrows : Nat
  svbytes : Nat
  deriving DecidableEq, Repr

def copyBlock (b : Nat) : CopyB :=
  { skind := fieldOf b 499 496, dkind := fieldOf b 503 500, src := fieldOf b 319 256, dst := fieldOf b 383 320,
    rows := fieldOf b 447 432, rbytes := fieldOf b 463 448, sstride := fieldOf b 407 384, dstride := fieldOf b 431 408,
    svrows := fieldOf b 479 464, svbytes := fieldOf b 495 480 }

/-- Whether an endpoint has a bit that its kind requires to be zero, or an offset that is no multiple of 512 (R223). -/
def endptBad (kind e : Nat) : Bool :=
  match kind with
  | 0 => false
  | 1 => decide (2 ^ 32 ≤ e)
  | 5 => decide (2 ^ 52 ≤ e) || decide (e % 512 ≠ 0)
  | _ => decide (fieldOf e 31 4 ≠ 0)

/-- COMMAND_FORM at order 4: the lowest field that offends. -/
def copyForm (k : CopyB) : Option Nat :=
  let nv := decide (k.skind = 5) || decide (k.dkind = 5)
  firstField [
    (256, decide (k.skind ≤ 5) && endptBad k.skind k.src),
    (320, decide (k.dkind ≤ 5) && endptBad k.dkind k.dst),
    (384, decide (k.skind = 5) && decide (k.sstride ≠ k.rbytes)),
    (408, decide (k.dkind = 5) && decide (k.dstride ≠ k.rbytes)),
    (432, decide (k.rows = 0) || decide (2 ^ 24 ≤ k.rows * k.rbytes)),
    (448, decide (k.rbytes = 0) || (nv && decide (k.rbytes % 512 ≠ 0))),
    (496, decide (5 < k.skind) || (decide (k.dkind = 5) && decide (k.skind ≠ 0))),
    (500, decide (5 < k.dkind) || (decide (k.skind = 5) && decide (k.dkind ≠ 0)))]

def kindBuf (kind : Nat) : Option Buf := if kind = 2 then some .wb else if kind = 3 then some .ab else if kind = 4 then some .acc else none

/-- One side of a copy: whether it is the destination, kind, endpoint, stride, and the record of a slot. -/
structure Side where
  wr : Bool
  kind : Nat
  e : Nat
  stride : Nat
  r : Resv
  deriving DecidableEq, Repr

def Side.slot (x : Side) : Nat := x.e % 16
def Side.isSlot (x : Side) : Bool := (kindBuf x.kind).isSome

/-- BUFFER_PORT of a side (order 5). -/
def Side.port (sup : Bool) (x : Side) : Option Flt :=
  fltIf (x.isSlot && ((x.r.valid && decide (some x.r.buf ≠ kindBuf x.kind)) || (decide (x.kind = 4) && !sup)))
    (slotFlt .bufferPort x.wr x.slot)
/-- RESERVATION of a side, WHY 6 then WHY 7 (order 7). -/
def Side.valid (x : Side) : Option Flt := fltIf (x.isSlot && !x.r.valid) ⟨.reservation, resvTval 6 x.slot⟩
def Side.extent (k : CopyB) (x : Side) : Option Flt :=
  fltIf (x.isSlot && decide (x.r.bytes < x.e / 2 ^ 32 + (k.rows - 1) * x.stride + k.rbytes)) ⟨.reservation, resvTval 7 x.slot⟩
/-- SHARED_RANGE of a side (order 8). -/
def Side.shared (s : State) (t : Nat) (k : CopyB) (x : Side) : Option Flt :=
  fltIf (decide (x.kind = 1) && (sharedPlace s t x.e ((k.rows - 1) * x.stride + k.rbytes) false).isNone)
    ⟨.sharedRange, accessBits x.wr x.e⟩

/-- Orders 2 to 9 of R222 for a copy. At order 7 WHY 6 of either slot comes before WHY 7 of either, and among equals the source's (DESIGN CHOICE, log 92). -/
def copyFault (s : State) (t b : Nat) (ns sup : Bool) (x y : Side) (hlab : Label) : Option Flt :=
  let k := copyBlock b
  firstFlt [
    (reservedAt b [(511, 504)]).map (fieldFlt .reservedBits),
    if ns then none else damtFault (gateOf b),
    (copyForm k).map (fieldFlt .commandForm),
    x.port sup, y.port sup, x.valid, y.valid, x.extent k, y.extent k, x.shared s t k, y.shared s t k,
    fltIf (y.isSlot && decide (y.r.lab < if x.isSlot then hlab.join x.r.lab else hlab)) (slotFlt .labelFlow true y.slot)]

/-- The endpoint of a side that has passed the checks. -/
def Side.endpt (s : State) (t : Nat) (x : Side) : EndPt :=
  match x.kind with
  | 0 => .glob (x.e % 2 ^ 52)
  | 1 => match sharedPlace s t x.e 1 false with
    | some (u, off) => .sh u off
    | none => .sh t 0
  | 5 => .nvme (x.e / 2 ^ 48 % 16) (x.e % 2 ^ 48)
  | _ => .slot x.slot x.r (x.e / 2 ^ 32)

/-- The NVMe commands of a copy: each row in pieces of at most 128 KiB (R373). -/
def nvmeCmds (w : CopyW) (v : Nat) : List NCmd :=
  let n := w.realBytes
  (List.range (w.realRows v)).flatMap (fun r => (List.range ((n + 131071) / 131072)).map (fun j =>
    { row := r, off := 131072 * j, len := min 131072 (n - 131072 * j) }))

def EndPt.isNvme : EndPt → Bool | .nvme _ _ => true | .glob _ => false | .sh _ _ => false | .slot _ _ _ => false
def CopyW.isNvme (w : CopyW) : Bool := w.src.isNvme || w.dst.isNvme

def zeroGate : Gate := {}

/-- The effect of a copy. A slot whose record offends is reported at issue in l0 with no handle, as R221 and R222 give, where R190 speaks of the reader
of an agent's handle (DEDUCED, log 88). -/
def copyEff (f : Form) (ns : Bool) : State → Iss → List Nat → Eff :=
  commandEff f (if ns then 32 else 64) (fun s i act l b0 blab =>
    let t := i.team
    let tm := s.team t
    let b := if ns then b0 * 2 ^ 256 else b0
    let v := readOp s t l .int false f.b
    let lab := labOf s t l f.c [v.lab, blab]
    let sup := (s.thread t l).t.sup
    let k := copyBlock b
    let x : Side := ⟨false, k.skind, k.src, k.sstride, resvRead s t l (k.src % 16)⟩
    let y : Side := ⟨true, k.dkind, k.dst, k.dstride, resvRead s t l (k.dst % 16)⟩
    match copyFault s t b ns sup x y lab with
    | some g => .done s [(l, .fault g lab)]
    | none =>
      let w : CopyW := {
        src := x.endpt s t, dst := y.endpt s t, sstride := k.sstride, dstride := k.dstride, rows := k.rows, rbytes := k.rbytes,
        svrows := k.svrows, svbytes := k.svbytes }
      let m : Cmd := {
        id := 0, team := t, part := tm.at_.part, ctx := tm.at_.ctx, entry := 0, gate := if ns then zeroGate else gateOf b,
        work := .copy w, v := v.val.toNat, hlab := lab, sup,
        ncmds := if w.isNvme then nvmeCmds w v.val.toNat else [] }
      issueCmd s i act f l w.dst (w.dstLines tm) m)

/-- `copy` (R221 to R224). -/
def execCopy (c : Ctl) (u ns : Bool) (d a b : Operand) (s : State) : Host.Outcome State Fault Refusal :=
  .next (issueWith .plain (formOf (.copy c u ns d a b)) (copyEff (formOf (.copy c u ns d a b)) ns) s)

-- the work

/-- One destination line of a copy. LANDED counts the bytes that the write carries, those too that the home discards because the line is poisoned and the
write does not cover it (DESIGN CHOICE, log 88). What comes from a drive marks the lines of a bad block alone (R373), not every line after it. -/
def copyLine (s : State) (core : Nat) (m : Cmd) (w : CopyW) : LnRes Unit :=
  let tm := s.team m.team
  match (w.dstLines tm)[m.pos]? with
  | none => .wait s
  | some u =>
    let srcs := w.lineMap tm m.v u
    let need := (if m.pos = 0 then w.early tm m.v m.id else []) ++ dedup (srcs.filterMap (Option.map (· / 256)))
    match (if m.mark.isSome then .done s () else acquire s core m.id w.src need) with
    | .wait s => .wait s
    | .fault s f => .fault s f
    | .bad pa => .bad pa
    | .done s () =>
      match findCmd s core m.id with
      | none => .wait s
      | some m =>
        let mark := m.mark.isSome || srcs.any (fun a => match a with | some a => snapPois m.snaps a 1 | none => false)
        let d : LineData := srcs.map (Option.map (snapByte m.snaps))
        let lab := if mark then m.hlab
          else Label.joinAll (m.hlab :: (srcs.filterMap (Option.map (fun a => (snapAt m.snaps (a / 256)).lab))))
        match putLine s core m w.dst m.pos u d lab mark with
        | .wait s => .wait s
        | .fault s f => .fault s f
        | .bad pa => .bad pa
        | .done s tw =>
          .done (modCmd s core m.id (fun k => { k with
            pos := m.pos + 1, xres := [], tw := max k.tw tw, landed := if mark then m.landed else m.landed + d.count,
            refused := k.refused || (w.src.isNvme && mark)
            mark := if m.mark.isSome then m.mark else if mark && !w.src.isNvme then some m.pos else none })) ()

end Sys2Proof.Machine
end

