-- ==== Sys2Proof/Machine/Quant.lean ====
section
/-! DEFINITION. The quantisation engine (R225 to R227): the meanings of `quant` and `rqt` and their work, one destination line at a
time. -/

namespace Sys2Proof.Machine

open Sys2Proof

-- geometry

/-- Output rows, and blocks in each. -/
def QuantW.outRows (w : QuantW) : Nat := if w.rqt then 32 * w.kb else w.rows
def QuantW.outKb (w : QuantW) : Nat := if w.rqt then w.rows / 32 else w.kb
def QuantW.blocks (w : QuantW) : Nat := w.outRows * w.outKb

/-- The byte ranges of output block i. -/
def QuantW.dstSpans (w : QuantW) (tm : Team) (i : Nat) : List (Nat × Nat) :=
  blockSpans (slotBase tm w.dst) w.dst (w.drow0 + i / w.outKb) (i % w.outKb)

def spanNums (ps : List (Nat × Nat)) : List Nat :=
  dedup (ps.flatMap (fun e => if e.2 = 0 then [] else (List.range ((e.1 + e.2 - 1) / 256 - e.1 / 256 + 1)).map (e.1 / 256 + ·)))

/-- The destination lines, in the order in which output blocks first touch them. -/
def QuantW.dstLines (w : QuantW) (tm : Team) : List Nat := spanNums ((List.range w.blocks).flatMap (w.dstSpans tm))

/-- Output blocks of which a line is among the first `pos` that are written (R229). -/
def QuantW.begun (w : QuantW) (tm : Team) (pos : Nat) : List Nat :=
  let done := (w.dstLines tm).take pos
  (List.range w.blocks).filter (fun i => (spanNums (w.dstSpans tm i)).any done.contains)

/-- The lines that blocks `bs` still need once the first `pos` are written. -/
def QuantW.restLines (w : QuantW) (tm : Team) (pos : Nat) (bs : List Nat) : List Nat :=
  let done := (w.dstLines tm).take pos
  (spanNums (bs.flatMap (w.dstSpans tm))).filter (fun u => !done.contains u)

/-- Whether output block i is written whole: by the command's first `pos` lines, or by those and the `cpos` lines that complete the blocks of `cut`. -/
def QuantW.whole (w : QuantW) (tm : Team) (pos : Nat) (cut : Option (List Nat)) (cpos i : Nat) : Bool :=
  let done := (w.dstLines tm).take pos
  let own := spanNums (w.dstSpans tm i)
  match cut with
  | none => own.all done.contains
  | some bs => own.all (fun u => done.contains u || (bs.contains i && ((w.restLines tm pos bs).take cpos).contains u))

/-- The byte range of block j of row r of an accumulator source (R226). -/
def QuantW.accSpan (w : QuantW) (tm : Team) (r j : Nat) : Nat × Nat :=
  (slotPage tm w.src (w.srow0 + r / 32 * w.kb + j) * 4096 + r % 32 * 128, 128)

/-- The source blocks of output block i, as (row, block) (R226, R227); rows at or above v are not read. -/
def QuantW.srcBlocks (w : QuantW) (v i : Nat) : List (Nat × Nat) :=
  if w.rqt then ((List.range 32).map (fun k => (32 * (i % w.outKb) + k, i / w.outKb / 32))).filter (fun e => decide (e.1 < v))
  else if i / w.kb < v then [(i / w.kb, i % w.kb)] else []

def QuantW.srcSpans (w : QuantW) (tm : Team) (e : Nat × Nat) : List (Nat × Nat) :=
  if w.src.buf = .acc then [w.accSpan tm e.1 e.2] else blockSpans (slotBase tm w.src) w.src (w.srow0 + e.1) e.2

/-- The 32 values of a source block, by the copies of its lines. -/
def QuantW.srcVals (w : QuantW) (tm : Team) (ss : List Snap) (e : Nat × Nat) : List FVal :=
  if w.src.buf = .acc then
    let a := (w.accSpan tm e.1 e.2).1
    (List.range 32).map (fun i => FFmt.f32.decode (snapRead ss (a + 4 * i) 4))
  else blockVals w.src.fmt false (blockWith (snapRead ss) (slotBase tm w.src) w.src (w.srow0 + e.1) e.2)

/-- The 32 values of output block i; source rows at or above v are zeros. -/
def QuantW.outVals (w : QuantW) (tm : Team) (ss : List Snap) (v i : Nat) : List FVal :=
  let zero : FVal := .fin false 0 0
  if w.rqt then
    (List.range 32).map (fun k =>
      let r := 32 * (i % w.outKb) + k
      if r < v then (w.srcVals tm ss (r, i / w.outKb / 32)).getD (i / w.outKb % 32) zero else zero)
  else
    match w.srcBlocks v i with
    | e :: _ => w.srcVals tm ss e
    | [] => List.replicate 32 zero

/-- Output block i encoded (R95). -/
def QuantW.outBlock (w : QuantW) (tm : Team) (ss : List Snap) (v i : Nat) : Nat × Nat × Nat :=
  match Fmt.dx w.dst.fmt with
  | some d => dxEncode d w.rnd (w.outVals tm ss v i)
  | none => (0, 0, 0)

/-- A poison mark among the source values of a block, and the label of its sources. -/
def QuantW.blockPois (w : QuantW) (tm : Team) (ss : List Snap) (v i : Nat) : Bool :=
  (w.srcBlocks v i).any (fun e => (w.srcSpans tm e).any (fun p => snapPois ss p.1 p.2))
def QuantW.blockLab (w : QuantW) (tm : Team) (ss : List Snap) (v i : Nat) : Label :=
  Label.joinAll ((spanNums ((w.srcBlocks v i).flatMap (w.srcSpans tm))).map (fun u => (snapAt ss u).lab))

/-- The endpoint that a source slot is read as. -/
def QuantW.srcEnd (w : QuantW) : EndPt := .slot w.srcN w.src 0
def QuantW.dstEnd (w : QuantW) : EndPt := .slot w.dstN w.dst 0

/-- A line of an accumulator page that has just been read carries the page label beside the slot's (R201); `old` was read before. -/
def accSnaps (s : State) (core : Nat) (w : QuantW) (old ss : List Snap) : List Snap :=
  if w.src.buf = .acc then
    ss.map (fun k => if old.any (fun o => decide (o.line = k.line)) then k else { k with lab := k.lab.join (accLabel s core (k.line / 16)) })
  else ss

-- the checks at issue (R222, R225)

def quantZeros : List (Nat × Nat) := [(267, 264), (273, 272), (275, 275), (279, 278), (511, 368)]

def quantOf (b : Nat) (rqt : Bool) (src dst : Resv) : QuantW :=
  { rqt, srcN := fieldOf b 259 256, src, dstN := fieldOf b 263 260, dst, srow0 := fieldOf b 335 304, drow0 := fieldOf b 367 336,
    rows := fieldOf b 303 288, kb := fieldOf b 287 280, rnd := Rnd.ofCode (fieldOf b 277 276),
    qout := if fieldOf b 274 274 = 1 then some (fieldOf b 271 268) else none }

/-- Order 6: FMT or BLK that the command does not accept. -/
def quantSrcBad (w : QuantW) : Bool :=
  w.src.valid && decide (w.src.buf ≠ .acc) &&
  ((if w.rqt then !isDx w.src.fmt else !isHalf w.src.fmt) || decide (w.src.blk < w.kb))
def quantDstBad (w : QuantW) : Bool :=
  w.dst.valid && (!isDx w.dst.fmt || (if w.rqt then decide (w.dst.blk ≠ w.rows / 32) else decide (w.dst.blk < w.kb)))

/-- Orders 2 to 9 of R222 for quant and rqt. -/
def quantFault (b : Nat) (ns : Bool) (w : QuantW) (hlab : Label) : Option Flt :=
  let res := fun why n => (⟨.reservation, resvTval why n⟩ : Flt)
  let srcBuf := if w.rqt then decide (w.src.buf = .wb) || decide (w.src.buf = .ab) else decide (w.src.buf = .ab) || decide (w.src.buf = .acc)
  let srcFits := if w.src.buf = .acc then decide (w.srow0 + (w.rows + 31) / 32 * w.kb ≤ w.src.len)
    else blockFits w.src (w.srow0 + w.rows - 1) (w.kb - 1)
  firstFlt [
    (reservedAt b quantZeros).map (fieldFlt .reservedBits),
    if ns then none else damtFault (gateOf b),
    (firstField [
      (274, w.rqt && w.qout.isSome),
      (280, decide (w.kb = 0) || decide (128 < w.kb)),
      (288, decide (w.rows = 0) || decide (4096 < w.rows) || (w.rqt && decide (w.rows % 32 ≠ 0)))]).map (fieldFlt .commandForm),
    fltIf (w.src.valid && !srcBuf) (slotFlt .bufferPort false w.srcN),
    fltIf (w.dst.valid && decide (w.dst.buf = .acc)) (slotFlt .bufferPort true w.dstN),
    (firstField [(256, quantSrcBad w), (260, quantDstBad w)]).map (fieldFlt .commandForm),
    fltIf (!w.src.valid) (res 6 w.srcN),
    fltIf (!w.dst.valid) (res 6 w.dstN),
    fltIf (!srcFits) (res 7 w.srcN),
    fltIf (!blockFits w.dst (w.drow0 + w.outRows - 1) (w.outKb - 1)) (res 7 w.dstN),
    fltIf (decide (w.dst.lab < hlab.join w.src.lab)) (slotFlt .labelFlow true w.dstN)]

/-- The store pages that an accumulator source names (R225). -/
def QuantW.pages (w : QuantW) (tm : Team) : List Nat :=
  if w.src.buf = .acc then (List.range ((w.rows + 31) / 32 * w.kb)).map (fun q => slotPage tm w.src (w.srow0 + q)) else []

def quantEff (f : Form) (rqt ns : Bool) : State → Iss → List Nat → Eff :=
  commandEff f (if ns then 32 else 64) (fun s i act l b0 blab =>
    let t := i.team
    let tm := s.team t
    let b := if ns then b0 * 2 ^ 256 else b0
    let v := readOp s t l .int false f.b
    let lab := labOf s t l f.c [v.lab, blab]
    let sup := (s.thread t l).t.sup
    let w := quantOf b rqt (resvRead s t l (fieldOf b 259 256)) (resvRead s t l (fieldOf b 263 260))
    match quantFault b ns w lab with
    | some g => .done s [(l, .fault g lab)]
    | none =>
      match (if sup then .ok else accCheck s t l (w.pages tm)) with
      | .hold => .hold s
      | .fault p => .done s [(l, .fault ⟨.accFirstUse, p⟩ lab)]
      | .ok =>
        let m : Cmd := {
          id := 0, team := t, part := tm.at_.part, ctx := tm.at_.ctx, entry := 0, gate := if ns then zeroGate else gateOf b,
          work := .quant w, v := v.val.toNat, hlab := lab, sup }
        issueCmd s i act f l w.dstEnd (w.dstLines tm) m)

/-- `quant` (R226). -/
def execQuant (c : Ctl) (u ns : Bool) (d a b : Operand) (s : State) : Host.Outcome State Fault Refusal :=
  .next (issueWith .plain (formOf (.quant c u ns d a b)) (quantEff (formOf (.quant c u ns d a b)) false ns) s)

/-- `rqt` (R227). -/
def execRqt (c : Ctl) (u ns : Bool) (d a b : Operand) (s : State) : Host.Outcome State Fault Refusal :=
  .next (issueWith .plain (formOf (.rqt c u ns d a b)) (quantEff (formOf (.rqt c u ns d a b)) true ns) s)

-- the work

/-- The bytes of output blocks that fall in destination line `u`. -/
def QuantW.lineData (w : QuantW) (tm : Team) (ss : List Snap) (v : Nat) (is : List Nat) (u : Nat) : LineData :=
  let parts := is.flatMap (fun i =>
    let x := w.outBlock tm ss v i
    match w.dstSpans tm i with
    | [h, e] => [(h.1, leBytes 2 (x.1 + 256 * x.2.1)), (e.1, leBytes e.2 x.2.2)]
    | _ => [])
  (List.range 256).map (fun o =>
    let a := u * 256 + o
    parts.findSome? (fun p => if p.1 ≤ a ∧ a < p.1 + p.2.length then p.2[a - p.1]? else none))

/-- Headers pushed for the blocks whose lines are written, in order (R226, R230): value 0 with a mark for the first
block whose source values carry a mark and for every block after it. -/
def pushHeaders : Nat → State → Nat → Nat → QuantW → State
  | 0, s, _, _, _ => s
  | n + 1, s, core, id, w =>
    match findCmd s core id, w.qout with
    | some m, some q =>
      let tm := s.team m.team
      if w.blocks ≤ m.pushed ∨ !w.whole tm m.pos m.cut m.cpos m.pushed then s
      else
        let bad := (List.range (m.pushed + 1)).any (w.blockPois tm m.snaps m.v)
        let x := w.outBlock tm m.snaps m.v m.pushed
        let e : QElem := {
          val := if bad then 0 else BitVec.ofNat 32 (x.1 + 256 * x.2.1), pois := bad,
          lab := m.hlab.join (w.blockLab tm m.snaps m.v m.pushed) }
        pushHeaders n (modCmd (s.modQueue m.team q (fun k => k.push [e] m.id)) core id
          (fun k => { k with pushed := k.pushed + 1 })) core id w
    | _, _ => s

/-- Whether elements that a command has pushed still wait for room: its engine waits with them (R214). -/
def pushWaits (s : State) (m : Cmd) : Bool :=
  match m.work with
  | .quant w => w.qout.any (fun q => ((s.team m.team).queue q).waits m.id)
  | .copy _ => false
  | .xinv _ _ _ => false

/-- The next line that a quantisation writes, and the blocks whose bytes it writes there: all that touch the line, or, where it stops, those alone that it has
begun (R229). -/
def QuantW.next (w : QuantW) (tm : Team) (m : Cmd) : Option (Nat × List Nat) :=
  let on := fun (is : List Nat) u => (u, is.filter (fun i => (spanNums (w.dstSpans tm i)).contains u))
  match m.cut with
  | none => ((w.dstLines tm)[m.pos]?).map (on (List.range w.blocks))
  | some bs => ((w.restLines tm m.pos bs)[m.cpos]?).map (on bs)

/-- One destination line of quant or rqt: the blocks that touch it, once their source lines are read. -/
def quantLine (s : State) (core : Nat) (m : Cmd) (w : QuantW) : LnRes Unit :=
  let tm := s.team m.team
  match w.next tm m with
  | none => .wait s
  | some (u, is) =>
    if pushWaits s m then .wait s
    else
    let at_ := ((w.dstLines tm).findIdx? (fun v => decide (v = u))).getD 0
    let need := spanNums ((is.flatMap (w.srcBlocks m.v)).flatMap (w.srcSpans tm))
    let lift := fun (s : State) => modCmd s core m.id (fun k => { k with snaps := accSnaps s core w m.snaps k.snaps })
    match (if m.mark.isSome then .done s () else acquire s core m.id w.srcEnd need) with
    | .wait s => .wait (lift s)
    | .fault s f => .fault s f
    | .bad pa => .bad pa
    | .done s () =>
      let s := lift s
      match findCmd s core m.id with
      | none => .wait s
      | some m =>
        let mark := m.mark.isSome || is.any (w.blockPois tm m.snaps m.v)
        let lab := if mark then m.hlab else Label.joinAll (m.hlab :: is.map (w.blockLab tm m.snaps m.v))
        match putLine s core m w.dstEnd at_ u (w.lineData tm m.snaps m.v is u) lab mark with
        | .wait s => .wait s
        | .fault s f => .fault s f
        | .bad pa => .bad pa
        | .done s tw =>
          let s := modCmd s core m.id (fun k => { k with
            snaps := m.snaps, xres := [], tw := max k.tw tw
            pos := if m.cut.isNone then m.pos + 1 else m.pos
            cpos := if m.cut.isNone then m.cpos else m.cpos + 1
            mark := if m.mark.isSome then m.mark else if mark then some at_ else none })
          .done (pushHeaders w.blocks s core m.id w) ()

/-- Output rows whose blocks are all written (R226, R227). -/
def quantRows (tm : Team) (w : QuantW) (m : Cmd) : Nat :=
  ((List.range w.outRows).filter (fun r => (List.range w.outKb).all (fun j =>
    w.whole tm m.pos m.cut m.cpos (r * w.outKb + j)))).length

end Sys2Proof.Machine
end

