-- ==== Sys2Proof/Machine/Engines.lean ====
section
/-! DEFINITION. The events of engine commands (R174, R221, R229, R230), copies to and from NVMe namespaces (R373), and row 0x1E: `xinv`
and `xprobe` (R260 to R263). -/

namespace Sys2Proof.Machine

open Sys2Proof

/-- A step of an engine as an outcome: a fault is recorded in the command. -/
def LnRes.outcome {α : Type} (core id : Nat) : LnRes α → Host.Outcome State Fault Refusal
  | .wait s => .next s
  | .fault s f => .next (modCmd s core id (fun m => { m with flt := some f, xres := [] }))
  | .bad pa => .fault (.noSuchAddress pa)
  | .done s _ => .next (settleQuad s core)

/-- A command of a stopped team at its restart point: it owns no line until it resumes (R330). -/
def drainCmd (s : State) (core id : Nat) : State := settleQuad (modCmd s core id (fun m => { m with drained := true })) core

/-- Whether a quantisation that stops has written every line of the blocks that it had begun (R229, R330). -/
def cutDone (s : State) (m : Cmd) (w : QuantW) : Bool := m.cut.any (fun bs => decide ((w.restLines (s.team m.team) m.pos bs).length ≤ m.cpos))

/-- The step of a quantisation: one that is cancelled or whose team has stopped only completes the blocks that it has begun. -/
def quantStep (s : State) (core : Nat) (m : Cmd) (w : QuantW) : Host.Outcome State Fault Refusal :=
  let stop := (s.team m.team).atStop
  let m' : Cmd := if (stop ∨ m.cancel) ∧ m.cut.isNone then { m with cut := some (w.begun (s.team m.team) m.pos) } else m
  let s := modCmd s core m.id (fun k => { k with cut := m'.cut })
  if cutDone s m' w then .next (if stop ∧ !m.cancel then drainCmd s core m.id else s)
  else (quantLine s core m' w).outcome core m.id

/-- ENGINE_LINE_WRITE: the next destination line of a command in progress; a command whose team has stopped drains (R330). -/
def execEngineLineWrite (core cmd : Nat) (s : State) : Host.Outcome State Fault Refusal :=
  match findCmd s core cmd with
  | none => .next s
  | some m =>
    if !inProgress s core m ∨ m.flt.isSome ∨ m.drained then .next s
    else
      match m.work with
      | .copy w =>
        if (s.team m.team).atStop then .next (drainCmd s core cmd)
        else if w.dst.isNvme ∨ m.cancel then .next s
        else (copyLine s core m w).outcome core cmd
      | .quant w => quantStep s core m w
      | .xinv _ _ _ => .next s

-- NVMe (R373)

/-- The namespace of a copy, whether the copy writes it, and its first byte. -/
def CopyW.space (w : CopyW) : Option (Nat × Bool × Nat) :=
  match w.src, w.dst with
  | .nvme n o, _ => some (n, false, o)
  | _, .nvme n o => some (n, true, o)
  | _, _ => none

/-- Whether a context has a namespace open, for writing where it must (R344). -/
def nsOpen (s : State) (part ctx n : Nat) (wr : Bool) : Bool :=
  (s.part part).files.any (fun e => decide (e.2.1 = ctx) && decide (e.2.2.1 = n) && (!wr || e.2.2.2))

def nsAt (s : State) (part n : Nat) : NameSpace := Tbl.getD (s.part part).nss n {}

/-- CODE 0x05, then 0x04, where nothing moves: the check that a copy makes once, before its first NVMe command. -/
def nvmeCode (s : State) (m : Cmd) (w : CopyW) : Option Nat :=
  match w.space with
  | none => none
  | some (n, wr, o) =>
    if m.nchk then none
    else if !nsOpen s m.part m.ctx n wr then some 5
    else if (nsAt s m.part n).len * 512 < o + w.rows * w.rbytes then some 4
    else none

/-- Whether a copy with an earlier stamp on overlapping blocks of the namespace is not complete. -/
def nvmeBehind (s : State) (m : Cmd) (w : CopyW) : Bool :=
  (s.cores.flatMap (fun c => c.2.cmds)).any (fun k =>
    decide (k.part = m.part) && decide (k.stamp < m.stamp) && k.ncmds.any (fun c => !c.done) &&
    (match k.work with
     | .copy v =>
       match v.space, w.space with
       | some (n, _, o), some (n', _, o') =>
         decide (n = n') && decide (o < o' + w.rows * w.rbytes) && decide (o' < o + v.rows * v.rbytes)
       | _, _ => false
     | .quant _ => false
     | .xinv _ _ _ => false))

/-- LABEL_FLOW of a write to a namespace (R346); the rules give it no TVAL (log 28). -/
def nsFlow (s : State) : Flt := ⟨.labelFlow, (Config.freeArg s.m.free).toNat⟩

/-- A range of whole blocks put through the namespace's encryption (R372): `f` at each 512-byte block. -/
def onBlocks (f : Nat → List Byte → List Byte) (block : Nat) (bs : List Byte) : List Byte :=
  (List.range ((bs.length + 511) / 512)).flatMap (fun i => f (block + i) ((bs.drop (512 * i)).take 512))

def doneNvme (s : State) (core id n : Nat) : State :=
  modCmd s core id (fun m => { m with xres := [], nchk := true, ncmds := m.ncmds.modify n (fun c => { c with done := true }) })

/-- What goes to the drive for block `block` of a namespace: where it is mapped (R372). -/
def toDrive (s : State) (part n block : Nat) (bs : List Byte) (bad : Bool) : State :=
  let ns := nsAt s part n
  s.report (.drive ns.port ns.nsid (ns.start + block) bs bad)

/-- The blocks of a command; where SVBYTES ends a row within a block, the last is read whole and written whole (R223, R373). -/
def NCmd.blocks (c : NCmd) : Nat := (c.len + 511) / 512

/-- The bytes of the last block that a write does not carry: what the namespace holds there, which is free (log 79). -/
def oldBytes (s : State) (part ns block : Nat) (c : NCmd) : List Byte :=
  (List.range (512 * c.blocks - c.len)).map (fun i => Config.driveByte [part, ns, block, i, s.m.free])

/-- One NVMe command from drive to memory: its bytes, decrypted, stand beside the command, with the namespace's label and a mark on each bad block, until
each destination line is written as one write (R174, R373). -/
def nvmeIn (s : State) (core n : Nat) (m : Cmd) (w : CopyW) (c : NCmd) (ns o : Nat) (bs : List Byte) (bad : List Nat) : State :=
  let a := o + c.row * w.rbytes + c.off
  let plain := onBlocks (fun b x => (List.range x.length).map (Config.decrypt (partKey s m.part 3) b 0 x)) (a / 512) (bs.take (512 * c.blocks))
  let snaps := (List.range ((c.len + 255) / 256)).map (fun i => (⟨a / 256 + i, (plain.drop (256 * i)).take 256, (nsAt s m.part ns).label,
    if bad.contains (i / 2) then 15 else 0⟩ : Snap))
  modCmd (doneNvme s core m.id n) core m.id (fun k => { k with snaps := k.snaps ++ snaps })

/-- The first `good` blocks of an NVMe write as they are, the others with a guard tag that cannot verify (R230). -/
def nvmeSend (s : State) (part ns block : Nat) (sent : List Byte) (good : Nat) : State :=
  if sent.length ≤ 512 * good then toDrive s part ns block sent false
  else
    let s := if good = 0 then s else toDrive s part ns block (sent.take (512 * good)) false
    toDrive s part ns (block + good) (sent.drop (512 * good)) true

/-- One NVMe command from memory to drive: blocks from the copy's first poisoned one on are not delivered (R230, log 79). A row that ends within a block leaves
the block's other bytes as the namespace holds them, as a skipped byte is left (R224). -/
def nvmeOut (s : State) (core n : Nat) (m : Cmd) (w : CopyW) (c : NCmd) (ns o : Nat) (ok : Bool) : LnRes Unit :=
  let tm := s.team m.team
  let a := w.src.wrap (w.src.start tm + c.row * w.sstride + c.off)
  match acquire s core m.id w.src (w.src.lines a c.len) with
  | .wait s => .wait s
  | .fault s f => .fault s f
  | .bad pa => .bad pa
  | .done s () =>
    let m := (findCmd s core m.id).getD m
    let lab := Label.joinAll (m.hlab :: (w.src.lines a c.len).map (fun u => (snapAt m.snaps u).lab))
    if (nsAt s m.part ns).label < lab then .fault s.bumpFree (nsFlow s)
    else
      let block := (o + c.row * w.rbytes + c.off) / 512
      let bs := (List.range c.len).map (fun i => snapByte m.snaps (w.src.wrap (a + i))) ++ oldBytes s m.part ns block c
      let whole := fun i => !(List.range (min 512 (c.len - 512 * i))).any (fun j => snapPois m.snaps (w.src.wrap (a + 512 * i + j)) 1)
      let good := if m.mark.isSome then 0 else ((List.range c.blocks).takeWhile whole).length
      let sent := onBlocks (fun b x => cipher (partKey s m.part 3) b 0 x) block bs
      .done (doneNvme (modCmd (if ok then nvmeSend (if c.len % 512 = 0 then s else s.bumpFree) m.part ns block sent good else s) core m.id (fun k => { k with
        landed := if ok then k.landed + min (512 * good) c.len else k.landed,
        mark := if m.mark.isSome then m.mark else if good < c.blocks then some n else none,
        code := if ok then k.code else some 3 })) core m.id n) ()

/-- NVME_COMMAND_COMPLETE: the drive answers command n of a copy. -/
def execNvmeCommandComplete (core cmd n : Nat) (ans : NvmeAns) (s : State) : Host.Outcome State Fault Refusal :=
  match findCmd s core cmd with
  | none => .next s
  | some m =>
    match m.work with
    | .quant _ => .next s
    | .xinv _ _ _ => .next s
    | .copy w =>
      match w.space, m.ncmds[n]? with
      | some (ns, wr, o), some c =>
        if !inProgress s core m ∨ m.flt.isSome ∨ m.cancel ∨ m.drained ∨ c.done ∨ (nvmeCode s m w).isSome ∨ nvmeBehind s m w then .next s
        else
          match ans, wr with
          | .data bs, false => .next (nvmeIn s core n m w c ns o bs [])
          | .badBlocks bs bad, false => .next (nvmeIn s core n m w c ns o bs bad)
          | .failed, false => .next (nvmeIn s core n m w c ns o (List.replicate (512 * c.blocks) 0) (List.range c.blocks))
          | .done, true => (nvmeOut s core n m w c ns o true).outcome core cmd
          | .failed, true => (nvmeOut s core n m w c ns o false).outcome core cmd
          | _, _ => .next s
      | _, _ => .next s

-- the end of a command

/-- Whether a copy or a quantisation has done all its lines or NVMe commands. -/
def workDone (s : State) (m : Cmd) : Bool :=
  match m.work with
  | .copy w => m.ncmds.all NCmd.done && (w.dst.isNvme || decide ((w.dstLines (s.team m.team)).length ≤ m.pos))
  | .quant w => decide ((w.dstLines (s.team m.team)).length ≤ m.pos)
  | .xinv _ _ _ => m.drained

/-- Status bits [31:8] of a command as it stands (R224, R226). -/
def statusOf (s : State) (m : Cmd) : Nat :=
  match m.work with
  | .copy _ => m.landed * 256
  | .quant w => quantRows (s.team m.team) w m * 65536
  | .xinv _ _ _ => 0

/-- The code of R373 that ends an NVMe copy before it moves anything. -/
def startCode (s : State) (m : Cmd) : Option Nat :=
  match m.work with
  | .copy w => nvmeCode s m w
  | .quant _ => none
  | .xinv _ _ _ => none

/-- Whether a copy moves data between memories of the module alone. -/
def Cmd.plainCopy (m : Cmd) : Bool :=
  match m.work with
  | .copy w => !w.isNvme
  | .quant _ => false
  | .xinv _ _ _ => false

/-- The source lines of rows r on of a copy, where they are no lines of global memory. -/
def CopyW.srcKeys (w : CopyW) (tm : Team) (core v : Nat) : List LineK :=
  (List.range (w.realRows v)).flatMap (fun r =>
    (w.src.lines (w.src.start tm + r * w.sstride) w.realBytes).filterMap (w.src.key core))

/-- Whether a copy waits for an earlier command whose gate is not met: that command owns a line that the copy has still to read or write. Of a source in global
memory the physical lines are not known until they are reached, so that any owned line of memory counts. -/
def gatedBefore (s : State) (core : Nat) (m : Cmd) : Bool :=
  match m.work with
  | .copy w =>
    let tm := s.team m.team
    let left := decide (m.pos < (w.dstLines tm).length)
    let mem := match w.src with
      | .glob _ => true
      | .sh _ _ => false
      | .slot _ _ _ => false
      | .nvme _ _ => false
    left && s.cores.any (fun c => c.2.cmds.any (fun g => !g.gateMet && decide (g.stamp < m.stamp) && g.owned.any (fun e =>
      m.owned.any (fun d => decide (d.2 = e.2)) || (match e.2 with
        | .mem _ => mem
        | .sh _ l => (w.srcKeys tm core m.v).contains e.2 && !m.snaps.any (fun k => decide (k.line = l))
        | .wb _ l => (w.srcKeys tm core m.v).contains e.2 && !m.snaps.any (fun k => decide (k.line = l))
        | .ab _ l => (w.srcKeys tm core m.v).contains e.2 && !m.snaps.any (fun k => decide (k.line = l))
        | .acc _ l => (w.srcKeys tm core m.v).contains e.2 && !m.snaps.any (fun k => decide (k.line = l))))))
  | .quant _ => false
  | .xinv _ _ _ => false

/-- Whether a copy waits to complete behind one with an earlier stamp that its engine has in progress: copies complete in the order of their stamps, as
R320 and R321 take for granted, one that has drained for a stop too (DEDUCED, log 87). A copy that cannot go on until the gate of an earlier command opens
holds back none. -/
def behindCopy (s : State) (core : Nat) (m : Cmd) : Bool :=
  m.plainCopy && (s.core core).cmds.any (fun k => k.plainCopy && k.gateMet && k.flt.isNone && !k.cancel &&
    decide (k.stamp < m.stamp) && !gatedBefore s core k)

/-- ENGINE_COMMAND_COMPLETE: a fault found while the engine worked, or the end of the work, once Now() has reached the largest T_w and no
write through a link is unanswered (R174, R366). -/
def execEngineCommandComplete (core cmd : Nat) (s : State) : Host.Outcome State Fault Refusal :=
  .next (match findCmd s core cmd with
    | none => s
    | some m =>
      let st := statusOf s m
      if !m.gateMet ∨ s.now < m.tw ∨ m.lacks ≠ [] then s
      else
        match m.flt, startCode s m with
        | some f, _ => endCmd s core m (st + 0x80) (some f)
        | none, some c => if m.cancel then s else endCmd s core m c none
        | none, none =>
          if !workDone s m ∨ pushWaits s m ∨ behindCopy s core m then s
          else
            match m.code with
            | some c => endCmd s core m (st + c) none
            | none => landCmd s core m (st + if m.mark.isSome || m.refused then 2 else 0))

/-- COMMAND_CANCEL_STOP: a cancelled command stops at its restart point (R229), its handle done once Now() has reached the largest T_w and no write through
a link is unanswered (R174, R366); one that has done its work keeps its own status. -/
def execCommandCancelStop (core cmd : Nat) (s : State) : Host.Outcome State Fault Refusal :=
  .next (match findCmd s core cmd with
    | none => s
    | some m =>
      if !m.cancel ∨ (workDone s m && (startCode s m).isNone) ∨ m.flt.isSome ∨ s.now < m.tw ∨ m.lacks ≠ [] then s
      else
        match m.work with
        | .copy _ => endCmd s core m (statusOf s m + 1) none
        | .quant w => if cutDone s m w ∧ !pushWaits s m then endCmd s core m (statusOf s m + 1) none else s
        | .xinv _ _ _ => s)

-- xinv (R262, R263)

def xinvEff (f : Form) (part : Bool) (s : State) (i : Iss) (act : List Nat) : Eff :=
  match leads s i f act with
  | none => .done s []
  | some l0 =>
    if part ∧ !(s.thread i.team l0).t.sup then
      .done s [(l0, .fault ⟨.privilege, privTval false false true 0⟩ (labOf s i.team l0 f.c []))]
    else
      commandEff f 64 (fun s i act l b blab =>
        let tm := s.team i.team
        let lab := labOf s i.team l f.c [blab]
        let base := fieldOf b 319 256
        let len := fieldOf b 383 320
        match firstFlt [
          (reservedAt b [(511, 384)]).map (fieldFlt .reservedBits),
          damtFault (gateOf b),
          (firstField [(256, decide (2 ^ 52 ≤ base)), (320, decide (len = 0) || decide (2 ^ 52 < len))]).map (fieldFlt .commandForm)] with
        | some g => .done s [(l, .fault g lab)]
        | none =>
          issueCmd s i act f l (.nvme 0 0) [] {
            id := 0, team := i.team, part := tm.at_.part, ctx := tm.at_.ctx, entry := 0, gate := gateOf b,
            work := .xinv part base len, hlab := lab }) s i act

/-- `xinv` (R263). -/
def execXinv (c : Ctl) (part : Bool) (d a : Operand) (s : State) : Host.Outcome State Fault Refusal :=
  .next (issueWith .plain (formOf (.xinv c part d a)) (xinvEff (formOf (.xinv c part d a)) part) s)

/-- Whether an entry is one that an xinv drops. -/
def xinvDrops (m : Cmd) (any_ : Bool) (base len : Nat) (x : Xlat) : Bool :=
  decide (x.part = m.part) && (any_ || decide (x.tag = tagOf m.part m.ctx)) && decide (x.vbase < base + len) &&
  decide (base < x.vbase + 2 ^ x.psize)

/-- Requests in flight from cores that satisfy `p`, inbound requests whose translations do, and link requests of the partition's engines and records, which serve
none of these. -/
def flying (s : State) (p : Nat → Req → Bool) : List (Nat × Nat) :=
  s.cores.flatMap (fun c => (c.2.out.filter (p c.1)).map (fun r => (r.id, c.1)))
def inUse (s : State) (part : Nat) (drop : Xlat → Bool) : List Nat :=
  (s.links.inb.filter (fun r => decide (r.2.from_.part = part) && r.2.xs.any drop)).map Prod.fst
def linked (s : State) (part : Nat) : List Nat :=
  (s.links.reqs.filter (fun e => decide (e.2.part = part) && !(s.core e.2.core).out.any (fun r => decide (r.id = e.1)))).map Prod.fst

/-- Whether a request was made by a translation that satisfies `drop`, held in a cache still or not. -/
def Req.usedBy (r : Req) (drop : Xlat → Bool) : Bool := r.x.any drop || r.parts.any (fun p => p.x.any drop)

/-- Step 1 of R263: the entries are dropped, answers of ended walks that wait with their requesters too, and walks that have started will fill
none. -/
def xinvDrop (s : State) (core : Nat) (m : Cmd) (any_ : Bool) (base len : Nat) : State :=
  let drop := xinvDrops m any_ base len
  let inFlight := flying s (fun _ r => r.usedBy drop)
  let started := s.cells.flatMap (fun c => (c.2.procs.filter (fun p => decide (p.2.walk.part = m.part))).map (fun p => p.2.walk.id))
  let waits := linked s m.part ++ inUse s m.part drop
  let s := forgetAnswers s drop
  let s := { s with
    cores := s.cores.map (fun c => (c.1, { c.2 with atc := c.2.atc.filter (fun x => !drop x) }))
    cells := s.cells.map (fun c => (c.1, { c.2 with
      l2 := c.2.l2.filter (fun x => !drop x)
      procs := c.2.procs.map (fun p =>
        if p.2.walk.part = m.part then (p.1, { p.2 with walk := { p.2.walk with nofill := true } }) else p) })) }
  modCmd s core m.id (fun k => { k with pos := 1, walks := started, lreads := inFlight, waits, pushed := s.newId })

/-- The largest T_w returned to the partition's threads, commands, loops, pending adds and inbound requests. -/
def partTw (s : State) (part : Nat) : Nat :=
  ((s.teams.filter (fun t => decide (t.2.at_.part = part))).flatMap (fun t => t.2.threads.map (fun th => th.2.out.tw)) ++
   s.cores.flatMap (fun c => (c.2.cmds.filter (fun k => decide (k.part = part))).map Cmd.tw ++
     ((c.2.anchor.toList.filter (fun a => decide (a.part = part))).map Loop.tw)) ++
   (s.adds.filter (fun a => decide (a.2.part = part))).map (fun a => a.2.after) ++
   (s.links.inb.filter (fun r => decide (r.2.from_.part = part))).map (fun r => max r.2.tw ((r.2.done.map Prod.fst).getD 0))).foldl max 0

/-- Steps 2 and 3 of R263: walks that had started end, and accesses made through what was dropped, or through such a walk's result, are performed. -/
def xinvWait (s : State) (core : Nat) (m : Cmd) : State :=
  let running := s.cells.any (fun c => c.2.procs.any (fun p => m.walks.contains p.2.walk.id))
  if m.pos = 1 then
    if running ∨ answerWaits s m.part (fun r => m.walks.contains r.walk) then s
    else if m.walks = [] then modCmd s core m.id (fun k => { k with pos := 2 })
    else
      let late := flying s (fun c r => decide ((s.core c).owner = some m.part) && r.kind.onLine && decide (m.pushed ≤ r.id))
      modCmd s core m.id (fun k => { k with
        pos := 2, lreads := m.lreads ++ late
        waits := m.waits ++ (linked s m.part ++ inUse s m.part (fun _ => true)).filter (fun n => decide (m.pushed ≤ n)) })
  else if m.drained ∨ m.lreads.any (fun e => (s.core e.2).out.any (fun r => decide (r.id = e.1))) ∨
      m.waits.any (fun n => (Tbl.find s.links.reqs n).isSome || (Tbl.find s.links.inb n).any (fun r => r.done.isNone)) then s
  else modCmd s core m.id (fun k => { k with drained := true, tw := partTw s m.part })

/-- XINV_INVALIDATE. -/
def execXinvInvalidate (core cmd : Nat) (s : State) : Host.Outcome State Fault Refusal :=
  .next (match findCmd s core cmd with
    | none => s
    | some m =>
      match m.work with
      | .copy _ => s
      | .quant _ => s
      | .xinv any_ base len =>
        if !m.gateMet ∨ m.flt.isSome then s
        else if m.pos = 0 then xinvDrop s core m any_ base len
        else xinvWait s core m)

-- xprobe (R261)

def ProbeKind.kind : ProbeKind → Nat | .r => 0 | .w => 1 | .x => 2
def ProbeKind.need : ProbeKind → Nat | .r => 1 | .w => 2 | .x => 4

def walkCode (c : FaultCode) : Bool :=
  decide (c = .walkAllowance) || decide (c = .walkDepth) || decide (c = .walkTime) || decide (c = .walkFault)

/-- The word of a probe that fails. -/
def probeFail (f : Flt) : Nat :=
  let w := walkCode f.code
  2 ^ 63 + (if w then f.tval / 2 ^ 63 % 2 else 0) * 2 ^ 27 + (if w then f.tval / 2 ^ 52 % 2048 else 0) * 2 ^ 16 + f.code.code

/-- The result of a probe of `va`. -/
def probeWord (need va : Nat) (a : XAns) : DWord :=
  BitVec.ofNat 64 (match a with
    | .fail f => probeFail f
    | .ok x =>
      if !permsIn need (attrPerm x.attr) then probeFail ⟨.pagePermission, 0⟩
      else x.psize * 2 ^ 58 + x.attr / 4096 % 2 * 2 ^ 57 + x.pa va / 4096 % 2 ^ 36 * 4096 + x.attr % 4096)

/-- The lanes' probes in turn; none where a walk runs. -/
def probeLanes (k : ProbeKind) (f : Form) (t : Nat) : State → List Nat → State × List (Nat × Option DWord)
  | s, [] => (s, [])
  | s, l :: ls =>
    let va := (readOp s t l .int true f.a).val.toNat % 2 ^ 52
    match xlateThread s t l va va (Sys2Proof.Machine.ProbeKind.kind k) (Sys2Proof.Machine.ProbeKind.need k) with
    | .wait s => let r := probeLanes k f t s ls; (r.1, (l, none) :: r.2)
    | .ans s a =>
      let r := probeLanes k f t s ls
      (r.1, (l, some (probeWord (Sys2Proof.Machine.ProbeKind.need k) va a)) :: r.2)

def xprobeEff (k : ProbeKind) (f : Form) (s : State) (i : Iss) (act : List Nat) : Eff :=
  let r := probeLanes k f i.team s act
  if r.2.any (fun e => e.2.isNone) then .hold r.1
  else
    .done (r.2.foldl (fun s' e =>
      let a := readOp s i.team e.1 .int true f.a
      replyLane s' i act f e.1 (e.2.getD 0) (labOf s i.team e.1 f.c [a.lab])) r.1) []

/-- `xprobe` (R261). -/
def execXprobe (c : Ctl) (k : ProbeKind) (d a : Operand) (s : State) : Host.Outcome State Fault Refusal :=
  .next (issueWith .plain (formOf (.xprobe c k d a)) (xprobeEff k (formOf (.xprobe c k d a))) s)

end Sys2Proof.Machine
end

