-- ==== Sys2Proof/Machine/Anchor.lean ====
section
/-! DEFINITION. Declared overwriting loops (R280 to R294): the descriptor, the anchor's batches, the iterations that threads take, and
the end of a loop. The filter of stores stands with the memory accesses (`ovwStore`). -/

namespace Sys2Proof.Machine

open Sys2Proof

-- the loop descriptor (R281, R282)

/-- A 32-bit field as a signed number. -/
def signed32 (x : Nat) : Int := if x < 2 ^ 31 then x else (x : Int) - 2 ^ 32

/-- A footprint whose bit 0 is bit `p` of the descriptor. -/
def footOf (b p : Nat) : Foot :=
  { kind := fieldOf b (p + 255) (p + 254), rows := fieldOf b (p + 227) (p + 216), len := fieldOf b (p + 215) (p + 192)
    pitch := fieldOf b (p + 191) (p + 160), stride := fieldOf b (p + 159) (p + 128), off := fieldOf b (p + 95) (p + 64)
    idxa := fieldOf b (p + 63) p }

def footBases (b : Nat) : List Nat := if fieldOf b 360 360 = 1 then [512, 768] else [512]

/-- The must-be-zero ranges of a descriptor, ascending. -/
def descZeros (b : Nat) : List (Nat × Nat) :=
  [(255, 192), (343, 337), (351, 346), (363, 361), (511, 368)] ++
  (footBases b).flatMap (fun p => [(p + 127, p + 96), (p + 253, p + 228)])

/-- The fields of a footprint outside the limits of R282, ascending. -/
def footForm (b p : Nat) : List (Nat × Bool) :=
  let f := footOf b p
  [(p, if f.kind = 1 then decide (f.idxa % 4 ≠ 0) || decide (2 ^ 52 ≤ f.idxa) else decide (f.idxa ≠ 0)),
   (p + 160, decide (f.kind ≠ 2) && decide (f.pitch ≠ 0)),
   (p + 192, decide (f.len = 0)),
   (p + 216, decide (f.kind = 2) != decide (f.rows ≠ 0)),
   (p + 254, decide (f.kind = 3))]

/-- RESERVED_BITS, then COMMAND_FORM of a descriptor (R285 orders 3 and 4). `busy`: q(QN) is not empty. -/
def descFault (b : Nat) (busy : Bool) : Option Flt :=
  let rb := fieldOf b 319 256
  let nc := fieldOf b 336 320
  match reservedAt b (descZeros b) with
  | some p => some (fieldFlt .reservedBits p)
  | none =>
    (firstField ([
      (256, decide (rb % cellBytes (fieldOf b 345 344) ≠ 0) || decide (2 ^ 52 ≤ rb)),
      (320, decide (nc = 0) || decide (65536 < nc)), (364, busy)] ++
      footForm b 512 ++
      (if fieldOf b 360 360 = 1 then footForm b 768 else [(768, decide (fieldOf b 1023 768 ≠ 0))]))).map (fieldFlt .commandForm)

/-- What reading the descriptor in lane `l` comes to (R285 orders 1 and 2). -/
inductive DescRes where
  | hold (s : State)
  | fault (s : State) (f : Flt)
  | ok (s : State) (b : Nat)

/-- The descriptor read that an `ovw` has sent through a link window, by its lane, the lane's instruction count and the address. -/
def descRead (s : State) (core t l va : Nat) : Option DescRead :=
  (s.core core).desc.find? (fun d => !d.slot && decide (d.team = t) && decide (d.lane = l) && decide (d.ic = (s.thread t l).run.ic) && decide (d.va = va))

/-- A team's descriptor read forgotten: its `ovw` has issued or has faulted, or reads again, from another lane or address. -/
def dropDesc (s : State) (core t : Nat) : State :=
  s.modCore core (fun k => { k with desc := k.desc.filter (fun d => d.slot || decide (d.team ≠ t)) })

/-- An engine read of kind engine (R281); one through a link window is sent once for the lane that reads it, and its answer is kept until the `ovw` issues or
faults; one of an address that does not exist never returns (R18). -/
def readDesc (s : State) (t l core a : Nat) : DescRes :=
  let va := a % 2 ^ 52
  let tv := accessBits false va
  if a % 128 ≠ 0 then .fault s ⟨.misaligned, accessBits false a⟩
  else
    match xlateThread s t l va va kindEngine permRead with
    | .wait s => .hold s
    | .ans s (.fail f) => .fault s f
    | .ans s (.ok x) =>
      let pa := x.pa va
      let part := (s.team t).at_.part
      if !permsIn permRead (attrPerm x.attr) then .fault s ⟨.pagePermission, tv⟩
      else if attrSealed x.attr then .fault s ⟨.sealedAccess, tv⟩
      else if noSuch pa then .hold s
      else if isLink pa then
        match descRead s core t l va with
        | some d =>
          match d.ans with
          | none => .hold s
          | some none => .fault s ⟨.memPoison, tv⟩
          | some (some bs) => .ok s (leNat bs)
        | none =>
          if (windowOf s part pa).isNone then .fault (lostNotice s part (s.team t).at_.ctx pa) ⟨.memPoison, tv⟩
          else if sendHeld s part pa 128 then .hold s
          else
            let id := s.newId
            let d : DescRead := { team := t, lane := l, ic := (s.thread t l).run.ic, va, id }
            .hold ((dropDesc (sendLink s.bumpId part core id pa 128 [(pa, .read 128)]) core t).modCore core (fun k => { k with desc := k.desc ++ [d] }))
      else if closedBefore s (.mem (pa / 256)) (stampNow s core) then .hold s
      else if poisAt s pa || poisAt s (pa + 64) then .fault s ⟨.memPoison, tv⟩
      else .ok s (homeRead s pa 128)

-- ovw (R285)

/-- The loop as it starts, and the core's map and the team's queues made ready for it: no loop queue of the team is at its end any more (R289). -/
def startLoop (s : State) (core t : Nat) (a : Loop) : State :=
  let s := s.modTeam t (fun tm => { tm with r := { tm.r with
    loopq := some a.qn
    q := tm.r.q.map (fun q => (q.1, { q.2 with ended := false })) } })
  (dropDesc s core t).modCore core (fun k => { k with
    anchor := some a
    cover := k.cover.filter (fun e => decide (a.ncells ≤ e.1))
    coverPois := k.coverPois.filter (fun e => decide (coverSector (a.ncells - 1) < e.1)) })

def ovwEff (f : Form) (s : State) (i : Iss) (act : List Nat) : Eff :=
  match leads s i f act with
  | none => .done s []
  | some l =>
    let t := i.team
    if !commandMayIssue s t act ∨ (s.core i.core).anchor.isSome then .hold s
    else
      let a := readOp s t l .int true f.a
      let nb := readOp s t l .int false f.b
      let bad := fun (s : State) flt => Eff.done (dropDesc s i.core t) [(l, .fault flt (labOf s t l f.c [a.lab]))]
      match readDesc s t l i.core a.val.toNat with
      | .hold s => .hold s
      | .fault s flt => bad s flt
      | .ok s b =>
        let tm := s.team t
        let qu := tm.queue (fieldOf b 367 364)
        match descFault b (decide (qu.elems ≠ []) || decide (qu.excess ≠ [])) with
        | some flt => bad s flt
        | none =>
          if (freeEntry s i.core).isNone then .hold s
          else
          let n := nb.val.toNat
          let hlab := labOf s t l f.c [a.lab, nb.lab]
          let g := { gateOf b with damt := BitVec.ofNat 64 n }
          let stamp := stampNow s i.core
          let id := s.newId
          let go := fun (s : State) (gateMet : Bool) (flt : Option Flt) =>
            match takeHandle s i.core hlab with
            | none => Eff.hold s
            | some (e, tok, s) =>
              let s := startLoop s i.core t
                { id, team := t, part := tm.at_.part, ctx := tm.at_.ctx, gate := g, rbase := fieldOf b 319 256
                  ncells := fieldOf b 336 320, size := cellBytes (fieldOf b 345 344), qn := fieldOf b 367 364
                  fp := (footBases b).map (footOf b), n, bsz := if fieldOf b 359 352 = 0 then 256 else fieldOf b 359 352
                  entry := e, hlab, stamp, gateMet, left := n, flt }
              .done (writeToken s i act f l tok hlab) []
          match gateStart s.bumpId t l i.core g (.gateAnchor i.core id) with
          | .hold s => .hold s
          | .bad s flt => go s true (some flt)
          | .opened s => go s true none
          | .shut s => go s false none

/-- `ovw` (R285). -/
def execOvw (c : Ctl) (d a b : Operand) (s : State) : Host.Outcome State Fault Refusal :=
  .next (issueWith .plain (formOf (.ovw c d a b)) (ovwEff (formOf (.ovw c d a b))) s)

-- the anchor (R287, R288)

def modLoop (s : State) (core : Nat) (f : Loop → Loop) : State := s.modCore core (fun k => { k with anchor := k.anchor.map f })

/-- The declared byte ranges of an iteration, from RBASE on; `ix` is idx[i] of an indexed footprint (R282). -/
def Foot.spans (f : Foot) (i ix : Nat) : List (Int × Int) :=
  let b0 : Int := signed32 f.off + (if f.kind = 1 then ((ix * f.stride : Nat) : Int) else (i : Int) * signed32 f.stride)
  (List.range (if f.kind = 2 then f.rows else 1)).map (fun r => (b0 + (r * f.pitch : Nat), b0 + (r * f.pitch : Nat) + f.len))

/-- The lowest declared byte outside the region, if there is one. -/
def Loop.outside (a : Loop) (ps : List (Int × Int)) : Option Int :=
  let top : Int := (a.ncells * a.size : Nat)
  (ps.filterMap (fun p => if p.1 < 0 then some p.1 else if top < p.2 then some (max p.1 top) else none)).foldl
    (fun m x => match m with
      | none => some x
      | some y => some (min x y)) none

/-- Cells(i), of ranges within the region. -/
def Loop.cellSet (a : Loop) (ps : List (Int × Int)) : List Nat :=
  dedup (ps.flatMap (fun p =>
    let lo := p.1.toNat / a.size
    let hi := (p.2.toNat - 1) / a.size
    (List.range (hi + 1 - lo)).map (lo + ·)))

/-- The source line of idx[i], read whole at its home or through a link window, with the label of its page, which alone raises what is pushed (R174, R288; log
62). `va` is the address of idx[i]. -/
def readIdxLine (s : State) (core : Nat) (a : Loop) (va : Nat) : LnRes Snap :=
  let u := va / 256
  match xlate s core (.anchor core a.id) a.xres a.part (tagOf a.part a.ctx) va va kindEngine permRead with
  | .wait s => .wait s
  | .ans s (.fail f) => .fault s f
  | .ans s (.ok x) =>
    let pa := x.pa va
    let lab := attrLabel x.attr
    if !permsIn permRead (attrPerm x.attr) then .fault s ⟨.pagePermission, accessBits false va⟩
    else if attrSealed x.attr then .fault s ⟨.sealedAccess, accessBits false va⟩
    else if noSuch pa then .bad pa
    else if isLink pa then
      let pa := pa - pa % 256
      if (windowOf s a.part pa).isNone then .done (lostNotice s a.part a.ctx pa) ⟨u, List.replicate 256 0, lab, 15⟩
      else if a.lread.isSome ∨ sendHeld s a.part pa 256 then .wait s
      else
        .wait (modLoop (sendLink s.bumpId a.part core s.newId pa 256 [(pa, .read 256)] lab) core (fun a => { a with lread := some (s.newId, u) }))
    else if closedBefore s (.mem (pa / 256)) a.stamp then .wait s
    else
      .done (homeTake s (pa / 256) (attrCclass x.attr) false)
        ⟨u, Mem.readN s.mem (pa / 256 * 256) 256, lab, (s.line (pa / 256)).pois⟩

/-- idx[i] at virtual address `va`, from its source line, which is read once (R174, R288): value, label, poison. -/
def readIdx (s : State) (core : Nat) (a : Loop) (va : Nat) : LnRes (Nat × Label × Bool) :=
  let of := fun (k : Snap) => (snapRead [k] va 4, k.lab, snapPois [k] va 4)
  match a.snaps.find? (fun k => decide (k.line = va / 256)) with
  | some k => .done s (of k)
  | none =>
    match readIdxLine s core a va with
    | .wait s => .wait s
    | .fault s f => .fault s f
    | .bad pa => .bad pa
    | .done s k => .done (modLoop s core (fun a => { a with snaps := a.snaps ++ [k] })) (of k)

/-- The indices of an iteration's footprints, 0 for those that are not indexed, with their labels (R153, R288) and whether one is poisoned. -/
def readIdxs (core i : Nat) : State → List Foot → LnRes (List (Nat × Label × Bool))
  | s, [] => .done s []
  | s, f :: fs =>
    match (s.core core).anchor with
    | none => .wait s
    | some a =>
      match (if f.kind = 1 then readIdx s core a ((f.idxa + 4 * i) % 2 ^ 52) else .done s (0, 0, false)) with
      | .wait s => .wait s
      | .fault s g => .fault s g
      | .bad pa => .bad pa
      | .done s x =>
        match readIdxs core i s fs with
        | .wait s => .wait s
        | .fault s g => .fault s g
        | .bad pa => .bad pa
        | .done s xs => .done s (x :: xs)

/-- SKIP of the status word (R292). -/
def Loop.skip (a : Loop) : Nat := min a.skipped 0xFFFFFF * 256

/-- A loop that ends without an add to DONE (R294). -/
def endLoop (s : State) (core : Nat) (a : Loop) (code : Nat) (f : Option Flt) : State :=
  closeLoop (endHandle s core a.entry (a.skip + code) f) core

/-- A formed batch pushed to the loop queue in slot order (R287, R288). -/
def pushBatch (s : State) (core : Nat) (a : Loop) : State :=
  if a.forming = [] then s
  else
    let xs := (a.forming.zip a.formLab).map (fun e => (⟨BitVec.ofNat 32 e.1.idx, a.hlab.join e.2, false⟩ : QElem))
    modLoop (s.modQueue a.team a.qn (fun q => q.push xs a.id)) core (fun a => { a with
      batch := a.forming, forming := [], formLab := [], running := true })

/-- Iterations taken last-first until the batch is full or none is left (R287). A poisoned entry of the cover map ends the loop as a poisoned index
does (R163, R294; DESIGN CHOICE, log 86). -/
def formBatch : Nat → State → Nat → LnRes Unit
  | 0, s, _ => .wait s
  | n + 1, s, core =>
    match (s.core core).anchor with
    | none => .wait s
    | some a =>
      if a.left = 0 ∨ a.bsz ≤ a.forming.length then .done (pushBatch s core a) ()
      else
        let i := a.left - 1
        match readIdxs core i s a.fp with
        | .wait s => .wait s
        | .fault s f => .fault s f
        | .bad pa => .bad pa
        | .done s xs =>
          if xs.any (fun x => x.2.2) then .done (modLoop s core (fun a => { a with poisoned := true, forming := [], formLab := [] })) ()
          else
            let ps := (a.fp.zip xs).flatMap (fun e => e.1.spans i e.2.1)
            match a.outside ps with
            | some o => .fault s ⟨.ovwOutside, accessBits true (((a.rbase : Int) + o) % 2 ^ 52).toNat⟩
            | none =>
              let cells := a.cellSet ps
              if cells.any (fun c => Tbl.getD (s.core core).coverPois (coverSector c) false) then
                .done (modLoop s core (fun a => { a with poisoned := true, forming := [], formLab := [] })) ()
              else
              let skip := cells.all (fun c => covBit (Tbl.getD (s.core core).cover c 0))
              let s := modLoop s core (fun a =>
                let a := { a with left := i, xres := [] }
                if skip then { a with skipped := a.skipped + 1 }
                else { a with
                  forming := a.forming ++ [{ idx := i, slot := a.forming.length, cells }]
                  formLab := a.formLab ++ [Label.joinAll (xs.map (fun x => x.2.1))] })
              formBatch n s core

-- poison marks over the cells that are not covered (R294)

/-- The lines of the region. -/
def Loop.lineCount (a : Loop) : Nat := (a.rbase + a.ncells * a.size - 1) / 256 + 1 - a.rbase / 256

/-- The sectors of a virtual line that hold a byte of a cell not covered. -/
def Loop.openSectors (a : Loop) (cover : Tbl Nat) (u : Nat) : Nat :=
  sectorMask (fun i =>
    let lo := max (u * 256 + 64 * i) a.rbase - a.rbase
    let hi := min (u * 256 + 64 * i + 64) (a.rbase + a.ncells * a.size) - a.rbase
    decide (lo < hi) &&
    (List.range ((hi - 1) / a.size + 1 - lo / a.size)).any (fun j => !covBit (Tbl.getD cover (lo / a.size + j) 0)))

/-- The next line of the region marked in one write, which records the page's label in the line (R153). A fault met here ends the loop with its code 0x80, and
nothing is added to DONE (DESIGN CHOICE, log 92). -/
def markLine (s : State) (core : Nat) (a : Loop) : LnRes Unit :=
  let u := a.rbase / 256 + a.mark
  let m := a.openSectors (s.core core).cover u
  let past := fun (s : State) => modLoop s core (fun a => { a with mark := a.mark + 1, xres := [] })
  if m = 0 then .done (past s) ()
  else
    let va := u * 256 % 2 ^ 52
    match xlate s core (.anchor core a.id) a.xres a.part (tagOf a.part a.ctx) va va kindEngineWrite permWrite with
    | .wait s => .wait s
    | .ans s (.fail f) => .fault s f
    | .ans s (.ok x) =>
      let pa := x.pa va
      let l := pa / 256
      if !permsIn permWrite (attrPerm x.attr) then .fault s ⟨.pagePermission, accessBits true va⟩
      else if attrSealed x.attr then .fault s ⟨.sealedAccess, accessBits true va⟩
      else if attrCnt x.attr then .fault s ⟨.counterStore, accessBits true va⟩
      else if noSuch pa then .bad pa
      else if isLink pa then
        if (windowOf s a.part pa).isNone then .done (past (lostNotice s a.part a.ctx pa)) ()
        else if sendHeld s a.part pa 256 then .wait s
        else
          .done (past (modLoop (sendLink s.bumpId a.part core s.newId pa 256 [(pa, .mark m)]) core (fun a => { a with lacks := a.lacks ++ [s.newId] }))) ()
      else if closedBefore s (.mem l) a.stamp then .wait s
      else
        let tw := twOf s l (attrLease x.attr)
        let s := homeMark s l (fun k => { k with
          pois := (List.range 4).foldl (fun p i => if bitAt m i then setBit p i true else p) k.pois
          lab := attrLabel x.attr
          comp := attrComp x.attr
          sealed := attrSealed x.attr }) (attrCclass x.attr)
        .done (modLoop (past s) core (fun a => { a with tw := max a.tw tw })) ()

/-- What an anchor's step comes to: a fault ends the loop (R294). -/
def LnRes.loopEnd (core : Nat) (r : LnRes Unit) : Host.Outcome State Fault Refusal :=
  match r with
  | .wait s => .next s
  | .done s _ => .next s
  | .bad pa => .fault (.noSuchAddress pa)
  | .fault s f =>
    .next (match (s.core core).anchor with
      | none => s
      | some a => endLoop s core a 0x80 (some f))

/-- ANCHOR_BATCH_FORM: the anchor forms a batch last-first, or stops at the batch boundary, or writes a line's poison marks. -/
def execAnchorBatchForm (core : Nat) (s : State) : Host.Outcome State Fault Refusal :=
  match (s.core core).anchor with
  | none => .next s
  | some a =>
    if !a.gateMet ∨ a.running ∨ a.adding ∨ (s.team a.team).atStop then .next s
    else
      match a.flt with
      | some f => .next (endLoop s core a 0x80 (some f))
      | none =>
        if a.poisoned then
          if a.mark < a.lineCount then LnRes.loopEnd core (markLine s core a) else .next s
        else if a.left = 0 ∧ a.forming = [] then .next s
        else if a.cancel then .next (endLoop s core a 1 none)
        else LnRes.loopEnd core (formBatch (a.left + 1) s core)

/-- An entry of the map at the end of its batch (R287). -/
def foldCover (e : Nat) : Nat := if wrBit e then 2048 else e

/-- ANCHOR_BATCH_END: every iteration of the batch has ended (R287); a cancelled loop stops here (R294). -/
def execAnchorBatchEnd (core : Nat) (s : State) : Host.Outcome State Fault Refusal :=
  .next (match (s.core core).anchor with
    | none => s
    | some a =>
      if !a.running ∨ !a.batch.all Iter.ended ∨ (s.team a.team).atStop then s
      else
        let s := (modLoop s core (fun a => { a with running := false, batch := [] })).modCore core (fun k => { k with
          cover := k.cover.map (fun e => (e.1, foldCover e.2)) })
        if a.cancel then endLoop s core a 1 none else s)

/-- OVW_LOOP_COMPLETE: the last batch has ended, or the marks of a poisoned loop are written, and Now() has reached the T_w of every
accepted store (R292, R294); N is added to DONE. -/
def execOvwLoopComplete (core : Nat) (s : State) : Host.Outcome State Fault Refusal :=
  .next (match (s.core core).anchor with
    | none => s
    | some a =>
      let done := if a.poisoned then decide (a.lineCount ≤ a.mark) else decide (a.left = 0) && decide (a.forming = [])
      let open_ := (s.core core).out.any (fun r => r.parts.any (fun p => p.ovw && decide (p.team = a.team)))
      if !a.gateMet ∨ a.running ∨ a.adding ∨ a.flt.isSome ∨ !done ∨ open_ ∨ s.now < a.tw ∨ a.lacks ≠ [] ∨ (s.team a.team).atStop then s
      else
        let code := if a.poisoned then 2 else 0
        if a.gate.done = 0 then endLoop s core a code none
        else
          let p : PAdd :=
            { part := a.part, ctx := a.ctx, core, addr := a.gate.done, n := a.gate.damt
              who := .loop core a.entry (a.skip + code), team := some a.team, stamp := some a.stamp }
          ({ (modLoop s core (fun a => { a with adding := true })) with adds := Tbl.put s.adds s.newId p } : State).bumpId)

-- ovget and ovend (R289, R290)

/-- The lowest cell that a bound iteration has left part-written (R291). -/
def partWritten (a : Loop) (b : Bound) : Option Nat :=
  ((dedup (b.written.map (fun e => e.1 / a.size))).filter (fun c =>
    decide ((b.written.filter (fun e => decide (e.1 / a.size = c))).length ≠ a.size))).foldl
    (fun m c => match m with
      | none => some c
      | some d => some (min c d)) none

/-- OVW_PARTIAL in a bound thread (R289, R291). -/
def partialFlt (s : State) (t l : Nat) : Option Flt :=
  match loopOf s t, (s.thread t l).bound with
  | some a, some b => (partWritten a b).map (fun c => ⟨.ovwPartial, accessBits true (a.rbase + c * a.size)⟩)
  | _, _ => none

/-- The end of a thread's iteration, which it is bound to no more (R289, R290). -/
def endIteration (s : State) (t l : Nat) : State :=
  match (s.thread t l).bound with
  | none => s
  | some b =>
    let s := s.modThread t l (fun th => { th with bound := none })
    match loopOf s t with
    | none => s
    | some _ =>
      modLoop s (s.team t).at_.core (fun a => { a with
        batch := a.batch.map (fun e => if e.idx = b.idx then { e with ended := true } else e) })

/-- `ovget` in one lane: the new state, or the fault. -/
def ovgetLane (f : Form) (i : Iss) (act : List Nat) (s : State) (l : Nat) : State × Out :=
  let t := i.team
  match partialFlt s t l with
  | some flt => (s, .fault flt (labOf s t l f.c []))
  | none =>
    let s := endIteration s t l
    match (s.team t).r.loopq with
    | none => (replyLane s i act f l loopEnd (pcLabel s t l), .next)
    | some q =>
      if (s.thread t l).t.helper then (replyLane s i act f l loopEnd (pcLabel s t l), .next)
      else
        let id := s.newId
        (claimLane (oweResult s.bumpId t l act i.lanes f id 0 false q) t l q id true (labOf s t l f.c []), .next)

/-- `ovget` (R289). -/
def execOvget (c : Ctl) (d : Operand) (s : State) : Host.Outcome State Fault Refusal :=
  .next (issueWith .plain (formOf (.ovget c d)) (fun s i act =>
    let r := foldStack (ovgetLane (formOf (.ovget c d)) i act) s act
    .done r.1 r.2) s)

/-- `ovend` (R290). -/
def execOvend (c : Ctl) (s : State) : Host.Outcome State Fault Refusal :=
  .next (issueWith .plain (formOf (.ovend c)) (fun s i act =>
    let r := foldStack (fun s l =>
      match partialFlt s i.team l with
      | some flt => (s, .fault flt (labOf s i.team l c []))
      | none => (endIteration s i.team l, .next)) s act
    .done r.1 r.2) s)

-- hcancel (R229)

/-- The command, stream or loop that a pending handle stands for stopped: at once while it waits on its gate, else at its next restart
point. A command that has started its end keeps its own status. -/
def cancelEntry (s : State) (core e : Nat) : State :=
  match (s.core core).cmds.find? (fun m => decide (m.entry = e)) with
  | some m =>
    if !m.gateMet then endCmd (dropGate s (.gateCmd core m.id)) core m (statusOf s m + 1) none
    else modCmd s core m.id (fun m => { m with cancel := true })
  | none =>
    match (s.core core).quad.fly.findSome? (fun k => match isStream k.ins with
      | some x => if x.entry = e then some (k, x) else none
      | none => none) with
    | some (k, x) =>
      if !x.gateMet then endStream (dropGate s (.gateQuad core k.id)) core k { x with cancel := true }
      else putStream s core k.id { x with cancel := true }
    | none =>
      match (s.core core).anchor with
      | none => s
      | some a =>
        if a.entry ≠ e then s
        else if !a.gateMet then endLoop (dropGate s (.gateAnchor core a.id)) core a 1 none
        else modLoop s core (fun a => { a with cancel := true })

def hcancelEff (f : Form) (s : State) (i : Iss) (act : List Nat) : Eff :=
  match leads s i f act with
  | none => .done s []
  | some l =>
    let w := (regRead s i.team l (encOf f.a)).val
    match readToken s i.team w with
    | .pending => .done (cancelEntry s (tokCore w) (tokEntry w)) []
    | .done _ => .done s []
    | .null => .done s []
    | .stale => .done s []

/-- `hcancel` (R229). -/
def execHcancel (c : Ctl) (a : Operand) (s : State) : Host.Outcome State Fault Refusal :=
  .next (issueWith .plain (formOf (.hcancel c a)) (hcancelEff (formOf (.hcancel c a))) s)

end Sys2Proof.Machine
end

