-- ==== Sys2Proof/Machine/Threads.lean ====
section
/-! DEFINITION. The end of a park (R41): publication of team registers (R44), faults delivered at the park (R181, R317, R338), threads
that end (R137), and reform points (R79, R81). -/

namespace Sys2Proof.Machine

open Sys2Proof

/-- The threads of a team that are parked under a number. -/
def parkedUnder (tm : Team) (id : Nat) : List (Nat × ParkKind) :=
  tm.threads.filterMap (fun e => match e.2.run.park with
    | some p => if p.id = id then some (e.1, p.kind) else none
    | none => none)

/-- A thread ends (R137, R290): it leaves its group; a trap and a bound iteration end with it. -/
def endThread (s : State) (t l : Nat) : State :=
  (endIteration s t l).modTeam t (fun tm => (tm.modThread l (fun th => { th with
    t := { th.t with trap := false, sup := false }
    run := { th.run with exited := true } })).leave l)

/-- Whether a forced reform is in progress on a thread's group (R81). -/
def Team.forcing (tm : Team) (l : Nat) : Bool := tm.groups.any (fun g => g.2.force && g.2.lanes.contains l)

/-- A thread that has completed a reform point leaves its group and is filed (R79); one that still waits on a counter is filed once its wait is met: R79
would file it as its park ends, and R308, on `cwait` itself, says when (DEDUCED, log 86). -/
def reformThread (s : State) (t l : Nat) : State :=
  if (s.thread t l).run.waitC.isSome then s.modTeam t (fun tm => tm.leave l) else fileThread s t l

/-- The end of a park in one lane. A thread that has left its group while it was parked is filed too. -/
def endPark (s : State) (t l : Nat) (k : ParkKind) : State :=
  let th := s.thread t l
  let cyc := (s.core (s.team t).at_.core).cyc
  let faults := th.out.sFault.isSome || th.run.pend.isSome
  let out := (s.team t).forcing l || !(s.team t).grouped l
  let s := if faults then deliver s t l else s.modThread t l (fun th => th.newSeg cyc)
  match k with
  | .fault => s
  | .exit => if faults then s else endThread s t l
  | .reform => reformThread s t l
  | .seg => if out then reformThread s t l else s

/-- PARK_END: the results owed to the lane set of a parked thread have all arrived. -/
def execParkEnd (core team thread : Nat) (s : State) : Host.Outcome State Fault Refusal :=
  .next (
    let tm := s.team team
    match (tm.thread thread).run.park with
    | none => s
    | some p =>
      let ls := parkedUnder tm p.id
      if tm.at_.core ≠ core ∨ tm.halted ∨ !ls.all (fun e => decide ((tm.thread e.1).out.owes = [])) then s
      else ls.foldl (fun s e => endPark s team e.1 e.2) (publish s team (ls.map Prod.fst)))

end Sys2Proof.Machine
end

