-- ==== Sys2Proof/Machine/Launch.lean ====
section
/-! DEFINITION. Launch records (R233, R234): reading one at submission, its checks, and what becomes of a submission from each source
(R149, R150, R235, R236, R371), with the event LAUNCH_SUBMIT. -/

namespace Sys2Proof.Machine

open Sys2Proof

-- the record (R233, R234)

/-- The header's fields. -/
def hdrOf (b : Nat) : Hdr :=
  { gdamt := fieldOf b 639 576, gdone := fieldOf b 575 512, align := decide (fieldOf b 450 450 = 1)
    lfloor := BitVec.ofNat 2 (fieldOf b 449 448), vmode := decide (fieldOf b 447 447 = 1), prio := fieldOf b 446 444
    ccount := fieldOf b 440 432, accPages := fieldOf b 431 416, aBytes := fieldOf b 415 384, wBytes := fieldOf b 383 352
    shared := fieldOf b 339 320, regs := fieldOf b 319 304, cfallH := fieldOf b 303 296, cfallW := fieldOf b 295 288
    cshapeH := fieldOf b 287 280, cshapeW := fieldOf b 279 272, teamZ := fieldOf b 271 256, teamY := fieldOf b 255 240
    teamX := fieldOf b 239 224, gridZ := fieldOf b 223 192, gridY := fieldOf b 191 160, gridX := fieldOf b 159 128
    tvec := fieldOf b 127 64, entry := fieldOf b 63 0 }

def hdrZeros : List (Nat × Nat) := [(351, 340), (443, 441), (511, 451), (2047, 640)]

def validShape (w h : Nat) : Bool := decide (1 ≤ w) && decide (w ≤ 8) && decide (1 ≤ h) && decide (h ≤ 12) && decide (w * h ≤ 12)

/-- A PC of the header: bits [63:52] and [1:0] zero. -/
def pcField (x : Nat) : Bool := decide (x < 2 ^ 52) && decide (x % 4 = 0)

/-- The fields outside the limits of R233, ascending; GDONE names no near counter (R301). -/
def hdrForm (h : Hdr) : List (Nat × Bool) :=
  [(0, !pcField h.entry), (64, !pcField h.tvec),
   (224, decide (h.threads = 0) || decide (1024 < h.threads)),
   (272, !validShape h.cshapeW h.cshapeH),
   (288, !(decide (h.cfallW = 0) && decide (h.cfallH = 0)) && !validShape h.cfallW h.cfallH),
   (304, decide (h.regs < 8) || decide (2048 < h.regs) || decide (h.regs % 8 ≠ 0)),
   (320, decide (2 ^ 19 < h.shared)),
   (352, decide (h.wBytes % 256 ≠ 0) || decide (2 ^ 20 < h.wBytes)),
   (384, decide (h.aBytes % 256 ≠ 0) || decide (2 ^ 21 < h.aBytes)),
   (416, decide (768 < h.accPages)), (432, decide (256 < h.ccount)),
   (512, decide (2 ^ 52 ≤ h.gdone))]

/-- The shapes to try, in order (R239). -/
def Hdr.shapes (h : Hdr) : List (Nat × Nat) :=
  (h.cshapeW, h.cshapeH) :: (if h.cfallW = 0 ∧ h.cfallH = 0 then [] else [(h.cfallW, h.cfallH)])

def Hdr.teams (h : Hdr) : Nat := h.gridX * h.gridY * h.gridZ

/-- The cores of the teams of a cluster of `t` teams and width `w` at an origin, by rank; none off the mesh or out of alignment
(R238, R239). -/
def clusterCores (align : Bool) (w t origin : Nat) : Option (List Nat) :=
  let c0 := origin % 8
  let r0 := origin / 8
  let cs := (List.range t).map (fun i => (c0 + i % w, r0 + i / w))
  if (align && (decide (c0 % 2 = 1) || decide (r0 % 2 = 1))) || cs.any (fun p => decide (8 ≤ p.1) || decide (12 ≤ p.2)) then none
  else some (cs.map (fun p => 8 * p.2 + p.1))

/-- A unit of a partition in service. -/
def hasUnit (s : State) (part core : Nat) : Bool := decide ((s.core core).owner = some part) && !(s.core core).dead

/-- Whether the next cluster of a grid with `left` teams to place could be placed on the idle partition: of the needs of R240, only the register banks
can fail a field within its limits. -/
def couldFit (s : State) (part : Nat) (h : Hdr) (left : Nat) : Bool :=
  decide (left = 0) ||
  (decide (h.regs * ((h.threads + 15) / 16) ≤ 16384) &&
   h.shapes.any (fun sh => (List.range 96).any (fun o =>
     match clusterCores h.align sh.1 (min left (sh.1 * sh.2)) o with
     | some cs => cs.all (hasUnit s part)
     | none => false)))
/-- Whether a record's clusters could be (R234). -/
def couldPlace (s : State) (part : Nat) (h : Hdr) : Bool := couldFit s part h h.teams

/-- The checks of R234, in order. -/
def recordFault (s : State) (part b : Nat) : Option Flt :=
  let h := hdrOf b
  match reservedAt b hdrZeros with
  | some p => some (fieldFlt .reservedBits p)
  | none =>
    if 2 ^ 62 ≤ h.gdamt then some (rangeFlt 1 (BitVec.ofNat 64 h.gdone))
    else
      match firstField (hdrForm h) with
      | some p => some (fieldFlt .commandForm p)
      | none => if couldPlace s part h then none else some (fieldFlt .commandForm 272)

-- reading the record (R233, R235)

def modSub (s : State) (n : Nat) (f : Sub → Sub) : State :=
  { s with subs := s.subs.map (fun e => if e.1 = n then (e.1, f e.2) else e) }

/-- A queue of a partition. -/
def lqueue (s : State) (part q : Nat) : LQueue := Tbl.getD (s.part part).queues q {}

/-- The context in which a record is read: the submitter's, or the one to which the queue is bound (R235). -/
def subCtx (s : State) (b : Sub) : Nat :=
  match b.src with
  | .launch _ _ => b.ctx
  | .waiter => b.ctx
  | .host _ _ => (lqueue s b.part b.queue).ctx
  | .peer _ _ => (lqueue s b.part b.queue).ctx

/-- A line of the record, in the issuing core's ATC or the partition's level-2 cache (R235); none of a sealed page, which only the copy engine reads
(R153). -/
def readRecLine (s : State) (n : Nat) (b : Sub) (va : Nat) : LnRes (List Byte) :=
  let ctx := subCtx s b
  let tag := tagOf b.part ctx
  match (match b.src with
    | .launch c _ => xlate s c (.sub n) b.xres b.part tag va va kindEngine permRead
    | .waiter => xlateCell s (.sub n) b.xres b.part tag va va kindEngine permRead
    | .host _ _ => xlateCell s (.sub n) b.xres b.part tag va va kindEngine permRead
    | .peer _ _ => xlateCell s (.sub n) b.xres b.part tag va va kindEngine permRead) with
  | .wait s => .wait s
  | .ans s (.fail f) => .fault s f
  | .ans s (.ok x) =>
    let pa := x.pa va
    let l := pa / 256
    let pois := (⟨.memPoison, accessBits false va⟩ : Flt)
    if !permsIn permRead (attrPerm x.attr) then .fault s ⟨.pagePermission, accessBits false va⟩
    else if attrSealed x.attr then .fault s ⟨.sealedAccess, accessBits false va⟩
    else if noSuch pa then .bad pa
    else if isLink pa then
      match b.lvals.find? (fun e => decide (e.1 = va)) with
      | some (_, some bs) => .done s bs
      | some (_, none) => .fault s pois
      | none =>
        if (windowOf s b.part pa).isNone then .fault (lostNotice s b.part ctx pa) pois
        else if b.lread.isSome ∨ sendHeld s b.part pa 256 then .wait s
        else .wait (modSub (sendLink s.bumpId b.part 96 s.newId pa 256 [(pa, .read 256)]) n (fun b => { b with lread := some (s.newId, va) }))
    else if closed s (.mem l) then .wait s
    else if (s.line l).pois ≠ 0 then .fault s pois
    else .done s (Mem.readN s.mem (l * 256) 256)

/-- Lines of the record, in order. -/
def readRecLines (n : Nat) : State → List Nat → LnRes (List Byte)
  | s, [] => .done s []
  | s, va :: vas =>
    match Tbl.find s.subs n with
    | none => .wait s
    | some b =>
      match readRecLine s n b va with
      | .wait s => .wait s
      | .fault s f => .fault s f
      | .bad pa => .bad pa
      | .done s bs =>
        match readRecLines n s vas with
        | .wait s => .wait s
        | .fault s f => .fault s f
        | .bad pa => .bad pa
        | .done s more => .done s (bs ++ more)

/-- The header and the constant table; a CCOUNT above 256 names no table (log 30). -/
def readRecord (s : State) (n a : Nat) : LnRes (Nat × List Word) :=
  match readRecLines n s [a % 2 ^ 52] with
  | .wait s => .wait s
  | .fault s f => .fault s f
  | .bad pa => .bad pa
  | .done s hb =>
    let b := leNat hb
    let k := fieldOf b 440 432
    let lines := if 256 < k then [] else (List.range ((4 * k + 255) / 256)).map (fun i => (a + 256 + 256 * i) % 2 ^ 52)
    match readRecLines n s lines with
    | .wait s => .wait s
    | .fault s f => .fault s f
    | .bad pa => .bad pa
    | .done s tb => .done s (b, (List.range (min k 256)).map (fun i => BitVec.ofNat 32 (leNat ((tb.drop (4 * i)).take 4))))

-- the outcome of a submission (R150, R236, R371)

/-- What a submission comes to: queued or a CODE of R150, or a fault in reading the record, of R234, or LABEL_FLOW. -/
inductive SubOut where
  | code (c : Nat)
  | readFault (f : Flt)
  | recFault (f : Flt)
  deriving DecidableEq, Repr

/-- The reply of the launch doorbell (R371). -/
def launchReply (rtag code fault : Nat) : List Byte := leBytes 4 rtag ++ leBytes 1 code ++ leBytes 2 fault ++ leBytes 1 0

def SubOut.reply (rtag : Nat) : SubOut → List Byte
  | .code c => launchReply rtag c 0
  | .readFault f => launchReply rtag 0x80 f.code.code
  | .recFault _ => launchReply rtag 0x13 0

def SubOut.num : SubOut → Nat
  | .code c => c
  | .readFault _ => 0x80
  | .recFault _ => 0x13

/-- The end of a submission: its source is told (R236), and the waiters that fired after its own act (R314). -/
def endSub (s : State) (n : Nat) (b : Sub) (o : SubOut) : State :=
  let s := { s with subs := Tbl.del s.subs n }
  fireRest (match b.src with
  | .launch core e =>
    match o with
    | .code c => endHandle s core e c none
    | .readFault f => endHandle s core e 0x80 (some f)
    | .recFault f => endHandle s core e 0x80 (some f)
  | .waiter =>
    if o = .code 0 then s
    else notice (s.report (.launchRefused b.part b.queue o.num)) b.part 3 none none (some (tagOf b.part b.ctx))
  | .host m rtag => s.report (.reply m (o.reply rtag))
  | .peer m rtag =>
    let s := s.report (.reply m (o.reply rtag))
    if o = .code 0 then s else s.report (.launchRefused b.part b.queue o.num)) b.rest

/-- Whether a peer's source may use the queue (R236). -/
def mayLaunch (s : State) (b : Sub) : Bool :=
  match b.src with
  | .peer m _ => (s.part b.part).rights.any (fun r => decide (r.2.1 = m.src) && r.2.2.getLsbD b.queue)
  | .launch _ _ => true
  | .waiter => true
  | .host _ _ => true

/-- An earlier submission to the queue, or of the same lanes, stands before this one (R150). -/
def subBehind (s : State) (n : Nat) (b : Sub) : Bool :=
  s.subs.any (fun e => decide (e.1 < n) && decide (e.2.part = b.part) &&
    (decide (e.2.queue = b.queue) || (b.team.isSome && decide (e.2.team = b.team) && e.2.lanes.any b.lanes.contains)))

/-- A record put into its queue (R233, R235); a context that is paged out is to be restored (R331). -/
def queueRec (s : State) (b : Sub) (h : Hdr) (consts : List Word) : State :=
  let ctx := (lqueue s b.part b.queue).ctx
  let s := (s.modPart b.part (fun p => { p with
    queues := Tbl.upd p.queues b.queue {} (fun q => { q with recs := q.recs ++ [{ hdr := h, consts, seq := s.newId }] }) })).bumpId
  if (s.ctx b.part ctx).paged then s.modCtx b.part ctx (fun c => { c with wake := true }) else s

/-- The refusal of a submission that is met before anything is read (R150). -/
def earlyRefusal (s : State) (b : Sub) : Option Nat :=
  if b.bad ∨ 64 ≤ b.queue ∨ b.addr.toNat % 256 ≠ 0 then some 0x12
  else if !mayLaunch s b then some 0x14
  else if !(lqueue s b.part b.queue).enabled then some 0x11
  else none

/-- LAUNCH_SUBMIT: the device reads a record, checks it and queues it, or refuses it; the first that applies is reported (R150). -/
def execLaunchSubmit (n : Nat) (s : State) : Host.Outcome State Fault Refusal :=
  match Tbl.find s.subs n with
  | none => .next s
  | some b =>
    let q := lqueue s b.part b.queue
    if subBehind s n b then .next s
    else
      match earlyRefusal s b, readRecord s n b.addr.toNat with
      | some c, _ => .next (endSub s n b (.code c))
      | none, .wait s => .next s
      | none, .fault s f => .next (endSub s n b (.readFault f))
      | none, .bad pa => .fault (.noSuchAddress pa)
      | none, .done s r =>
        let h := hdrOf r.1
        .next (match recordFault s b.part r.1 with
          | some f => endSub s n b (.recFault f)
          | none =>
            if h.lfloor < b.hlab then endSub s n b (.recFault ⟨.labelFlow, accessBits false b.addr.toNat⟩)
            else if 64 ≤ q.recs.length then endSub s n b (.code 0x10)
            else endSub (queueRec s b h r.2) n b (.code 0))

end Sys2Proof.Machine
end

