-- ==== Sys2Proof/Machine/Grid.lean ====
section
/-! DEFINITION. Grids (R237 to R242): taking records, placing clusters, starting teams, and ending teams and grids, with the events
PLACE_CLUSTERS and TEAM_END. -/

namespace Sys2Proof.Machine

open Sys2Proof

-- what a core has free (R240)

/-- The teams that hold a place on a core. -/
def teamsOn (s : State) (core : Nat) : List Team :=
  (s.teams.filter (fun e => decide (e.2.at_.core = core) && !e.2.ended)).map Prod.snd

/-- The lowest base at which a range of `len` fits among the used ranges (R240). -/
def fitRange (total len : Nat) (used : List (Nat × Nat)) : Option Nat :=
  let free := fun b => decide (b + len ≤ total) && used.all (fun u => decide (u.2 = 0) || decide (b + len ≤ u.1) || decide (u.1 + u.2 ≤ b))
  if len = 0 then some 0
  else
    ((0 :: used.map (fun u => u.1 + u.2)).filter free).foldl (fun m b => match m with
      | none => some b
      | some x => some (min x b)) none

/-- The free slots of a scheduler, ascending; slot n belongs to scheduler n / 32 (R12). -/
def freeOf (used : List Nat) (sched : Nat) : List Nat := ((List.range 32).map (32 * sched + ·)).filter (fun n => !used.contains n)

/-- The scheduler with the most free slots, the lowest of equals. -/
def bestSched (used : List Nat) : Nat :=
  (List.range 8).foldl (fun b k => if (freeOf used b).length < (freeOf used k).length then k else b) 0

/-- Slots taken one at a time (R240). The rule names the scheduler; of its free slots the lowest is taken (DESIGN CHOICE, log 88). -/
def takeSlots : Nat → List Nat → Option (List Nat)
  | 0, _ => some []
  | n + 1, used =>
    match freeOf used (bestSched used) with
    | [] => none
    | x :: _ => (takeSlots n (x :: used)).map (fun xs => x :: xs)

/-- The allotments that a team would get on a core, where the core admits it (R74, R240). A shared allotment stays until its cluster has
ended (R155). -/
def admits (s : State) (core : Nat) (h : Hdr) : Option Allot :=
  let ts := teamsOn s core
  let all := (s.teams.filter (fun e => decide (e.2.at_.core = core))).map Prod.snd
  let sum := fun (f : Hdr → Nat) => (ts.map (fun t => f t.hdr)).foldl (· + ·) 0
  let need := fun (g : Hdr) => g.regs * ((g.threads + 15) / 16)
  if 16 ≤ ts.length ∨ 4096 < sum Hdr.threads + h.threads ∨ 16384 < sum need + need h then none
  else
    let sh := (h.shared + 255) / 256 * 256
    match takeSlots ((h.threads + 15) / 16) (ts.flatMap (fun t => t.al.slots)), fitRange (2 ^ 19) sh (all.map (fun t => (t.al.shBase, t.al.shLen))),
        fitRange (2 ^ 20) h.wBytes (ts.map (fun t => (t.al.wBase, t.al.wLen))),
        fitRange (2 ^ 21) h.aBytes (ts.map (fun t => (t.al.aBase, t.al.aLen))),
        fitRange 768 h.accPages (ts.map (fun t => (t.al.pBase, t.al.pLen))) with
    | some slots, some b, some w, some a, some p =>
      some { shBase := b, shLen := sh, wBase := w, wLen := h.wBytes, aBase := a, aLen := h.aBytes, pBase := p, pLen := h.accPages, slots }
    | _, _, _, _, _ => none

/-- A free local slot of a context: which one the slice kernel gives is free (R154; log 21). -/
def freeLt (s : State) (lts : List Nat) : Option Nat :=
  let start := (Config.freeWord s.m.free).toNat % 1536
  ((List.range 1536).map (fun i => (start + i) % 1536)).find? (fun n => !lts.contains n)

-- starting a team (R61, R241)

/-- The allotments of W- and A-buffer bytes filled with zeros, their marks cleared (R157). -/
def zeroBuffers (s : State) (core : Nat) (al : Allot) : State :=
  let wipe := fun (m : Mem) base len => m.filter (fun c => decide (c.1 < base) || decide (base + len ≤ c.1))
  let clear := fun (p : Tbl Bool) base len => p.filter (fun c => decide (64 * c.1 < base) || decide (base + len ≤ 64 * c.1))
  s.modCore core (fun k => { k with bufs := { k.bufs with
    wb := wipe k.bufs.wb al.wBase al.wLen, wbPois := clear k.bufs.wbPois al.wBase al.wLen
    ab := wipe k.bufs.ab al.aBase al.aLen, abPois := clear k.bufs.abPois al.aBase al.aLen } })

/-- A team as it starts. -/
def newTeam (r : Rec) (p : Place) (al : Allot) (cyc : Nat) : Team :=
  let h := r.hdr
  let th : Thread := { r := { pc := pcOf h.entry, pcl := h.lfloor }, run := { segCyc := cyc } }
  { hdr := h, at_ := p, al
    r := { tvec := pcOf h.tvec
           s := (List.range r.consts.length).zip (r.consts.map (fun w => ({ val := w, lab := h.lfloor } : Reg))) }
    threads := (List.range h.threads).map (fun l => (l, th))
    groups := ((List.range al.slots.length).zip al.slots).foldl (fun t e =>
      Tbl.put t e.2 { lanes := (List.range (min 16 (h.threads - 16 * e.1))).map (16 * e.1 + ·), formed := cyc }) [] }

/-- One team of a cluster admitted: the state and, where it fits, nothing left undone. -/
def admitTeam (s : State) (g : Nat) (gr : Grid) (clu w h count rank core : Nat) : Option State :=
  match admits s core gr.record.hdr, freeLt s (s.ctx gr.part gr.ctx).lts with
  | some al, some lt =>
    let p : Place := { core, part := gr.part, ctx := gr.ctx, grid := g, clu, rank, count, shW := w, shH := h, index := gr.next + rank, lt }
    let t := s.newId
    let s := (zeroBuffers s core al).modCtx gr.part gr.ctx (fun c => { c with lts := lt :: c.lts })
    some ({ s with teams := Tbl.put s.teams t (newTeam gr.record p al (s.core core).cyc) } : State).bumpId.bumpFree
  | _, _ => none

/-- The teams of a cluster admitted in one step, or none of them (R241). -/
def admitAll (g : Nat) (gr : Grid) (clu w h count : Nat) : Option State → List (Nat × Nat) → Option State
  | s, [] => s
  | none, _ :: _ => none
  | some s, (rank, core) :: cs => admitAll g gr clu w h count (admitTeam s g gr clu w h count rank core) cs

-- placing (R237 to R239)

/-- The first shape and origin at which the grid's next cluster fits. -/
def placeOne (s : State) (g : Nat) (gr : Grid) : Option State :=
  let h := gr.record.hdr
  let left := h.teams - gr.next
  h.shapes.findSome? (fun sh =>
    let t := min left (sh.1 * sh.2)
    (List.range 96).findSome? (fun o =>
      match clusterCores h.align sh.1 t o with
      | none => none
      | some cs =>
        if !cs.all (hasUnit s gr.part) then none
        else
          (admitAll g gr s.newId sh.1 sh.2 t (some s.bumpId) ((List.range t).zip cs)).map (fun s =>
            { s with grids := Tbl.put s.grids g { gr with next := gr.next + t, live := gr.live + t } })))

/-- Clusters of a grid placed while they fit; a core holds at most 16 teams. -/
def placeGrid : Nat → State → Nat → State
  | 0, s, _ => s
  | n + 1, s, g =>
    match Tbl.find s.grids g with
    | none => s
    | some gr =>
      if gr.record.hdr.teams ≤ gr.next then s
      else
        match placeOne s g gr with
        | none => s
        | some s => placeGrid n s g

/-- GDAMT on its way to GDONE (R237, R242). -/
def gridDone (s : State) (part ctx : Nat) (h : Hdr) : State :=
  if h.gdone = 0 then s
  else
    let a : PAdd := { part, ctx, core := 96, addr := BitVec.ofNat 64 h.gdone, n := BitVec.ofNat 64 h.gdamt, who := .grid }
    ({ s with adds := Tbl.put s.adds s.newId a } : State).bumpId

/-- Whether the queue's last grid has had its last cluster placed (R237). -/
def LQueue.free (s : State) (q : LQueue) : Bool :=
  match q.active with
  | none => true
  | some g =>
    match Tbl.find s.grids g with
    | none => true
    | some gr => decide (gr.record.hdr.teams ≤ gr.next)

/-- A context whose teams are stopped, or being stopped, takes and places nothing (log 32). -/
def ctxRuns (c : Ctx) : Bool := c.stopAt.isNone && c.saved.isNone && !c.paged

/-- Head records of a queue taken: empty grids end at once (R237). -/
def takeRecs : Nat → State → Nat → Nat → State
  | 0, s, _, _ => s
  | n + 1, s, part, q =>
    let lq := lqueue s part q
    match lq.recs with
    | [] => s
    | r :: rs =>
      if !lq.free s ∨ !ctxRuns (s.ctx part lq.ctx) then s
      else
        let setq := fun (s : State) (f : LQueue → LQueue) => s.modPart part (fun p => { p with queues := Tbl.upd p.queues q {} f })
        if r.hdr.teams = 0 then takeRecs n (gridDone (setq s (fun k => { k with recs := rs, active := none })) part lq.ctx r.hdr) part q
        else
          let g := s.newId
          let s := setq s.bumpId (fun k => { k with recs := rs, active := some g })
          { s with grids := Tbl.put s.grids g { part, ctx := lq.ctx, record := r } }

/-- The order of grids: higher PRIO, then earlier submission (R239). -/
def Grid.before (a b : Grid) : Bool :=
  decide (b.record.hdr.prio < a.record.hdr.prio) || (decide (a.record.hdr.prio = b.record.hdr.prio) && decide (a.record.seq < b.record.seq))

def insertGrid (e : Nat × Grid) : Tbl Grid → Tbl Grid
  | [] => [e]
  | f :: fs => if e.2.before f.2 then e :: f :: fs else f :: insertGrid e fs

/-- The distributor takes records and places clusters of a partition (R237, R239). -/
def placeAll (s : State) (part : Nat) : State :=
  let s := (s.part part).queues.foldl (fun s e => takeRecs 65 s part e.1) s
  let gs := (s.grids.filter (fun e => decide (e.2.part = part) && ctxRuns (s.ctx part e.2.ctx))).foldr insertGrid []
  gs.foldl (fun s e => placeGrid 1537 s e.1) s

/-- PLACE_CLUSTERS. -/
def execPlaceClusters (part : Nat) (s : State) : Host.Outcome State Fault Refusal := .next (placeAll s part)

-- the end of a team and of a grid (R242)

/-- Whether a command of the team is not done: an engine command, a stream, a loop, an add that one has pending, a launch. -/
def commandsLeft (s : State) (core t : Nat) : Bool :=
  (s.core core).cmds.any (fun m => decide (m.team = t)) ||
  (s.core core).quad.fly.any (fun e => decide (e.team = t) && (isStream e.ins).isSome) || (loopOf s t).isSome ||
  s.adds.any (fun a => decide (a.2.team = some t)) || s.subs.any (fun b => decide (b.2.team = some t))

/-- Whether a thread's stores have returned and Now() has reached its largest T_w. -/
def settled (s : State) (th : Thread) : Bool :=
  decide (th.out.stores = 0) && decide (th.out.acks = 0) && decide (th.out.own = 0) && decide (th.out.tw ≤ s.now)

/-- A cluster whose teams have all ended leaves its cores; waiters of its near counters go with them (R155, R301). -/
def dropCluster (s : State) (t : Nat) : State :=
  let us := clusterTeams s t
  if !us.all (fun u => (s.team u).ended) then s
  else
    { s with
      teams := s.teams.filter (fun e => !us.contains e.1)
      waiters := s.waiters.filter (fun w => match w.ctr with
        | .near u _ => !us.contains u
        | .line _ => true) }

/-- A team of a grid has ended: the last one ends the grid. -/
def countGrid (s : State) (g : Nat) (spoil : Bool) : State :=
  match Tbl.find s.grids g with
  | none => s
  | some gr =>
    let gr := { gr with live := gr.live - 1, spoiled := gr.spoiled || spoil }
    if gr.live = 0 ∧ gr.record.hdr.teams ≤ gr.next then
      let s := { s with grids := Tbl.del s.grids g }
      if gr.spoiled then s else gridDone s gr.part gr.ctx gr.record.hdr
    else { s with grids := Tbl.put s.grids g gr }

/-- A team gives up everything but its shared allotment and near counters. -/
def endTeam (s : State) (t : Nat) : State :=
  let tm := s.team t
  let core := tm.at_.core
  let s := if (irecOf s core).owner = some t then
      match (irecOf s core).role with
      | .lent _ => s
      | .alone => release s core t
      | .leader _ => release s core t
    else s
  let s := { s with unpubSys := s.unpubSys.filter (fun u => decide (u.team ≠ t)) }
  let s := s.modTeam t (fun tm => { tm with
    al := { shBase := tm.al.shBase, shLen := tm.al.shLen }
    r := { near := tm.r.near }
    threads := [], groups := [], heats := [], unpub := [], unpubR := [], forced := none, ended := true })
  let s := s.modCtx tm.at_.part tm.at_.ctx (fun c => { c with lts := c.lts.filter (fun n => decide (n ≠ tm.at_.lt)) })
  let s := (Tbl.keys s.cores).foldl sweepHandles s
  countGrid (dropCluster s t) tm.at_.grid tm.halted

/-- TEAM_END: every thread has exited, every command is done, and every write of the team is visible. -/
def execTeamEnd (core team : Nat) (s : State) : Host.Outcome State Fault Refusal :=
  .next (
    let tm := s.team team
    if (Tbl.find s.teams team).isNone ∨ tm.at_.core ≠ core ∨ tm.ended ∨ tm.halted ∨ tm.live ≠ [] ∨ commandsLeft s core team ∨
        !tm.threads.all (fun e => settled s e.2) then s
    else endTeam s team)

end Sys2Proof.Machine
end

