-- ==== Sys2Proof/Machine/Image.lean ====
section
/-! DEFINITION. A context image as bytes (R332): its header, its directory and its sections, with what each section holds in the order of the rule's
table. Where the rule gives a field no width, log 16 names the one taken here: fields stand in whole bytes, the lowest byte first. -/

namespace Sys2Proof.Machine

open Sys2Proof

/-- Fields by width in bytes and value, one after another. -/
def fields (xs : List (Nat × Nat)) : List Byte := xs.flatMap (fun x => leBytes x.1 x.2)

def sysBytes (x : SysVal) : List Byte := fields [(8, x.val.toNat), (1, x.lab.toNat)]
def regBytes (r : Reg) : List Byte := fields [(4, r.val.toNat), (1, r.lab.toNat)]

/-- The words of a launch record's header (R233). -/
def hdrBits (h : Hdr) : Nat :=
  [(576, h.gdamt), (512, h.gdone), (450, bit h.align 0), (448, h.lfloor.toNat), (447, bit h.vmode 0), (444, h.prio), (432, h.ccount),
    (416, h.accPages), (384, h.aBytes), (352, h.wBytes), (320, h.shared), (304, h.regs), (296, h.cfallH), (288, h.cfallW), (280, h.cshapeH),
    (272, h.cshapeW), (256, h.teamZ), (240, h.teamY), (224, h.teamX), (192, h.gridZ), (160, h.gridY), (128, h.gridX), (64, h.tvec),
    (0, h.entry)].foldl (fun n x => n + x.2 * 2 ^ x.1) 0

/-- A reservation record (R157). -/
def resvBits (r : Resv) : Nat :=
  bit r.valid 124 + r.lab.toNat * 2 ^ 122 + r.buf.code * 2 ^ 120 + r.fmt.code * 2 ^ 116 + r.soff * 2 ^ 80 + r.blk * 2 ^ 64 + r.len * 2 ^ 32 + r.base

def markBytes (m : Tbl Label) (n : Nat) : List Byte := (List.range n).flatMap (fun i => leBytes 1 (Tbl.getD m i 0).toNat)

-- kinds 1 to 6

def secTeam (u : SavedTeam) : List Byte :=
  let tm := u.team
  fields [(1, tm.at_.rank), (1, tm.at_.shW), (1, tm.at_.shH), (1, tm.at_.rank % tm.at_.shW), (1, tm.at_.rank / tm.at_.shW), (1, tm.at_.count), (4, tm.at_.index), (2, tm.at_.lt), (256, hdrBits tm.hdr),
    (8, tm.r.tvec.toNat)] ++
  (List.range 16).flatMap (fun n => leBytes 16 (resvBits (Tbl.getD tm.r.resv n {}))) ++
  markBytes tm.r.wMarks (tm.al.wLen / 256) ++ markBytes tm.r.aMarks (tm.al.aLen / 256) ++ markBytes tm.r.pMarks tm.al.pLen

def secThread (tm : Team) (th : Thread) : List Byte :=
  leBytes 8 th.r.pc.toNat ++ leBytes 8 (tm.tstat th).toNat ++ sysBytes th.t.tpc ++ sysBytes th.t.tapc ++ sysBytes th.t.tcause ++
  sysBytes th.t.tval ++ leBytes 1 th.r.ret.length ++ th.r.ret.flatMap (fun p => leBytes 8 p.toNat) ++
  (List.range 8).flatMap (fun n => let p := tm.preg th n; fields [(1, bit p.val 0), (1, p.lab.toNat)]) ++
  (List.range tm.hdr.regs).flatMap (fun n => regBytes (tm.vreg th n))

def secThreads (u : SavedTeam) : List Byte :=
  (List.range u.team.hdr.threads).flatMap (fun l => secThread u.team (Tbl.getD u.team.threads l {}))

/-- A mask of lane positions. -/
def imageLanes (ls : List Nat) : Nat := (dedup (ls.map (· % 16))).foldl (fun m p => m + 2 ^ p) 0

def secGroups (u : SavedTeam) : List Byte :=
  u.team.groups.flatMap (fun g =>
    let pcs := (List.range 16).map (fun p => match g.2.lanes.find? (fun l => decide (l % 16 = p)) with
      | some l => (u.team.thread l).r.pc.toNat
      | none => 0)
    let clean := u.team.clean g.2
    fields [(1, g.1), (1, bit clean 0), (2, imageLanes (g.2.lanes.filter (fun l => !(u.team.thread l).run.exited)))] ++
    (if clean then leBytes 8 ((g.2.lanes.head?.map (fun l => (u.team.thread l).r.pc.toNat)).getD 0) else pcs.flatMap (leBytes 8)))

def secHeats (u : SavedTeam) : List Byte :=
  u.team.heats.flatMap (fun h => fields [(8, h.key.toNat), (8, u.cyc + h.aged - h.opened), (2, imageLanes h.lanes)] ++ h.lanes.flatMap (leBytes 2))

def secUniform (u : SavedTeam) : List Byte :=
  (List.range 256).flatMap (fun n => regBytes (u.team.sreg n)) ++
  (List.range 16).flatMap (fun n => regBytes (u.team.hreg n)) ++
  u.handles.flatMap (fun e =>
    let flt := match e.2.flt with
      | some f => (f.code.code, f.tval)
      | none => (0, 0)
    fields [(4, e.1.toNat), (1, bit (decide (e.2.st = .done)) 0), (4, e.2.status.toNat), (2, flt.1), (8, flt.2), (1, e.2.lab.toNat)])

def secQueues (u : SavedTeam) : List Byte :=
  (List.range 16).flatMap (fun n =>
    let q := u.team.queue n
    leBytes 2 q.elems.length ++ q.elems.flatMap (fun e => fields [(4, e.val.toNat), (1, e.lab.toNat), (1, bit e.pois 0)]) ++
    leBytes 2 q.claims.length ++ q.claims.flatMap (fun c => leBytes 2 (match c with
      | .thread l _ => l
      | .row _ => 0xFFFF)))

-- kinds 7 to 13

/-- The bytes of each range of a buffer that a valid reservation covers. -/
def secBuf (u : SavedTeam) (b : Buf) (m : Mem) : List Byte :=
  ((List.range 16).map (fun n => Tbl.getD u.team.r.resv n {})).flatMap (fun r =>
    if r.valid ∧ r.buf = b then Mem.readN m r.base r.len else [])

def roleBytes : Role → List Byte
  | .alone => fields [(1, 0), (1, 0)]
  | .leader sh => fields [(1, 1), (1, match sh with | .h => 0 | .v => 1 | .q => 2)]
  | .lent ld => fields [(1, 2), (1, ld)]

def tileBytes : Option Tile → List Byte
  | none => [0]
  | some t => fields [(1, 1), (2, t.k), (2, t.n), (1, t.fmt.code), (1, t.lab.toNat), (2, t.kb0)] ++
      t.cols.flatMap (fun c => c.flatMap (fun b => fields [(1, b.1), (1, b.2.1), (32, b.2.2)])) ++ t.pois.map (fun p => if p then 1 else 0)

def lanesBytes (ls : List Nat) : List Byte := leBytes 2 ls.length ++ ls.flatMap (leBytes 2)

/-- Source lines that a command has read and still needs (R174). -/
def snapBytes (ss : List Snap) : List Byte :=
  leBytes 4 ss.length ++ ss.flatMap (fun k => fields [(8, k.line), (1, k.lab.toNat), (1, k.pois)] ++ k.bytes)

/-- An instruction of the matrix command queue that has not taken effect (R213), but for a stream, which stands among the drained commands. -/
def insBytes : MIns → List Byte
  | .mld r r0 kb0 kn nn lab _ lanes ss =>
    fields [(1, 1), (16, resvBits r), (4, r0), (1, kb0), (1, kn), (1, nn), (1, lab.toNat)] ++ lanesBytes lanes ++ snapBytes ss
  | .mswap => [2]
  | .mstream _ => []
  | .mread page first count q taken => fields [(1, 3), (2, page), (1, first), (1, count), (1, q), (1, bit taken 0)]
  | .mzero pages lab _ lanes => fields [(1, 4), (1, lab.toNat)] ++ lanesBytes pages ++ lanesBytes lanes
  | .mrel => [5]

/-- The instructions in flight that a team has issued. -/
def SavedTeam.fly (u : SavedTeam) : List MFly := u.quad.fly.filter (fun e => decide (e.team = u.uid))

def secQuad (u : SavedTeam) : List Byte :=
  fields [(1, bit u.quad.owner.isSome 0)] ++ roleBytes u.quad.role ++ tileBytes u.quad.shadow ++ tileBytes u.quad.active ++
  u.fly.flatMap (fun e => insBytes e.ins)

def gateFields (g : Gate) : List (Nat × Nat) := [(8, g.gate.toNat), (8, g.gthr.toNat), (8, g.done.toNat), (8, g.damt.toNat)]

def endFields : EndPt → List (Nat × Nat)
  | .glob va => [(1, 0), (8, va), (4, 0)]
  | .sh _ off => [(1, 1), (8, off), (4, 0)]
  | .slot n r off => [(1, 2 + r.buf.code), (8, off), (4, n)]
  | .nvme n off => [(1, 5), (8, off), (4, n)]

def workFields : Work → List (Nat × Nat)
  | .copy w => (1, 0) :: endFields w.src ++ endFields w.dst ++ [(4, w.sstride), (4, w.dstride), (2, w.rows), (2, w.rbytes), (2, w.svrows), (2, w.svbytes)]
  | .quant w => [(1, if w.rqt then 2 else 1), (1, w.srcN), (1, w.dstN), (4, w.srow0), (4, w.drow0), (2, w.rows), (1, w.kb), (1, w.rnd.code),
      (1, match w.qout with | some q => q | none => 0xFF)]
  | .xinv part base len => [(1, 3), (1, bit part 0), (8, base), (8, len)]

/-- A drained command with its gate, its completion amount and its remaining work (R330). -/
def cmdBytes (m : Cmd) : List Byte :=
  fields ([(2, m.entry), (1, bit m.gateMet 0 + bit m.refused 1 + bit m.cancel 2 + bit m.mark.isSome 3 + bit m.nchk 4), (4, m.v), (1, m.hlab.toNat), (4, m.pos),
    (4, m.landed), (4, m.pushed)] ++ gateFields m.gate ++ workFields m.work ++ m.ncmds.map (fun c => (1, bit c.done 0))) ++ snapBytes m.snaps

/-- A drained stream likewise. -/
def streamBytes (x : Stream) : List Byte :=
  fields ([(2, x.entry), (1, bit x.gateMet 0 + bit x.pois 1 + bit x.cancel 2 + bit x.src.isSome 3), (1, x.kb0), (4, x.p0), (1, x.accN), (16, resvBits x.acc),
    (16, resvBits (x.src.getD {})), (1, x.qn), (4, x.m), (4, x.row0), (4, x.v), (2, x.n), (1, x.hlab.toNat), (4, x.row)] ++ gateFields x.gate) ++
  snapBytes x.snaps

/-- A command put among others in the order of their stamps. -/
def insertStamp (m : Nat × List Byte) : List (Nat × List Byte) → List (Nat × List Byte)
  | [] => [m]
  | k :: ks => if m.1 < k.1 then m :: k :: ks else k :: insertStamp m ks

def secEngines (u : SavedTeam) : List Byte :=
  let streams := u.fly.filterMap (fun e => (isStream e.ins).map (fun x => (x.stamp, streamBytes x)))
  ((u.cmds.map (fun m => (m.stamp, cmdBytes m)) ++ streams).foldr insertStamp []).flatMap Prod.snd

/-- A footprint of the descriptor's copy, and an iteration of a batch with its cells (R280). -/
def footBytes (f : Foot) : List Byte :=
  fields [(1, f.kind), (2, f.rows), (4, f.len), (4, f.pitch), (4, f.stride), (4, f.off), (8, f.idxa)]
def iterBytes (e : Iter) : List Byte :=
  fields [(4, e.idx), (2, e.slot), (1, bit e.ended 0), (4, e.cells.length)] ++ e.cells.flatMap (leBytes 2)

def secAnchor (u : SavedTeam) : List Byte :=
  match u.loop with
  | none => []
  | some a =>
    fields ([(2, a.entry), (1, bit a.gateMet 0), (8, a.rbase), (4, a.ncells), (4, a.size), (1, a.qn), (4, a.n), (2, a.bsz), (1, a.hlab.toNat),
      (4, a.left), (4, a.skipped), (1, bit a.running 0 + bit a.poisoned 1 + bit a.cancel 2), (4, a.mark), (1, a.fp.length)] ++ gateFields a.gate) ++
    a.fp.flatMap footBytes ++ leBytes 2 a.batch.length ++ a.batch.flatMap iterBytes ++ leBytes 2 a.forming.length ++ a.forming.flatMap iterBytes ++
    a.formLab.flatMap (fun l => leBytes 1 l.toNat) ++ snapBytes a.snaps ++
    u.team.threads.flatMap (fun e => match e.2.bound with
      | some b => fields [(2, e.1), (4, b.idx), (2, b.slot), (4, b.written.length)] ++ b.written.flatMap (fun w => leBytes 4 w.1)
      | none => []) ++
    (List.range a.ncells).flatMap (fun c => leBytes 2 (Tbl.getD u.cover c 0))

/-- ACT, ARG0 and ARG1 of a waiter (R310); one that resumes lanes names them and their team within the image, and one that opens a gate the handle entry of the
command, which may be a cluster mate's. -/
def actBytes (us : List SavedTeam) (a : WAct) : List Byte :=
  let entry := fun (o : Option Nat) => fields [(1, 1), (8, o.getD 0), (8, 0)]
  match a with
  | .resume t ls => fields [(1, 0), (8, ls.length), (8, us.findIdx (fun u => decide (u.uid = t)))] ++ ls.flatMap (leBytes 2)
  | .gateCmd _ id => entry (((us.flatMap SavedTeam.cmds).find? (fun m => decide (m.id = id))).map Cmd.entry)
  | .gateQuad _ id => entry ((us.flatMap SavedTeam.fly).findSome? (fun e => if e.id = id then (isStream e.ins).map Stream.entry else none))
  | .gateAnchor _ id => entry (((us.filterMap SavedTeam.loop).find? (fun a => decide (a.id = id))).map Loop.entry)
  | .launch r q => fields [(1, 2), (8, r), (8, q)]
  | .post d m => fields [(1, 3), (8, d.toNat), (8, m.toNat)]
  | .add c n => fields [(1, 4), (8, c.toNat), (8, n.toNat)]
  | .noop => fields [(1, 5), (8, 0), (8, 0)]

def secNear (us : List SavedTeam) (u : SavedTeam) : List Byte :=
  (List.range 16).flatMap (fun i =>
    let n := Tbl.getD u.team.r.near i {}
    let ws := u.waiters.filter (fun w => decide (w.ctr = .near u.uid i))
    fields [(8, n.value.toNat), (8, n.limit.toNat), (2, ws.length)] ++
    ws.flatMap (fun w => fields [(8, w.thr.toNat), (4, w.token.toNat)] ++ actBytes us w.act))

def secShared (u : SavedTeam) : List Byte :=
  Mem.readN u.team.sh.bytes 0 u.team.al.shLen ++ (List.range (u.team.al.shLen / 256)).flatMap (fun l => leBytes 1 (u.team.shLab (l * 256)).toNat)

def secBytes (us : List SavedTeam) (kind : Nat) (u : SavedTeam) : List Byte :=
  match kind with
  | 1 => secTeam u | 2 => secThreads u | 3 => secGroups u | 4 => secHeats u | 5 => secUniform u | 6 => secQueues u
  | 7 => secBuf u .wb u.wb | 8 => secBuf u .ab u.ab | 9 => secQuad u | 10 => secEngines u | 11 => secAnchor u | 12 => secNear us u
  | _ => secShared u

-- header, directory, sections

/-- The header of an image: VTIME and STIME in nanoseconds, revision 1, the context's tag. -/
def imageHeader (tag vtime stime nsect : Nat) (full halted : Bool) : List Byte :=
  leBytes 64 (vtime * 2 ^ 448 + stime * 2 ^ 384 + 2 ^ 368 + tag * 2 ^ 352 + nsect * 2 ^ 336 + (bit full 0 + bit halted 1) * 2 ^ 320)

/-- Directory and sections of an image, from the sections' teams, kinds and bytes. -/
def imageBody : List (Nat × Nat × List Byte) → Nat → List Byte × List Byte
  | [], _ => ([], [])
  | (team, kind, sec) :: es, off =>
    let pad := List.replicate ((256 - sec.length % 256) % 256) 0
    let r := imageBody es (off + (sec.length + 255) / 256 * 256)
    (leBytes 16 (off * 2 ^ 64 + sec.length % 2 ^ 32 * 2 ^ 32 + team % 256 * 2 ^ 16 + kind) ++ r.1, sec ++ pad ++ r.2)

/-- The image of a context's saved teams: for each team the thirteen kinds, in order. -/
def imageBytes (tag vtime stime : Nat) (us : List SavedTeam) (full halted : Bool) : List Byte :=
  let es := ((List.range us.length).zip us).flatMap (fun e => (List.range 13).map (fun k => (e.1, k + 1, secBytes us (k + 1) e.2)))
  let dir := 64 + 16 * es.length
  let start := (dir + 255) / 256 * 256
  let r := imageBody es start
  imageHeader tag vtime stime es.length full halted ++ r.1 ++ List.replicate (start - dir) 0 ++ r.2

end Sys2Proof.Machine
end

