-- ==== Sys2Proof/Machine/Contexts.lean ====
section
/-! DEFINITION. Pre-emption and contexts (R328 to R334, R348, R349): the stop request, the deadline, saving a context to its image,
restoring it cluster by cluster, paging it out, and creating and destroying contexts. -/

namespace Sys2Proof.Machine

open Sys2Proof

/-- The teams of a context on the cores, ended ones with them. -/
def ctxTeams (s : State) (part ctx : Nat) : Tbl Team := s.teams.filter (fun e => decide (e.2.at_.part = part) && decide (e.2.at_.ctx = ctx))

-- stopping (R328, R329)

/-- PREEMPT_STOP_REQUEST: the context's groups stop as they become clean. -/
def stopRequest (s : State) (part ctx : Nat) : State :=
  if (Tbl.find (s.part part).ctxs ctx).isNone ∨ !(ctxRuns (s.ctx part ctx) || (s.ctx part ctx).yield) then s
  else
    ({ s with teams := s.teams.map (fun e =>
        if e.2.at_.part = part ∧ e.2.at_.ctx = ctx then (e.1, { e.2 with stop := true }) else e) } : State).modCtx part ctx
      (fun c => { c with stopAt := some s.now, yield := false })

def execPreemptStopRequest (part ctx : Nat) (s : State) : Host.Outcome State Fault Refusal := .next (stopRequest s part ctx)

/-- The deadline of a partition in nanoseconds. -/
def deadlineNs (s : State) (part : Nat) : Nat := (Tbl.getD s.slots part {}).deadline * 1000

/-- Whether a fault waits in a thread that nothing keeps from it any more: its lane set's results have all returned (R329, R338). -/
def faultDue (tm : Team) (th : Thread) : Bool :=
  (th.out.sFault.isSome || th.run.pend.isSome) && (match th.run.park with
    | none => decide (th.out.owes = [])
    | some p => (parkedUnder tm p.id).all (fun e => decide ((tm.thread e.1).out.owes = [])))

/-- PREEMPT_DEADLINE_EXPIRY: groups that are not clean stop issuing; results already on their way still arrive, and a fault that they bring to a lane
which has stopped within its segment enters trap mode (R329, R338). -/
def execPreemptDeadlineExpiry (part ctx : Nat) (s : State) : Host.Outcome State Fault Refusal :=
  .next (match (s.ctx part ctx).stopAt with
    | none => s
    | some t =>
      if s.now < t + deadlineNs s part ∨ (s.ctx part ctx).yield then s
      else
        let s := { s with teams := s.teams.map (fun e =>
          if e.2.at_.part = part ∧ e.2.at_.ctx = ctx then (e.1, { e.2 with stopped := e.2.groups.map Prod.fst }) else e) }
        (ctxTeams s part ctx).foldl (fun s e => e.2.threads.foldl (fun s th =>
          if !e.2.halted ∧ th.2.run.park.isNone ∧ faultDue e.2 th.2 then deliver s e.1 th.1 else s) s) s)

-- saving (R330, R332)

/-- The results that a saved thread may still be owed: pops claimed, and matrix instructions that wait in the quadrant (R329). Any `mld`, `mread` or
`mzero` that has not taken effect is saved with the image and not waited for (DESIGN CHOICE, log 88: R329 names loads, atomics and counter reads). -/
def mayOwe (s : State) (t : Nat) (tm : Team) (l id : Nat) : Bool :=
  tm.r.q.any (fun q => q.2.claims.any (fun c => decide (c = .thread l id))) ||
  (flyOf s tm.at_.core).any (fun e => decide (e.team = t) && decide (e.id = id))

/-- Whether a thread has nothing on its way but what is saved, and no fault that its ended park would deliver. -/
def threadStill (s : State) (t : Nat) (tm : Team) (l : Nat) (th : Thread) : Bool :=
  th.out.owes.all (fun o => mayOwe s t tm l o.id) && settled s { th with out := { th.out with tw := 0 } } && decide (th.out.links = 0) &&
  (tm.halted || !faultDue tm th)

/-- Whether a command stands at a restart point with nothing on its way: a quantisation at a block boundary, its pushes taken (R330). An `xinv` runs to
its end once its gate is open. -/
def cmdStill (s : State) (m : Cmd) : Bool :=
  match m.work with
  | .xinv _ _ _ => !m.gateMet
  | .copy _ => decide (m.lreads = []) && decide (m.lacks = [])
  | .quant w =>
    let tm := s.team m.team
    decide (m.lreads = []) && decide (m.lacks = []) && !pushWaits s m &&
      decide ((w.restLines tm m.pos (m.cut.getD (w.begun tm m.pos))).length ≤ m.cpos)

def loopStill (a : Loop) : Bool := a.lread.isNone && decide (a.lacks = []) && !a.adding

/-- Whether a team can be saved. -/
def teamStill (s : State) (t : Nat) (tm : Team) : Bool :=
  let k := s.core tm.at_.core
  (tm.halted || tm.groups.all (fun g => tm.stopped.contains g.1 || tm.clean g.2)) &&
  tm.threads.all (fun e => threadStill s t tm e.1 e.2) &&
  !k.out.any (fun r => r.parts.any (fun p => decide (p.team = t))) && !s.adds.any (fun a => decide (a.2.team = some t)) &&
  !s.subs.any (fun b => decide (b.2.team = some t)) && k.cmds.all (fun m => decide (m.team ≠ t) || cmdStill s m) &&
  (match loopOf s t with
   | some a => loopStill a
   | none => true) &&
  !(s.part tm.at_.part).calls.any (fun c => decide (c.team = t))

/-- The entries of a team's core that its cluster's h registers or its own commands name, by their tokens (R331). -/
def liveHandles (s : State) (t : Nat) : List (Word × HEnt) :=
  let core := (s.team t).at_.core
  let k := s.core core
  let named := fun w => (clusterTeams s t).any (fun u => (s.team u).r.h.any (fun r => decide (r.2.val = w)))
  let own := fun e => k.cmds.any (fun m => decide (m.team = t) && decide (m.entry = e)) ||
    k.quad.fly.any (fun f => decide (f.team = t) && (match isStream f.ins with
      | some x => decide (x.entry = e)
      | none => false)) ||
    (match loopOf s t with
     | some a => decide (a.entry = e)
     | none => false)
  (k.hnd.map (fun e => (mkToken core e.1 e.2.gen, e.2))).filter (fun e => decide (e.2.st ≠ .free) && (named e.1 || own (tokEntry e.1)))

/-- The bytes of a buffer that the team's valid reservations cover, by offset from `base` (R332). -/
def coveredBytes (m : Mem) (tm : Team) (b : Buf) (base : Nat) : Mem :=
  let rs := (tm.r.resv.map Prod.snd).filter (fun r => r.valid && decide (r.buf = b))
  (m.filter (fun c => rs.any (fun r => decide (base + r.base ≤ c.1) && decide (c.1 < base + r.base + r.len)))).map (fun c => (c.1 - base, c.2))

/-- The quadrant of a team's core as far as it is the team's cluster's: its planes and roles where the cluster owns them, and the team's own
instructions in flight. -/
def savedQuad (s : State) (t : Nat) : Quad :=
  let q := (s.core (s.team t).at_.core).quad
  let us := clusterTeams s t
  let mine := fun (o : Option Nat) => match o with
    | some u => us.contains u
    | none => false
  let fly := q.fly.filter (fun e => us.contains e.team)
  let q' : Quad := if mine q.owner then { q with fly } else { fly }
  if mine q.irec.owner then { q' with irec := q.irec } else { q' with irec := {} }

/-- What stays of a quadrant when a cluster's part has been saved. -/
def restQuad (s : State) (t : Nat) : Quad :=
  let q := (s.core (s.team t).at_.core).quad
  let us := clusterTeams s t
  let mine := fun (o : Option Nat) => match o with
    | some u => us.contains u
    | none => false
  let q' : Quad := if mine q.owner then { irec := q.irec } else q
  let q' : Quad := if mine q.irec.owner then { q' with irec := {} } else q'
  { q' with fly := q.fly.filter (fun e => !us.contains e.team) }

def coverOf (s : State) (t : Nat) : Tbl Nat :=
  match loopOf s t with
  | some a => (s.core (s.team t).at_.core).cover.filter (fun e => decide (e.1 < a.ncells))
  | none => []

/-- A team as its image holds it: what waits for a walk, and instructions that have not issued, are not part of it (R329). -/
def stillTeam (tm : Team) : Team :=
  { tm with
    stop := false
    stopped := []
    threads := tm.threads.map (fun e => (e.1, { e.2 with run := { e.2.run with waitH := none, xres := [] } })) }

/-- Streams of a team brought back to a row boundary (R330): the elements that a row has popped and not used stand in their queue again, ahead of all
others, the row's claim with them. -/
def giveBack (s : State) (t : Nat) : State :=
  let core := (s.team t).at_.core
  (s.core core).quad.fly.foldl (fun s e => match isStream e.ins with
    | some x =>
      if e.team ≠ t ∨ x.popped = [] then s
      else putStream (s.modQueue t x.qn (fun q => { q with elems := x.popped ++ q.elems })) core e.id { x with popped := [] }
    | none => s) s

/-- A command as its image holds it: a quantisation is to own again every line from its restart point on, those too that it has completed since in part
(R330). -/
def savedCmd (tm : Team) (m : Cmd) : Cmd :=
  match m.work with
  | .quant w =>
    let ls := w.dstLines tm
    { m with
      xres := []
      owned := (((List.range ls.length).zip ls).drop m.pos).filterMap (fun e => (w.dstEnd.key tm.at_.core e.2).map (Prod.mk e.1)) }
  | .copy _ => { m with xres := [] }
  | .xinv _ _ _ => { m with xres := [] }

/-- The waiters of a team's near counters. -/
def nearWaiters (s : State) (t : Nat) : List Waiter :=
  s.waiters.filter (fun w => match w.ctr with
    | .near u _ => decide (u = t)
    | .line _ => false)

def saveTeam (s : State) (t : Nat) : SavedTeam :=
  let tm := s.team t
  let k := s.core tm.at_.core
  { uid := t, team := stillTeam tm
    waiters := nearWaiters s t
    cyc := k.cyc
    cmds := (k.cmds.filter (fun m => decide (m.team = t))).map (savedCmd tm)
    quad := savedQuad s t
    loop := (loopOf s t).map (fun a => { a with xres := [] })
    cover := coverOf s t
    handles := liveHandles s t
    wb := coveredBytes k.bufs.wb tm .wb tm.al.wBase
    ab := coveredBytes k.bufs.ab tm .ab tm.al.aBase }

/-- Whether some section of a team's image would carry a poison mark (R332, R163): a covered W or A byte, shared memory, a register. -/
def teamPoisoned (s : State) (t : Nat) : Bool :=
  let tm := s.team t
  let k := s.core tm.at_.core
  let rs := (tm.r.resv.map Prod.snd).filter (fun r => r.valid)
  let in_ := fun (p : Tbl Bool) (b : Buf) base => p.any (fun e => e.2 && rs.any (fun r => decide (r.buf = b) &&
    decide (base + r.base < 64 * e.1 + 64) && decide (64 * e.1 < base + r.base + r.len)))
  (coverOf s t).any (fun e => Tbl.getD k.coverPois (coverSector e.1) false) || in_ k.bufs.wbPois .wb tm.al.wBase || in_ k.bufs.abPois .ab tm.al.aBase || tm.sh.pois.any Prod.snd ||
  tm.r.s.any (fun r => r.2.pois) || tm.threads.any (fun th => th.2.r.v.any (fun r => r.2.pois)) || tm.r.near.any (fun n => n.2.pois)

/-- The team taken off its core. -/
def liftTeam (s : State) (t : Nat) : State :=
  let core := (s.team t).at_.core
  let toks := (liveHandles s t).map Prod.fst
  let rest := restQuad s t
  let loop := loopOf s t
  let near := nearWaiters s t
  ({ s with waiters := s.waiters.filter (fun w => !near.contains w) } : State).modCore core (fun k => { k with
    cmds := k.cmds.filter (fun m => decide (m.team ≠ t))
    quad := rest
    anchor := if loop.isSome then none else k.anchor
    cover := match loop with
      | some a => k.cover.filter (fun e => decide (a.ncells ≤ e.1))
      | none => k.cover
    desc := k.desc.filter (fun d => decide (d.team ≠ t))
    hnd := k.hnd.map (fun e => if toks.contains (mkToken core e.1 e.2.gen) then (e.1, { e.2 with st := .free }) else e) })

/-- An image's bytes written; each line that it covers whole loses its marks (R162). -/
def writeImage (s : State) (pa : Nat) (bs : List Byte) : State :=
  (List.range ((bs.length + 255) / 256)).foldl (fun s i =>
    homeMark s (pa / 256 + i) (fun k => { k with pois := if 256 * i + 256 ≤ bs.length then 0 else k.pois }))
    { s with mem := Mem.writeN s.mem pa bs }

/-- The stamps of saved teams' commands and matrix instructions. -/
def stampsOf (us : List SavedTeam) : List Nat :=
  us.flatMap (fun u => u.cmds.map Cmd.stamp ++ u.quad.fly.filterMap (fun e => match e.ins with
    | .mstream x => some x.stamp
    | .mld _ _ _ _ _ _ st _ _ => some st
    | .mzero _ _ st _ => some st
    | .mswap => none
    | .mread _ _ _ _ _ => none
    | .mrel => none) ++
    (match u.loop with
     | some a => [a.stamp]
     | none => []))

/-- CONTEXT_SAVE: the stopped context's image is written where the slice kernel names, and its teams leave their cores. -/
def saveContext (s : State) (part ctx pa : Nat) : State :=
  let s0 := s
  let s := (ctxTeams s part ctx).foldl (fun s e => giveBack s e.1) s
  let ts := ctxTeams s part ctx
  let full := ts.any (fun e => !e.2.halted && e.2.groups.any (fun g => !e.2.clean g.2))
  let halted := ts.any (fun e => e.2.halted)
  let us := ts.map (fun e => saveTeam s e.1)
  let bs := imageBytes (tagOf part ctx) ((s.ctx part ctx).vtime / 1000) s.now us full halted
  if (s.ctx part ctx).stopAt.isNone ∨ !ts.all (fun e => e.2.ended || teamStill s e.1 e.2) ∨ pa % 256 ≠ 0 ∨ !ownsRange s part pa bs.length then s0
  else
    let im : Image := {
      pa, bytes := bs, vtime := (s.ctx part ctx).vtime, stime := s.now, full, halted, teams := us, order := stampsOf us
      pois := ts.any (fun e => teamPoisoned s e.1) }
    let s1 := writeImage (ts.foldl (fun s e => liftTeam s e.1) s) pa bs
    let s2 := { s1 with
      teams := s1.teams.filter (fun e => !(decide (e.2.at_.part = part) && decide (e.2.at_.ctx = ctx)))
      unpubSys := s1.unpubSys.filter (fun u => !ts.any (fun e => decide (e.1 = u.team))) }
    s2.bumpId.modCtx part ctx (fun c => { c with stopAt := none, saved := some im })

def execContextSave (part ctx : Nat) (pa : Nat) (s : State) : Host.Outcome State Fault Refusal := .next (saveContext s part ctx pa)

-- restoring (R331)

/-- The clusters of an image, by their numbers, ascending. -/
def Image.clusters (i : Image) : List Nat := dedup (i.teams.map (fun u => u.team.at_.clu))

/-- Whether a cluster held a fused quadrant group. -/
def fusedIn (us : List SavedTeam) : Bool :=
  us.any (fun u => decide (u.quad.role ≠ .alone) || decide (u.quad.irec.role ≠ .alone))

/-- The allotments of a saved team on a core; an ended team needs its shared allotment only. -/
def readmit (s : State) (core : Nat) (u : SavedTeam) : Option Allot :=
  if u.team.ended then
    (fitRange (2 ^ 19) u.team.al.shLen ((s.teams.filter (fun e => decide (e.2.at_.core = core))).map (fun e => (e.2.al.shBase, e.2.al.shLen)))).map
      (fun b => { shBase := b, shLen := u.team.al.shLen })
  else admits s core u.team.hdr

def Role.move (r : Role) (core old : Nat) : Role :=
  match r with
  | .lent ld => .lent (ld + core - old)
  | .alone => .alone
  | .leader sh => .leader sh

/-- A core's new number for a member of the cluster that moves (R331: same positions). -/
def renameEntry (m : List (Nat × Nat)) (e : Nat) : Nat := ((m.find? (fun p => decide (p.1 = e))).map Prod.snd).getD e

/-- A line of a buffer after its allotment has moved by whole lines. -/
def moveLine (core : Nat) (o n : Allot) : LineK → LineK
  | .mem l => .mem l
  | .sh t l => .sh t l
  | .wb _ l => .wb core (l + n.wBase / 256 - o.wBase / 256)
  | .ab _ l => .ab core (l + n.aBase / 256 - o.aBase / 256)
  | .acc _ l => .acc core (l + 16 * n.pBase - 16 * o.pBase)

/-- A copied source line's number after the move: lines of a slot move with their buffer. -/
def moveSnap (core : Nat) (o n : Allot) (src : EndPt) (k : Snap) : Snap :=
  match src with
  | .slot _ r _ =>
    match moveLine core o n (bufLineK core r.buf (k.line * 256)) with
    | .wb _ l => { k with line := l }
    | .ab _ l => { k with line := l }
    | .acc _ l => { k with line := l }
    | .mem _ => k
    | .sh _ _ => k
  | .glob _ => k
  | .sh _ _ => k
  | .nvme _ _ => k

def Work.source : Work → EndPt
  | .copy w => w.src
  | .quant w => w.srcEnd
  | .xinv _ _ _ => .glob 0

/-- A saved command as it resumes on a core (R330): fresh stamp, its lines owned again, no block boundary to stop at. -/
def moveCmd (core : Nat) (o n : Allot) (m : List (Nat × Nat)) (stamp : Nat → Nat) (k : Cmd) : Cmd :=
  { k with
    entry := renameEntry m k.entry
    stamp := stamp k.stamp
    cut := none
    cpos := 0
    drained := false
    owned := k.owned.map (fun e => (e.1, moveLine core o n e.2))
    snaps := k.snaps.map (moveSnap core o n k.work.source) }

def moveIns (o n : Allot) (m : List (Nat × Nat)) (stamp : Nat → Nat) : MIns → MIns
  | .mld slot r0 kb0 kn nn lab st lanes ss =>
    .mld slot r0 kb0 kn nn lab (stamp st) lanes (ss.map (fun k => { k with line := k.line + n.wBase / 256 - o.wBase / 256 }))
  | .mswap => .mswap
  | .mstream x => .mstream { x with
      entry := renameEntry m x.entry
      stamp := stamp x.stamp
      snaps := x.snaps.map (fun k => { k with line := k.line + n.aBase / 256 - o.aBase / 256 }) }
  | .mread page first count q taken => .mread (page + n.pBase - o.pBase) first count q taken
  | .mzero pages lab st lanes => .mzero (pages.map (fun p => p + n.pBase - o.pBase)) lab (stamp st) lanes
  | .mrel => .mrel

/-- A fresh stamp in the original order, from a base later than every stamp issued before the image's first cluster was restored (R330). -/
def freshStamp (base : Nat) (all : List Nat) (x : Nat) : Nat := base + (all.filter (fun y => decide (y < x))).length

/-- Saved handle entries put into free entries of a core: old and new token (R331). -/
def renewHandles (core : Nat) : State → List (Word × HEnt) → Option (State × List (Word × Word))
  | s, [] => some (s, [])
  | s, (w, e) :: hs =>
    match takeHandle s core e.lab with
    | none => none
    | some (n, w', s) =>
      let s := s.modHandle core n (fun h => { e with gen := h.gen })
      match renewHandles core s hs with
      | none => none
      | some (s, m) => some (s, (w, w') :: m)

def remapSlot (m : List (Nat × Nat)) (n : Nat) : Nat := renameEntry m n

/-- Whether a handler of ACC_FIRST_USE has a page in hand: a lane on the core, or one that has left it with its context's image (R333, R334). -/
def inHandler (s : State) (part : Nat) (cp : Nat × Nat) : Bool :=
  let at_ := fun (tm : Team) => decide (tm.at_.core = cp.1) && tm.threads.any (fun th => th.2.handles cp.2)
  s.teams.any (fun e => at_ e.2) || (s.part part).ctxs.any (fun c => c.2.saved.any (fun im => im.teams.any (fun u => at_ u.team)))

/-- The saved copies of a context's accumulator pages of a team that lands on other store pages than it left, put where the save area keeps those of the new
pages, so that the handler of R334, and what the team has in flight, find them: a copy within memory, since a restore saves no page and changes no element
(R333). None while a page that the team has left holds the tag still or is in a handler's hand: the team stays in its image (DESIGN CHOICE, log 90: the
rules hand pages over only at one place of the store). -/
def carryPages (s : State) (part ctx old : Nat) (o : Allot) (core : Nat) (n : Allot) : Option State :=
  let c := s.ctx part ctx
  let from_ := (List.range o.pLen).map (fun j => (old, o.pBase + j))
  let to_ := (List.range o.pLen).map (fun j => (core, n.pBase + j))
  if o.pLen = 0 ∨ from_ = to_ then some s
  else if from_.any (fun cp => decide (accownAt s cp.1 cp.2 = tagOf part ctx) || inHandler s part cp || rangeAway s (areaOf c cp.1 cp.2) 4096) then none
  else if !(from_ ++ to_).all (fun cp => ownsRange s part (areaOf c cp.1 cp.2) 4096) then some s
  else
    let lines := from_.map (fun cp => (List.range 16).map (fun i =>
      let l := areaOf c cp.1 cp.2 / 256 + i
      (Mem.readN s.mem (l * 256) 256, s.line l)))
    some ((to_.zip lines).foldl (fun s e => ((List.range 16).zip e.2).foldl (fun s x =>
      let l := areaOf c e.1.1 e.1.2 / 256 + x.1
      (homeWrite s (l * 256) x.2.1 x.2.2.lab false false).modLine l (fun k => { k with pois := x.2.2.pois })) s) s)

/-- A saved team put on a core: the state, and its tokens' renewal. The core's L1 copies are dropped, so that no thread reads a value older than one it
has read or written (R166, R168; log 87). -/
def landTeam (s : State) (u : SavedTeam) (core : Nat) (stamp : Nat → Nat) : Option (State × List (Word × Word)) :=
  let old := u.team.at_.core
  let k := s.core core
  let busy := (u.loop.isSome && k.anchor.isSome) ||
    ((u.quad.owner.isSome || u.quad.irec.owner.isSome) && (k.quad.irec.owner.isSome || decide (flyOf s core ≠ [])))
  match readmit s core u with
  | none => none
  | some al =>
    if busy then none
    else
      match (carryPages s u.team.at_.part u.team.at_.ctx old u.team.al core al).bind (fun s => renewHandles core (zeroBuffers s core al) u.handles) with
      | none => none
      | some (s, toks) =>
        let m := toks.map (fun e => (tokEntry e.1, tokEntry e.2))
        let o := u.team.al
        let sl := o.slots.zip al.slots
        let cyc := (s.core core).cyc
        let tm := { u.team with
          at_ := { u.team.at_ with core }
          al
          r := { u.team.r with q := u.team.r.q.map (fun e => (e.1, { e.2 with
            claims := e.2.claims.map (fun c => match c with
              | .row _ => .row core
              | .thread l id => .thread l id) })) }
          groups := u.team.groups.foldl (fun t g => Tbl.put t (remapSlot sl g.1) { g.2 with formed := cyc, wait := 0, lastIss := none }) []
          heats := u.team.heats.map (fun h => { h with opened := cyc, since := none, aged := u.cyc + h.aged - h.opened })
          threads := u.team.threads.map (fun e => (e.1, { e.2 with run := { e.2.run with segCyc := cyc } }))
          forced := u.team.forced.map (fun f => (remapSlot sl f.1, f.2)) }
        let s := s.modCore core (fun k => { k with
          l1 := []
          cmds := k.cmds ++ u.cmds.map (moveCmd core o al m stamp)
          anchor := match u.loop with
            | some a => some { a with entry := renameEntry m a.entry, stamp := stamp a.stamp }
            | none => k.anchor
          cover := match u.loop with
            | some a => u.cover.foldl (fun t e => Tbl.put t e.1 e.2) (k.cover.filter (fun e => decide (a.ncells ≤ e.1)))
            | none => k.cover
          quad :=
            let fly := u.quad.fly.map (fun e => { e with ins := moveIns o al m stamp e.ins })
            let q : Quad := if u.quad.owner.isSome then { u.quad with role := u.quad.role.move core old, irec := k.quad.irec, fly := [] } else k.quad
            let q : Quad := if u.quad.irec.owner.isSome then { q with irec := { u.quad.irec with role := u.quad.irec.role.move core old } } else q
            { q with fly := k.quad.fly ++ fly }
          bufs := { k.bufs with
            wb := u.wb.foldl (fun t c => Mem.write t (al.wBase + c.1) c.2) k.bufs.wb
            ab := u.ab.foldl (fun t c => Mem.write t (al.aBase + c.1) c.2) k.bufs.ab } })
        some ({ s with teams := Tbl.put s.teams u.uid tm, waiters := s.waiters ++ u.waiters }, toks)

/-- The core of a command, an instruction or a loop of teams that have landed, by its number (R312). -/
def landedOn (us : List (SavedTeam × Nat)) (p : SavedTeam → Bool) (old : Nat) : Nat := ((us.find? (fun u => p u.1)).map Prod.snd).getD old

/-- A waiter's action after its command has landed on another core. -/
def moveAct (us : List (SavedTeam × Nat)) : WAct → WAct
  | .gateCmd c id => .gateCmd (landedOn us (fun u => u.cmds.any (fun m => decide (m.id = id))) c) id
  | .gateQuad c id => .gateQuad (landedOn us (fun u => u.quad.fly.any (fun e => decide (e.id = id) && decide (e.team = u.uid))) c) id
  | .gateAnchor c id => .gateAnchor (landedOn us (fun u => u.loop.any (fun a => decide (a.id = id))) c) id
  | .resume t ls => .resume t ls
  | .launch r q => .launch r q
  | .post d x => .post d x
  | .add c n => .add c n
  | .noop => .noop

/-- Every waiter, armed or fired and not yet performed (R314), that opens a gate of teams which have landed names their new cores: those of cluster mates' near
counters too. -/
def moveActs (us : List (SavedTeam × Nat)) (s : State) : State :=
  let w := fun (x : Waiter) => { x with act := moveAct us x.act }
  let ws := fun (l : List (Waiter × DWord)) => l.map (fun e => (w e.1, e.2))
  { s with
    waiters := s.waiters.map w
    adds := s.adds.map (fun e => (e.1, { e.2 with rest := ws e.2.rest }))
    subs := s.subs.map (fun e => (e.1, { e.2 with rest := ws e.2.rest })) }

def landTeams (stamp : Nat → Nat) : State → List (SavedTeam × Nat) → Option (State × List (Word × Word))
  | s, [] => some (s, [])
  | s, (u, core) :: us =>
    match landTeam s u core stamp with
    | none => none
    | some (s, m) =>
      match landTeams stamp s us with
      | none => none
      | some (s, m') => some (s, m ++ m')

/-- A cluster restored at an origin, the cluster's h registers rewritten with the new tokens. -/
def landCluster (s : State) (part clu origin : Nat) (us : List SavedTeam) (stamp : Nat → Nat) : Option State :=
  match us.head? with
  | none => none
  | some u0 =>
    let p := u0.team.at_
    match clusterCores (u0.team.hdr.align || fusedIn us) p.shW p.count origin with
    | none => none
    | some cs =>
      if !cs.all (hasUnit s part) then none
      else
        let at_ := us.map (fun u => (u, cs.getD u.team.at_.rank 0))
        match (landTeams stamp s at_).map (fun r => (moveActs at_ r.1, r.2)) with
        | none => none
        | some (s, m) =>
          let new := fun (w : Word) => ((m.find? (fun e => decide (e.1 = w))).map Prod.snd).getD w
          some { s with teams := s.teams.map (fun e =>
            if e.2.at_.part = part ∧ e.2.at_.clu = clu then
              (e.1, { e.2 with r := { e.2.r with h := e.2.r.h.map (fun r => (r.1, { r.2 with val := new r.2.val })) } })
            else e) }

/-- Whether a line of an image carries a poison mark (R332). -/
def imagePoisoned (s : State) (i : Image) : Bool :=
  i.pois || (List.range ((i.bytes.length + 255) / 256)).any (fun k => decide ((s.line (i.pa / 256 + k)).pois ≠ 0))

/-- Clusters of an image restored, one at each origin; a number above 95 leaves its cluster in the image. -/
def restoreClusters (part ctx : Nat) (stamp : Nat → Nat) : State → List (Nat × Nat) → State
  | s, [] => s
  | s, (clu, origin) :: cs =>
    match (s.ctx part ctx).saved with
    | none => s
    | some im =>
      let us := im.teams.filter (fun u => decide (u.team.at_.clu = clu))
      match (if origin < 96 then landCluster s part clu origin us stamp else none) with
      | none => restoreClusters part ctx stamp s cs
      | some s =>
        let rest := im.teams.filter (fun u => decide (u.team.at_.clu ≠ clu))
        restoreClusters part ctx stamp (s.modCtx part ctx (fun c => { c with
          paged := false, wake := false, saved := if rest = [] then none else some { im with teams := rest } })) cs

/-- How many numbers a reading of another module's image may use for its teams and commands. -/
def imageNames : Nat := 2 ^ 32

/-- Whether a reading of an image that this module did not write is one of a context of this partition, whose tag the image carries (R331: CTXID keeps its
value): its teams, clusters, grids and commands are named from `n` on, and every table of bytes has its form. -/
def Image.fits (n part ctx : Nat) (i : Image) : Bool :=
  let fresh := fun x => decide (n ≤ x) && decide (x < n + imageNames)
  decide ((i.teams.map SavedTeam.uid).Nodup) &&
  i.teams.all (fun u => fresh u.uid && fresh u.team.at_.clu && fresh u.team.at_.grid && decide (u.team.at_.part = part) && decide (u.team.at_.ctx = ctx) && decide (u.team.at_.core < 96) &&
    Mem.wf u.wb && Mem.wf u.ab && Mem.wf u.team.sh.bytes &&
    u.cmds.all (fun m => fresh m.id && decide (m.part = part) && decide (m.ctx = ctx) && decide (m.team = u.uid)) &&
    u.quad.fly.all (fun e => fresh e.id) &&
    u.loop.all (fun a => fresh a.id && decide (a.part = part) && decide (a.ctx = ctx) && decide (a.team = u.uid)) &&
    u.waiters.all (fun w => decide (w.part = part) && decide (w.ctx = ctx) && (match w.ctr with
      | .near t _ => decide (t = u.uid)
      | .line _ => false)))

/-- The image of a context in the form of R332. -/
def Image.encode (part ctx : Nat) (i : Image) : List Byte := imageBytes (tagOf part ctx) (i.vtime / 1000) i.stime i.teams i.full i.halted

/-- The context that bytes describe which this module did not write itself, of another W6 or changed in memory (R26, R332): the reading that is given, a
context whose own image, header, directory and sections, is these bytes. R332 does not say how every field of a section is read back, so that any such reading
may be the one (log 16). -/
def foreignImage (s : State) (part ctx pa : Nat) (bs : List Byte) : Option Image :=
  (s.m.foreign.filter (fun i => i.fits s.newId part ctx && decide (i.encode part ctx = bs))).map (fun i =>
    { i with pa, bytes := bs, base := none, order := stampsOf i.teams, pois := false })

/-- The image that stands in memory at `pa` (R332): the context's own where its bytes are those the device wrote, else what the bytes describe; none while no
reading of them is given. -/
def imageAt (s : State) (part ctx pa len : Nat) : Option Image :=
  let other := fun (n : Nat) => foreignImage s part ctx pa (Mem.readN s.mem pa n)
  match (s.ctx part ctx).saved with
  | some im => if Mem.readN s.mem pa im.bytes.length = im.bytes then some { im with pa } else other im.bytes.length
  | none => other len

/-- Grids of a context that another W6 has saved: each holds the teams that the image holds, all of them placed, and ends with the last of them (R242; DESIGN
CHOICE, log 16: the image does not hold how much of the grid the other module has placed). -/
def foreignGrids (s : State) (part ctx : Nat) (us : List SavedTeam) : State :=
  us.foldl (fun s u =>
    let g := u.team.at_.grid
    let n := if u.team.ended then 0 else 1
    { s with grids := Tbl.put s.grids g (match Tbl.find s.grids g with
      | some gr => { gr with live := gr.live + n }
      | none => { part, ctx, record := { hdr := u.team.hdr, consts := [], seq := 0 }, next := u.team.hdr.teams, live := n }) }) s

/-- An image that was paged out brought back to memory (R331, R348). -/
def pageIn (s : State) (part ctx pa : Nat) : State :=
  if (s.ctx part ctx).paged then writeImage s pa (s.ctx part ctx).out else s

/-- A restore begun: the context's VTIME and local slots are those of the image, and its stamps count from one later than every stamp issued before and earlier
than that of every command issued later, in this nanosecond too (R330). -/
def startRestore (s : State) (part ctx : Nat) (im : Image) : State :=
  match im.base with
  | some _ => s.modCtx part ctx (fun c => { c with saved := some im })
  | none =>
    let s : State := { s with m := { s.m with epoch := s.newId } }
    let base := stampAt s 0
    let s := if im.teams.any (fun u => (Tbl.find s.grids u.team.at_.grid).isSome) then s else foreignGrids s part ctx im.teams
    ({ s with m := { s.m with nextId := s.m.nextId + im.order.length + imageNames, foreign := none } } : State).modCtx part ctx (fun c => { c with
      vtime := im.vtime
      lts := dedup (c.lts ++ im.teams.map (fun u => u.team.at_.lt))
      saved := some { im with base := some base } })

/-- CONTEXT_RESTORE: the image at `pa` is read back, each cluster into a rectangle of its shape, where it fits. One with a poison mark is refused. `len` is the
length of an image that this module has not saved (R26). -/
def execContextRestore (part ctx : Nat) (origins : Landing) (s : State) : Host.Outcome State Fault Refusal :=
  .next (let pa := origins.pa
    if (Tbl.find (s.part part).ctxs ctx).isNone ∨ ctxTeams s part ctx ≠ [] && (s.ctx part ctx).saved.isNone ∨ pa % 256 ≠ 0 ∨
      !ownsRange s part pa (max origins.len (s.ctx part ctx).out.length) then s
    else
      let s := pageIn s part ctx pa
      match imageAt s part ctx pa origins.len with
      | none => s
      | some im =>
        if rangeAway s pa im.bytes.length then s else
        if imagePoisoned s im then s.report (.imageRefused part ctx)
        else if im.teams = [] then s.modCtx part ctx (fun c => { c with saved := none, paged := false, wake := false })
        else
          let s := startRestore s part ctx im
          let base := ((s.ctx part ctx).saved.bind Image.base).getD 0
          restoreClusters part ctx (freshStamp base im.order) s (im.clusters.zip origins.at_))

-- creating, destroying and paging out (R331, R333, R334, R348, R349)

/-- Accumulator pages with a tag released; with `zero`, their bytes too (R334, R358). -/
def dropPages (s : State) (p : Nat → Bool) (zero : Bool) : State :=
  { s with cores := s.cores.map (fun e =>
      let ps := (e.2.accown.filter (fun a => p a.2)).map Prod.fst
      let out := fun (page : Nat) => zero && ps.contains page
      (e.1, { e.2 with
        accown := e.2.accown.filter (fun a => !p a.2)
        bufs := { e.2.bufs with
          acc := e.2.bufs.acc.filter (fun c => !out (c.1 / 4096))
          accPois := e.2.bufs.accPois.filter (fun c => !out (c.1 / 64)) } })) }

/-- A key from the DRBG (R349): its number, none while the entropy source fails. -/
def newKey (s : State) : Option (Nat × State) :=
  if !s.boot.entOk then none
  else some (s.boot.drbg + 1, { s with boot := { s.boot with drbg := s.boot.drbg + 1 } })

/-- CONTEXT_CREATE: the context word, LBASE (R154), the context key, and the save area of its accumulator pages. No context is made before the slice
kernel has set SVEC (R334). -/
def execContextCreate (part ctx : Nat) (word : DWord) (lbase : Layout) (s : State) : Host.Outcome State Fault Refusal :=
  .next (if !(s.part part).live ∨ 64 ≤ ctx ∨ (Tbl.find (s.part part).ctxs ctx).isSome ∨ lbase.lbase % 65536 ≠ 0 ∨ 2 ^ 52 ≤ lbase.lbase ∨
      (s.part part).svec = 0 ∨ lbase.area % 4096 ≠ 0 then s
    else
      match newKey s with
      | none => s.report .keyEntropy
      | some (k, s) => s.modPart part (fun p => { p with ctxs := Tbl.put p.ctxs ctx { word, lbase := lbase.lbase, key := k, area := lbase.area } }))

/-- The accumulator pages that hold a tag, by core (R333). -/
def taggedPages (s : State) (tag : Nat) : List (Nat × Nat) :=
  s.cores.flatMap (fun c => (c.2.accown.filter (fun a => decide (a.2 = tag))).map (fun a => (c.1, a.1)))

/-- Every page with the context's tag spilled, its element set to 0xFFFF (R334); none where the save area is not memory of the partition, and while a handler has
one of the pages in hand, whose bytes may be the next owner's already (R334, R340; DESIGN CHOICE, log 90). -/
def spillPages (s : State) (part ctx : Nat) : Option State :=
  let c := s.ctx part ctx
  let ps := taggedPages s (tagOf part ctx)
  if !ps.all (fun cp => ownsRange s part (areaOf c cp.1 cp.2) 4096 && !inHandler s part cp) then none
  else some (dropPages (ps.foldl (spillPage c) s) (fun o => decide (o = tagOf part ctx)) false)

/-- A context gone: its pages, translations, waits and queues with it. -/
def dropContext (s : State) (part ctx : Nat) (zero : Bool) : State :=
  let tag := tagOf part ctx
  let s := dropPages s (fun o => decide (o = tag)) zero
  let keep := fun (x : Xlat) => !(decide (x.part = part) && decide (x.tag = tag))
  let s := { s with
    cores := s.cores.map (fun (e : Nat × Core) => (e.1, { e.2 with atc := e.2.atc.filter keep }))
    cells := s.cells.map (fun (e : Nat × Cell) => (e.1, { e.2 with l2 := e.2.l2.filter keep }))
    grids := s.grids.filter (fun g => !(decide (g.2.part = part) && decide (g.2.ctx = ctx))) }
  s.modPart part (fun p => { p with ctxs := Tbl.del p.ctxs ctx })

/-- CONTEXT_DESTROY: a context with no team on a core; its pages are spilled and its queues disabled first. -/
def execContextDestroy (part ctx : Nat) (s : State) : Host.Outcome State Fault Refusal :=
  .next (if (ctxTeams s part ctx) ≠ [] ∨ (s.part part).queues.any (fun q => q.2.enabled && decide (q.2.ctx = ctx)) then s
    else
      match spillPages s part ctx with
      | none => s
      | some s => dropContext s part ctx false)

/-- The context's accumulator pages are spilled, and its image goes to block `block` of namespace `ns` of its partition, encrypted under
the context key and the namespace's (R331, R334, R348). -/
def pageOut (s : State) (part ctx ns block : Nat) : State :=
  match (s.ctx part ctx).saved with
  | none => s
  | some im =>
    let n := im.bytes.length + 16
    if (s.ctx part ctx).paged ∨ rangeAway s im.pa im.bytes.length ∨ (nsAt s part ns).len < block + (n + 511) / 512 then s
    else
      match spillPages s part ctx with
      | none => s
      | some s =>
        let bs := Mem.readN s.mem im.pa im.bytes.length
        let sent := onBlocks (fun b x => cipher (partKey s part 3) b 0 x) block
          ((List.range n).map (Config.gcm (s.ctx part ctx).key bs) ++ List.replicate ((512 - n % 512) % 512) 0)
        (toDrive s part ns block sent false).modCtx part ctx (fun c => { c with paged := true, out := bs })

/-- CONTEXT_PAGE_OUT. -/
def execContextPageOut (part : Nat) (ctx : PageOut) (s : State) : Host.Outcome State Fault Refusal :=
  .next (pageOut s part ctx.ctx ctx.ns ctx.block)

end Sys2Proof.Machine
end

