-- ==== Sys2Proof/Machine/Calls.lean ====
section
/-! DEFINITION. Calls of `svc` as the slice kernel serves them (R140, R343 to R345), with quotes and certificate slots (R350 to R352) and
the samples of event counters (R319, R356). -/

namespace Sys2Proof.Machine

open Sys2Proof

def modCall (s : State) (part id : Nat) (f : Call → Call) : State :=
  s.modPart part (fun p => { p with calls := p.calls.map (fun c => if c.id = id then f c else c) })

def answer (s : State) (part id st v : Nat) : State := modCall s part id (fun c => { c with ans := some (st, v) })
/-- REFUSED with a reason (R345). -/
def refuse (s : State) (part id why : Nat) : State := answer s part id 1 why

/-- The calls of one lane are served in program order (R141): whether an earlier one of the lane stands unanswered. -/
def callBehind (p : PartSt) (c : Call) : Bool :=
  p.calls.any (fun d => decide (d.id < c.id) && decide (d.team = c.team) && decide (d.thread = c.thread) && d.ans.isNone)

/-- The call of a number that the slice kernel serves next. -/
def nextCall (s : State) (part num : Nat) : Option Call :=
  (s.part part).calls.find? (fun c => decide (c.num = num) && c.ans.isNone && !callBehind (s.part part) c)

/-- A call served: its label is checked first (R345). -/
def serve (s : State) (part num : Nat) (f : State → Call → State) : State :=
  match nextCall s part num with
  | none => s
  | some c => if c.lab ≠ 0 then refuse s part c.id 4 else f s c

def partUnits (s : State) (part : Nat) : List Nat := (List.range 96).filter (fun c => hasUnit s part c)
def partSlices (s : State) (part : Nat) : List Nat :=
  (List.range 32).filter (fun d => decide ((s.slice d).owner = some part) && !(s.slice d).dead)

/-- What INFO answers for an item. -/
def infoValue (s : State) (part item : Nat) : Option Nat :=
  let p := s.part part
  match item with
  | 0 => some part
  | 1 => some (partUnits s part).length
  | 2 => some (partSlices s part).length
  | 3 => some (bit p.demoted 0)
  | 4 => some (p.trace.dropped % 2 ^ 32)
  | _ => none

/-- SVC_INFO (R344). -/
def execSvcInfo (part : Nat) (s : State) : Host.Outcome State Fault Refusal :=
  .next (serve s part 0 (fun s c =>
    match infoValue s part (c.a.toNat % 256) with
    | some v => answer s part c.id 0 v
    | none => refuse s part c.id 2))

/-- SVC_YIELD: the context's time slice ends at its next clean stop (R344). -/
def execSvcYield (part : Nat) (s : State) : Host.Outcome State Fault Refusal :=
  .next (serve s part 1 (fun s c =>
    let s := answer s part c.id 0 0
    if ctxRuns (s.ctx part c.ctx) then (stopRequest s part c.ctx).modCtx part c.ctx (fun k => { k with yield := true }) else s))

/-- A free file handle: which one is free to the slice kernel (log 21). -/
def freeFile (s : State) (part : Nat) : Option Nat :=
  let start := (Config.freeWord s.m.free).toNat % 255
  ((List.range 255).map (fun i => (start + i) % 255 + 1)).find? (fun h => (Tbl.find (s.part part).files h).isNone)

/-- SVC_NS_OPEN (R344). -/
def execSvcNsOpen (part : Nat) (s : State) : Host.Outcome State Fault Refusal :=
  .next (serve s part 2 (fun s c =>
    let n := c.a.toNat % 16
    if (Tbl.find (s.part part).nss n).isNone then refuse s part c.id 2
    else
      match freeFile s part with
      | none => refuse s part c.id 3
      | some h =>
        answer (s.bumpFree.modPart part (fun p => { p with files := Tbl.put p.files h (c.ctx, n, c.a.getLsbD 4) })) part c.id 0 h))

/-- SVC_NS_CLOSE (R344): a handle that the context has open. -/
def execSvcNsClose (part : Nat) (s : State) : Host.Outcome State Fault Refusal :=
  .next (serve s part 3 (fun s c =>
    let h := c.a.toNat % 256
    match Tbl.find (s.part part).files h with
    | some f =>
      if f.1 = c.ctx then answer (s.modPart part (fun p => { p with files := Tbl.del p.files h })) part c.id 0 0 else refuse s part c.id 2
    | none => refuse s part c.id 2))

/-- SVC_TRACE (R344). -/
def execSvcTrace (part : Nat) (s : State) : Host.Outcome State Fault Refusal :=
  .next (serve s part 5 (fun s c =>
    answer (s.modPart part (fun p => { p with trace := { p.trace with on := c.a.getLsbD 0 } })) part c.id 0 0))

-- quotes (R350 to R352)

/-- What the quote area comes to: a walk runs, it is invalid, or its physical address. -/
inductive Area where
  | wait (s : State)
  | bad (s : State)
  | ok (s : State) (x : Xlat)

/-- The area of a QUOTE: 4 KiB-aligned, readable and writable memory of this module, on a page that is not sealed (R153, R344, R345). -/
def quoteArea (s : State) (part : Nat) (c : Call) : Area :=
  let va := c.a.toNat
  if va % 4096 ≠ 0 ∨ 2 ^ 52 ≤ va then .bad s
  else
    match xlateCell s (.call part c.id) c.xres part (tagOf part c.ctx) va va kindEngineWrite permBoth with
    | .wait s => .wait s
    | .ans s (.fail _) => .bad s
    | .ans s (.ok x) =>
      let pa := x.pa va
      if rangeAway s pa 4096 then .wait s
      else if !permsIn permBoth (attrPerm x.attr) || attrCnt x.attr || attrSealed x.attr || isLink pa || noSuch pa || poisAt s pa || poisAt s (pa + 64) then .bad s
      else .ok s x

/-- The bank that the module booted from. -/
def bootBank (s : State) : Bank := if s.boot.bank = some true then s.boot.flashB else s.boot.flashA

/-- Bytes 0 to 255 of a quote. -/
def quoteHead (s : State) (part : Nat) (c : Call) (nonce : List Byte) (slot : Nat) (gen : Word) : List Byte :=
  nonce ++ leBytes 4 slot ++ leBytes 4 gen.toNat ++ leBytes 8 s.now ++ leBytes 2 c.tag ++ List.replicate 46 0 ++
  (List.range 64).map (Config.shake256 (Config.measurementLog (bootBank s).firmware (bootBank s).kernel)) ++
  (List.range 64).map (Config.shake256 (Config.partitionText (partUnits s part) (partSlices s part) (s.part part).ranges (s.part part).declass))

/-- Bytes written into the area, line by line, under the page's label: a whole line clears its marks, and a part of one that is marked is
discarded (R153, R162). -/
def putBytes (s : State) (x : Xlat) (pa : Nat) (bs : List Byte) : State :=
  (List.range ((bs.length + 255) / 256)).foldl (fun s i =>
    let a := pa + 256 * i
    let b := (bs.drop (256 * i)).take 256
    let put := fun (s : State) => homeWrite s a b (attrLabel x.attr) (attrComp x.attr) false (attrCclass x.attr)
    if b.length = 256 then put (s.modLine (a / 256) (fun k => { k with pois := 0 }))
    else if poisAt s a then s else put s) s

/-- SVC_QUOTE: the challenge arrives, and its slot and the slot's generation are noted; the signer, when it takes the challenge up, compares. The reply does not
wait for the T_w of the lines that the slice kernel has written (DESIGN CHOICE, log 92). -/
def execSvcQuote (part : Nat) (s : State) : Host.Outcome State Fault Refusal :=
  .next (serve s part 4 (fun s c =>
    match quoteArea s part c with
    | .wait s => s
    | .bad s => refuse s part c.id 2
    | .ok s x =>
      let pa := x.pa c.a.toNat
      let genOf := fun slot => (Tbl.getD s.boot.certs slot ([], 0)).2
      match c.gen with
      | none =>
        let slot := homeRead s (pa + 64) 1
        if 8 ≤ slot then refuse s part c.id 2 else modCall s part c.id (fun c => { c with gen := some (slot, (genOf slot).toNat) })
      | some (slot, g) =>
        let gen := genOf slot
        if 2 ^ 20 ≤ s.boot.xmss then answer s part c.id 0 2
        else if g ≠ gen.toNat then answer s part c.id 0 1
        else
          let head := quoteHead s part c (Mem.readN s.mem pa 64) slot gen
          let bs := head ++ (List.range 2820).map (Config.sign s.boot.xmss head)
          let s := putBytes { s with boot := { s.boot with xmss := s.boot.xmss + 1 } } x pa bs
          answer s part c.id 0 0))

/-- CERT_SLOT_WRITE: a completed write adds 1 to the slot's generation (R351). -/
def execCertSlotWrite (slot : Nat) (chain : List Byte) (s : State) : Host.Outcome State Fault Refusal :=
  .next (if 8 ≤ slot then s
    else
      let g := (Tbl.getD s.boot.certs slot ([], 0)).2
      { s with boot := { s.boot with certs := Tbl.put s.boot.certs slot (chain, g + 1) } })

-- the reply (R140, R141)

/-- SVC_REPLY: an answer reaches its lane; a call of an unknown number is refused. -/
def execSvcReply (part call : Nat) (s : State) : Host.Outcome State Fault Refusal :=
  .next (match (s.part part).calls.find? (fun c => decide (c.id = call)) with
    | none => s
    | some c =>
      let earlier := (s.part part).calls.any (fun d => decide (d.id < c.id) && decide (d.team = c.team) && decide (d.thread = c.thread))
      if earlier then s
      else
        let give := fun st v => returnResult (s.modPart part (fun p => { p with calls := p.calls.filter (fun d => decide (d.id ≠ call)) }))
          c.team c.thread c.owe (.val (BitVec.ofNat 64 (st + v * 2 ^ 32)) 0)
        match c.ans with
        | some a => give a.1 a.2
        | none => if c.num < 6 then s else if c.lab ≠ 0 then give 1 4 else give 1 1)

-- samples (R319, R356, R357)

def evTable (s : State) : EvPlace → Tbl EvCtr
  | .core n => (s.core n).ev
  | .cell n => (s.cell n).ev
  | .slice n => (s.slice n).ev

def EvPlace.code : EvPlace → Nat × Nat | .core n => (0, n) | .cell n => (1, n) | .slice n => (2, n)

/-- TRACE_SAMPLE: the slice kernel samples an event counter of the partition into its trace buffer. The record's context is free (log 20). -/
def execTraceSample (part : Nat) (pl : EvPlace) (i : Nat) (s : State) : Host.Outcome State Fault Refusal :=
  .next (match Tbl.find (evTable s pl) i with
    | none => s
    | some e =>
      if e.part ≠ part then s
      else
        emitTrace s.bumpFree part none
          (traceRecord (BitVec.ofNat 64 s.now) e.val 2 i (EvPlace.code pl).2 (EvPlace.code pl).1 (Config.freeArg s.m.free).toNat 0 0) 0)

end Sys2Proof.Machine
end

