-- ==== Sys2Proof/Machine/CrossLane.lean ====
section
/-! DEFINITION. The meanings of row 0x0D and `plut` (R119 to R125). The participants are the lanes of the lane set that are not
guarded off, those that fault before the effect among them. -/

namespace Sys2Proof.Machine

open Sys2Proof

/-- A participant: thread, A with its label, B with its label, PC label and guard label. -/
structure Peer where
  l : Nat
  a : Src
  b : Src
  pcl : Label
  gl : Label
  deriving DecidableEq, Repr

/-- The lane position of a thread (R73). -/
def lanePos (l : Nat) : Nat := l % 16

/-- What a participant reads. One whose A is poisoned faults, and what it gives to the others is free (R336; DESIGN CHOICE, log 86). -/
def peerOf (s : State) (i : Iss) (k : Kind) (f : Form) (l : Nat) : Peer :=
  let a := readOp s i.team l k f.sa.wide f.a
  { l
    a := if (poisonIn s i l f [1]).isSome then { a with val := Config.freeGift [119, i.team, l, (s.thread i.team l).run.ic] } else a
    b := readOp s i.team l .int f.sb.wide f.b
    pcl := pcLabel s i.team l
    gl := guardLab s i.team l f.c }

/-- The label of what a participant gives (R119), and of all of them (R121). -/
def Peer.give (p : Peer) : Label := p.a.lab.join p.pcl
def giveAll (ps : List Peer) : Label := Label.joinAll (ps.map Peer.give)

/-- The participants of a cross-lane instruction with what each reads (R119). -/
def peersOf (s : State) (i : Iss) (k : Kind) (f : Form) : List Peer := (passing s i f.c).map (peerOf s i k f)

/-- A cross-lane instruction: every participant reads at issue, and each that does not fault receives a value and a label, which its own PC and
guard raise. -/
def crossEff (k : Kind) (f : Form) (op : List Peer → Peer → Src) (s : State) (i : Iss) (act : List Nat) : Eff :=
  let ps := peersOf s i k f
  .done ((ps.filter (fun p => act.contains p.l)).foldl (fun s' p =>
    let y := op ps p
    writeOp s' i.team p.l act i.lanes f.lat f.sd.wide f.d y.val (Label.joinAll [y.lab, p.pcl, p.gl])) s) []

def issueCross (k : Kind) (f : Form) (op : List Peer → Peer → Src) (s : State) : State := issueWith .plain f (crossEff k f op) s

/-- The lane position that shfl reads from, as an integer (R120). -/
def shflFrom (m : ShflMode) (seg l : Nat) (b : DWord) : Int :=
  let base : Int := (l - l % seg : Nat)
  let x : Int := (b.setWidth 32).toNat
  match m with
  | .at => base + x % seg
  | .rot => base + ((l : Int) - base - x) % seg
  | .shift => (l : Int) - (b.setWidth 32).toInt
  | .pair => ((l ^^^ ((b.setWidth 32).toNat % seg) : Nat) : Int)

def shflOp (m : ShflMode) (seg : Nat) (ps : List Peer) (p : Peer) : Src :=
  let l := lanePos p.l
  let base := l - l % seg
  let k := shflFrom m seg l p.b.val
  match (if (base : Int) ≤ k ∧ k < (base + seg : Nat) then ps.find? (fun q => decide ((lanePos q.l : Int) = k)) else none) with
  | some q => ⟨q.a.val, Label.joinAll [q.a.lab, q.pcl, p.b.lab]⟩
  | none => ⟨p.a.val, p.a.lab.join p.b.lab⟩

/-- A mask of lane positions. -/
def laneMask (ps : List Peer) : Nat := ps.foldl (fun m p => m ||| 2 ^ lanePos p.l) 0

def voteOp (m : VoteMode) (ps : List Peer) (_ : Peer) : Src :=
  let yes := ps.filter (fun p => decide (p.a.val ≠ 0))
  let x := match m with
    | .every => (decide (yes.length = ps.length)).toNat
    | .some => (decide (yes ≠ [])).toNat
    | .same => (decide (yes = [] ∨ yes.length = ps.length)).toNat
    | .mask => laneMask yes + 2 ^ 16 * laneMask ps
    | .count => yes.length
  ⟨BitVec.ofNat 64 x, giveAll ps⟩

/-- A value delivered by `redux` or `scan`: a NaN result of an FP32 operation is CanonNaN always (R91), that of a single participant too. -/
def redResult (o : RedOp) (x : DWord) : DWord :=
  match o with
  | .int _ _ => x
  | .fadd _ => canonF32 x
  | .fmin => canonF32 x
  | .fmax => canonF32 x

/-- The running combination of R122 over the participants up to each one: thread, value so far, label so far. -/
def runs (o : RedOp) : Option (DWord × Label) → List Peer → List (Nat × DWord × Label)
  | _, [] => []
  | acc, p :: ps =>
    let y : DWord × Label := match acc with
      | some (x, lab) => (redStep o x p.a.val, lab.join p.give)
      | none => (redResult o p.a.val, p.give)
    (p.l, y) :: runs o (some y) ps

def reduxOp (o : RedOp) (ps : List Peer) (_ : Peer) : Src :=
  match (runs o none ps).getLast? with
  | some (_, x, lab) => ⟨x, lab⟩
  | none => {}

/-- scan: the value up to the participant; with `.excl` the value before it, or the identity (R122). The lane reads its own A
(R119). -/
def scanOp (o : RedOp) (excl : Bool) (ps : List Peer) (p : Peer) : Src :=
  if excl then
    match (runs o none (ps.takeWhile (fun q => decide (q.l ≠ p.l)))).getLast? with
    | some (_, x, lab) => ⟨x, lab.join p.a.lab⟩
    | none => ⟨redIdentity o, p.a.lab⟩
  else
    match (runs o none ps).find? (fun e => decide (e.1 = p.l)) with
    | some (_, x, lab) => ⟨x, lab⟩
    | none => {}

def matchOp (m : MatchMode) (ps : List Peer) (p : Peer) : Src :=
  let eq := ps.filter (fun q => decide (q.a.val = p.a.val))
  let x := match m with
    | .peers => laneMask eq
    | .same => (decide (eq.length = ps.length)).toNat
    | .first => match eq with | q :: _ => lanePos q.l | [] => 0
  ⟨BitVec.ofNat 64 x, giveAll ps⟩

def electOp (high : Bool) (ps : List Peer) (p : Peer) : Src :=
  let win := if high then ps.getLast? else ps.head?
  ⟨BitVec.ofNat 64 (decide (win.map Peer.l = some p.l)).toNat,
   Label.joinAll (ps.map (fun q => q.pcl.join q.gl))⟩

/-- The kind of an immediate of redux and scan. -/
def redKind : RedOp → Kind
  | .int _ _ => .int | .fadd _ => .f32 | .fmin => .f32 | .fmax => .f32

/-- `shfl` (R120). -/
def execShfl (c : Ctl) (m : ShflMode) (wide : Bool) (seg : Seg) (d a b : Operand) (s : State) :
    Host.Outcome State Fault Refusal :=
  .next (issueCross .int (formOf (.shfl c m wide seg d a b)) (shflOp m seg.size) s)

/-- `vote` (R121). -/
def execVote (c : Ctl) (m : VoteMode) (d a : Operand) (s : State) : Host.Outcome State Fault Refusal :=
  .next (issueCross .int (formOf (.vote c m d a)) (voteOp m) s)

/-- `redux` (R122). -/
def execRedux (c : Ctl) (o : RedOp) (d a : Operand) (s : State) : Host.Outcome State Fault Refusal :=
  .next (issueCross (redKind o) (formOf (.redux c o d a)) (reduxOp o) s)

/-- `scan` (R122). -/
def execScan (c : Ctl) (o : RedOp) (excl : Bool) (d a : Operand) (s : State) : Host.Outcome State Fault Refusal :=
  .next (issueCross (redKind o) (formOf (.scan c o excl d a)) (scanOp o excl) s)

/-- `match` (R123). -/
def execMatchLanes (c : Ctl) (m : MatchMode) (wide : Bool) (d a : Operand) (s : State) : Host.Outcome State Fault Refusal :=
  .next (issueCross .int (formOf (.matchLanes c m wide d a)) (matchOp m) s)

/-- `elect` (R124). -/
def execElect (c : Ctl) (high : Bool) (d : Operand) (s : State) : Host.Outcome State Fault Refusal :=
  .next (issueCross .int (formOf (.elect c high d)) (electOp high) s)

/-- `plut` (R125). -/
def execPlut (c : Ctl) (table : BitVec 8) (pc : BitVec 3) (d a b : Operand) (s : State) : Host.Outcome State Fault Refusal :=
  .next (issueAlu .int (formOf (.plut c table pc d a b))
    (fun x => plutOp table x.a.val x.b.val (decide (x.p.val = 1))) s)

end Sys2Proof.Machine
end

