-- ==== Sys2Proof/Machine/Sfu.lean ====
section
/-! DEFINITION. The special functions of R115 in FP32, correctly rounded to nearest even. A quotient or a root is formed
with a sticky bit, so its rounding is exact. 2^x, log2, sin and cos are formed by series to 2^-512 with a sticky bit; that
this precision decides every rounding is PRESUMED (log 18). -/

namespace Sys2Proof.Machine

open Sys2Proof

/-- The pattern of a positive or negative value m × 2^e to which a smaller positive part is added when `sticky`. -/
def roundSticky (neg : Bool) (m : Nat) (e : Int) (sticky : Bool) : Nat :=
  FFmt.f32.roundFin .rn neg (2 * m + sticky.toNat) (e - 1)

/-- floor(√x), by the bits of the root from bit n - 1 down. -/
def isqrtAux (x : Nat) : Nat → Nat → Nat
  | 0, r => r
  | n + 1, r => isqrtAux x n (if (r + 2 ^ n) * (r + 2 ^ n) ≤ x then r + 2 ^ n else r)

def isqrt (x : Nat) : Nat := isqrtAux x (Nat.log2 x / 2 + 1) 0

/-- The fixed point of the series: values are multiples of 2^-512. -/
def fxP : Nat := 512
def fxOne : Nat := 2 ^ fxP

/-- Σ over k < n of (±1)^k x^(2k+1) / (2k+1), x = t / fxOne: the inverse tangent (alt) or its hyperbolic form. -/
def atanAux (alt : Bool) (x2 : Nat) : Nat → Nat → Nat → Int
  | 0, _, _ => 0
  | n + 1, k, p =>
    (if alt ∧ k % 2 = 1 then -((p / (2 * k + 1) : Nat) : Int) else ((p / (2 * k + 1) : Nat) : Int)) +
      atanAux alt x2 n (k + 1) (p * x2 / fxOne)

def atanFx (alt : Bool) (t n : Nat) : Int := atanAux alt (t * t / fxOne) n 0 t

/-- ln 2 = 2 artanh(1/3). -/
def ln2Fx : Int := 2 * atanFx false (fxOne / 3) 180
/-- π = 16 arctan(1/5) − 4 arctan(1/239). -/
def piFx : Int := 16 * atanFx true (fxOne / 5) 120 - 4 * atanFx true (fxOne / 239) 40

/-- e^z of 0 ≤ z < 1. -/
def expAux (z : Nat) : Nat → Nat → Nat → Nat
  | 0, _, _ => 0
  | n + 1, k, t => t + expAux z n (k + 1) (t * z / fxOne / (k + 1))

def expFx (z : Nat) : Nat := expAux z 120 0 fxOne

/-- Σ of (−1)^k z^(2k+c) / (2k+c)!: the sine (c = 1) and the cosine (c = 0) of 0 ≤ z < 2. -/
def trigAux (z2 : Nat) : Nat → Nat → Bool → Nat → Int
  | 0, _, _, _ => 0
  | n + 1, k, s, t => (if s then -(t : Int) else (t : Int)) + trigAux z2 n (k + 2) (!s) (t * z2 / fxOne / ((k + 1) * (k + 2)))

def sinFx (z : Nat) : Int := trigAux (z * z / fxOne) 75 1 false z
def cosFx (z : Nat) : Int := trigAux (z * z / fxOne) 75 0 false fxOne

/-- m × 2^e as a multiple of 2^-512 (exact for the values that FP32 holds). -/
def toFx (m : Nat) (e : Int) : Nat := m * 2 ^ (e + (fxP : Int)).toNat

/-- A signed fixed-point result, irrational, rounded to FP32. -/
def ofFx (x : Int) : Nat := roundSticky (decide (x < 0)) x.natAbs (-(fxP : Int)) true

def nan32 : Nat := FFmt.f32.canonNaN
def inf32 (neg : Bool) : Nat := (if neg then 2 ^ 31 else 0) + FFmt.f32.infBits
def zero32 (neg : Bool) : Nat := if neg then 2 ^ 31 else 0
def one32 : Nat := 0x3F800000

def rcp32 (x : Nat) : Nat :=
  match FFmt.f32.decode x with
  | .nan => nan32
  | .inf neg => zero32 neg
  | .fin neg m e =>
    if m = 0 then inf32 neg
    else
      let k := Nat.log2 m + 64
      roundSticky neg (2 ^ k / m) (-(k : Int) - e) (decide (2 ^ k % m ≠ 0))

/-- A non-negative value as m' × 4^h. -/
def evenPow (m : Nat) (e : Int) : Nat × Int := if e % 2 = 0 then (m, e / 2) else (2 * m, (e - 1) / 2)

def sqrt32 (x : Nat) : Nat :=
  match FFmt.f32.decode x with
  | .nan => nan32
  | .inf neg => if neg then nan32 else inf32 false
  | .fin neg m e =>
    if m = 0 then zero32 neg
    else if neg then nan32
    else
      let p := evenPow m e
      let y := isqrt (p.1 * 2 ^ 96)
      roundSticky false y (p.2 - 48) (decide (y * y ≠ p.1 * 2 ^ 96))

def rsq32 (x : Nat) : Nat :=
  match FFmt.f32.decode x with
  | .nan => nan32
  | .inf neg => if neg then nan32 else zero32 false
  | .fin neg m e =>
    if m = 0 then inf32 neg
    else if neg then nan32
    else
      let p := evenPow m e
      let y := isqrt (2 ^ 160 / p.1)
      roundSticky false y (-80 - p.2) (decide (y * y * p.1 ≠ 2 ^ 160))

/-- 2^x of a finite x ≠ 0: the integer part as an exponent, the fraction by e^(f ln 2). -/
def ex2Fin (neg : Bool) (m : Nat) (e : Int) : Nat :=
  if 10 < ilog2 m e then (if neg then zero32 false else inf32 false)
  else
    let v := sgn neg (toFx m e)
    let i := v / (fxOne : Int)
    let f := (v % (fxOne : Int)).toNat
    if f = 0 then FFmt.f32.roundFin .rn false 1 i
    else roundSticky false (expFx (f * ln2Fx.toNat / fxOne)) (i - (fxP : Int)) true

def ex2_32 (x : Nat) : Nat :=
  match FFmt.f32.decode x with
  | .nan => nan32
  | .inf neg => if neg then zero32 false else inf32 false
  | .fin neg m e => if m = 0 then one32 else ex2Fin neg m e

/-- log2 of m × 2^e: E + ln t / ln 2 with 1 ≤ t < 2, exact for a power of two. -/
def lg2Fin (m : Nat) (e : Int) : Nat :=
  let l := Nat.log2 m
  let ex := (l : Int) + e
  let t := m * fxOne / 2 ^ l
  if m = 2 ^ l then FFmt.f32.round .rn (FVal.ofInt ex)
  else
    let y := (t - fxOne) * fxOne / (t + fxOne)
    ofFx (ex * (fxOne : Int) + 2 * atanFx false y 180 * (fxOne : Int) / ln2Fx)

def lg2_32 (x : Nat) : Nat :=
  match FFmt.f32.decode x with
  | .nan => nan32
  | .inf neg => if neg then nan32 else inf32 false
  | .fin neg m e => if m = 0 then inf32 true else if neg then nan32 else lg2Fin m e

/-- The quadrant and the angle below π/2 of a non-negative x. -/
def trigReduce (m : Nat) (e : Int) : Nat × Nat :=
  let half := (piFx / 2).toNat
  let v := toFx m e
  (v / half % 4, v % half)

def sin32 (x : Nat) : Nat :=
  match FFmt.f32.decode x with
  | .nan => nan32
  | .inf _ => nan32
  | .fin neg m e =>
    if m = 0 then zero32 neg
    else
      let p := trigReduce m e
      let y := if p.1 % 2 = 0 then sinFx p.2 else cosFx p.2
      let y := if 2 ≤ p.1 then -y else y
      ofFx (if neg then -y else y)

def cos32 (x : Nat) : Nat :=
  match FFmt.f32.decode x with
  | .nan => nan32
  | .inf _ => nan32
  | .fin _ m e =>
    if m = 0 then one32
    else
      let p := trigReduce m e
      let y := if p.1 % 2 = 0 then cosFx p.2 else sinFx p.2
      ofFx (if p.1 = 1 ∨ p.1 = 2 then -y else y)

end Sys2Proof.Machine
end

