-- ==== Sys2Proof/Machine/Float.lean ====
section
/-! DEFINITION. The meanings of rows 0x08 to 0x0C (R110 to R118): FP32, packed pairs, special functions, conversions and
the decoding of DX elements. -/

namespace Sys2Proof.Machine

open Sys2Proof

/-- An FP32 result from A and B, from A, and from A, B and D (R110 to R115). -/
def issueF2 (f : Form) (g : Nat → Nat → Nat) (s : State) : State := issueAlu .f32 f (fun x => fp2 g x.a.val x.b.val) s
def issueF1 (f : Form) (g : Nat → Nat) (s : State) : State := issueAlu .f32 f (fun x => fp1 g x.a.val) s

/-- A packed result, element by element (R114). -/
def issueH2 (f : Form) (bf : Bool) (g : Nat → Nat → Nat) (s : State) : State :=
  issueAlu (.pair bf) f (fun x => packed2 g x.a.val x.b.val) s

/-- The kind of an immediate source of cvt (R33). -/
def cvtKind : CvtTy → Kind
  | .f32 => .f32 | .f16 => .pair false | .bf16 => .pair true
  | .u8 => .int | .s8 => .int | .u16 => .int | .s16 => .int | .u32 => .int | .s32 => .int | .u64 => .int | .s64 => .int

/-- `fadd` (R110). -/
def execFadd (c : Ctl) (r : Rnd) (d : Operand) (a : Operand) (b : Operand) (s : State) : Host.Outcome State Fault Refusal :=
  .next (issueF2 (formOf (.fadd c r d a b)) (FFmt.f32.add r) s)

/-- `fsub` (R110). -/
def execFsub (c : Ctl) (r : Rnd) (d : Operand) (a : Operand) (b : Operand) (s : State) : Host.Outcome State Fault Refusal :=
  .next (issueF2 (formOf (.fsub c r d a b)) (FFmt.f32.sub r) s)

/-- `fmul` (R110). -/
def execFmul (c : Ctl) (r : Rnd) (d : Operand) (a : Operand) (b : Operand) (s : State) : Host.Outcome State Fault Refusal :=
  .next (issueF2 (formOf (.fmul c r d a b)) (FFmt.f32.mul r) s)

/-- `fma` (R110). -/
def execFma (c : Ctl) (r : Rnd) (d : Operand) (a : Operand) (b : Operand) (s : State) : Host.Outcome State Fault Refusal :=
  .next (issueAlu .f32 (formOf (.fma c r d a b)) (fun x => BitVec.ofNat 64
    (FFmt.f32.fma r (x.a.val.toNat % 2 ^ 32) (x.b.val.toNat % 2 ^ 32) (x.d.val.toNat % 2 ^ 32))) s)

/-- `fmin` (R110, R92). -/
def execFmin (c : Ctl) (d : Operand) (a : Operand) (b : Operand) (s : State) : Host.Outcome State Fault Refusal :=
  .next (issueF2 (formOf (.fmin c d a b)) FFmt.f32.least s)

/-- `fmax` (R110, R92). -/
def execFmax (c : Ctl) (d : Operand) (a : Operand) (b : Operand) (s : State) : Host.Outcome State Fault Refusal :=
  .next (issueF2 (formOf (.fmax c d a b)) FFmt.f32.greatest s)

/-- `fabs` (R110). -/
def execFabs (c : Ctl) (d : Operand) (a : Operand) (s : State) : Host.Outcome State Fault Refusal :=
  .next (issueF1 (formOf (.fabs c d a)) FFmt.f32.fabs s)

/-- `fneg` (R110). -/
def execFneg (c : Ctl) (d : Operand) (a : Operand) (s : State) : Host.Outcome State Fault Refusal :=
  .next (issueF1 (formOf (.fneg c d a)) FFmt.f32.fneg s)

/-- `fsetp` (R111). -/
def execFsetp (c : Ctl) (cmp : FCmp) (d : Operand) (a : Operand) (b : Operand) (s : State) : Host.Outcome State Fault Refusal :=
  .next (issueAlu .f32 (formOf (.fsetp c cmp d a b)) (fun x => BitVec.ofNat 64 (fpTest cmp x.a.val x.b.val).toNat) s)

/-- `frnd` (R112). -/
def execFrnd (c : Ctl) (r : Rnd) (d : Operand) (a : Operand) (s : State) : Host.Outcome State Fault Refusal :=
  .next (issueF1 (formOf (.frnd c r d a)) (FFmt.f32.frnd r) s)

/-- `fclass` (R113). -/
def execFclass (c : Ctl) (d : Operand) (a : Operand) (s : State) : Host.Outcome State Fault Refusal :=
  .next (issueF1 (formOf (.fclass c d a)) fclass32 s)

/-- `hadd2` (R114). -/
def execHadd2 (c : Ctl) (bf : Bool) (r : Rnd) (d : Operand) (a : Operand) (b : Operand) (s : State) : Host.Outcome State Fault Refusal :=
  .next (issueH2 (formOf (.hadd2 c bf r d a b)) bf ((halfFmt bf).add r) s)

/-- `hsub2` (R114). -/
def execHsub2 (c : Ctl) (bf : Bool) (r : Rnd) (d : Operand) (a : Operand) (b : Operand) (s : State) : Host.Outcome State Fault Refusal :=
  .next (issueH2 (formOf (.hsub2 c bf r d a b)) bf ((halfFmt bf).sub r) s)

/-- `hmul2` (R114). -/
def execHmul2 (c : Ctl) (bf : Bool) (r : Rnd) (d : Operand) (a : Operand) (b : Operand) (s : State) : Host.Outcome State Fault Refusal :=
  .next (issueH2 (formOf (.hmul2 c bf r d a b)) bf ((halfFmt bf).mul r) s)

/-- `hfma2` (R114). -/
def execHfma2 (c : Ctl) (bf : Bool) (r : Rnd) (d : Operand) (a : Operand) (b : Operand) (s : State) : Host.Outcome State Fault Refusal :=
  .next (issueAlu (.pair bf) (formOf (.hfma2 c bf r d a b)) (fun x => packed3 ((halfFmt bf).fma r) x.a.val x.b.val x.d.val) s)

/-- `hmin2` (R114). -/
def execHmin2 (c : Ctl) (bf : Bool) (d : Operand) (a : Operand) (b : Operand) (s : State) : Host.Outcome State Fault Refusal :=
  .next (issueH2 (formOf (.hmin2 c bf d a b)) bf (halfFmt bf).least s)

/-- `hmax2` (R114). -/
def execHmax2 (c : Ctl) (bf : Bool) (d : Operand) (a : Operand) (b : Operand) (s : State) : Host.Outcome State Fault Refusal :=
  .next (issueH2 (formOf (.hmax2 c bf d a b)) bf (halfFmt bf).greatest s)

/-- The two predicates of hsetp2: D takes element 0, the next predicate element 1 (R114). -/
def hsetp2Eff (bf : Bool) (cmp : FCmp) (f : Form) (s : State) (i : Iss) (act : List Nat) : Eff :=
  .done (act.foldl (fun s' l =>
    let x := readSrcs s i.team l (.pair bf) f
    let y := halfTest bf cmp x.a.val x.b.val
    writeOp s' i.team l act i.lanes f.lat true f.d (BitVec.ofNat 64 (y.1.toNat + y.2.toNat * 2 ^ 32))
      (srcsLab s i.team l f x)) s) []

/-- `hsetp2` (R114). -/
def execHsetp2 (c : Ctl) (bf : Bool) (cmp : FCmp) (d : Operand) (a : Operand) (b : Operand) (s : State) : Host.Outcome State Fault Refusal :=
  .next (issueWith .plain (formOf (.hsetp2 c bf cmp d a b)) (hsetp2Eff bf cmp (formOf (.hsetp2 c bf cmp d a b))) s)

/-- `rcp` (R115). -/
def execRcp (c : Ctl) (r : Rnd) (d : Operand) (a : Operand) (s : State) : Host.Outcome State Fault Refusal :=
  .next (issueF1 (formOf (.rcp c r d a)) rcp32 s)

/-- `rsq` (R115). -/
def execRsq (c : Ctl) (r : Rnd) (d : Operand) (a : Operand) (s : State) : Host.Outcome State Fault Refusal :=
  .next (issueF1 (formOf (.rsq c r d a)) rsq32 s)

/-- `sqrt` (R115). -/
def execSqrt (c : Ctl) (r : Rnd) (d : Operand) (a : Operand) (s : State) : Host.Outcome State Fault Refusal :=
  .next (issueF1 (formOf (.sqrt c r d a)) sqrt32 s)

/-- `ex2` (R115). -/
def execEx2 (c : Ctl) (r : Rnd) (d : Operand) (a : Operand) (s : State) : Host.Outcome State Fault Refusal :=
  .next (issueF1 (formOf (.ex2 c r d a)) ex2_32 s)

/-- `lg2` (R115). -/
def execLg2 (c : Ctl) (r : Rnd) (d : Operand) (a : Operand) (s : State) : Host.Outcome State Fault Refusal :=
  .next (issueF1 (formOf (.lg2 c r d a)) lg2_32 s)

/-- `sin` (R115). -/
def execSin (c : Ctl) (r : Rnd) (d : Operand) (a : Operand) (s : State) : Host.Outcome State Fault Refusal :=
  .next (issueF1 (formOf (.sin c r d a)) sin32 s)

/-- `cos` (R115). -/
def execCos (c : Ctl) (r : Rnd) (d : Operand) (a : Operand) (s : State) : Host.Outcome State Fault Refusal :=
  .next (issueF1 (formOf (.cos c r d a)) cos32 s)

/-- `cvt` (R116, R117). -/
def execCvt (c : Ctl) (dt : CvtTy) (st : CvtTy) (sat : Bool) (r : Rnd) (hi : Bool) (dst : CvtDst) (d : Operand) (a : Operand) (s : State) : Host.Outcome State Fault Refusal :=
  .next (issueAlu (cvtKind st) (formOf (.cvt c dt st sat r hi dst d a))
    (fun x => cvtPlace dst (cvtOp dt st sat r hi x.a.val) x.d.val) s)

/-- `dxdec` (R118). -/
def execDxdec (c : Ctl) (fmt : DxFmt) (d : Operand) (a : Operand) (b : Operand) (s : State) : Host.Outcome State Fault Refusal :=
  .next (issueAlu .int (formOf (.dxdec c fmt d a b)) (fun x => BitVec.ofNat 64 (FFmt.f32.round .rn
    (dxElem fmt (x.a.val.toNat % 256) (x.a.val.toNat / 256 % 256) (x.b.val.toNat % 2 ^ dxW fmt)))) s)

end Sys2Proof.Machine
end

