-- ==== Sys2Proof/Machine/Integer.lean ====
section
/-! DEFINITION. The meanings of rows 0x01 to 0x05, `sel` and `lea` (R102 to R107, R109): integer arithmetic, comparison,
logic, shifts and bit fields. -/

namespace Sys2Proof.Machine

open Sys2Proof

/-- A member of row 0x01, min or max (R102). -/
def issueInt (f : Form) (ex : Int → Int → Int → Nat → Int) (t : IntTy) (sat : Bool) (s : State) : State :=
  issueAlu .int f (fun x => intOp ex t sat x.a.val x.b.val x.d.val) s

/-- A logical operation on both operands (R105). -/
def issueLogic (f : Form) (w : Bool) (g : DWord → DWord → DWord) (s : State) : State :=
  issueAlu .int f (fun x => low w (g x.a.val x.b.val)) s

/-- TYPE of abs and neg, which are signed (R102). -/
def sTy (w : Bool) : IntTy := if w then .s64 else .s32

/-- `add` (R102). -/
def execAdd (c : Ctl) (t : IntTy) (sat : Bool) (d : Operand) (a : Operand) (b : Operand) (s : State) : Host.Outcome State Fault Refusal :=
  .next (issueInt (formOf (.add c t sat d a b)) exAdd t sat s)

/-- `sub` (R102). -/
def execSub (c : Ctl) (t : IntTy) (sat : Bool) (d : Operand) (a : Operand) (b : Operand) (s : State) : Host.Outcome State Fault Refusal :=
  .next (issueInt (formOf (.sub c t sat d a b)) exSub t sat s)

/-- `mul` (R102). -/
def execMul (c : Ctl) (t : IntTy) (sat : Bool) (d : Operand) (a : Operand) (b : Operand) (s : State) : Host.Outcome State Fault Refusal :=
  .next (issueInt (formOf (.mul c t sat d a b)) exMul t sat s)

/-- `mulhi` (R102). -/
def execMulhi (c : Ctl) (t : IntTy) (d : Operand) (a : Operand) (b : Operand) (s : State) : Host.Outcome State Fault Refusal :=
  .next (issueInt (formOf (.mulhi c t d a b)) exMulhi t false s)

/-- `mad` (R102). -/
def execMad (c : Ctl) (t : IntTy) (sat : Bool) (d : Operand) (a : Operand) (b : Operand) (s : State) : Host.Outcome State Fault Refusal :=
  .next (issueInt (formOf (.mad c t sat d a b)) exMad t sat s)

/-- `madhi` (R102). -/
def execMadhi (c : Ctl) (t : IntTy) (d : Operand) (a : Operand) (b : Operand) (s : State) : Host.Outcome State Fault Refusal :=
  .next (issueInt (formOf (.madhi c t d a b)) exMadhi t false s)

/-- `abs` (R102). -/
def execAbs (c : Ctl) (wide : Bool) (sat : Bool) (d : Operand) (a : Operand) (s : State) : Host.Outcome State Fault Refusal :=
  .next (issueInt (formOf (.abs c wide sat d a)) exAbs (sTy wide) sat s)

/-- `neg` (R102). -/
def execNeg (c : Ctl) (wide : Bool) (sat : Bool) (d : Operand) (a : Operand) (s : State) : Host.Outcome State Fault Refusal :=
  .next (issueInt (formOf (.neg c wide sat d a)) exNeg (sTy wide) sat s)

/-- `min` (R102). -/
def execMin (c : Ctl) (t : IntTy) (d : Operand) (a : Operand) (b : Operand) (s : State) : Host.Outcome State Fault Refusal :=
  .next (issueInt (formOf (.min c t d a b)) exMin t false s)

/-- `max` (R102). -/
def execMax (c : Ctl) (t : IntTy) (d : Operand) (a : Operand) (b : Operand) (s : State) : Host.Outcome State Fault Refusal :=
  .next (issueInt (formOf (.max c t d a b)) exMax t false s)

/-- `setp` (R103). -/
def execSetp (c : Ctl) (cmp : Cmp) (t : IntTy) (d : Operand) (a : Operand) (b : Operand) (s : State) : Host.Outcome State Fault Refusal :=
  .next (issueAlu .int (formOf (.setp c cmp t d a b)) (fun x => BitVec.ofNat 64 (intTest cmp t x.a.val x.b.val).toNat) s)

/-- `sel` (R104). -/
def execSel (c : Ctl) (wide : Bool) (d : Operand) (a : Operand) (b : Operand) (pc : BitVec 3) (neg : Bool) (s : State) : Host.Outcome State Fault Refusal :=
  .next (issueAlu .int (formOf (.sel c wide d a b pc neg)) (fun x => if decide (x.p.val = 1) != neg then x.a.val else x.b.val) s)

/-- `and` (R105). -/
def execAnd (c : Ctl) (wide : Bool) (d : Operand) (a : Operand) (b : Operand) (s : State) : Host.Outcome State Fault Refusal :=
  .next (issueLogic (formOf (.and c wide d a b)) wide (fun a b => a &&& b) s)

/-- `or` (R105). -/
def execOr (c : Ctl) (wide : Bool) (d : Operand) (a : Operand) (b : Operand) (s : State) : Host.Outcome State Fault Refusal :=
  .next (issueLogic (formOf (.or c wide d a b)) wide (fun a b => a ||| b) s)

/-- `xor` (R105). -/
def execXor (c : Ctl) (wide : Bool) (d : Operand) (a : Operand) (b : Operand) (s : State) : Host.Outcome State Fault Refusal :=
  .next (issueLogic (formOf (.xor c wide d a b)) wide (fun a b => a ^^^ b) s)

/-- `not` (R105). -/
def execNot (c : Ctl) (wide : Bool) (d : Operand) (a : Operand) (s : State) : Host.Outcome State Fault Refusal :=
  .next (issueLogic (formOf (.not c wide d a)) wide (fun a _ => ~~~a) s)

/-- `andn` (R105). -/
def execAndn (c : Ctl) (wide : Bool) (d : Operand) (a : Operand) (b : Operand) (s : State) : Host.Outcome State Fault Refusal :=
  .next (issueLogic (formOf (.andn c wide d a b)) wide (fun a b => a &&& ~~~b) s)

/-- `orn` (R105). -/
def execOrn (c : Ctl) (wide : Bool) (d : Operand) (a : Operand) (b : Operand) (s : State) : Host.Outcome State Fault Refusal :=
  .next (issueLogic (formOf (.orn c wide d a b)) wide (fun a b => a ||| ~~~b) s)

/-- `shl` (R106). -/
def execShl (c : Ctl) (wide : Bool) (d : Operand) (a : Operand) (b : Operand) (s : State) : Host.Outcome State Fault Refusal :=
  .next (issueAlu .int (formOf (.shl c wide d a b)) (fun x => shlOp wide x.a.val x.b.val) s)

/-- `shr` (R106). -/
def execShr (c : Ctl) (wide : Bool) (d : Operand) (a : Operand) (b : Operand) (s : State) : Host.Outcome State Fault Refusal :=
  .next (issueAlu .int (formOf (.shr c wide d a b)) (fun x => shrOp wide x.a.val x.b.val) s)

/-- `sra` (R106). -/
def execSra (c : Ctl) (wide : Bool) (d : Operand) (a : Operand) (b : Operand) (s : State) : Host.Outcome State Fault Refusal :=
  .next (issueAlu .int (formOf (.sra c wide d a b)) (fun x => sraOp wide x.a.val x.b.val) s)

/-- `rol` (R106). -/
def execRol (c : Ctl) (wide : Bool) (d : Operand) (a : Operand) (b : Operand) (s : State) : Host.Outcome State Fault Refusal :=
  .next (issueAlu .int (formOf (.rol c wide d a b)) (fun x => rolOp wide x.a.val x.b.val) s)

/-- `ror` (R106). -/
def execRor (c : Ctl) (wide : Bool) (d : Operand) (a : Operand) (b : Operand) (s : State) : Host.Outcome State Fault Refusal :=
  .next (issueAlu .int (formOf (.ror c wide d a b)) (fun x => rorOp wide x.a.val x.b.val) s)

/-- `bfe` (R107). -/
def execBfe (c : Ctl) (t : IntTy) (d : Operand) (a : Operand) (b : Operand) (s : State) : Host.Outcome State Fault Refusal :=
  .next (issueAlu .int (formOf (.bfe c t d a b)) (fun x => bfeOp t x.a.val x.b.val) s)

/-- `bfi` (R107). -/
def execBfi (c : Ctl) (wide : Bool) (d : Operand) (a : Operand) (b : Operand) (s : State) : Host.Outcome State Fault Refusal :=
  .next (issueAlu .int (formOf (.bfi c wide d a b)) (fun x => bfiOp wide x.a.val x.b.val x.d.val) s)

/-- `popc` (R107). -/
def execPopc (c : Ctl) (wide : Bool) (d : Operand) (a : Operand) (s : State) : Host.Outcome State Fault Refusal :=
  .next (issueAlu .int (formOf (.popc c wide d a)) (fun x => popcOp wide x.a.val) s)

/-- `clz` (R107). -/
def execClz (c : Ctl) (wide : Bool) (d : Operand) (a : Operand) (s : State) : Host.Outcome State Fault Refusal :=
  .next (issueAlu .int (formOf (.clz c wide d a)) (fun x => clzOp wide x.a.val) s)

/-- `ctz` (R107). -/
def execCtz (c : Ctl) (wide : Bool) (d : Operand) (a : Operand) (s : State) : Host.Outcome State Fault Refusal :=
  .next (issueAlu .int (formOf (.ctz c wide d a)) (fun x => ctzOp wide x.a.val) s)

/-- `brev` (R107). -/
def execBrev (c : Ctl) (wide : Bool) (d : Operand) (a : Operand) (s : State) : Host.Outcome State Fault Refusal :=
  .next (issueAlu .int (formOf (.brev c wide d a)) (fun x => brevOp wide x.a.val) s)

/-- `lea` (R109). -/
def execLea (c : Ctl) (sgn : Bool) (scale : BitVec 3) (d : Operand) (a : Operand) (b : Operand) (s : State) : Host.Outcome State Fault Refusal :=
  .next (issueAlu .int (formOf (.lea c sgn scale d a b)) (fun x => leaOp sgn scale.toNat x.a.val x.b.val) s)

end Sys2Proof.Machine
end

