-- ==== Sys2Proof/Machine/Inbound.lean ====
section
/-! DEFINITION. Inbound link requests (R370, R384): what they ask for, their performance at the home, and their answers. -/

namespace Sys2Proof.Machine

open Sys2Proof

/-- Whether a message comes from a host function (R19). -/
def isHost (m : Sender) : Bool := decide (m.src.toNat / 2 ^ 30 = 1)

-- what a request asks for

/-- The bytes of a write: an engine's is one of a whole line. -/
def inWidth : InWrite → Nat | .bytes bs => bs.length | .line _ _ => 256 | .mark _ => 256
/-- Whether a write is one that an engine makes. -/
def byEngine : InWrite → Bool | .bytes _ => false | .line _ _ => true | .mark _ => true

/-- The bytes of an access, and whether it writes. -/
def InOp.width : InOp → Nat
  | .read n => n | .write w => inWidth w | .atomic o _ _ => if o.op.wide then 8 else 4 | .add _ _ => 8 | .cread => 8
/-- Whether an access may be unaligned: a read or a write of bytes then behaves as several (R164). -/
def InOp.splits : InOp → Bool
  | .read _ => true | .write w => !byEngine w | .atomic _ _ _ => false | .add _ _ => true | .cread => true
def InOp.writes : InOp → Bool
  | .read _ => false | .write _ => true | .atomic _ _ _ => true | .add _ _ => true | .cread => false
def InOp.need : InOp → Nat
  | .read _ => permRead | .write _ => permWrite | .atomic o _ _ => if o.ret then permBoth else permWrite | .add _ _ => permWrite
  | .cread => permRead
def InOp.counter : InOp → Bool
  | .add _ _ => true | .cread => true | .read _ => false | .write _ => false | .atomic _ _ _ => false

/-- The bytes of a write placed in their line. -/
def lineData (off : Nat) (bs : List Byte) : LineData := List.replicate off none ++ bs.map some ++ List.replicate (256 - off - bs.length) none

-- inbound requests answered (R370, R384)

def modIn (s : State) (n : Nat) (f : InReq → InReq) : State :=
  { s with links := { s.links with inb := s.links.inb.map (fun e => if e.1 = n then (e.1, f e.2) else e) } }

/-- A request's last word: its answer leaves by a port that is up. -/
def endIn (s : State) (n : Nat) (r : InReq) (x : Report) : State :=
  let s := { s with links := { s.links with inb := Tbl.del s.links.inb n } }
  if portTo s r.from_.src then s.report x else s

/-- A request refused: its sender receives the code of the fault and the request's address (R384). -/
def refuseIn (s : State) (n : Nat) (r : InReq) (f : Flt) : State := endIn s n r (.refusal r.from_ f.code.code r.addr)

def InReq.va (r : InReq) : Nat := r.addr.toNat % 2 ^ 52

/-- The translation and the physical address of a byte of a request. -/
def InReq.at_ (r : InReq) (off : Nat) : Xlat × Nat :=
  let x := r.xs.getD ((r.va + off) / 4096 - r.va / 4096) {}
  (x, x.pa ((r.va + off) % 2 ^ 52))

/-- A request answered: with data and its label (R153), or, a write or a reduction, with an acknowledgement. -/
def replyIn (s : State) (n : Nat) (r : InReq) (bs : List Byte) : State :=
  endIn s n r (match r.op with
    | .write _ => .ack r.from_
    | .read _ => .data r.from_ bs r.lab
    | .atomic o _ _ => if o.ret then .data r.from_ bs r.lab else .ack r.from_
    | .add _ _ => .data r.from_ bs 0
    | .cread => .data r.from_ bs 0)

/-- A performed request is answered once Now() has reached its T_w (R175). -/
def settleIn (s : State) (n : Nat) (r : InReq) (tw : Nat) (bs : List Byte) : State :=
  if tw ≤ s.now then replyIn s n r bs else modIn s n (fun r => { r with done := some (tw, bs) })

/-- One access performed at its home (R166, R167, R171): the state, its T_w, what it reads and its label; none where it meets a poisoned sector that it
reads. -/
def homeIn (s : State) (op : InOp) (x : Xlat) (pa off k : Nat) : Option (State × Nat × List Byte × Label) :=
  let l := pa / 256
  let lab := (attrLabel x.attr).join (s.line l).lab
  let wrote := fun (w : State × Nat) => some (w.1, w.2, ([] : List Byte), (0 : Label))
  match op with
  | .read _ =>
    if (List.range k).any (fun i => poisAt s (pa + i)) then none
    else some (homeTake s l (attrCclass x.attr) false, 0, Mem.readN s.mem pa k, lab)
  | .write (.bytes bs) => wrote (writeMem s l x (lineData (pa % 256) ((bs.drop off).take k)) false)
  | .write (.line d mark) => wrote (writeMem s l x d mark)
  | .write (.mark m) =>
    wrote (homeMark s l (fun q => { q with
      pois := (List.range 4).foldl (fun p i => setBit p i (bitAt p i || bitAt m i)) q.pois, lab := attrLabel x.attr
      comp := attrComp x.attr, sealed := attrSealed x.attr }) (attrCclass x.attr), twOf s l (attrLease x.attr))
  | .atomic o b d =>
    if poisAt s pa then (if o.ret then none else wrote (s, twOf s l (attrLease x.attr)))
    else
      let old := homeRead s pa k
      some (homeWrite s pa (leBytes k (atomNew o.op (BitVec.ofNat 64 old) b d).toNat) (attrLabel x.attr) (attrComp x.attr) false (attrCclass x.attr),
        twOf s l (attrLease x.attr), leBytes k old, lab)
  | .add _ _ => none
  | .cread => none

/-- A request of bytes that covers a whole poisoned line writes it at one time, since that clears its marks (R162): the offset of the line's first byte. -/
def InReq.clears (s : State) (r : InReq) (pa off : Nat) : Option Nat :=
  match r.op with
  | .write (.bytes bs) =>
    if (s.line (pa / 256)).pois ≠ 0 ∧ pa % 256 ≤ off ∧ off - pa % 256 + 256 ≤ bs.length then some (off - pa % 256) else none
  | .write (.line _ _) => none
  | .write (.mark _) => none
  | .read _ => none
  | .atomic _ _ _ => none
  | .add _ _ => none
  | .cread => none

/-- One access of a request: the translation of its page, its physical address, its offset and width, and what the request has left after it. -/
structure InPiece where
  x : Xlat
  pa : Nat
  off : Nat
  k : Nat
  rest : List (Nat × Nat)

/-- The access that a request whose checks have passed performs next. -/
def InReq.piece (s : State) (r : InReq) : Option InPiece :=
  match r.todo with
  | [] => none
  | (off, k) :: rest =>
    let (x, pa) := r.at_ off
    match r.clears s pa off with
    | some o => some ⟨x, pa - pa % 256, o, 256, rest.filter (fun e => decide (e.1 < o) || decide (o + 256 ≤ e.1))⟩
    | none => some ⟨x, pa, off, k, rest⟩

/-- The request after an access, with its T_w, what it read and its label. -/
def InReq.after (r : InReq) (p : InPiece) (tw : Nat) (bs : List Byte) (lab : Label) : InReq :=
  { r with todo := p.rest, got := Tbl.put r.got p.off bs, tw := max r.tw tw, lab := r.lab.join lab }

/-- The accesses that a write has left, performed in turn. -/
def performRest : Nat → State → InReq → State × InReq
  | 0, s, r => (s, r)
  | n + 1, s, r =>
    match r.piece s with
    | none => (s, r)
    | some p =>
      match homeIn (fetchLine s (p.pa / 256)) r.op p.x p.pa p.off p.k with
      | some (s, tw, bs, lab) => performRest n s (r.after p tw bs lab)
      | none => performRest n s { r with todo := p.rest }

/-- A write whose first accesses stand, carried to its end at once: what a refused write has performed is nothing (R384), so this one is not refused. -/
def finishIn (s : State) (n : Nat) (r : InReq) : State :=
  let (s, r) := performRest r.todo.length s r
  settleIn (modIn s n (fun _ => r)) n r r.tw []

/-- Inbound requests of a partition that are not performed yet refused: no host request is dropped without an answer (R384). The rules name no fault for a
request that a reset meets; it takes that of R367 for a location that is gone (DESIGN CHOICE, log 91). A write that has begun is performed whole. -/
def refuseInbound (s : State) (part : Nat) : State :=
  (s.links.inb.filter (fun e => decide (e.2.from_.part = part) && e.2.done.isNone)).foldl (fun s e =>
    if e.2.op.writes && decide (e.2.got ≠ []) then finishIn s e.1 e.2
    else refuseIn s e.1 e.2 ⟨.memPoison, accessBits false e.2.addr.toNat⟩) s

end Sys2Proof.Machine
end

