-- ==== Sys2Proof/WellFormed.lean ====
section
/-! DEFINITION. Well-formed instructions: those that a word of the manual encodes. A core instruction is well formed for a
launch of `regs` registers per thread (R32); the checks are those of R29 to R35 and of each form (R47). -/

namespace Sys2Proof

/-- IMM8 of the word: the meaning of its own, else the value of an IMM operand, else zero (R29, R34). -/
def Form.imm8 (f : Form) : BitVec 8 :=
  match f.imm with
  | some i => i
  | none =>
    match f.d, f.a, f.b with
    | .imm i, _, _ => i
    | _, .imm i, _ => i
    | _, _, .imm i => i
    | _, _, _ => 0

/-- Two fields that both name IMM read the same value (R34). -/
def Operand.immOk (i : BitVec 8) : Operand → Bool
  | .imm j => decide (j = i)
  | _ => true

/-- A special register is one of 0x930 to 0x93F by its type; a class check does the rest (R31). -/
def Form.operandsOk (f : Form) (regs : Nat) : Bool :=
  f.sd.accepts regs f.d && f.sa.accepts regs f.a && f.sb.accepts regs f.b &&
  f.d.immOk f.imm8 && f.a.immOk f.imm8 && f.b.immOk f.imm8

/-- The codes that a form excludes, beyond what its constructor's types already exclude. -/
def codesOk : Instr → Bool
  | .cvt _ dt ft sat r hi dst _ _ =>
    decide (dt ≠ ft) && (!sat || (dt.isInt && ft.isInt)) && (decide (r = .rn) || !(dt.isInt && ft.isInt)) &&
    (!hi || ft.half) && (decide (dst = .whole) || dt.half)
  | .atom _ _ sp _ _ _ => decide (sp ≠ .l)
  | .red _ o sp _ _ => decide (sp ≠ .l) && o.redOk
  | .pref _ sp _ _ _ => decide (sp = .g) || decide (sp = .l)
  | .rte c _ => c.s
  | .resfree _ all n => !all || decide (n = 0)
  | _ => true

/-- A well-formed instruction of a launch of `regs` registers per thread. -/
def Instr.wf (regs : Nat) (i : Instr) : Bool :=
  codesOk i &&
  match coreForm i with
  | some f => f.operandsOk regs
  | none => true

end Sys2Proof
end

