-- ==== Sys2Proof/Decode.lean ====
section
/-! DEFINITION. The decoder of core words (R27 to R35, R47) and of walker words (R265, R266), each total and refusing by
name, and the encoder, written from the same tables. -/

namespace Sys2Proof

/-- Bits [lo + n - 1 : lo] of x. -/
def bits (x lo n : Nat) : Nat := x / 2 ^ lo % 2 ^ n

/-- The fields of a core word (R27). -/
structure Fields where
  opc : Nat
  gP : Nat
  gN : Nat
  d : Nat
  a : Nat
  b : Nat
  imm8 : Nat
  keep : Nat
  mod : Nat
  aux : Nat
  zero : Nat
  s : Nat
  f : Nat
  y : Nat
  top : Nat
  deriving DecidableEq, Repr

def Fields.ofNat (w : Nat) : Fields where
  opc := bits w 0 10
  gP := bits w 10 3
  gN := bits w 13 1
  d := bits w 14 12
  a := bits w 26 12
  b := bits w 38 12
  imm8 := bits w 50 8
  keep := bits w 58 2
  mod := bits w 60 12
  aux := bits w 72 8
  zero := bits w 80 8
  s := bits w 88 1
  f := bits w 89 1
  y := bits w 90 1
  top := bits w 91 5

def Fields.toNat (f : Fields) : Nat :=
  f.opc + f.gP * 2 ^ 10 + f.gN * 2 ^ 13 + f.d * 2 ^ 14 + f.a * 2 ^ 26 + f.b * 2 ^ 38 + f.imm8 * 2 ^ 50 + f.keep * 2 ^ 58 +
  f.mod * 2 ^ 60 + f.aux * 2 ^ 72 + f.zero * 2 ^ 80 + f.s * 2 ^ 88 + f.f * 2 ^ 89 + f.y * 2 ^ 90 + f.top * 2 ^ 91

def Fields.ctl (f : Fields) : Ctl where
  gN := decide (f.gN = 1)
  gP := BitVec.ofNat 3 f.gP
  keep := BitVec.ofNat 2 f.keep
  y := decide (f.y = 1)
  f := decide (f.f = 1)
  s := decide (f.s = 1)

/-- The operand that an encoding of R30 names; none where R30 and R35 list none. -/
def Operand.ofCode (e imm8 : Nat) : Option Operand :=
  if e < 0x800 then some (.v (BitVec.ofNat 11 e))
  else if e < 0x900 then some (.s (BitVec.ofNat 8 (e - 0x800)))
  else if e < 0x908 then some (.p (BitVec.ofNat 3 (e - 0x900)))
  else if e < 0x910 then none
  else if e < 0x920 then some (.q (BitVec.ofNat 4 (e - 0x910)))
  else if e < 0x930 then some (.h (BitVec.ofNat 4 (e - 0x920)))
  else if e < 0x940 then some (.x (BitVec.ofNat 4 (e - 0x930)))
  else if e = 0xFFE then some (.imm (BitVec.ofNat 8 imm8))
  else if e = 0xFFF then some .z
  else none

/-- The encoding of an operand (R30). -/
def Operand.code : Operand → Nat
  | .v n => n.toNat
  | .s n => 0x800 + n.toNat
  | .p n => 0x900 + n.toNat
  | .q n => 0x910 + n.toNat
  | .h n => 0x920 + n.toNat
  | .x n => 0x930 + n.toNat
  | .imm _ => 0xFFE
  | .z => 0xFFF

/-- A fault of the word, with its TVAL (R47). -/
inductive WordFault where
  | illegalOpcode (tval : Nat)
  | reservedBits (tval : Nat)
  | illegalOperand (tval : Nat)
  deriving DecidableEq, Repr

/-- What an assigned cell makes of a word, before its operands are checked: the instruction, the bits of MOD, AUX and IMM8
that it defines, and whether each holds an unassigned code; `immZero` says that IMM8 is zero even beside an operand that names IMM (R177). -/
structure Parsed where
  i : Instr
  modDef : Nat := 0
  modBad : Bool := false
  auxDef : Nat := 0
  auxBad : Bool := false
  immDef : Nat := 0
  immZero : Bool := false
  immBad : Bool := false
  hintBad : Bool := false

/-- The words of a field that no assigned code reaches take a stand-in, since the word faults before it is used. -/
def orZ (o : Option Operand) : Operand := o.getD .z

/-- The operands of a word, where they decode. -/
structure Ops3 where
  c : Ctl
  d : Operand
  a : Operand
  b : Operand

def Fields.ops (f : Fields) : Ops3 where
  c := f.ctl
  d := orZ (Operand.ofCode f.d f.imm8)
  a := orZ (Operand.ofCode f.a f.imm8)
  b := orZ (Operand.ofCode f.b f.imm8)

def modTy (f : Fields) : IntTy := IntTy.ofCode (bits f.mod 0 2)
def modRnd (f : Fields) : Rnd := Rnd.ofCode (bits f.mod 0 2)
def modSat (f : Fields) : Bool := decide (bits f.mod 2 1 = 1)
def modWid (f : Fields) : Bool := decide (bits f.mod 3 1 = 1)
def auxP (f : Fields) : BitVec 3 := BitVec.ofNat 3 (bits f.aux 0 3)

/-- Row 0x01 (R102). -/
def parseRow01 (f : Fields) (o : Ops3) : Nat → Option Parsed
  | 0 => some { i := .add o.c (modTy f) (modSat f) o.d o.a o.b, modDef := 7 }
  | 1 => some { i := .sub o.c (modTy f) (modSat f) o.d o.a o.b, modDef := 7 }
  | 2 => some { i := .mul o.c (modTy f) (modSat f) o.d o.a o.b, modDef := 7 }
  | 3 => some { i := .mulhi o.c (modTy f) o.d o.a o.b, modDef := 3 }
  | 4 => some { i := .mad o.c (modTy f) (modSat f) o.d o.a o.b, modDef := 7 }
  | 5 => some { i := .madhi o.c (modTy f) o.d o.a o.b, modDef := 3 }
  | 6 => some { i := .abs o.c (modTy f).wide (modSat f) o.d o.a, modDef := 7, modBad := !(modTy f).signed }
  | 7 => some { i := .neg o.c (modTy f).wide (modSat f) o.d o.a, modDef := 7, modBad := !(modTy f).signed }
  | _ => none

/-- Row 0x02 (R102 to R104). -/
def parseRow02 (f : Fields) (o : Ops3) : Nat → Option Parsed
  | 0 => some { i := .min o.c (modTy f) o.d o.a o.b, modDef := 3 }
  | 1 => some { i := .max o.c (modTy f) o.d o.a o.b, modDef := 3 }
  | 2 => some { i := .setp o.c ((Cmp.ofCode (bits f.mod 4 3)).getD .eq) (modTy f) o.d o.a o.b, modDef := 0x73,
                modBad := (Cmp.ofCode (bits f.mod 4 3)).isNone }
  | 3 => some { i := .sel o.c (modWid f) o.d o.a o.b (auxP f) (decide (bits f.aux 3 1 = 1)), modDef := 8, auxDef := 0xF }
  | _ => none

/-- Row 0x03 (R105). -/
def parseRow03 (f : Fields) (o : Ops3) : Nat → Option Parsed
  | 0 => some { i := .and o.c (modWid f) o.d o.a o.b, modDef := 8 }
  | 1 => some { i := .or o.c (modWid f) o.d o.a o.b, modDef := 8 }
  | 2 => some { i := .xor o.c (modWid f) o.d o.a o.b, modDef := 8 }
  | 3 => some { i := .not o.c (modWid f) o.d o.a, modDef := 8 }
  | 4 => some { i := .andn o.c (modWid f) o.d o.a o.b, modDef := 8 }
  | 5 => some { i := .orn o.c (modWid f) o.d o.a o.b, modDef := 8 }
  | _ => none

/-- Row 0x04 (R106). -/
def parseRow04 (f : Fields) (o : Ops3) : Nat → Option Parsed
  | 0 => some { i := .shl o.c (modWid f) o.d o.a o.b, modDef := 8 }
  | 1 => some { i := .shr o.c (modWid f) o.d o.a o.b, modDef := 8 }
  | 2 => some { i := .sra o.c (modWid f) o.d o.a o.b, modDef := 8 }
  | 3 => some { i := .rol o.c (modWid f) o.d o.a o.b, modDef := 8 }
  | 4 => some { i := .ror o.c (modWid f) o.d o.a o.b, modDef := 8 }
  | _ => none

/-- Row 0x05 (R107). -/
def parseRow05 (f : Fields) (o : Ops3) : Nat → Option Parsed
  | 0 => some { i := .bfe o.c (modTy f) o.d o.a o.b, modDef := 3 }
  | 1 => some { i := .bfi o.c (modWid f) o.d o.a o.b, modDef := 8 }
  | 2 => some { i := .popc o.c (modWid f) o.d o.a, modDef := 8 }
  | 3 => some { i := .clz o.c (modWid f) o.d o.a, modDef := 8 }
  | 4 => some { i := .ctz o.c (modWid f) o.d o.a, modDef := 8 }
  | 5 => some { i := .brev o.c (modWid f) o.d o.a, modDef := 8 }
  | _ => none

/-- Row 0x06 (R108, R109). -/
def parseRow06 (f : Fields) (o : Ops3) : Nat → Option Parsed
  | 0 => some { i := .mov o.c (modWid f) o.d o.a, modDef := 8 }
  | 1 => some { i := .lea o.c (decide (bits f.mod 0 1 = 1)) (auxP f) o.d o.a o.b, modDef := 3,
                modBad := decide (bits f.mod 1 1 = 1), auxDef := 7 }
  | _ => none

/-- Row 0x08 (R110). -/
def parseRow08 (f : Fields) (o : Ops3) : Nat → Option Parsed
  | 0 => some { i := .fadd o.c (modRnd f) o.d o.a o.b, modDef := 3 }
  | 1 => some { i := .fsub o.c (modRnd f) o.d o.a o.b, modDef := 3 }
  | 2 => some { i := .fmul o.c (modRnd f) o.d o.a o.b, modDef := 3 }
  | 3 => some { i := .fma o.c (modRnd f) o.d o.a o.b, modDef := 3 }
  | 4 => some { i := .fmin o.c o.d o.a o.b }
  | 5 => some { i := .fmax o.c o.d o.a o.b }
  | 6 => some { i := .fabs o.c o.d o.a }
  | 7 => some { i := .fneg o.c o.d o.a }
  | _ => none

/-- Row 0x09 (R111 to R113). -/
def parseRow09 (f : Fields) (o : Ops3) : Nat → Option Parsed
  | 0 => some { i := .fsetp o.c (FCmp.ofCode (bits f.mod 4 3)) o.d o.a o.b, modDef := 0x70 }
  | 1 => some { i := .frnd o.c (modRnd f) o.d o.a, modDef := 3 }
  | 2 => some { i := .fclass o.c o.d o.a }
  | _ => none

/-- Row 0x0A (R114). -/
def parseRow0A (f : Fields) (o : Ops3) : Nat → Option Parsed
  | 0 => some { i := .hadd2 o.c (modSat f) (modRnd f) o.d o.a o.b, modDef := 7 }
  | 1 => some { i := .hsub2 o.c (modSat f) (modRnd f) o.d o.a o.b, modDef := 7 }
  | 2 => some { i := .hmul2 o.c (modSat f) (modRnd f) o.d o.a o.b, modDef := 7 }
  | 3 => some { i := .hfma2 o.c (modSat f) (modRnd f) o.d o.a o.b, modDef := 7 }
  | 4 => some { i := .hmin2 o.c (modSat f) o.d o.a o.b, modDef := 4 }
  | 5 => some { i := .hmax2 o.c (modSat f) o.d o.a o.b, modDef := 4 }
  | 6 => some { i := .hsetp2 o.c (modSat f) (FCmp.ofCode (bits f.mod 4 3)) o.d o.a o.b, modDef := 0x74 }
  | _ => none

/-- Row 0x0B (R115). -/
def parseRow0B (f : Fields) (o : Ops3) : Nat → Option Parsed
  | 0 => some { i := .rcp o.c (modRnd f) o.d o.a, modDef := 3 }
  | 1 => some { i := .rsq o.c (modRnd f) o.d o.a, modDef := 3 }
  | 2 => some { i := .sqrt o.c (modRnd f) o.d o.a, modDef := 3 }
  | 3 => some { i := .ex2 o.c (modRnd f) o.d o.a, modDef := 3 }
  | 4 => some { i := .lg2 o.c (modRnd f) o.d o.a, modDef := 3 }
  | 5 => some { i := .sin o.c (modRnd f) o.d o.a, modDef := 3 }
  | 6 => some { i := .cos o.c (modRnd f) o.d o.a, modDef := 3 }
  | _ => none

/-- The MOD codes of cvt that R116 makes ILLEGAL_OPCODE. -/
def cvtModBad (dt ft : Option CvtTy) (sat : Bool) (rnd : Nat) : Bool :=
  match dt, ft with
  | some dt, some ft =>
    decide (dt = ft) || (sat && !(dt.isInt && ft.isInt)) || (decide (rnd ≠ 0) && dt.isInt && ft.isInt)
  | _, _ => true

/-- The ELEM codes of cvt that R116 makes ILLEGAL_OPCODE. -/
def cvtAuxBad (dt ft : Option CvtTy) (elem : Nat) : Bool :=
  decide (elem = 2) || decide (elem = 3) ||
  (decide (elem % 2 = 1) && !(ft.getD .u8).half) || (decide (4 ≤ elem) && !(dt.getD .u8).half)

/-- Row 0x0C (R116 to R118). -/
def parseRow0C (f : Fields) (o : Ops3) : Nat → Option Parsed
  | 0 =>
    some {
      i := .cvt o.c ((CvtTy.ofCode (bits f.mod 4 4)).getD .u8) ((CvtTy.ofCode (bits f.mod 8 4)).getD .u8) (modSat f) (modRnd f)
        (decide (bits f.aux 0 1 = 1)) (CvtDst.ofCode (bits f.aux 1 2 * 2)) o.d o.a
      modDef := 0xFF7
      modBad := cvtModBad (CvtTy.ofCode (bits f.mod 4 4)) (CvtTy.ofCode (bits f.mod 8 4)) (modSat f) (bits f.mod 0 2)
      auxDef := 7
      auxBad := cvtAuxBad (CvtTy.ofCode (bits f.mod 4 4)) (CvtTy.ofCode (bits f.mod 8 4)) (bits f.aux 0 3) }
  | 1 => some { i := .dxdec o.c (DxFmt.ofCode (bits f.mod 0 2)) o.d o.a o.b, modDef := 3,
                modBad := decide (bits f.mod 0 2 = 3) }
  | _ => none

/-- The bits of MOD that redux and scan define, by OP (R122): TYPE or RND, or neither. -/
def redDef (op : Nat) : Nat := if op = 9 ∨ op = 10 then 0xF0 else 0xF3

/-- Row 0x0D (R119 to R124). -/
def parseRow0D (f : Fields) (o : Ops3) : Nat → Option Parsed
  | 0 => some { i := .shfl o.c (ShflMode.ofCode (bits f.mod 0 2)) (modWid f) (Seg.ofCode (bits f.aux 0 3)) o.d o.a o.b,
                modDef := 0xB, auxDef := 7, auxBad := decide (4 ≤ bits f.aux 0 3) }
  | 1 => some { i := .vote o.c (VoteMode.ofCode (bits f.mod 0 3)) o.d o.a, modDef := 7,
                modBad := decide (5 ≤ bits f.mod 0 3) }
  | 2 => some { i := .redux o.c ((RedOp.ofCode (bits f.mod 4 4) (bits f.mod 0 2)).getD .fmin) o.d o.a,
                modDef := redDef (bits f.mod 4 4), modBad := (RedOp.ofCode (bits f.mod 4 4) 0).isNone }
  | 3 => some { i := .scan o.c ((RedOp.ofCode (bits f.mod 4 4) (bits f.mod 0 2)).getD .fmin) (decide (bits f.mod 8 1 = 1)) o.d o.a,
                modDef := 0x100 + redDef (bits f.mod 4 4), modBad := (RedOp.ofCode (bits f.mod 4 4) 0).isNone }
  | 4 => some { i := .matchLanes o.c (MatchMode.ofCode (bits f.mod 0 2)) (modWid f) o.d o.a, modDef := 0xB,
                modBad := decide (bits f.mod 0 2 = 3) }
  | 5 => some { i := .elect o.c (decide (bits f.mod 0 1 = 1)) o.d, modDef := 1 }
  | _ => none

/-- Rows 0x0E and 0x0F (R125 to R127). -/
def parseRow0E (f : Fields) (o : Ops3) : Nat → Option Parsed
  | 0 => some { i := .plut o.c (BitVec.ofNat 8 f.imm8) (auxP f) o.d o.a o.b, auxDef := 7, immDef := 0xFF }
  | _ => none

def parseRow0F (f : Fields) (o : Ops3) : Nat → Option Parsed
  | 0 => some { i := .umov o.c (modWid f) o.d o.a, modDef := 8 }
  | 1 => some { i := .uld o.c (modWid f) o.d o.a o.b, modDef := 8 }
  | _ => none

/-- Row 0x10 (R128). -/
def parseRow10 (f : Fields) (o : Ops3) : Nat → Option Parsed
  | 0 => some { i := .bra o.c (BitVec.ofNat 8 f.imm8), immDef := 0xFF }
  | 1 => some { i := .call o.c (BitVec.ofNat 8 f.imm8), immDef := 0xFF }
  | 2 => some { i := .jmp o.c o.a }
  | 3 => some { i := .calli o.c o.a }
  | 4 => some { i := .ret o.c }
  | _ => none

/-- Row 0x11 (R128, R129). -/
def parseRow11 (f : Fields) (o : Ops3) : Nat → Option Parsed
  | 0 => some { i := .reform o.c }
  | 1 => some { i := .demote o.c }
  | 2 => some { i := .exit o.c }
  | 3 => some { i := .trap o.c o.a }
  | 4 => some { i := .brk o.c (BitVec.ofNat 8 f.imm8), immDef := 0xFF }
  | 5 => some { i := .svc o.c (BitVec.ofNat 8 f.imm8) o.d o.a, immDef := 0xFF }
  | 6 => some { i := .rte o.c (decide (bits f.mod 0 1 = 1)), modDef := 1, hintBad := decide (f.s = 0) }
  | _ => none

/-- Row 0x12 (R128, R129). -/
def parseRow12 (f : Fields) (o : Ops3) : Nat → Option Parsed
  | 0 => some { i := .rdsr o.c ((SysReg.ofCode f.imm8).getD .tstat) o.d o.a, immDef := 0xFF,
                immBad := (SysReg.ofCode f.imm8).isNone }
  | 1 => some { i := .wrsr o.c ((SysReg.ofCode f.imm8).getD .tstat) o.a o.b, immDef := 0xFF,
                immBad := (SysReg.ofCode f.imm8).isNone }
  | _ => none

/-- Row 0x13 (R128). -/
def parseRow13 (f : Fields) (o : Ops3) : Nat → Option Parsed
  | 0 => some { i := .raise o.c (BitVec.ofNat 2 (bits f.imm8 0 2)), immDef := 3 }
  | 1 => some { i := .declass o.c (BitVec.ofNat 2 (bits f.imm8 0 2)) o.d o.a, immDef := 3 }
  | 2 => some { i := .tmark o.c (BitVec.ofNat 8 f.imm8) o.a, immDef := 0xFF }
  | 3 => some { i := .launch o.c o.d o.a o.b }
  | _ => none

/-- The bits of MOD that atom and red define, by OP (R178): RND only with `.fadd`. -/
def atomDef (op : Nat) : Nat := if op = 8 then 0x7FF else 0x7FC

/-- The atom or red operation of a word. -/
def modAtom (f : Fields) : Option AtomOp := AtomOp.ofCode (bits f.mod 7 4) (bits f.mod 5 2) (bits f.mod 0 2)

/-- Row 0x18 (R177, R178). A prefetch in a typed buffer is ILLEGAL_OPCODE by R178, which excludes the code for `pref`, although R152 calls an access there
BUFFER_PORT: faults of the word come first (R47; DEDUCED, log 86). -/
def parseRow18 (f : Fields) (o : Ops3) : Nat → Option Parsed
  | 0 => some { i := .ld o.c ((Space.ofCode (bits f.mod 2 3)).getD .g) ((LdWidth.ofCode (bits f.mod 5 3)).getD .u8)
                  ((Policy.ofCode (bits f.mod 8 2)).getD .l1) o.d o.a o.b,
                modDef := 0x3FC,
                modBad := (Space.ofCode (bits f.mod 2 3)).isNone || (LdWidth.ofCode (bits f.mod 5 3)).isNone ||
                  (Policy.ofCode (bits f.mod 8 2)).isNone }
  | 1 => some { i := .st o.c ((Space.ofCode (bits f.mod 2 3)).getD .g) ((StWidth.ofCode (bits f.mod 5 3)).getD .b8)
                  ((Policy.ofCode (bits f.mod 8 2)).getD .l1) o.d o.a o.b,
                modDef := 0x3FC,
                modBad := (Space.ofCode (bits f.mod 2 3)).isNone || (StWidth.ofCode (bits f.mod 5 3)).isNone ||
                  (Policy.ofCode (bits f.mod 8 2)).isNone }
  | 2 => some { i := .atom o.c ((modAtom f).getD .fmin) ((Space.ofCode (bits f.mod 2 3)).getD .g) o.d o.a o.b,
                modDef := atomDef (bits f.mod 7 4),
                modBad := (modAtom f).isNone || (Space.ofCode (bits f.mod 2 3)).isNone || decide (bits f.mod 2 3 = 1) }
  | 3 => some { i := .red o.c ((modAtom f).getD .fmin) ((Space.ofCode (bits f.mod 2 3)).getD .g) o.a o.b,
                modDef := atomDef (bits f.mod 7 4),
                modBad := !((modAtom f).map AtomOp.redOk).getD false || (Space.ofCode (bits f.mod 2 3)).isNone ||
                  decide (bits f.mod 2 3 = 1) }
  | 4 => some { i := .fence o.c (Scope.ofCode (bits f.mod 0 2)), modDef := 3 }
  | 5 => some { i := .pref o.c (if bits f.mod 2 3 = 1 then .l else .g) (decide (bits f.mod 8 1 = 1)) o.a o.b, modDef := 0x31C,
                modBad := decide (2 ≤ bits f.mod 2 3) || decide (2 ≤ bits f.mod 8 2) }
  | _ => none

/-- Row 0x19 (R177, R178). -/
def parseRow19 (f : Fields) (o : Ops3) : Nat → Option Parsed
  | 0 => some { i := .resv o.c ((Buf.ofCode (bits f.mod 0 2)).getD .wb) ((Fmt.ofCode (bits f.mod 2 4)).getD .bf16)
                  (BitVec.ofNat 2 (bits f.mod 6 2)) (BitVec.ofNat 4 (bits f.imm8 0 4)) o.d o.a o.b,
                modDef := 0xFF, modBad := (Buf.ofCode (bits f.mod 0 2)).isNone || (Fmt.ofCode (bits f.mod 2 4)).isNone,
                immDef := 0xF }
  | 1 => some { i := .resfree o.c (decide (bits f.mod 0 1 = 1)) (BitVec.ofNat 4 (bits f.imm8 0 4)), modDef := 1,
                immDef := if bits f.mod 0 1 = 1 then 0 else 0xF, immZero := decide (bits f.mod 0 1 = 1) }
  | _ => none

/-- Row 0x1A (R196). -/
def parseRow1A (f : Fields) (o : Ops3) : Nat → Option Parsed
  | 0 => some { i := .mld o.c (BitVec.ofNat 4 (bits f.imm8 0 4)) o.a o.b, immDef := 0xF }
  | 1 => some { i := .mswap o.c }
  | 2 => some { i := .mstream o.c o.d o.a o.b }
  | 3 => some { i := .mread o.c (BitVec.ofNat 4 (bits f.imm8 0 4)) o.d o.a o.b, immDef := 0xF }
  | 4 => some { i := .mzero o.c (BitVec.ofNat 4 (bits f.imm8 0 4)) o.a o.b, immDef := 0xF }
  | 5 => some { i := .mfuse o.c ((Shape.ofCode (bits f.mod 0 2)).getD .h), modDef := 3,
                modBad := (Shape.ofCode (bits f.mod 0 2)).isNone }
  | 6 => some { i := .mrel o.c }
  | _ => none

/-- Row 0x1B (R219). -/
def parseRow1B (f : Fields) (o : Ops3) : Nat → Option Parsed
  | 0 => some { i := .copy o.c (decide (bits f.mod 0 1 = 1)) (decide (bits f.mod 1 1 = 1)) o.d o.a o.b, modDef := 3 }
  | 1 => some { i := .quant o.c (decide (bits f.mod 0 1 = 1)) (decide (bits f.mod 1 1 = 1)) o.d o.a o.b, modDef := 3 }
  | 2 => some { i := .rqt o.c (decide (bits f.mod 0 1 = 1)) (decide (bits f.mod 1 1 = 1)) o.d o.a o.b, modDef := 3 }
  | 3 => some { i := .htest o.c o.d o.a }
  | 4 => some { i := .hcancel o.c o.a }
  | 5 => some { i := .hmov o.c o.d o.a }
  | _ => none

/-- The mode of cadd (R306). -/
def modCadd (f : Fields) : CaddMode :=
  if bits f.mod 2 1 = 1 then .rel (Scope.ofCode (bits f.mod 0 2)) else if bits f.mod 3 1 = 1 then .lim else .plain

/-- Row 0x1C (R305, R306). -/
def parseRow1C (f : Fields) (o : Ops3) : Nat → Option Parsed
  | 0 => some { i := .cadd o.c (modCadd f) o.d o.a o.b, modDef := if bits f.mod 2 1 = 1 then 0xF else 0xC,
                modBad := decide (bits f.mod 2 2 = 3) }
  | 1 => some { i := .cwait o.c o.d o.a o.b }
  | 2 => some { i := .cread o.c o.d o.a }
  | 3 => some { i := .carm o.c o.d o.a }
  | 4 => some { i := .cdisarm o.c o.d o.a o.b }
  | _ => none

/-- Rows 0x1D and 0x1E (R284, R260). -/
def parseRow1D (_f : Fields) (o : Ops3) : Nat → Option Parsed
  | 0 => some { i := .ovw o.c o.d o.a o.b }
  | 1 => some { i := .ovget o.c o.d }
  | 2 => some { i := .ovend o.c }
  | _ => none

def parseRow1E (f : Fields) (o : Ops3) : Nat → Option Parsed
  | 0 => some { i := .xinv o.c (decide (bits f.mod 0 1 = 1)) o.d o.a, modDef := 1 }
  | 1 => some { i := .xprobe o.c ((ProbeKind.ofCode (bits f.mod 0 2)).getD .r) o.d o.a, modDef := 3,
                modBad := (ProbeKind.ofCode (bits f.mod 0 2)).isNone }
  | _ => none

/-- The opcode map (R48). -/
def parse (f : Fields) : Option Parsed :=
  match f.opc % 128 with
  | 0x01 => parseRow01 f f.ops (f.opc / 128)
  | 0x02 => parseRow02 f f.ops (f.opc / 128)
  | 0x03 => parseRow03 f f.ops (f.opc / 128)
  | 0x04 => parseRow04 f f.ops (f.opc / 128)
  | 0x05 => parseRow05 f f.ops (f.opc / 128)
  | 0x06 => parseRow06 f f.ops (f.opc / 128)
  | 0x08 => parseRow08 f f.ops (f.opc / 128)
  | 0x09 => parseRow09 f f.ops (f.opc / 128)
  | 0x0A => parseRow0A f f.ops (f.opc / 128)
  | 0x0B => parseRow0B f f.ops (f.opc / 128)
  | 0x0C => parseRow0C f f.ops (f.opc / 128)
  | 0x0D => parseRow0D f f.ops (f.opc / 128)
  | 0x0E => parseRow0E f f.ops (f.opc / 128)
  | 0x0F => parseRow0F f f.ops (f.opc / 128)
  | 0x10 => parseRow10 f f.ops (f.opc / 128)
  | 0x11 => parseRow11 f f.ops (f.opc / 128)
  | 0x12 => parseRow12 f f.ops (f.opc / 128)
  | 0x13 => parseRow13 f f.ops (f.opc / 128)
  | 0x18 => parseRow18 f f.ops (f.opc / 128)
  | 0x19 => parseRow19 f f.ops (f.opc / 128)
  | 0x1A => parseRow1A f f.ops (f.opc / 128)
  | 0x1B => parseRow1B f f.ops (f.opc / 128)
  | 0x1C => parseRow1C f f.ops (f.opc / 128)
  | 0x1D => parseRow1D f f.ops (f.opc / 128)
  | 0x1E => parseRow1E f f.ops (f.opc / 128)
  | _ => none

/-- The bits of x that the mask does not define. -/
def outside (x mask n : Nat) : Bool := decide (x &&& (2 ^ n - 1 - mask) ≠ 0)

/-- Whether a field of the word names IMM (R29). -/
def Fields.namesImm (f : Fields) : Bool := decide (f.d = 0xFFE) || decide (f.a = 0xFFE) || decide (f.b = 0xFFE)

/-- TVAL of RESERVED_BITS, zero where no reserved bit is set (R29, R47). -/
def reservedTval (f : Fields) (p : Parsed) : Nat :=
  f.zero + f.top * 2 ^ 8 + bit (outside f.mod p.modDef 12) 13 + bit (outside f.aux p.auxDef 8) 14 +
  bit (if p.immDef = 0 ∧ !p.immZero ∧ f.namesImm then false else outside f.imm8 p.immDef 8) 15

/-- Whether a field holds an operand that its slot accepts (R30 to R32). -/
def fieldOk (sl : Slot) (regs e imm8 : Nat) : Bool :=
  match Operand.ofCode e imm8 with
  | some o => sl.accepts regs o
  | none => false

/-- The decoder of core words for a launch of `regs` registers per thread, with the faults of the word in the order of
R47. -/
def decodeFields (regs : Nat) (f : Fields) : Except WordFault Instr :=
  match parse f with
  | none => .error (.illegalOpcode f.opc)
  | some p =>
    if p.modBad || p.auxBad || p.immBad || p.hintBad then
      .error (.illegalOpcode (f.opc + bit p.modBad 10 + bit p.auxBad 11 + bit p.immBad 12 + bit p.hintBad 13))
    else if reservedTval f p ≠ 0 then .error (.reservedBits (reservedTval f p))
    else
      match coreForm p.i with
      | none => .error (.illegalOpcode f.opc)
      | some m =>
        if !fieldOk m.sd regs f.d f.imm8 then .error (.illegalOperand f.d)
        else if !fieldOk m.sa regs f.a f.imm8 then .error (.illegalOperand (f.a + 0x1000))
        else if !fieldOk m.sb regs f.b f.imm8 then .error (.illegalOperand (f.b + 0x2000))
        else .ok p.i

def decodeCore (regs : Nat) (w : BitVec 96) : Except WordFault Instr := decodeFields regs (Fields.ofNat w.toNat)

/-- The fields of a core instruction's word. -/
def Form.fields (m : Form) : Fields where
  opc := m.opc
  gP := m.c.gP.toNat
  gN := m.c.gN.toNat
  d := m.d.code
  a := m.a.code
  b := m.b.code
  imm8 := m.imm8.toNat
  keep := m.c.keep.toNat
  mod := m.mod
  aux := m.aux
  zero := 0
  s := m.c.s.toNat
  f := m.c.f.toNat
  y := m.c.y.toNat
  top := 0

/-- The word of a core instruction. -/
def encodeCore (m : Form) : BitVec 96 := BitVec.ofNat 96 m.fields.toNat

/-- The fields of a walker word (R265). -/
structure WFields where
  op : Nat
  d : Nat
  a : Nat
  b : Nat
  imm : Nat
  deriving DecidableEq, Repr

def WFields.ofNat (w : Nat) : WFields where
  op := bits w 0 6
  d := bits w 6 5
  a := bits w 11 5
  b := bits w 16 5
  imm := bits w 21 11

def WFields.toNat (f : WFields) : Nat := f.op + f.d * 2 ^ 6 + f.a * 2 ^ 11 + f.b * 2 ^ 16 + f.imm * 2 ^ 21

/-- An instruction that needs fields to be zero (R266). -/
def needZero (x : Nat) (i : Instr) : Option Instr := if x = 0 then some i else none

/-- The decoder of walker words; none is a word that R267 ends in fault 0x7FF: an unassigned opcode, or a field that must
hold zero and does not. -/
def decodeWFields (f : WFields) : Option Instr :=
  let d := BitVec.ofNat 5 f.d
  let a := BitVec.ofNat 5 f.a
  let b := BitVec.ofNat 5 f.b
  let i := BitVec.ofNat 11 f.imm
  let n := BitVec.ofNat 6 f.imm
  match f.op with
  | 0x01 => needZero f.imm (.walkerAdd d a b)
  | 0x02 => needZero f.imm (.walkerSub d a b)
  | 0x03 => needZero f.imm (.walkerAnd d a b)
  | 0x04 => needZero f.imm (.walkerOr d a b)
  | 0x05 => needZero f.imm (.walkerXor d a b)
  | 0x06 => needZero f.imm (.walkerSll d a b)
  | 0x07 => needZero f.imm (.walkerSrl d a b)
  | 0x08 => needZero f.imm (.walkerSra d a b)
  | 0x09 => needZero f.imm (.walkerMul d a b)
  | 0x10 => needZero f.b (.walkerAddi d a i)
  | 0x11 => needZero f.b (.walkerAndi d a i)
  | 0x12 => needZero f.b (.walkerOri d a i)
  | 0x13 => needZero f.b (.walkerXori d a i)
  | 0x14 => needZero (f.b + f.imm / 64) (.walkerSlli d a n)
  | 0x15 => needZero (f.b + f.imm / 64) (.walkerSrli d a n)
  | 0x16 => needZero (f.b + f.imm / 64) (.walkerSrai d a n)
  | 0x17 => needZero f.b (.walkerCat d a i)
  | 0x20 => needZero f.d (.walkerBeq a b i)
  | 0x21 => needZero f.d (.walkerBne a b i)
  | 0x22 => needZero f.d (.walkerBlt a b i)
  | 0x23 => needZero f.d (.walkerBge a b i)
  | 0x24 => needZero f.d (.walkerBltu a b i)
  | 0x25 => needZero f.d (.walkerBgeu a b i)
  | 0x26 => needZero (f.d + f.b) (.walkerJmp a i)
  | 0x30 => needZero f.b (.walkerLdpD d a i)
  | 0x31 => needZero f.b (.walkerLdpW d a i)
  | 0x32 => needZero f.b (.walkerLdvD d a i)
  | 0x33 => needZero f.b (.walkerLdvW d a i)
  | 0x38 => needZero f.imm (.walkerHash d a b)
  | 0x39 => needZero (f.a + f.b + f.imm) (.walkerTick d)
  | 0x3A => needZero (f.b + f.imm) (.walkerDone d a)
  | 0x3B => needZero (f.d + f.a + f.b) (.walkerFault i)
  | _ => none

def decodeWalker (w : BitVec 32) : Option Instr := decodeWFields (WFields.ofNat w.toNat)

/-- The fields of a walker instruction's word; none for a core instruction or an event. -/
def walkerFields : Instr → Option WFields
  | .walkerAdd d a b => some ⟨0x01, d.toNat, a.toNat, b.toNat, 0⟩
  | .walkerSub d a b => some ⟨0x02, d.toNat, a.toNat, b.toNat, 0⟩
  | .walkerAnd d a b => some ⟨0x03, d.toNat, a.toNat, b.toNat, 0⟩
  | .walkerOr d a b => some ⟨0x04, d.toNat, a.toNat, b.toNat, 0⟩
  | .walkerXor d a b => some ⟨0x05, d.toNat, a.toNat, b.toNat, 0⟩
  | .walkerSll d a b => some ⟨0x06, d.toNat, a.toNat, b.toNat, 0⟩
  | .walkerSrl d a b => some ⟨0x07, d.toNat, a.toNat, b.toNat, 0⟩
  | .walkerSra d a b => some ⟨0x08, d.toNat, a.toNat, b.toNat, 0⟩
  | .walkerMul d a b => some ⟨0x09, d.toNat, a.toNat, b.toNat, 0⟩
  | .walkerAddi d a i => some ⟨0x10, d.toNat, a.toNat, 0, i.toNat⟩
  | .walkerAndi d a i => some ⟨0x11, d.toNat, a.toNat, 0, i.toNat⟩
  | .walkerOri d a i => some ⟨0x12, d.toNat, a.toNat, 0, i.toNat⟩
  | .walkerXori d a i => some ⟨0x13, d.toNat, a.toNat, 0, i.toNat⟩
  | .walkerSlli d a n => some ⟨0x14, d.toNat, a.toNat, 0, n.toNat⟩
  | .walkerSrli d a n => some ⟨0x15, d.toNat, a.toNat, 0, n.toNat⟩
  | .walkerSrai d a n => some ⟨0x16, d.toNat, a.toNat, 0, n.toNat⟩
  | .walkerCat d a u => some ⟨0x17, d.toNat, a.toNat, 0, u.toNat⟩
  | .walkerBeq a b i => some ⟨0x20, 0, a.toNat, b.toNat, i.toNat⟩
  | .walkerBne a b i => some ⟨0x21, 0, a.toNat, b.toNat, i.toNat⟩
  | .walkerBlt a b i => some ⟨0x22, 0, a.toNat, b.toNat, i.toNat⟩
  | .walkerBge a b i => some ⟨0x23, 0, a.toNat, b.toNat, i.toNat⟩
  | .walkerBltu a b i => some ⟨0x24, 0, a.toNat, b.toNat, i.toNat⟩
  | .walkerBgeu a b i => some ⟨0x25, 0, a.toNat, b.toNat, i.toNat⟩
  | .walkerJmp a i => some ⟨0x26, 0, a.toNat, 0, i.toNat⟩
  | .walkerLdpD d a i => some ⟨0x30, d.toNat, a.toNat, 0, i.toNat⟩
  | .walkerLdpW d a i => some ⟨0x31, d.toNat, a.toNat, 0, i.toNat⟩
  | .walkerLdvD d a i => some ⟨0x32, d.toNat, a.toNat, 0, i.toNat⟩
  | .walkerLdvW d a i => some ⟨0x33, d.toNat, a.toNat, 0, i.toNat⟩
  | .walkerHash d a b => some ⟨0x38, d.toNat, a.toNat, b.toNat, 0⟩
  | .walkerTick d => some ⟨0x39, d.toNat, 0, 0, 0⟩
  | .walkerDone d a => some ⟨0x3A, d.toNat, a.toNat, 0, 0⟩
  | .walkerFault c => some ⟨0x3B, 0, 0, 0, c.toNat⟩
  | _ => none

/-- The encoder: the words of an instruction, low word first (R5); none for an event, which has no encoding. -/
def encode (i : Instr) : List Word :=
  match coreForm i, walkerFields i with
  | some m, _ => [(encodeCore m).extractLsb' 0 32, (encodeCore m).extractLsb' 32 32, (encodeCore m).extractLsb' 64 32]
  | none, some f => [BitVec.ofNat 32 f.toNat]
  | none, none => []

/-- A core word from its three 32-bit words, low word first. -/
def coreWord (w0 w1 w2 : Word) : BitVec 96 := w2 ++ w1 ++ w0

/-- The instruction of a table row's word: walker rows have 32 bits; a core word has 96, read for the largest register
allocation (R12). Every other length is refused. -/
def decodeTableWord (nbits w : Nat) : Option Instr :=
  if nbits = 32 then decodeWalker (BitVec.ofNat 32 w)
  else if nbits = 96 then (decodeCore 2048 (BitVec.ofNat 96 w)).toOption
  else none

end Sys2Proof
end

