-- ==== Sys2Proof/Machine/Walker.lean ====
section
/-! DEFINITION. Walker processors: the walker instruction set (R264 to R278), the checks of a walk's result (R251 to R254), nested
walks (R255), the time bound (R256), dispatch (R259), and the events of walks. -/

namespace Sys2Proof.Machine

open Sys2Proof

-- register sets

/-- The set that executes: the nested one while a nested walk runs (R264). -/
def WProc.set (p : WProc) : WSet := p.n.getD p.o
def WProc.putSet (p : WProc) (k : WSet) : WProc := if p.n.isSome then { p with n := some k } else { p with o := k }

/-- w0 reads as zero (R264). -/
def WSet.reg (k : WSet) (r : Nat) : DWord := if r = 0 then 0 else Tbl.getD k.w r 0
def WSet.readyAt (k : WSet) (r : Nat) : Nat := if r = 0 then 0 else Tbl.getD k.ready r 0
/-- A register that a load in flight writes. -/
def WSet.busy (k : WSet) (r : Nat) : Bool :=
  match k.load with
  | some l => decide (l.d = r) && decide (r ≠ 0)
  | none => false
/-- A register written, readable from a count on; writes to w0 are discarded (R264). -/
def WSet.write (k : WSet) (r at_ : Nat) (x : DWord) : WSet :=
  if r = 0 then k else { k with w := Tbl.put k.w r x, ready := Tbl.put k.ready r at_ }

/-- The entry values of a walk (R250). -/
def entrySet (va kind : Nat) (word root : DWord) : WSet :=
  { w := [(1, BitVec.ofNat 64 (va % 2 ^ 52)), (2, BitVec.ofNat 64 kind), (3, word), (4, root)] }

/-- The position of the routine region that a partition's walks use in a cell (R246): that of its lowest quadrant unit there. -/
def coreAt (cell pos : Nat) : Nat := (2 * (cell / 4) + pos / 2) * 8 + 2 * (cell % 4) + pos % 2
def regionFor (s : State) (cell part : Nat) : Nat :=
  ((List.range 4).find? (fun q => decide ((s.core (coreAt cell q)).owner = some part))).getD 0

/-- Word `pc` of a region; words beyond the routine are `fault 0x7FF` (R267). -/
def routineWord (s : State) (cell pos pc : Nat) : Word := Tbl.getD (s.cell cell).routine (pos * 1024 + pc) 0xFFE0003B

-- results and their checks

/-- The TVAL of a walk fault but for the requester's address (R258). -/
def walkTval (nest : Bool) (detail : Nat) : Nat := bit nest 63 + detail % 2048 * 2 ^ 52

/-- Whether a range holds `n` bytes from `pa` on (R253). -/
def Range.holds (r : Sys2Proof.Range) (pa n : Nat) : Bool :=
  r.valid && decide (r.base ≤ pa) && decide (pa + n ≤ r.base + r.len * 4096)

/-- Whether no frame of `n` bytes from `pa` on has left the ranges, with a retired slice (R355) or retired itself (R360). -/
def inService (s : State) (pa n : Nat) : Bool :=
  let ok := fun (d : Slice) => !d.dead && !d.retired.any (fun f => decide (f < pa + n) && decide (pa < f + 4096))
  decide (pa / 2 ^ 39 ≠ 0) || (ok (s.slice (pa / 2 ^ 34 % 32)) && ok (s.slice ((pa + n - 1) / 2 ^ 34 % 32)))

/-- The lowest-numbered valid range that holds a page (R254). -/
def rangeOf (s : State) (part pa n : Nat) : Option Sys2Proof.Range :=
  if inService s pa n then ((s.part part).ranges.map Prod.snd).find? (fun r => Range.holds r pa n) else none

/-- WHY of a result that fails the checks of R252, in order; 0 where it passes (R258). -/
def walkWhy (s : State) (part : Nat) (frame attr : Nat) : Nat :=
  let size := 2 ^ attrPsize attr
  if attrPsize attr < 12 ∨ 30 < attrPsize attr then 1
  else if frame % size ≠ 0 ∨ 2 ^ 48 ≤ frame then 2
  else if 2 ^ 18 ≤ attr ∨ 2 < attrCclass attr then 3
  else if attrCnt attr ∧ (attrSealed attr ∨ attrLabel attr ≠ 0) then 4
  else
    match rangeOf s part frame size with
    | none => 5
    | some r =>
      if !permsIn (attrPerm attr) r.maxperm.toNat then 6
      else if r.labceil < attrLabel attr then 7
      else if attrSealed attr != r.sealed then 8
      else if attrCnt attr ∧ !r.cntok then 9
      else 0

/-- The entry that a good result makes (R247, R251). -/
def mkXlat (part tag va frame attr : Nat) : Xlat :=
  { part, tag, vbase := va - va % 2 ^ attrPsize attr, psize := attrPsize attr, frame, attr }

-- the end of a walk

/-- The walker cycle of the present device time (R21). -/
def walkerCycle (s : State) : Nat := s.ps / 800

/-- A walk ends at a count (R256, R257, R259): its deficit is charged, its processor is free from the next walker cycle on (R296), its requesters are
answered. -/
def endWalk (s : State) (cell proc count : Nat) (p : WProc) (a : XAns) : State :=
  let w := p.walk
  let s := s.modCell cell (fun k => { k with
    procs := Tbl.del k.procs proc
    freed := Tbl.put k.freed proc (max (walkerCycle s) (p.start + count))
    deficit := Tbl.upd k.deficit w.part 0 (fun d => d - count) })
  deliverWalk (s.countCell cell w.part .walkCycles count) cell w a

/-- A walk fault (R258). -/
def failWalk (s : State) (cell proc count : Nat) (p : WProc) (code : FaultCode) (detail : Nat) : State :=
  endWalk s cell proc count p (.fail ⟨code, walkTval p.n.isSome detail⟩)

/-- A walker load that delivered a poison mark: MEM_POISON with WR from the access kind (R257). -/
def poisonWalk (s : State) (cell proc count : Nat) (p : WProc) : State :=
  endWalk s cell proc count p (.fail ⟨.memPoison, bit (decide (p.walk.kind % 2 = 1)) 52⟩)

def putProc (s : State) (cell proc : Nat) (p : WProc) : State :=
  s.modCell cell (fun k => { k with procs := Tbl.put k.procs proc p })

/-- The walker cycles of a walk at the present device time (R21, R256). -/
def walkerNow (s : State) (p : WProc) : Nat := walkerCycle s - p.start

/-- The count at which the mark that the walker data cache's copy delivered to a load ends the walk: the latency of a hit after the issue (R257, R268). -/
def WProc.poisonAt (p : WProc) : Option Nat :=
  match p.set.load with
  | some l => if l.pois then some (l.iss + 4) else none
  | none => none

/-- The count at which a walk ends by itself under a limit: at the limit, or sooner at a poison mark (R256, R257). -/
def WProc.endAt (p : WProc) (lim : Nat) : Nat :=
  match p.poisonAt with
  | some n => min n lim
  | none => lim

/-- A walk ended at that count: MEM_POISON, or WALK_TIME at the limit. -/
def expireWalk (s : State) (cell proc : Nat) (p : WProc) : State :=
  let lim := (s.part p.walk.part).limit
  if p.endAt lim < lim then poisonWalk s cell proc (p.endAt lim) p else failWalk s cell proc lim p .walkTime 0

-- the skeleton of an instruction

/-- Issue of an instruction of the current walker processor (R268): it waits for registers that a load in flight writes and, a
load, for any load in flight; at the limit the walk ends with WALK_TIME (R256), and at the latency of a hit that delivered a poison mark with MEM_POISON.
An instruction does not issue before its walker cycle (R21). -/
def walkerWith (rs : List Nat) (ld : Bool) (eff : State → Nat → Nat → WProc → Nat → State) (s : State) : State :=
  match s.m.cur with
  | .walker c q =>
    match Tbl.find (s.cell c).procs q with
    | none => s
    | some p =>
      let k := p.set
      if rs.any k.busy || (ld && k.load.isSome) then s
      else
        let t := (rs.map k.readyAt).foldl max (max p.cycles (if ld then k.ldReady else 0))
        let fin := p.endAt (s.part p.walk.part).limit
        if walkerNow s p < min t fin then s
        else if fin ≤ t then expireWalk s c q p
        else eff s c q p t
  | .lanes _ => s
  | .none => s

/-- An instruction that writes w(D) after a latency and goes on (R268, R269). -/
def walkerAlu (rs : List Nat) (d lat : Nat) (f : WSet → Nat → DWord) (s : State) : State :=
  walkerWith (d :: rs) false (fun s c q p t =>
    let k := p.set
    putProc s c q { p.putSet { (k.write d (t + lat) (f k t)) with pc := (k.pc + 1) % 1024 } with cycles := t + 1 }) s

/-- A register form (R269). -/
def walkerReg (d a b : BitVec 5) (lat : Nat) (f : DWord → DWord → DWord) (s : State) : State :=
  walkerAlu [a.toNat, b.toNat] d.toNat lat (fun k _ => f (k.reg a.toNat) (k.reg b.toNat)) s

/-- An immediate form (R270). -/
def walkerImm (d a : BitVec 5) (f : DWord → DWord) (s : State) : State :=
  walkerAlu [a.toNat] d.toNat 1 (fun k _ => f (k.reg a.toNat)) s

/-- A shift by a count of 6 bits (R269). -/
def shAmt (b : DWord) : Nat := b.toNat % 64

def execWalkerAdd (d a b : BitVec 5) (s : State) : Host.Outcome State Fault Refusal := .next (walkerReg d a b 1 (· + ·) s)
def execWalkerSub (d a b : BitVec 5) (s : State) : Host.Outcome State Fault Refusal := .next (walkerReg d a b 1 (· - ·) s)
def execWalkerAnd (d a b : BitVec 5) (s : State) : Host.Outcome State Fault Refusal := .next (walkerReg d a b 1 (· &&& ·) s)
def execWalkerOr (d a b : BitVec 5) (s : State) : Host.Outcome State Fault Refusal := .next (walkerReg d a b 1 (· ||| ·) s)
def execWalkerXor (d a b : BitVec 5) (s : State) : Host.Outcome State Fault Refusal := .next (walkerReg d a b 1 (· ^^^ ·) s)
def execWalkerSll (d a b : BitVec 5) (s : State) : Host.Outcome State Fault Refusal :=
  .next (walkerReg d a b 1 (fun x y => x <<< shAmt y) s)
def execWalkerSrl (d a b : BitVec 5) (s : State) : Host.Outcome State Fault Refusal :=
  .next (walkerReg d a b 1 (fun x y => x >>> shAmt y) s)
def execWalkerSra (d a b : BitVec 5) (s : State) : Host.Outcome State Fault Refusal :=
  .next (walkerReg d a b 1 (fun x y => x.sshiftRight (shAmt y)) s)
def execWalkerMul (d a b : BitVec 5) (s : State) : Host.Outcome State Fault Refusal := .next (walkerReg d a b 3 (· * ·) s)
def execWalkerAddi (d a : BitVec 5) (i : BitVec 11) (s : State) : Host.Outcome State Fault Refusal :=
  .next (walkerImm d a (· + i.signExtend 64) s)
def execWalkerAndi (d a : BitVec 5) (i : BitVec 11) (s : State) : Host.Outcome State Fault Refusal :=
  .next (walkerImm d a (· &&& i.signExtend 64) s)
def execWalkerOri (d a : BitVec 5) (i : BitVec 11) (s : State) : Host.Outcome State Fault Refusal :=
  .next (walkerImm d a (· ||| i.signExtend 64) s)
def execWalkerXori (d a : BitVec 5) (i : BitVec 11) (s : State) : Host.Outcome State Fault Refusal :=
  .next (walkerImm d a (· ^^^ i.signExtend 64) s)
def execWalkerSlli (d a : BitVec 5) (n : BitVec 6) (s : State) : Host.Outcome State Fault Refusal :=
  .next (walkerImm d a (· <<< n.toNat) s)
def execWalkerSrli (d a : BitVec 5) (n : BitVec 6) (s : State) : Host.Outcome State Fault Refusal :=
  .next (walkerImm d a (· >>> n.toNat) s)
def execWalkerSrai (d a : BitVec 5) (n : BitVec 6) (s : State) : Host.Outcome State Fault Refusal :=
  .next (walkerImm d a (·.sshiftRight n.toNat) s)
/-- `cat` (R270). -/
def execWalkerCat (d a : BitVec 5) (u : BitVec 11) (s : State) : Host.Outcome State Fault Refusal :=
  .next (walkerImm d a (fun x => x <<< 11 ||| u.setWidth 64) s)

-- branches (R271)

/-- The PC after a displacement, within the region. -/
def walkerPc (base : DWord) (i : BitVec 11) : Nat := (base + i.signExtend 64).toNat % 1024

/-- A taken branch leaves one cycle with no issue (R268). -/
def walkerBranch (a b : BitVec 5) (i : BitVec 11) (test : DWord → DWord → Bool) (s : State) : State :=
  walkerWith [a.toNat, b.toNat] false (fun s c q p t =>
    let k := p.set
    if test (k.reg a.toNat) (k.reg b.toNat) then
      putProc s c q { p.putSet { k with pc := walkerPc (BitVec.ofNat 64 (k.pc + 1)) i } with cycles := t + 2 }
    else putProc s c q { p.putSet { k with pc := (k.pc + 1) % 1024 } with cycles := t + 1 }) s

def execWalkerBeq (a b : BitVec 5) (i : BitVec 11) (s : State) : Host.Outcome State Fault Refusal :=
  .next (walkerBranch a b i (fun x y => decide (x = y)) s)
def execWalkerBne (a b : BitVec 5) (i : BitVec 11) (s : State) : Host.Outcome State Fault Refusal :=
  .next (walkerBranch a b i (fun x y => decide (x ≠ y)) s)
def execWalkerBlt (a b : BitVec 5) (i : BitVec 11) (s : State) : Host.Outcome State Fault Refusal :=
  .next (walkerBranch a b i (fun x y => x.slt y) s)
def execWalkerBge (a b : BitVec 5) (i : BitVec 11) (s : State) : Host.Outcome State Fault Refusal :=
  .next (walkerBranch a b i (fun x y => !x.slt y) s)
def execWalkerBltu (a b : BitVec 5) (i : BitVec 11) (s : State) : Host.Outcome State Fault Refusal :=
  .next (walkerBranch a b i (fun x y => x.ult y) s)
def execWalkerBgeu (a b : BitVec 5) (i : BitVec 11) (s : State) : Host.Outcome State Fault Refusal :=
  .next (walkerBranch a b i (fun x y => !x.ult y) s)

/-- `jmp` (R271). -/
def execWalkerJmp (a : BitVec 5) (i : BitVec 11) (s : State) : Host.Outcome State Fault Refusal :=
  .next (walkerWith [a.toNat] false (fun s c q p t =>
    let k := p.set
    putProc s c q { p.putSet { k with pc := walkerPc (k.reg a.toNat) i } with cycles := t + 2 }) s)

-- loads (R272 to R274)

/-- A live line of the walker data cache. -/
def wdcLive (s : State) (cell pa : Nat) : Option WLine :=
  match Tbl.find (s.cell cell).wdc (pa / 256) with
  | some k => if s.now < k.expiry then some k else none
  | none => none

/-- Whether a walker load's bytes lie in a valid range with read and SEALED clear (R272). -/
def loadAllowed (s : State) (part pa n : Nat) : Bool :=
  decide (pa < 2 ^ 48) && inService s pa n && ((s.part part).ranges.map Prod.snd).any (fun r =>
    Range.holds r pa n && decide (r.maxperm.toNat % 2 = 1) && !r.sealed)

/-- The value of a load that has its data, readable from a count on. -/
def WSet.loaded (k : WSet) (d at_ : Nat) (x : DWord) : WSet := { (k.write d at_ x) with load := none, ldReady := at_ }

/-- A physical read of the executing set that issues at count `t` (R272): a hit in the walker data cache completes at once, or brings a poison mark of the
line when its data would come: a mark on any sector is the line's (R163, R257; log 58). -/
def walkerRead (s : State) (cell proc : Nat) (p : WProc) (d pa n lease cclass t : Nat) : State :=
  if !loadAllowed s p.walk.part pa n then failWalk s cell proc t p .walkAllowance 10
  else
    match (if lease = 0 then none else wdcLive s cell pa) with
    | some k =>
      if k.pois ≠ 0 then
        putProc s cell proc (p.putSet { p.set with load := some { d, virt := false, addr := pa, n, lease, iss := t, pois := true } })
      else putProc s cell proc (p.putSet (p.set.loaded d (t + 4) (BitVec.ofNat 64 (leNat ((k.bytes.drop (pa % 256)).take n)))))
    | none => putProc s cell proc (p.putSet { p.set with load := some { d, virt := false, addr := pa, n, lease, cclass, iss := t } })

/-- A walker's address with the low bits of its width cleared (R272). -/
def walkerEa (k : WSet) (a : BitVec 5) (i : BitVec 11) : Nat := (k.reg a.toNat + i.signExtend 64).toNat
def clearLow (x n : Nat) : Nat := x - x % n

def WProc.stepPc (p : WProc) (t : Nat) : WProc :=
  { p.putSet { p.set with pc := (p.set.pc + 1) % 1024 } with cycles := t + 1 }

def walkerLdp (d a : BitVec 5) (i : BitVec 11) (n : Nat) (s : State) : State :=
  walkerWith [d.toNat, a.toNat] true (fun s c q p t =>
    walkerRead s c q (p.stepPc t) d.toNat (clearLow (walkerEa p.set a i) n) n 1 0 t) s

def execWalkerLdpD (d a : BitVec 5) (i : BitVec 11) (s : State) : Host.Outcome State Fault Refusal := .next (walkerLdp d a i 8 s)
def execWalkerLdpW (d a : BitVec 5) (i : BitVec 11) (s : State) : Host.Outcome State Fault Refusal := .next (walkerLdp d a i 4 s)

/-- The read of an `ldv` through a translation (R273): WHY 11 for a page that lacks read, is sealed or is a counter page. -/
def walkerVread (s : State) (cell proc : Nat) (p : WProc) (x : Xlat) (d va n t : Nat) : State :=
  if !permsIn permRead (attrPerm x.attr) ∨ attrSealed x.attr ∨ attrCnt x.attr then failWalk s cell proc t p .walkAllowance 11
  else walkerRead s cell proc p d (clearLow (x.pa va) n) n (attrLease x.attr) (attrCclass x.attr) t

/-- `ldv`: the level-2 cache, or a nested walk (R273, R255). The nested walk takes what the outer walk's writes of w3 and w4 give, one that is still in
flight too, with no wait (DESIGN CHOICE, log 92). -/
def walkerLdv (d a : BitVec 5) (i : BitVec 11) (n : Nat) (s : State) : State :=
  walkerWith [d.toNat, a.toNat] true (fun s c q p t =>
    let va := walkerEa p.set a i % 2 ^ 52
    let p' := p.stepPc t
    match hitOf (s.cell c).l2 p.walk.part p.walk.tag va [s.m.steps, c, q] with
    | some x => walkerVread s c q p' x d.toNat va n t
    | none =>
      if p.n.isSome then failWalk s c q t p .walkDepth 0
      else
        putProc s c q { p' with
          o := { p'.o with load := some { d := d.toNat, virt := true, addr := va, n, iss := t } }
          n := some (entrySet va kindNested (p.o.reg 3) (p.o.reg 4)) }) s

def execWalkerLdvD (d a : BitVec 5) (i : BitVec 11) (s : State) : Host.Outcome State Fault Refusal := .next (walkerLdv d a i 8 s)
def execWalkerLdvW (d a : BitVec 5) (i : BitVec 11) (s : State) : Host.Outcome State Fault Refusal := .next (walkerLdv d a i 4 s)

-- mixing and time (R275, R276)

def walkerMix (a b : DWord) : DWord :=
  let x := a ^^^ b
  let x := x ^^^ x >>> 31
  let x := x * 0x9E3779B97F4A7C15
  let x := x ^^^ b
  let x := x ^^^ x >>> 29
  let x := x * 0xC2B2AE3D27D4EB4F
  x ^^^ x >>> 32

/-- `hash` (R275). -/
def execWalkerHash (d a b : BitVec 5) (s : State) : Host.Outcome State Fault Refusal := .next (walkerReg d a b 4 walkerMix s)

/-- `tick` (R276). -/
def execWalkerTick (d : BitVec 5) (s : State) : Host.Outcome State Fault Refusal :=
  .next (walkerAlu [] d.toNat 1 (fun _ t => BitVec.ofNat 64 (t % 2 ^ 32)) s)

-- ending a walk (R277, R278)

/-- `done`: a nested walk's result completes the `ldv` of the outer walk, which resumes in the next walker cycle (R255, R296), unless the count reaches the
limit in that cycle (R256). -/
def walkerDoneAt (d a : BitVec 5) (s : State) (cell proc : Nat) (p : WProc) (t : Nat) : State :=
  let k := p.set
  let frame := (k.reg d.toNat).toNat
  let attr := (k.reg a.toNat).toNat
  let why := walkWhy s p.walk.part frame attr
  if why ≠ 0 then failWalk s cell proc t p .walkAllowance why
  else
    match p.n, p.o.load with
    | some _, some l =>
      let x := mkXlat p.walk.part p.walk.tag l.addr frame attr
      let s := if p.walk.nofill then s else s.fillL2 cell x
      if (s.part p.walk.part).limit ≤ t + 1 then putProc s cell proc { p with n := none, cycles := t + 1 }
      else walkerVread s cell proc { p with n := none, o := { p.o with load := none }, cycles := t + 1 } x l.d l.addr l.n (t + 1)
    | some _, none => s
    | none, _ => endWalk s cell proc t p (.ok (mkXlat p.walk.part p.walk.tag p.walk.va frame attr))

def execWalkerDone (d a : BitVec 5) (s : State) : Host.Outcome State Fault Refusal :=
  .next (walkerWith [d.toNat, a.toNat] false (walkerDoneAt d a) s)

/-- `fault` (R278). -/
def execWalkerFault (code : BitVec 11) (s : State) : Host.Outcome State Fault Refusal :=
  .next (walkerWith [] false (fun s c q p t => failWalk s c q t p .walkFault code.toNat) s)

/-- The walker word that the current processor executes; an unassigned or malformed word executes as `fault 0x7FF` (R267). -/
def walkerFetch (s : State) (cell proc : Nat) : Option Word :=
  (Tbl.find (s.cell cell).procs proc).map (fun p => routineWord s cell (regionFor s cell p.walk.part) p.set.pc)

-- events of walks

/-- Lines that a walker data cache of 32 KiB can hold (R13). -/
def wdcLines : Nat := 128

/-- A line put into the walker data cache; where it is full, one that no rule names is replaced (log 87). -/
def wdcPut (s : State) (cell line : Nat) (k : WLine) : State :=
  let have_ := Tbl.keys (s.cell cell).wdc
  let s := if have_.contains line ∨ have_.length < wdcLines then s
    else (s.modCell cell (fun c => { c with
      wdc := Tbl.del c.wdc (have_.getD (Config.freeEntry s.m.free % have_.length) 0) })).bumpFree
  s.modCell cell (fun c => { c with wdc := Tbl.put c.wdc line k })

/-- The line of a walker load is read at its home, once no engine owns it (R274), and cached under its lease (R272, R273); a read on a page of class 0
leaves no older copy behind (R166). A walker load through a link window is answered with a poison mark (log 22), one of a retired slice too (R355); at
the limit the load is abandoned (R256, R268). A miss brings neither its data nor a mark sooner than a hit would (DESIGN CHOICE, log 92). -/
def walkerLoadReturn (s : State) (cell proc : Nat) : State :=
  match Tbl.find (s.cell cell).procs proc with
  | none => s
  | some p =>
    match p.set.load with
    | none => s
    | some l =>
      let line := l.addr / 256
      if l.virt ∨ (!l.pois ∧ closed s (.mem line)) then s
      else
        let now := walkerNow s p
        let lim := (s.part p.walk.part).limit
        let gone := decide (regionOf l.addr = 0) && (s.slice (sliceOf l.addr)).dead
        if l.pois then (if now < p.endAt lim then s else expireWalk s cell proc p)
        else if isLink l.addr ∨ noSuch l.addr ∨ (s.line line).pois ≠ 0 ∨ gone then
          if now < l.iss + 4 then s
          else if now < lim then poisonWalk s cell proc now p
          else failWalk s cell proc lim p .walkTime 0
        else
          let x := BitVec.ofNat 64 (homeRead s l.addr l.n)
          let (s, e) := grantLease (homeTake s line l.cclass false) line l.lease
          let s := if l.lease = 0 then s.modCell cell (fun k => { k with wdc := Tbl.del k.wdc line })
            else wdcPut s cell line { bytes := Mem.readN s.mem (line * 256) 256, expiry := e }
          putProc s cell proc (p.putSet (p.set.loaded l.d (max (l.iss + 4) now) x))

/-- WALKER_LOAD_RETURN. -/
def execWalkerLoadReturn (cell proc : Nat) (s : State) : Host.Outcome State Fault Refusal := .next (walkerLoadReturn s cell proc)

/-- The count at which a walk's next instruction issues (R268): when what it reads and writes is ready and, for a load, none is in flight; at the limit,
where it waits for a load in flight or comes no sooner, or at a poison mark (R256, R257). -/
def walkerDue (s : State) (cell : Nat) (p : WProc) : Nat :=
  let w := routineWord s cell (regionFor s cell p.walk.part) p.set.pc
  let f := WFields.ofNat (if (decodeWalker w).isSome then w.toNat else 0)
  let k := p.set
  let ld := decide (0x30 ≤ f.op) && decide (f.op ≤ 0x33)
  let rs := [f.d, f.a, f.b]
  let fin := p.endAt (s.part p.walk.part).limit
  if rs.any k.busy || (ld && k.load.isSome) then fin
  else min fin ((rs.map k.readyAt).foldl max (max p.cycles (if ld then k.ldReady else 0)))

/-- WALK_TIME_EXPIRY: the count has reached the limit, and an instruction or a load in flight is abandoned (R256, R268); a walk that a poison mark ended
before has ended at that count. -/
def execWalkTimeExpiry (cell proc : Nat) (s : State) : Host.Outcome State Fault Refusal :=
  .next (match Tbl.find (s.cell cell).procs proc with
  | none => s
  | some p =>
    if (s.part p.walk.part).limit ≤ walkerNow s p then expireWalk s cell proc p else s)

/-- Walker processors in service: a retired unit at position q takes 2q and 2q + 1 with it (R353). -/
def procUp (s : State) (cell proc : Nat) : Bool := !(s.core (coreAt cell (proc / 2))).dead

def queueOf (k : Cell) (p : Nat) : List Walk := Tbl.getD k.queues p []
def deficitOf (k : Cell) (p : Nat) : Int := Tbl.getD k.deficit p 0

/-- The next partition after `p`, ascending and wrapping, whose queue is not empty. -/
def nextQueued (k : Cell) (p : Nat) : Option Nat :=
  (List.range 32).map (fun i => (p + 1 + i) % 32) |>.find? (fun q => decide (queueOf k q ≠ []))

/-- The turns of R259 until a walk may start: the partition whose head walk starts, with the cell as the turns leave it. -/
def dispatch (weight : Nat → Nat) : Nat → Cell → Nat → Option (Cell × Nat)
  | 0, _, _ => none
  | n + 1, k, cur =>
    if queueOf k cur ≠ [] ∧ 0 < deficitOf k cur then some ({ k with cur := some cur }, cur)
    else
      let k := if queueOf k cur = [] ∧ 0 < deficitOf k cur then { k with deficit := Tbl.put k.deficit cur 0 } else k
      match nextQueued k cur with
      | none => none
      | some c =>
        dispatch weight n { k with cur := some c, deficit := Tbl.put k.deficit c (deficitOf k c + 1024 * weight c) } c

/-- The walker cycle in which a complex next starts a walk, where one is queued and a processor is free or comes free: at most one starts in a cycle, and a
processor is free from the cycle after its last walk's end (R259, R296). -/
def startDue (s : State) (cell : Nat) : Option Nat :=
  let k := s.cell cell
  let free := ((List.range 8).filter (fun q => (Tbl.find k.procs q).isNone && procUp s cell q)).map (fun q => match Tbl.find k.freed q with
    | some c => c + 1
    | none => 0)
  match (nextQueued k 31), free with
  | some _, c :: cs => some (max (walkerCycle s) (max (cs.foldl min c) (match k.started with | some c => c + 1 | none => 0)))
  | _, _ => none

/-- WALK_START: the complex starts the head walk that R259 chooses on the lowest-numbered free processor, at most one in a walker cycle (R259, R296). -/
def startWalk (s : State) (cell : Nat) : State :=
  let k := s.cell cell
  let now := walkerCycle s
  let free := fun (q : Nat) => (Tbl.find k.procs q).isNone && procUp s cell q && (match Tbl.find k.freed q with
    | some c => decide (c < now)
    | none => true)
  match (if k.started = some now then none else (List.range 8).find? free),
      (match k.cur with | some c => some c | none => (nextQueued k 31)) with
  | some proc, some cur =>
    let k := { k with cur := some cur }
    match dispatch (fun p => (s.part p).weight) 40000 k cur with
    | none => s
    | some (k, c) =>
      match queueOf k c with
      | [] => s
      | w :: ws =>
        let s := s.modCell cell (fun _ => { k with
          queues := Tbl.put k.queues c ws
          started := some now
          procs := Tbl.put k.procs proc { walk := w, o := entrySet w.va w.kind w.word (s.part c).root, start := now } })
        s.countCell cell c .walks
  | _, _ => s

def execWalkStart (cell : Nat) (s : State) : Host.Outcome State Fault Refusal := .next (startWalk s cell)

/-- ROUTINE_LOAD (R246, R267): refused whole if it is too long or a word is malformed; otherwise it fills the region of every cell
position that holds one of the partition's quadrant units. -/
def execRoutineLoad (part : Nat) (words : List Word) (s : State) : Host.Outcome State Fault Refusal :=
  .next (if 1024 < words.length ∨ words.any (fun w => (decodeWalker w).isNone) then s
    else
      let cores := (List.range 96).filter (fun c => decide ((s.core c).owner = some part))
      let pad := words ++ List.replicate (1024 - words.length) (0xFFE0003B : Word)
      cores.foldl (fun s c => s.modCell (cellOf c) (fun k => { k with
        routine := (pad.zip (List.range 1024)).foldl (fun r e => Tbl.put r (posOf c * 1024 + e.2) e.1) k.routine })) s)

end Sys2Proof.Machine
end

