-- ==== Sys2Proof/Machine/Kernel.lean ====
section
/-! DEFINITION. What the slice kernel does to partitions: creation and destruction (R342, R348, R349, R353), launch queues (R235), the
items it configures (R246, R253, R326, R334, R347, R356, R365, R369, R372), retirement of units (R354, R355), and the reset of a virtual
function (R358). -/

namespace Sys2Proof.Machine

open Sys2Proof

-- launch queues (R235)

def modLq (s : State) (part q : Nat) (f : LQueue → LQueue) : State :=
  s.modPart part (fun p => { p with queues := Tbl.upd p.queues q {} f })

/-- QUEUE_ENABLE: a queue is bound to one context until it is disabled. -/
def execQueueEnable (part q ctx : Nat) (s : State) : Host.Outcome State Fault Refusal :=
  .next (if 64 ≤ q ∨ (Tbl.find (s.part part).ctxs ctx).isNone ∨ (lqueue s part q).enabled then s
    else modLq s part q (fun k => { k with ctx, enabled := true }))

/-- A queue disabled: the records not taken are discarded, each with a report. -/
def disableQueue (s : State) (part q : Nat) : State :=
  (lqueue s part q).recs.foldl (fun s _ => s.report (.discarded part q)) (modLq s part q (fun k => { k with enabled := false, recs := [] }))

/-- QUEUE_DISABLE. -/
def execQueueDisable (part q : Nat) (s : State) : Host.Outcome State Fault Refusal :=
  .next (if (lqueue s part q).enabled then disableQueue s part q else s)

-- minima (R353, R354)

/-- Sums of minima by resource. -/
def sumAt (l : List (Nat × Nat)) (r : Nat) : Nat := ((l.filter (fun e => decide (e.1 = r))).map Prod.snd).foldl (· + ·) 0

/-- Walker processors of a cell in service. -/
def procsUp (s : State) (cell : Nat) : Nat := ((List.range 8).filter (procUp s cell)).length

/-- A partition as its minima count: number, weight, minima, the cells that hold its units. -/
structure Minima where
  weight : Nat
  link : List (Nat × Nat)
  mesh : List (Nat × Nat)
  cells : List Nat
  deriving DecidableEq, Repr

def minimaOf (s : State) (part : Nat) : Minima :=
  let p := s.part part
  { weight := p.weight, link := p.linkMin, mesh := p.meshMin, cells := dedup ((partUnits s part).map cellOf) }

/-- The minima of the admitted partitions that have not been demoted. -/
def admittedMinima (s : State) : List Minima :=
  (s.parts.filter (fun e => e.2.live && !e.2.demoted)).map (fun e => minimaOf s e.1)

/-- Whether every sum of minima fits its capacity. -/
def minimaFit (s : State) (ms : List Minima) : Bool :=
  (List.range 24).all (fun c =>
    decide (((ms.filter (fun m => m.cells.contains c)).map Minima.weight).foldl (· + ·) 0 ≤ 8 * procsUp s c)) &&
  (dedup (ms.flatMap (fun m => m.link.map Prod.fst))).all (fun r => decide ((ms.map (fun m => sumAt m.link r)).foldl (· + ·) 0 ≤ 256)) &&
  (dedup (ms.flatMap (fun m => m.mesh.map Prod.fst))).all (fun r => decide ((ms.map (fun m => sumAt m.mesh r)).foldl (· + ·) 0 ≤ 640))

/-- The partition demoted next: lowest class, then latest admission (R354). -/
def nextDemoted (s : State) : Option Nat :=
  (s.parts.filter (fun e => e.2.live && !e.2.demoted)).foldl (fun b e => match b with
    | none => some e.1
    | some d =>
      let q := s.part d
      if e.2.cls < q.cls ∨ (e.2.cls = q.cls ∧ q.seq < e.2.seq) then some e.1 else some d) none

/-- Partitions demoted one at a time until every sum fits: a notice to each and an event to its host. -/
def demoteAll : Nat → State → State
  | 0, s => s
  | n + 1, s =>
    if minimaFit s (admittedMinima s) then s
    else
      match nextDemoted s with
      | none => s
      | some d =>
        let s := s.modPart d (fun p => { p with demoted := true, linkMin := [], meshMin := [], weight := 1 })
        demoteAll n ((notice s d 1 none none none).report (.demoted d))

-- creation and destruction

/-- Frames of slices zeroed with fresh lines under the new owner's keys (R348); the horizons of the lines are folded into the slices', since a copy held
under a lease may outlive them (R165). -/
def freshSlices (s : State) (ds : List Nat) : State :=
  let out := fun (pa : Nat) => decide (regionOf pa = 0) && ds.contains (sliceOf pa)
  let s := (s.lines.filter (fun e => out (e.1 * 256))).foldl (fun s e =>
    s.modSlice (sliceOf (e.1 * 256)) (fun d => { d with horizon := max d.horizon (e.2.horizon.getD 0) })) s
  { s with
    mem := s.mem.filter (fun c => !out c.1)
    lines := s.lines.filter (fun e => !out (e.1 * 256))
    stored := s.stored.filter (fun e => !out (e.1 * 256)) }

/-- PARTITION_CREATE: refused where its units or slices are not free or its minima do not fit; KEY_ENTROPY while the source fails. A unit
keeps no copy of its last owner's lines. -/
def execPartitionCreate (r : PartReq) (s : State) : Host.Outcome State Fault Refusal :=
  .next (
    let free := r.units.all (fun c => decide (c < 96) && (s.core c).owner.isNone && !(s.core c).dead) &&
      r.slices.all (fun d => decide (d < 32) && (s.slice d).owner.isNone && !(s.slice d).dead)
    let mine : Minima := { weight := r.weight, link := r.linkMin, mesh := r.meshMin, cells := dedup (r.units.map cellOf) }
    if !s.boot.booted ∨ 32 ≤ r.num ∨ (s.part r.num).live ∨ r.slices = [] ∨ !free ∨ 7 < r.cls ∨ r.weight = 0 ∨ 64 < r.weight then s
    else if !minimaFit s (mine :: admittedMinima s) then s.report (.notAdmitted r.num)
    else
      match newKey s with
      | none => s.report .keyEntropy
      | some (k, s) =>
        let s := freshSlices s r.slices
        let s := r.units.foldl (fun s c => s.modCore c (fun k => { k with owner := some r.num, l1 := [], icache := [] })) s
        let s := r.slices.foldl (fun s d => s.modSlice d (fun k => { k with owner := some r.num })) s
        let p : PartSt := {
          live := true, units := r.units, slices := r.slices, weight := r.weight, cls := r.cls, seq := s.newId
          linkMin := r.linkMin, meshMin := r.meshMin, keys := k }
        { s with parts := Tbl.put s.parts r.num p, slots := Tbl.put s.slots r.num {} }.bumpId)

-- partitions that go

/-- Translations of a partition dropped from every cache. -/
def dropPartXlats (s : State) (part : Nat) : State :=
  let keep := fun (x : Xlat) => decide (x.part ≠ part)
  { s with
    cores := s.cores.map (fun (e : Nat × Core) => (e.1, { e.2 with atc := e.2.atc.filter keep }))
    cells := s.cells.map (fun (e : Nat × Cell) => (e.1, { e.2 with
      l2 := e.2.l2.filter keep, queues := Tbl.del e.2.queues part, deficit := Tbl.del e.2.deficit part })) }

/-- Launch messages of a partition that have no reply yet answered: its queues are enabled no more (R150, R371). -/
def answerLaunches (s : State) (part : Nat) : State :=
  (s.subs.filter (fun e => decide (e.2.part = part))).foldl (fun s e => endSub s e.1 e.2 (.code ((earlyRefusal s e.2).getD 0x11))) s

/-- A partition gone, its keys with it (R348): its units and slices are free, and no message to it stays without its answer. -/
def destroyPart (s : State) (part : Nat) : State :=
  let s := dropPartXlats (answerLaunches (refuseInbound s part) part) part
  { s with
    parts := Tbl.del s.parts part
    slots := Tbl.del s.slots part
    adds := s.adds.filter (fun a => decide (a.2.part ≠ part))
    subs := s.subs.filter (fun b => decide (b.2.part ≠ part))
    cores := s.cores.map (fun (e : Nat × Core) => if e.2.owner = some part then (e.1, { e.2 with owner := none }) else e)
    slices := s.slices.map (fun (e : Nat × Slice) => if e.2.owner = some part then (e.1, { e.2 with owner := none }) else e)
    links := { s.links with
      windows := s.links.windows.filter (fun w => decide (Tbl.find s.links.winPart w.1 ≠ some part))
      conns := s.links.conns.filter (fun c => decide (c.1 ≠ part))
      winPart := s.links.winPart.filter (fun w => decide (w.2 ≠ part)) } }

/-- PARTITION_DESTROY: a partition that holds no context. -/
def execPartitionDestroy (part : Nat) (s : State) : Host.Outcome State Fault Refusal :=
  .next (if !(s.part part).live ∨ (s.part part).ctxs ≠ [] then s else destroyPart s part)

-- configuration

/-- Whether a frame-allowance range stays within device memory, or within the regions that link windows may serve (R17, R18, R254): it
reaches no metadata area and no MMIO window. -/
def rangeAllowed (r : Sys2Proof.Range) : Bool :=
  let n := r.len * 4096
  !r.valid || (decide (r.base % 4096 = 0) && decide (r.base + n ≤ 2 ^ 48) && decide (0 < r.len) &&
    (if regionOf r.base = 0 then
      decide (r.base + n ≤ 2 ^ 39) && (List.range 32).all (fun d =>
        decide (d * 2 ^ 34 + 2 ^ 34 ≤ r.base) || decide (r.base + n ≤ d * 2 ^ 34 + 0x3C0000000))
     else decide (r.base + n ≤ 0x1FF * 2 ^ 39)))

/-- Whether frames hold only zeros, or lie already in a counter range of the partition (R299). -/
def zeroFrames (s : State) (part : Nat) (r : Sys2Proof.Range) : Bool :=
  s.mem.all (fun c => !(decide (r.base ≤ c.1) && decide (c.1 < r.base + r.len * 4096)) ||
    (s.part part).ranges.any (fun e => e.2.cntok && Sys2Proof.Machine.Range.holds e.2 c.1 1))

/-- A counter page's frame zeroed (R299). -/
def zeroFrame (s : State) (pa : Nat) : State :=
  let b := pa / 4096 * 4096
  { s with
    mem := s.mem.filter (fun c => !(decide (b ≤ c.1) && decide (c.1 < b + 4096)))
    lines := s.lines.map (fun e => if b ≤ e.1 * 256 ∧ e.1 * 256 < b + 4096 then (e.1, { e.2 with lab := 0, pois := 0, dirty := true, away := false }) else e) }

def isPow2 (n lo hi : Nat) : Bool := (List.range (hi + 1 - lo)).any (fun i => decide (n = 2 ^ (lo + i)))

/-- A halted team ended by the slice kernel (R326): a loop whose batch has iterations left has no thread to take them and is cut; its other commands run
to their ends first. -/
def endHalted (s : State) (core t : Nat) : State :=
  let tm := s.team t
  if tm.at_.core ≠ core ∨ !tm.halted ∨ tm.ended then s
  else
    let s := match loopOf s t with
      | some a => if a.running ∧ !a.batch.all Iter.ended then endLoop s core a 1 none else s
      | none => s
    if commandsLeft s core t ∨ !(s.team t).threads.all (fun e => settled s e.2) then s else endTeam s t

/-- An event counter assigned to a partition and an event. Assigned as it is, it keeps its value, for it never decreases (R319); assigned afresh it counts from
0, for which the rules give no value (DESIGN CHOICE, log 88). -/
def assignEv (ev : Tbl EvCtr) (i part : Nat) (e : Ev) : Tbl EvCtr :=
  let old := Tbl.getD ev i { part, ev := e }
  Tbl.put ev i (if old.part = part ∧ old.ev = e then old else { part, ev := e })

def modEv (s : State) (pl : EvPlace) (f : Tbl EvCtr → Tbl EvCtr) : State :=
  match pl with
  | .core n => s.modCore n (fun k => { k with ev := f k.ev })
  | .cell n => s.modCell n (fun k => { k with ev := f k.ev })
  | .slice n => s.modSlice n (fun k => { k with ev := f k.ev })

/-- A fresh admission of a partition (R354): it takes its minima, class and place in the order where every sum fits, and the walker weight is changed by
nothing else (R246). -/
def admitAfresh (s : State) (part weight cls : Nat) (link mesh : List (Nat × Nat)) : State :=
  let t := (s.modPart part (fun p => { p with weight, cls, seq := s.newId, linkMin := link, meshMin := mesh, demoted := false })).bumpId
  if weight = 0 ∨ 64 < weight ∨ 7 < cls then s
  else if minimaFit t (admittedMinima t) then t
  else s.report (.notAdmitted part)

/-- Whether a window entry has the form of R365, its destination that of R364. -/
def windowForm (w : Window) : Bool :=
  decide (w.port < 128) && endpointOk w.dest.toNat && decide (w.tctx < 64) && (decide (w.dest.toNat / 2 ^ 30 = 0) || decide (w.tctx = 0)) &&
    decide (w.rbase < 2 ^ 52) && decide (w.rbase % 4096 = 0)

/-- Whether a region may be given to a partition: no other one holds it in use (R365). -/
def regionFree (s : State) (part r : Nat) : Bool :=
  decide (Tbl.find s.links.winPart r = some part) || !((Tbl.find s.links.windows r).any Window.valid)

/-- Whether a root port has an NVMe drive (R20). -/
def driveAt (s : State) (n : Nat) : Bool := (Tbl.find s.boot.roots n).any RootPort.drive

/-- Whether a counter line lies in a counter range of the partition, in memory that is its own (R299). -/
def counterLineOf (s : State) (part pa : Nat) : Bool :=
  decide (pa % 64 = 0) && ownsRange s part pa 64 &&
    (s.part part).ranges.any (fun e => e.2.valid && e.2.cntok && Sys2Proof.Machine.Range.holds e.2 pa 64)

/-- A post action armed by the slice kernel for a host or a peer (R315), at the line's home as a `carm` of the partition would be: within its quota, and
fired at once where the threshold is met. That it takes a place of the quota is the model's choice (DESIGN CHOICE, log 92). -/
def armPost (s : State) (part pa : Nat) (thr : DWord) (dst : Endpoint) (msg : DWord) : State :=
  if !counterLineOf s part pa ∨ !endpointOk dst.toNat ∨ (CtrKey.line pa).closed s then s
  else (armHome s (.line pa) thr (.post dst msg) part (s.part part).hostCtx).1

/-- One item written by the slice kernel; a value outside its limits is not written. What an event counter holds once it is assigned afresh is the model's
choice (`assignEv`, log 88). -/
def configure (s : State) (part : Nat) (it : CfgItem) : State :=
  let set := s.modPart part
  match it with
  | .root w => set (fun p => { p with root := w })
  | .timeLimit n => if n < 16 ∨ 65536 < n then s else set (fun p => { p with limit := n })
  | .admission w cls link mesh => admitAfresh s part w cls link mesh
  | .range i r =>
    if 64 ≤ i ∨ !rangeAllowed r ∨ (r.valid ∧ r.cntok ∧ !zeroFrames s part r) then s
    else set (fun p => { p with ranges := Tbl.put p.ranges i r })
  | .svec a => if a = 0 ∧ (s.part part).ctxs ≠ [] then s else set (fun p => { p with svec := a })
  | .declassWindow f n => set (fun p => { p with declass := (f, n) })
  | .trace c =>
    if c.base % 4096 ≠ 0 ∨ 2 ^ 52 ≤ c.base ∨ !isPow2 c.cap 7 24 then s else set (fun p => { p with trace := { p.trace with cfg := some c } })
  | .window r w =>
    if r = 0 ∨ 0x1FF ≤ r ∨ !windowForm w ∨ !regionFree s part r then s
    else
      { s with links := { s.links with
        windows := Tbl.put s.links.windows r w, winPart := Tbl.put s.links.winPart r part
        lost := s.links.lost.filter (fun e => decide (e ≠ r))
        conns := if w.valid ∧ !s.links.conns.contains (part, w.dest) then s.links.conns ++ [(part, w.dest)] else s.links.conns } }
  | .carmQuota n => set (fun p => { p with carmQuota := n })
  | .launchRight i src m => if 32 ≤ i ∨ !endpointOk src.toNat then s else set (fun p => { p with rights := Tbl.put p.rights i (src, m) })
  | .sendWindow n => if n < 2 ^ 16 ∨ 2 ^ 22 < n then s else set (fun p => { p with sendWin := n })
  | .nameSpace i ns => if 16 ≤ i ∨ !driveAt s ns.port then s else set (fun p => { p with nss := Tbl.put p.nss i ns })
  | .timeSlice us => { s with slots := Tbl.upd s.slots part {} (fun k => { k with slice := us }) }
  | .deadline us => if us < 2 ∨ 200 < us then s else { s with slots := Tbl.upd s.slots part {} (fun k => { k with deadline := us }) }
  | .hostContext c => set (fun p => { p with hostCtx := c })
  | .eventCounter pl i ev => if 8 ≤ i then s else modEv s pl (fun t => assignEv t i part ev)
  | .zeroFrame pa => if ownsRange s part (pa / 4096 * 4096) 4096 then zeroFrame s pa else s
  | .endTeam core t => if (s.team t).at_.part = part then endHalted s core t else s
  | .postWaiter pa thr dst msg => armPost s part pa thr dst msg

/-- SLICE_KERNEL_CONFIG_WRITE. -/
def execSliceKernelConfigWrite (part : Nat) (it : CfgItem) (s : State) : Host.Outcome State Fault Refusal :=
  .next (if (s.part part).live then configure s part it else s)

-- the reset of a virtual function (R358)

/-- Waiters removed wherever they are armed, the flags of their counters kept (R300). -/
def dropPartWaiters (s : State) (part : Nat) : State :=
  let ks := (s.waiters.filter (fun w => decide (w.part = part))).map Waiter.ctr
  ks.foldl (fun s k => syncLine s k) { s with waiters := s.waiters.filter (fun w => decide (w.part ≠ part)) }

/-- Step 2: each call is answered RESET, or with the answer that it had (R141, R359). -/
def answerReset (s : State) (part : Nat) : State :=
  (s.part part).calls.foldl (fun s c =>
    let a := c.ans.getD (2, 0)
    returnResult s c.team c.thread c.owe (.val (BitVec.ofNat 64 (a.1 + a.2 * 2 ^ 32)) 0)) (s.modPart part (fun p => { p with calls := [] }))

/-- What waits behind an action of the partition: the actions of other partitions' waiters, which fired with it (R314), go on without it. -/
def othersOf (part : Nat) (l : List (Waiter × DWord)) : List (Waiter × DWord) := l.filter (fun w => decide (w.1.part ≠ part))

/-- The partition's pending adds and submissions dropped: actions of other partitions that follow one are performed, and none of this partition's is left
among those that follow another's. -/
def dropActions (s : State) (part : Nat) : State :=
  let mineA := fun (a : PAdd) => decide (a.part = part) && decide (a.who ≠ .head)
  let mineB := fun (b : Sub) => decide (b.part = part) && (match b.src with
    | .launch _ _ => true
    | .waiter => true
    | .host _ _ => false
    | .peer _ _ => false)
  let rests := (s.adds.filter (fun e => mineA e.2)).map (fun e => othersOf part e.2.rest) ++
    (s.subs.filter (fun e => mineB e.2)).map (fun e => othersOf part e.2.rest)
  rests.foldl fireRest { s with
    adds := (s.adds.filter (fun e => !mineA e.2)).map (fun e => (e.1, { e.2 with rest := othersOf part e.2.rest }))
    subs := (s.subs.filter (fun e => !mineB e.2)).map (fun e => (e.1, { e.2 with rest := othersOf part e.2.rest })) }

def ReqKind.arms : ReqKind → Bool
  | .arm _ _ _ => true
  | .load _ _ => false | .store => false | .atomic _ _ => false | .pref _ => false | .shLoad _ => false | .shStore _ => false
  | .shAtomic _ _ _ => false | .cadd _ _ => false | .cread _ => false | .disarm _ _ => false | .reply _ _ _ => false

/-- Step 1: teams, their commands, quadrants and loops stop; no completion counter advances, and a waiter on its way is armed no more. -/
def stopPart (s : State) (part : Nat) : State :=
  let ts := (s.teams.filter (fun e => decide (e.2.at_.part = part))).map Prod.fst
  { s with
    teams := s.teams.filter (fun e => decide (e.2.at_.part ≠ part))
    unpubSys := s.unpubSys.filter (fun u => !ts.contains u.team)
    cores := s.cores.map (fun (e : Nat × Core) =>
      if e.2.owner = some part then
        (e.1, { e.2 with
          out := e.2.out.filter (fun r => !r.kind.arms)
          cmds := [], quad := {}, anchor := none, desc := [], cover := []
          hnd := e.2.hnd.map (fun h => (h.1, { h.2 with st := .free })) })
      else e) }

/-- The endpoints that a partition has connections to: those of its windows and those that have sent to it. -/
def connPeers (s : State) (part : Nat) : List Endpoint := (s.links.conns.filter (fun c => decide (c.1 = part))).map Prod.snd

/-- The regions of a partition whose windows satisfy `p`. -/
def regionsOf (s : State) (part : Nat) (p : Window → Bool) : List Nat :=
  (s.links.windows.filter (fun w => w.2.valid && p w.2 && decide (Tbl.find s.links.winPart w.1 = some part))).map Prod.fst

/-- Regions whose connections are lost (R368). -/
def State.loseRegions (s : State) (rs : List Nat) : State :=
  { s with links := { s.links with lost := s.links.lost ++ rs.filter (fun r => !s.links.lost.contains r) } }

/-- Step 5: every connection is torn down, and each peer is told; each request outstanding on one is refused, with its notice, the line of a record that a
submission waits for too (R367, R368). -/
def tearLinks (s : State) (part : Nat) : State :=
  let s := (connPeers (refuseInbound s part) part).foldl (fun s d => s.report (.connReset d part)) s
  let s := (s.links.reqs.filter (fun e => decide (e.2.part = part))).foldl (fun s e =>
    notice s part 4 (some (BitVec.ofNat 64 e.2.region)) none (some (tagOf part (s.part part).hostCtx))) (s.loseRegions (regionsOf s part (fun _ => true)))
  { s with
    subs := s.subs.map (fun e => match e.2.lread with
      | some r => if e.2.part = part then (e.1, { e.2 with lread := none, lvals := e.2.lvals ++ [(r.2, none)] }) else e
      | none => e)
    links := { s.links with
      conns := s.links.conns.filter (fun c => decide (c.1 ≠ part))
      reqs := s.links.reqs.filter (fun e => decide (e.2.part ≠ part)) } }

/-- A core's requests through a window have no answer once its connections are gone (R368): those of a core's lanes are dropped. -/
def dropLinkReqs (s : State) (part : Nat) : State :=
  { s with cores := s.cores.map (fun (e : Nat × Core) =>
      if e.2.owner = some part then (e.1, { e.2 with out := e.2.out.filter (fun r => !r.link) }) else e) }

/-- Steps 1 to 7. -/
def resetPart (s : State) (part : Nat) : State :=
  let s := dropPartWaiters (dropActions (stopPart (answerReset s part) part) part) part
  let s := dropLinkReqs (tearLinks (s.modPart part (fun p => { p with files := [] })) part) part
  let s := ((s.part part).ctxs.map Prod.fst).foldl (fun s c => dropContext s part c true) s
  let s := ((s.part part).queues.map Prod.fst).foldl (fun s q => modLq (disableQueue s part q) part q (fun k => { k with active := none })) s
  let s := dropPages s (fun o => decide (o / 64 = part)) true
  ({ s with
      grids := s.grids.filter (fun g => decide (g.2.part ≠ part)) } : State).report (.resetDone part)

/-- VF_RESET. -/
def execVfReset (part : Nat) (s : State) : Host.Outcome State Fault Refusal :=
  .next (if (s.part part).live then resetPart s part else s)

-- retirement (R355)

/-- Grids whose unplaced teams no longer fit are abandoned, those whose records still stand in a queue too (R239). -/
def abandon (s : State) (part : Nat) : State :=
  let lost := fun (r : Rec) => !couldPlace s part r.hdr
  let s := ((s.part part).queues.flatMap (fun q => q.2.recs.filter lost)).foldl (fun s r => s.report (.abandoned part r.seq)) s
  let s := s.modPart part (fun p => { p with queues := p.queues.map (fun q => (q.1, { q.2 with recs := q.2.recs.filter (fun r => !lost r) })) })
  s.grids.foldl (fun s e =>
    let g := e.2
    if g.part ≠ part ∨ g.record.hdr.teams ≤ g.next ∨ couldFit s part g.record.hdr (g.record.hdr.teams - g.next) then s
    else
      let s := s.report (.abandoned part e.1)
      if g.live = 0 then { s with grids := Tbl.del s.grids e.1 }
      else { s with grids := Tbl.put s.grids e.1 { g with next := g.record.hdr.teams, spoiled := true } }) s

/-- A quadrant unit: contexts with a team there are stopped first; the unit leaves once none is left. -/
def retireCore (s : State) (n : Nat) : State :=
  match (s.core n).owner with
  | none => demoteAll 33 ((s.modCore n (fun k => { k with dead := true })).report (.retired (.core n)))
  | some p =>
    let ctxs := dedup ((s.teams.filter (fun e => decide (e.2.at_.core = n))).map (fun e => e.2.at_.ctx))
    if ctxs ≠ [] then ctxs.foldl (fun s c => stopRequest s p c) s
    else
      let s := s.modCore n (fun k => { k with dead := true, owner := none })
      let s := s.modPart p (fun q => { q with units := q.units.filter (fun u => decide (u ≠ n)) })
      let s := (notice s p 6 (some (BitVec.ofNat 64 n)) (some n) none).report (.retired (.core n))
      placeAll (abandon (demoteAll 33 s) p) p

/-- A request in flight to a retired slice completes with a poison mark (R355). -/
def poisonReq (r : Req) : Option Req :=
  match r.kind with
  | .load _ _ => some { r with kind := .reply 0 0 true }
  | .cread _ => some { r with kind := .reply 0 0 true }
  | .cadd _ _ => some { r with kind := .reply 0 0 true }
  | .atomic _ ret => if ret then some { r with kind := .reply 0 0 true } else none
  | .store => none
  | .pref _ => none
  | .arm _ _ _ => some { r with kind := .reply 0 0 true }
  | .disarm _ _ => some { r with kind := .reply 0 0 true }
  | .shLoad t => some { r with kind := .shLoad t }
  | .shStore t => some { r with kind := .shStore t }
  | .shAtomic t o b => some { r with kind := .shAtomic t o b }
  | .reply x l p => some { r with kind := .reply x l p }

/-- The requests of every core that name a line of the slice, completed; stores and reductions are acknowledged. -/
def poisonSlice (s : State) (d : Nat) : State :=
  let hit := fun (r : Req) => r.kind.onLine && decide (regionOf (r.line * 256) = 0) && decide (sliceOf (r.line * 256) = d)
  let acks := (s.cores.flatMap (fun c => c.2.out)).filter (fun r => hit r && (match r.kind with
    | .store => true
    | .atomic _ _ => true
    | _ => false))
  let s := acks.foldl (fun s r =>
    let s := ackParts s r (fun _ => s.now)
    match r.kind with
    | .store => r.parts.foldl (fun s p => spillBack s r p) s
    | _ => s) s
  { s with cores := s.cores.map (fun (e : Nat × Core) => (e.1, { e.2 with
      out := e.2.out.filterMap (fun r => if hit r then poisonReq r else some r) })) }

/-- Inbound requests whose checks have passed and that still reach a line of the slice (R355): one that reads there is refused with MEM_POISON, and what a
write or a reduction has left to do there is discarded. -/
def poisonInbound (s : State) (d : Nat) : State :=
  let in_ := fun (r : InReq) (e : Nat × Nat) => let pa := (r.at_ e.1).2; decide (regionOf pa = 0) && decide (sliceOf pa = d)
  (s.links.inb.filter (fun e => e.2.done.isNone && e.2.todo.any (in_ e.2))).foldl (fun s e =>
    let r := e.2
    let silent := match r.op with
      | .write _ => true
      | .atomic o _ _ => !o.ret
      | .read _ => false
      | .add _ _ => false
      | .cread => false
    let left := r.todo.filter (fun x => !in_ r x)
    if !silent then refuseIn s e.1 r ⟨.memPoison, accessBits false r.va⟩
    else modIn s e.1 (fun r => { r with todo := left, done := if left = [] then some (r.tw, []) else none })) s

/-- Counter lines of the slice are lost: their waiters never fire, and their partitions are told. -/
def loseWaiters (s : State) (d : Nat) : State :=
  let hit := fun (w : Waiter) => match w.ctr with
    | .line pa => decide (regionOf pa = 0) && decide (sliceOf pa = d)
    | .near _ _ => false
  (s.waiters.filter hit).foldl (fun s w => notice s w.part 6 (some (BitVec.ofNat 64 d)) none (some (tagOf w.part w.ctx)))
    { s with waiters := s.waiters.filter (fun w => !hit w) }

/-- The die that a slice belongs to (R15); where the slice attaches to the mesh is its latency alone (log 85). -/
def dieOf (d : Nat) : Nat := d / 8

/-- The next slice of a slice's die that is in service (R15, R372). -/
def nextOfDie (s : State) (d : Nat) : Option Nat :=
  ((List.range 7).map (fun i => dieOf d * 8 + (d + 1 + i) % 8)).find? (fun e => !(s.slice e).dead)

/-- A root port that a retired slice owned passes to the next slice of its die (R355, R372). -/
def passRoots (s : State) (d : Nat) : State :=
  { s with boot := { s.boot with roots := s.boot.roots.map (fun r => if r.2.owner = some d then (r.1, { r.2 with owner := nextOfDie s d }) else r) } }

/-- A slice leaves service. -/
def retireSlice (s : State) (d : Nat) : State :=
  let part := (s.slice d).owner
  let wasCall := match part with
    | some p => decide ((partSlices s p).head? = some d)
    | none => false
  let s := passRoots (poisonInbound (poisonSlice (s.modSlice d (fun k => { k with dead := true })) d) d) d
  let keep := fun (x : Xlat) => decide (regionOf x.frame ≠ 0) || decide (sliceOf x.frame ≠ d)
  let s := { s with
    cores := s.cores.map (fun (e : Nat × Core) => (e.1, { e.2 with atc := e.2.atc.filter keep }))
    cells := s.cells.map (fun (e : Nat × Cell) => (e.1, { e.2 with l2 := e.2.l2.filter keep })) }
  let s := freshSlices (loseWaiters (forgetAnswers s (fun x => !keep x)) d) [d]
  let s := s.report (.retired (.slice d))
  match part with
  | none => s
  | some p =>
    let s := (s.modSlice d (fun k => { k with owner := none })).modPart p (fun q => { q with
      slices := q.slices.filter (fun x => decide (x ≠ d))
      calls := if wasCall then q.calls.map (fun c => if c.ans.isNone then { c with ans := some (1, 5) } else c) else q.calls })
    let s := notice s p 6 (some (BitVec.ofNat 64 d)) none none
    if partSlices s p = [] then destroyPart (resetPart s p) p else s

/-- UNIT_RETIRE. -/
def execUnitRetire (u : RetUnit) (s : State) : Host.Outcome State Fault Refusal :=
  .next (match u with
    | .core n => if 96 ≤ n ∨ (s.core n).dead then s else retireCore s n
    | .slice d => if 32 ≤ d ∨ (s.slice d).dead then s else retireSlice s d)

end Sys2Proof.Machine
end

