-- ==== Sys2Proof/Machine/Fec.lean ====
section
/-! DEFINITION. The RS(544,514) code over GF(2^10) that protects a Wirad frame (R362, R363). IEEE 802.3 clause 91 gives the field polynomial
x^10 + x^3 + 1, the generator polynomial with the roots a^0 to a^29, and the first symbol as the highest coefficient (PRESUMED, log 15). A word within
15 symbols of a codeword is decoded to it, and every other word fails. -/

namespace Sys2Proof.Machine

open Sys2Proof

abbrev Gf := BitVec 10

/-- Multiplication by the primitive element a. -/
def gfStep (x : Gf) : Gf := if x.getLsbD 9 then (x <<< 1) ^^^ 9 else x <<< 1

def gfMul (x y : Gf) : Gf := (List.range 10).foldl (fun acc i => gfStep acc ^^^ (if y.getLsbD (9 - i) then x else 0)) 0

/-- a^n. -/
def gfAlpha : Nat → Gf
  | 0 => 1
  | n + 1 => gfStep (gfAlpha n)

/-- The inverse of a non-zero element: its power 2^10 - 2. -/
def gfInv (x : Gf) : Gf := ((List.range 9).foldl (fun (p : Gf × Gf) _ => let q := gfMul p.2 p.2; (gfMul p.1 q, q)) (1, x)).1

/-- A polynomial, lowest coefficient first, at a point. -/
def gfEval (x : Gf) (cs : List Gf) : Gf := cs.foldr (fun c acc => gfMul acc x ^^^ c) 0

def gfAdd : List Gf → List Gf → List Gf
  | [], ys => ys
  | x :: xs, [] => x :: xs
  | x :: xs, y :: ys => (x ^^^ y) :: gfAdd xs ys

def gfScale (k : Gf) (cs : List Gf) : List Gf := cs.map (gfMul k)

/-- The product of two polynomials. -/
def gfProd : List Gf → List Gf → List Gf
  | [], _ => []
  | x :: xs, ys => gfAdd (gfScale x ys) (0 :: gfProd xs ys)

/-- The 30 syndromes of a word, its first symbol the highest coefficient. -/
def rsSyndromes (word : List Gf) : List Gf := (List.range 30).map (fun j => word.foldl (fun acc c => gfMul acc (gfAlpha j) ^^^ c) 0)

/-- The error locator as it grows over the syndromes (Berlekamp and Massey): the locator and its length, the one before the last change, how far back that
was, and its discrepancy. -/
structure Locator where
  c : List Gf := [1]
  len : Nat := 0
  b : List Gf := [1]
  m : Nat := 1
  d : Gf := 1

def Locator.next (syn : List Gf) (k : Locator) (n : Nat) : Locator :=
  let d := (List.range (k.len + 1)).foldl (fun acc i => acc ^^^ gfMul (k.c.getD i 0) (syn.getD (n - i) 0)) 0
  let c := gfAdd k.c (gfScale (gfMul d (gfInv k.d)) (List.replicate k.m 0 ++ k.b))
  if d = 0 then { k with m := k.m + 1 }
  else if 2 * k.len ≤ n then { c, len := n + 1 - k.len, b := k.c, m := 1, d }
  else { k with c, m := k.m + 1 }

def rsLocator (syn : List Gf) : Locator := (List.range 30).foldl (Locator.next syn) {}

/-- The formal derivative of a polynomial. -/
def gfDeriv (cs : List Gf) : List Gf := (List.range (cs.length - 1)).map (fun i => if i % 2 = 0 then cs.getD (i + 1) 0 else 0)

/-- The error in the coefficient of x^n, where the locator has a root (Forney). -/
def rsError (syn loc : List Gf) (n : Nat) : Gf :=
  let x := gfAlpha n
  let y := gfInv x
  if gfEval y loc ≠ 0 then 0
  else gfMul x (gfMul (gfEval y ((gfProd syn loc).take 30)) (gfInv (gfEval y (gfDeriv loc))))

/-- A word with its errors taken out, where no more than 15 of its symbols are wrong; its 514 message symbols. -/
def rsDecode (word : List Gf) : Option (List Gf) :=
  let syn := rsSyndromes word
  if syn.all (fun x => decide (x = 0)) then some (word.take 514)
  else
    let k := rsLocator syn
    let fixed := word.mapIdx (fun i x => x ^^^ rsError syn k.c (543 - i))
    if 15 < k.len ∨ 15 < ((word.zip fixed).filter (fun p => decide (p.1 ≠ p.2))).length ∨ !(rsSyndromes fixed).all (fun x => decide (x = 0)) then none
    else some (fixed.take 514)

end Sys2Proof.Machine
end

