-- ==== Sys2Proof/Machine/Links.lean ====
section
/-! DEFINITION. The Wirad links: frames and their checks (R362, R363), ports (R364), answers to outbound requests (R366, R367), lost connections
(R368), and the messages that come in (R370, R371, R384). -/

namespace Sys2Proof.Machine

open Sys2Proof

-- frames (R362, R363)

/-- The reflected polynomial of IEEE 802.3's CRC-32. -/
def crcPoly : Word := 0xEDB88320

def crcBits : Nat → Word → Word
  | 0, c => c
  | n + 1, c => crcBits n (if c.getLsbD 0 then (c >>> 1) ^^^ crcPoly else c >>> 1)

/-- The CRC-32 of bytes in order (R363). -/
def crc32 (bs : List Byte) : Word := ~~~(bs.foldl (fun c b => crcBits 8 (c ^^^ b.setWidth 32)) 0xFFFFFFFF)

/-- The symbols of one codeword decoded; `n` of its message symbols were sent and the rest are zero. -/
def decodeWord (n : Nat) (syms : List (BitVec 10)) : Option (List (BitVec 10)) :=
  (rsDecode (syms.take n ++ List.replicate (514 - n) 0 ++ syms.drop n)).map (List.take n)

/-- The message symbols of a frame: six whole codewords and one of 299 message symbols. -/
def frameSymbols (syms : List (BitVec 10)) : Option (List (BitVec 10)) :=
  (List.range 7).foldl (fun acc i =>
    match acc, decodeWord (if i < 6 then 514 else 299) ((syms.drop (544 * i)).take 544) with
    | some a, some b => some (a ++ b)
    | _, _ => none) (some [])

/-- Bits low first. -/
def symbolBits (xs : List (BitVec 10)) : List Bool := xs.flatMap (fun x => (List.range 10).map x.getLsbD)

def bitsByte (bs : List Bool) : Byte :=
  BitVec.ofNat 8 (((List.range 8).map (fun i => if bs.getD i false then 2 ^ i else 0)).foldl (· + ·) 0)

/-- Bytes of bits taken eight at a time. -/
def bytesOfBits : Nat → List Bool → List Byte
  | 0, _ => []
  | n + 1, bs => bitsByte (bs.take 8) :: bytesOfBits n (bs.drop 8)

/-- The 4,228 bytes of a frame of 3,593 symbols after its error correction. -/
def frameBytes (syms : List (BitVec 10)) : Option (List Byte) :=
  if syms.length ≠ 3593 then none else (frameSymbols syms).map (fun xs => bytesOfBits 4228 (symbolBits xs))

/-- Flit i of a frame: whether its check passes, and its sequence number. -/
def flitOk (fr : List Byte) (i : Nat) : Bool :=
  let f := (fr.drop (264 * i)).take 264
  decide ((crc32 (f.take 259)).toNat = leNat (f.drop 260)) && decide (f.getD 259 0 = 0)
def flitSeq (fr : List Byte) (i : Nat) : Nat := leNat ((fr.drop (264 * i + 256)).take 3)

/-- What the checks of a frame come to: its bytes, and how many of its 16 flits pass before the first that fails; none where the frame fails as a whole. -/
def checkFrame (syms : List (BitVec 10)) : List Byte × Nat :=
  match frameBytes syms with
  | none => ([], 0)
  | some fr =>
    if (crc32 (fr.take 4224)).toNat ≠ leNat (fr.drop 4224) then (fr, 0)
    else (fr, ((List.range 16).takeWhile (flitOk fr)).length)

/-- The payloads of a frame's first `n` flits. -/
def flitsOf (fr : List Byte) (n : Nat) : List (List Byte) := (List.range n).map (fun i => (fr.drop (264 * i)).take 256)

def modPort (s : State) (port : Nat) (f : Port → Port) : State :=
  { s with links := { s.links with ports := Tbl.upd s.links.ports port {} f } }

-- outbound requests answered (R366, R367)

/-- The bytes that the answer to a core's request carries; none for one that is only acknowledged. -/
def answerSize (r : Req) : Option Nat :=
  match r.kind with
  | .load _ _ => some ((r.parts.map Part.n).foldl (· + ·) 0)
  | .atomic _ true => some ((r.parts.map Part.n).foldl (· + ·) 0)
  | .cadd _ _ => some 8
  | .cread _ => some 8
  | .atomic _ false => none
  | .store => none
  | .pref _ => none
  | .shLoad _ => none
  | .shStore _ => none
  | .shAtomic _ _ _ => none
  | .arm _ _ _ => none
  | .disarm _ _ => none
  | .reply _ _ _ => none

/-- Whether an answer is one that the request can have: its bytes, an acknowledgement, or a refusal. -/
def answerFits (n : Option Nat) (a : LinkAns) : Bool :=
  match n, a with
  | some k, .data bs _ => decide (bs.length = k)
  | none, .ack => true
  | _, .refused => true
  | none, .data _ _ => false
  | some _, .ack => false

/-- Whether a request's lanes count its acknowledgement (R366). -/
def countsAck : ReqKind → Bool
  | .store => true | .atomic _ _ => true | .cadd _ _ => true
  | .load _ _ => false | .cread _ => false | .pref _ => false | .shLoad _ => false | .shStore _ => false
  | .shAtomic _ _ _ => false | .arm _ _ _ => false | .disarm _ _ => false | .reply _ _ _ => false

/-- One lane of a core's request answered; `bs` holds its own bytes first. -/
def answerPart (r : Req) (a : LinkAns) (s : State) (p : Part) (bs : List Byte) : State :=
  let s := if countsAck r.kind then outLinks s p.team p.thread (· - 1) else s
  let wide := leNat (bs.take p.n)
  match a, r.kind with
  | .refused, .cadd _ _ => returnResult s p.team p.thread r.id (.refused (limitBits p.cmp))
  | .refused, .load _ _ => respond s r.id p 0 0 true
  | .refused, .cread _ => respond s r.id p 0 0 true
  | .refused, .atomic _ true => respond s r.id p 0 0 true
  | .data _ lab, .load _ _ => respond s r.id p (extendVal p.n p.sx wide) (p.pageLab.join lab) false
  | .data _ lab, .atomic _ _ => respond s r.id p (BitVec.ofNat 64 wide) (p.pageLab.join lab) false
  | .data _ _, .cadd _ _ => respond s r.id p (BitVec.ofNat 64 wide) 0 false
  | .data _ _, .cread _ => respond s r.id p (BitVec.ofNat 64 wide) 0 false
  | _, .store => spillBack s r p
  | _, _ => s

/-- The lanes of a request in turn, each with its own bytes. -/
def answerParts (r : Req) (a : LinkAns) : State → List Part → List Byte → State
  | s, [], _ => s
  | s, p :: ps, bs => answerParts r a (answerPart r a s p bs) ps (bs.drop p.n)

def answerData : LinkAns → List Byte
  | .data bs _ => bs
  | .ack => []
  | .refused => []

/-- A source line as a command receives it through a window: a refused one is poisoned (R230). -/
def answerSnap (u : Nat) (lab : Label) : LinkAns → Snap
  | .data bs l => ⟨u, bs, lab.join l, 0⟩
  | .ack => ⟨u, List.replicate 256 0, lab, 15⟩
  | .refused => ⟨u, List.replicate 256 0, lab, 15⟩

def answerOpt : LinkAns → Option (List Byte)
  | .data bs _ => some bs
  | .ack => none
  | .refused => none

/-- An engine command of a core that waits for link request `n`: a source line, or an acknowledgement. An `xinv` only watches requests of
others. -/
def cmdWaits (n : Nat) (m : Cmd) : Bool := decide (m.work.engine ≠ 2) && (m.lreads.any (fun e => decide (e.1 = n)) || m.lacks.contains n)

/-- The answer to a command's request; none where it does not fit. -/
def answerCmd (s : State) (core n : Nat) (q : LReq) (m : Cmd) (a : LinkAns) : Option State :=
  match m.lreads.find? (fun e => decide (e.1 = n)) with
  | some e =>
    if answerFits (some 256) a then
      some (modCmd s core m.id (fun k => { k with
        snaps := k.snaps ++ [answerSnap e.2 q.lab a], lreads := k.lreads.filter (fun x => decide (x.1 ≠ n)), xres := [] }))
    else none
  | none =>
    if answerFits none a then
      some (modCmd s core m.id (fun k => { k with
        lacks := k.lacks.filter (fun x => decide (x ≠ n)), refused := k.refused || decide (a = .refused) }))
    else none

/-- The answer to a request of the anchor: a source line, which keeps the label of its page (R288), or a line's marks; none where the loop does not wait for
it. -/
def answerLoop (s : State) (core n : Nat) (q : LReq) (k : Loop) (a : LinkAns) : Option State :=
  if k.lacks.contains n then
    if answerFits none a then some (modLoop s core (fun k => { k with lacks := k.lacks.filter (fun x => decide (x ≠ n)) })) else none
  else
    match k.lread with
    | none => some s
    | some (id, u) =>
      if id ≠ n then some s
      else if answerFits (some 256) a then
        some (modLoop s core (fun k => { k with lread := none, snaps := k.snaps ++ [{ answerSnap u q.lab a with lab := q.lab }] }))
      else none

/-- The answer to the read of a launch record. -/
def answerSub (s : State) (i : Nat) (va : Nat) (a : LinkAns) : Option State :=
  if answerFits (some 256) a then some (modSub s i (fun b => { b with lread := none, lvals := b.lvals ++ [(va, answerOpt a)] })) else none

/-- The answer to a waiter's add: the value, or a refusal (R315, R317). -/
def answerAdd (s : State) (i : Nat) (p : PAdd) (a : LinkAns) : Option State :=
  if answerFits (some 8) a then some (endAdd s i p p.key (if a = .refused then some ⟨.counterLimit, limitBits p.addr⟩ else none)) else none

/-- An answer given to what waits for it, with the context that its refusal is noted in; where the waiter has gone it is dropped. -/
def deliverAnswer (s : State) (n : Nat) (q : LReq) (a : LinkAns) : Option State × Nat :=
  let host := (s.part q.part).hostCtx
  let core := q.core
  let k := s.core core
  match findReq s core n with
  | some r =>
    (if answerFits (answerSize r) a then some (answerParts r a (dropReq s core n) r.parts (answerData a)) else none,
      (r.parts.head?.map (fun p => (s.team p.team).at_.ctx)).getD host)
  | none =>
    match k.cmds.find? (cmdWaits n) with
    | some m => (answerCmd s core n q m a, m.ctx)
    | none =>
      match s.subs.find? (fun e => decide (e.2.lread.map Prod.fst = some n)) with
      | some (i, b) => (answerSub s i ((b.lread.map Prod.snd).getD 0) a, subCtx s b)
      | none =>
        match k.desc.find? (fun d => decide (d.id = n)) with
        | some d =>
          (if answerFits (some (if d.slot then 8 else 128)) a then
            some (s.modCore core (fun k => { k with desc := k.desc.map (fun d => if d.id = n then { d with ans := some (answerOpt a) } else d) }))
           else none, (s.team d.team).at_.ctx)
        | none =>
          match s.adds.find? (fun e => decide (e.2.link = some n)) with
          | some (i, p) => (answerAdd s i p a, p.ctx)
          | none =>
            match k.anchor with
            | some l => (answerLoop s core n q l a, l.ctx)
            | none => (some s, host)

/-- Link request `n` answered; a refusal is counted in the trace buffer (R367). An answer that is none to the request is dropped and counted
as a link error (R370). -/
def answerLink (s : State) (n : Nat) (a : LinkAns) : State :=
  match Tbl.find s.links.reqs n with
  | none => s.report .linkError
  | some q =>
    match deliverAnswer s n q a with
    | (none, _) => s.report .linkError
    | (some s, ctx) =>
      let s := { s with links := { s.links with reqs := Tbl.del s.links.reqs n } }
      if a = .refused then notice s q.part 4 (some (BitVec.ofNat 64 q.region)) none (some (tagOf q.part ctx)) else s

/-- LINK_REPLY. A load's answer carries the bytes of its lanes in lane order, an engine's the line that it reads. -/
def execLinkReply (n : Nat) (ans : LinkAns) (s : State) : Host.Outcome State Fault Refusal := .next (answerLink s n ans)

-- lost connections (R368)

/-- Every outstanding request that satisfies `p` refused locally. -/
def refuseWhere (s : State) (p : LReq → Bool) : State :=
  ((s.links.reqs.filter (fun e => p e.2)).map Prod.fst).foldl (fun s n => answerLink s n .refused) s

/-- A connection lost: every outstanding request on it is refused locally, and later ones are too. -/
def loseConn (s : State) (part : Nat) (d : Endpoint) : State :=
  let s := (refuseWhere s (fun q => decide (q.part = part) && decide (q.dest = d))).loseRegions (regionsOf s part (fun w => decide (w.dest = d)))
  { s with links := { s.links with conns := s.links.conns.filter (fun c => decide (c ≠ (part, d))) } }

/-- A port goes down: every connection on it is lost, whatever its windows say now. -/
def portDown (s : State) (port : Nat) : State :=
  let rs := (s.links.windows.filter (fun w => w.2.valid && decide (w.2.port = port))).map Prod.fst
  let s := (refuseWhere (modPort s port (fun p => { p with up := false })) (fun q => decide (q.port = port))).loseRegions rs
  { s with links := { s.links with conns := s.links.conns.filter (fun c => portTo s c.2) } }

/-- Whether a message comes in on a connection: its sender has the form of an identifier, its partition lives, and a port that is up is bound to the
sender's module or tray (R19, R364, R370). -/
def arrives (s : State) (part : Nat) (src : Endpoint) : Bool := endpointOk src.toNat && (s.part part).live && portTo s src

/-- A connection noted, for its reset (R358, R368). -/
def noteConn (s : State) (part : Nat) (src : Endpoint) : State :=
  if s.links.conns.contains (part, src) then s else { s with links := { s.links with conns := s.links.conns ++ [(part, src)] } }

/-- CONNECTION_RESET. -/
def execConnectionReset (part : Nat) (remote : Endpoint) (s : State) : Host.Outcome State Fault Refusal :=
  .next (if arrives s part remote then loseConn s part remote else s.report .linkError)

/-- FRAME_RECEIVE: accepted, or replayed from the first sequence number that failed; the flits before it are handed on, each whole, and a frame that fails 16
replays in a row takes the port down (R362). While a replay is awaited, a frame of another sequence number is taken again with it. -/
def execFrameReceive (port : Nat) (symbols : List (BitVec 10)) (s : State) : Host.Outcome State Fault Refusal :=
  .next (
    let p := Tbl.getD s.links.ports port {}
    if !p.up then s
    else
      let (fr, n) := checkFrame symbols
      if p.fails ≠ 0 ∧ n ≠ 0 ∧ flitSeq fr 0 ≠ p.expect then s
      else
        let e := if n = 0 then p.expect else (flitSeq fr (n - 1) + 1) % 2 ^ 24
        let s := if n = 0 then s else modPort s port (fun p => { p with expect := e, flits := flitsOf fr n })
        if n = 16 then modPort s port (fun p => { p with fails := 0 })
        else if 16 ≤ p.fails then portDown s port
        else (modPort s port (fun p => { p with fails := p.fails + 1 })).report (.replay port e))

/-- REPLAY_REQUEST: the port sends again, from the sequence number named; a replay changes timing only (R362). Requests in a row that name flits of one frame
count its replays, and where the sixteenth has failed too the port goes down: sequence numbers within 16 of the first one named are the frame's (DEDUCED, log
92). -/
def execReplayRequest (port : Nat) (seq : Nat) (s : State) : Host.Outcome State Fault Refusal :=
  .next (
    let p := Tbl.getD s.links.ports port {}
    let same := decide (p.resent.2 ≠ 0) && decide ((seq % 2 ^ 24 + 2 ^ 24 - p.resent.1) % 2 ^ 24 < 16)
    if !p.up then s
    else if same ∧ 16 ≤ p.resent.2 then portDown s port
    else (modPort s port (fun p => { p with resent := if same then (p.resent.1, p.resent.2 + 1) else (seq % 2 ^ 24, 1) })).report (.resend port seq))

/-- A port bound to the one remote end that it has trained with (R364). -/
def trainPort (s : State) (port : Nat) (remote : Endpoint) : State :=
  if 128 ≤ port ∨ !endpointOk remote.toNat then s else modPort s port (fun _ => { remote, up := true })

/-- LINK_TRAINING: a port that trains again after the boot; a module that has not booted holds its ports in reset (R377). -/
def execLinkTraining (port : Nat) (remote : Endpoint) (s : State) : Host.Outcome State Fault Refusal :=
  .next (if s.boot.booted then trainPort s port remote else s)

-- inbound messages (R370, R384)

/-- The context whose translation serves a message: the target context of a peer's window, or the one that the slice kernel names for the host
function (R365, R370). -/
def inCtx (s : State) (m : Sender) (ctx : Nat) : Nat := if isHost m then (s.part m.part).hostCtx else ctx

/-- A peer's accesses are an engine's (R365); a host's carry no engine bit. -/
def inKind (m : Sender) (wr : Bool) : Nat :=
  if isHost m then (if wr then kindWrite else kindLoad) else if wr then kindEngineWrite else kindEngine

/-- Whether the source is admitted: a host function always, a peer by an entry of the launch-rights table (R367, R370). -/
def admitted (s : State) (m : Sender) : Bool := isHost m || (s.part m.part).rights.any (fun r => decide (r.2.1 = m.src))

/-- What the checks of a request come to: a walk, a fault, an address that does not exist, or the translations of its pages. -/
inductive InCheck where
  | wait (s : State)
  | bad (s : State) (f : Flt)
  | hole (pa : Nat)
  | ok (s : State) (xs : List Xlat)

/-- The checks of R180 in their order, page by page from `va` on; every page passes before any byte is written (R384). -/
def checkPages (n : Nat) (r : InReq) : State → List Nat → InCheck
  | s, [] => .ok s []
  | s, p :: ps =>
    let m := r.from_
    let wr := r.op.writes
    let va := max r.va (p * 4096) % 2 ^ 52
    let tv := accessBits wr va
    match xlateCell s (.inb n) r.xres m.part (tagOf m.part r.ctx) va va (inKind m wr) r.op.need with
    | .wait s => .wait s
    | .ans s (.fail f) => .bad s f
    | .ans s (.ok x) =>
      let pa := x.pa va
      match pageFault x r.op.need wr va with
      | some f => .bad s f
      | none =>
        if wr ∧ attrLabel x.attr < m.lab then .bad s ⟨.labelFlow, tv⟩
        else if noSuch pa then .hole pa
        else if isLink pa then .bad s ⟨.memPoison, tv⟩
        else
          match checkPages n r s ps with
          | .ok s xs => .ok s (x :: xs)
          | .wait s => .wait s
          | .bad s f => .bad s f
          | .hole pa => .hole pa

/-- The aligned accesses of up to 8 bytes that an access behaves as (R164): offset and width of the i-th. -/
def inPiece (va k i : Nat) : Nat × Nat :=
  let lo := max va ((va / 8 + i) * 8)
  (lo - va, min (va + k) ((va / 8 + i + 1) * 8) - lo)
def inPieces (va k : Nat) : Nat := (va + k - 1) / 8 + 1 - va / 8

/-- Whether a request is a whole line that a peer's engine reads or writes, which is performed at one time (R174). -/
def InReq.whole (r : InReq) : Bool :=
  !isHost r.from_ && decide (r.va % 256 = 0) && (match r.op with
    | .read n => decide (n = 256)
    | .write w => byEngine w
    | .atomic _ _ _ => false
    | .add _ _ => false
    | .cread => false)

/-- The accesses of a request by offset and width, in the order in which they are performed, which no rule gives (R164; log 43). -/
def InReq.accesses (r : InReq) (n : Nat) : List (Nat × Nat) :=
  let k := r.op.width
  if r.whole ∨ !r.op.splits then [(0, k)] else freeOrder [164, n] ((List.range (inPieces r.va k)).map (inPiece r.va k))

/-- Whether two ranges of bytes meet. -/
def rangesMeet (a ka b kb : Nat) : Bool := decide (a < b + kb) && decide (b < a + ka)

/-- The ranges of physical bytes that a request still reaches or has reached, page by page. -/
def InReq.spans (r : InReq) : List (Nat × Nat) :=
  let k := r.op.width
  (List.range r.xs.length).map (fun i =>
    let lo := max r.va ((r.va / 4096 + i) * 4096)
    ((r.at_ (lo - r.va)).2, min (r.va + k) ((r.va / 4096 + i + 1) * 4096) - lo))

/-- The virtual bytes that a request reaches: for a counter's its line (R300). -/
def InReq.foot (r : InReq) : Nat × Nat := if r.op.counter then (r.va - r.va % 64, 64) else (r.va, r.op.width)

/-- Whether an earlier request of the sender that reaches one of the same bytes is not yet performed: accesses to one location are performed in the order in
which they come (R175), and no others are held. One that is not translated yet, or whose other is a counter's, is waited for where its bytes within a page may
be the same: a read of a counter line follows an earlier add to it. -/
def inBehind (s : State) (n : Nat) (r : InReq) : Bool :=
  s.links.inb.any (fun e => decide (e.1 < n) && decide (e.2.from_.part = r.from_.part) && decide (e.2.from_.src = r.from_.src) && e.2.done.isNone &&
    (if e.2.op.counter ∧ r.op.counter then decide (e.2.addr = r.addr)
     else if e.2.op.counter ∨ r.op.counter ∨ e.2.xs = [] then
       let a := r.foot
       let b := e.2.foot
       (List.range a.2).any (fun i => decide ((a.1 + i + 4096 - b.1 % 4096) % 4096 < b.2))
     else r.spans.any (fun a => e.2.spans.any (fun b => rangesMeet a.1 a.2 b.1 b.2))))

/-- The next access of a request whose checks have passed; with the last one it is answered. -/
def pieceIn (s : State) (n : Nat) (r : InReq) : State :=
  match r.piece s with
  | none => s
  | some p =>
    if closed s (.mem (p.pa / 256)) ∨ inBehind s n r then s
    else
      match homeIn s r.op p.x p.pa p.off p.k with
      | none => refuseIn s n r ⟨.memPoison, accessBits r.op.writes (r.va + p.off)⟩
      | some (s, tw, bs, lab) =>
        let r := r.after p tw bs lab
        if r.todo = [] then settleIn (modIn s n (fun _ => r)) n r r.tw (r.got.flatMap Prod.snd) else modIn s n (fun _ => r)

/-- A read, write or atomic whose checks are not over. An address that is no multiple of the width is MISALIGNED for a host (R384); for a peer an unaligned
read or write of bytes is several accesses (R164, R367). -/
def performIn (s : State) (n : Nat) (r : InReq) : Host.Outcome State Fault Refusal :=
  let k := r.op.width
  if r.xs ≠ [] then .next (pieceIn s n r)
  else if r.va % k ≠ 0 ∧ (isHost r.from_ ∨ !r.op.splits) then .next (refuseIn s n r ⟨.misaligned, accessBits r.op.writes r.va⟩)
  else
    match checkPages n r s ((List.range ((r.va + k - 1) / 4096 + 1 - r.va / 4096)).map (r.va / 4096 + ·)) with
    | .wait s => .next s
    | .bad s f => .next (refuseIn s n r f)
    | .hole pa => .fault (.noSuchAddress pa)
    | .ok s xs =>
      let r := { r with xs, todo := r.accesses n }
      .next (pieceIn (modIn s n (fun _ => r)) n r)

/-- A counter request: the checks of R316, then the add, the limit or the read at the counter's home. -/
def counterIn (s : State) (n : Nat) (r : InReq) : State :=
  let m := r.from_
  let wr := r.op.writes
  let amount : DWord × Bool := match r.op with
    | .add k lim => (k, lim)
    | .read _ => (0, false)
    | .write _ => (0, false)
    | .atomic _ _ _ => (0, false)
    | .cread => (0, false)
  let pois : Flt := ⟨.memPoison, accessBits wr r.addr.toNat⟩
  if !amount.2 ∧ 2 ^ 62 ≤ amount.1.toNat then refuseIn s n r (rangeFlt 1 r.addr)
  else
    let x := fun s va => xlateCell s (.inb n) r.xres m.part (tagOf m.part r.ctx) va va (inKind m wr) r.op.need
    match locate s none r.addr wr true x with
    | .wait s => s
    | .bad s f => refuseIn s n r f
    | .ok s k =>
      let page := (x s (r.addr.toNat % 2 ^ 52)).attr
      if wr ∧ m.lab ≠ 0 then refuseIn s n r ⟨.labelFlow, accessBits true r.addr.toNat⟩
      else if k.closed s then s
      else if wr then
        match (if amount.2 then homeLim s k amount.1 page else homeAdd s k amount.1 page) with
        | .ok s old => replyIn s n r (leBytes 8 old.toNat)
        | .refused => refuseIn s n r ⟨.counterLimit, limitBits r.addr⟩
        | .poison => refuseIn s n r pois
      else if ctrPois s k then refuseIn s n r pois
      else replyIn s n r (leBytes 8 (ctrValue s k).toNat)

/-- The request as it stands taken on: performed where it can be, or answered. -/
def advanceIn (s : State) (n : Nat) (r : InReq) : Host.Outcome State Fault Refusal :=
  match r.done with
  | some (tw, bs) => .next (if tw ≤ s.now then replyIn s n r bs else s)
  | none => if r.op.counter then .next (if inBehind s n r then s else counterIn s n r) else performIn s n r

/-- Whether a message is none of R370's: an engine's line write comes from a peer alone, with a whole line. -/
def noMessage (m : Sender) (addr : DWord) (op : InOp) : Bool :=
  decide (op.width = 0) || (match op with
    | .write (.bytes _) => false
    | .write (.line d _) => isHost m || decide (d.length ≠ 256) || decide (addr.toNat % 256 ≠ 0)
    | .write (.mark _) => isHost m || decide (addr.toNat % 256 ≠ 0)
    | .read _ => false
    | .atomic _ _ _ => false
    | .add _ _ => false
    | .cread => false)

/-- A request that arrives, or one that still waits and comes up again. What comes from no source of a message, or asks for no byte, is a link error (R370);
a peer with no launch-rights entry is refused (R367). -/
def inbound (s : State) (m : Sender) (ctx : Nat) (addr : DWord) (op : InOp) : Host.Outcome State Fault Refusal :=
  match s.links.inb.find? (fun e => decide (e.2.from_ = m) && decide (e.2.addr = addr) && decide (e.2.op = op)) with
  | some (n, r) => advanceIn s n r
  | none =>
    if !arrives s m.part m.src ∨ noMessage m addr op then .next (s.report .linkError)
    else if !admitted s m then .next ((noteConn s m.part m.src).report (.refusal m 0 addr))
    else
      let s := noteConn s m.part m.src
      let n := s.newId
      let r : InReq := { from_ := m, ctx := inCtx s m ctx, addr, op }
      advanceIn ({ s with links := { s.links with inb := Tbl.put s.links.inb n r } } : State).bumpId n r

/-- INBOUND_READ. -/
def execInboundRead (m : Sender) (ctx : Nat) (addr : DWord) (width : Nat) (s : State) : Host.Outcome State Fault Refusal :=
  inbound s m ctx addr (.read width)

/-- INBOUND_WRITE. -/
def execInboundWrite (m : Sender) (ctx : Nat) (addr : DWord) (data : InWrite) (s : State) : Host.Outcome State Fault Refusal :=
  inbound s m ctx addr (.write data)

/-- INBOUND_ATOMIC. -/
def execInboundAtomic (m : Sender) (ctx : Nat) (addr : DWord) (op : AtomForm) (b d : DWord) (s : State) : Host.Outcome State Fault Refusal :=
  inbound s m ctx addr (.atomic op b d)

/-- INBOUND_COUNTER_ADD. -/
def execInboundCounterAdd (m : Sender) (ctx : Nat) (addr : DWord) (n : AddForm) (s : State) : Host.Outcome State Fault Refusal :=
  inbound s m ctx addr (.add n.n n.lim)

/-- INBOUND_COUNTER_READ. -/
def execInboundCounterRead (m : Sender) (ctx : Nat) (addr : DWord) (s : State) : Host.Outcome State Fault Refusal :=
  inbound s m ctx addr .cread

/-- A launch message's fields: RADDR, QUEUE, RTAG, and whether a field marked zero is not (R371). -/
def launchMsg (msg : List Byte) : DWord × Nat × Nat × Bool :=
  let b := leNat msg
  (BitVec.ofNat 64 (fieldOf b 63 0), fieldOf b 69 64, fieldOf b 127 96,
    (reservedAt b [(63, 52), (71, 70), (95, 72), (255, 128)]).isSome)

/-- INBOUND_LAUNCH: the record is submitted (R236, R371). -/
def execInboundLaunch (m : Sender) (msg : List Byte) (s : State) : Host.Outcome State Fault Refusal :=
  .next (if !arrives s m.part m.src ∨ msg.length ≠ 32 then s.report .linkError
    else
      let s := noteConn s m.part m.src
      let x := launchMsg msg
      let src := if isHost m then SubSrc.host m x.2.2.1 else SubSrc.peer m x.2.2.1
      let b : Sub := { src, part := m.part, ctx := 0, addr := x.1, queue := x.2.1, bad := x.2.2.2 }
      ({ s with subs := Tbl.put s.subs s.newId b } : State).bumpId)

/-- INBOUND_POST: a peer's message goes to the host function's event queue. -/
def execInboundPost (m : Sender) (msg : DWord) (s : State) : Host.Outcome State Fault Refusal :=
  .next (if isHost m ∨ !arrives s m.part m.src then s.report .linkError else (noteConn s m.part m.src).report (.post m.part m.src msg))

end Sys2Proof.Machine
end

