-- ==== Sys2Proof/Machine/Module.lean ====
section
/-! DEFINITION. The module as a whole: boot (R375 to R377), firmware (R378), clock and power (R379 to R382), the management connector (R383) and
the entropy source (R349). -/

namespace Sys2Proof.Machine

open Sys2Proof

-- boot

/-- Bytes of the private SRAM of a service core (R14). -/
def sramBytes : Nat := 2 ^ 20

/-- Whether both images of a bank verify; two that do not fit in the SRAM together are taken as images that do not (DESIGN CHOICE, log 89). -/
def bankOk (b : Bank) : Bool :=
  !b.torn && decide (b.firmware.length + b.kernel.length ≤ sramBytes) && Config.verify b.firmware b.fwSig && Config.verify b.kernel b.kernSig

/-- The bank chosen: the higher version of those in which both images verify, A of equals; true is B. -/
def chooseBank (a b : Bank) : Option Bool :=
  if bankOk a ∧ (!bankOk b ∨ b.version ≤ a.version) then some false else if bankOk b then some true else none

/-- The module as power returns or goes: what is in flash stays, and nothing else (R382). The model's schedule, the numbers of keys that have been
made and what has been reported are not the module's. -/
def coldState (s : State) (on : Bool) : State :=
  { m := { s.m with issueQ := [], cur := .none }
    boot := {
      powered := on, flashA := s.boot.flashA, flashB := s.boot.flashB, xmss := s.boot.xmss, certs := s.boot.certs, drbg := s.boot.drbg
      temp := s.boot.temp, power := s.boot.power, coolant := s.boot.coolant, straps := s.boot.straps, busAddr := s.boot.busAddr }
    reports := s.reports }

/-- A boot that stops with a code (R377). -/
def bootStops (s : State) (code : Nat) : State := { s with boot := { s.boot with status := code } }

/-- Every line of every slice written under the new key: zero, POISON clear (R376 step 4). -/
def freshLines (s : State) : State := { s with mem := [], lines := [], stored := [] }

/-- The samples in a row after which a failing source passes (R349). -/
def entropyRun : Nat := 1024

/-- Step 2 of R376: the images of the chosen bank stand in the private SRAM of every service core (R14), which is released from reset. -/
def loadImages (s : State) (b : Bank) : State :=
  (List.range 32).foldl (fun s d => s.modSlice d (fun k => { k with sram := (b.firmware, b.kernel), up := true })) s

/-- Step 5 of R376: the slice kernel starts on every service core that is out of reset. -/
def startKernels (s : State) : State :=
  (List.range 32).foldl (fun s d => s.modSlice d (fun k => { k with kernel := k.up })) s


/-- The enumeration of the storage port (R20): an NVMe drive is configured; a device of another class is not, and system software is told. -/
def enumerate (s : State) (devices : List (Nat × Bool)) : State :=
  devices.foldl (fun s e =>
    if 4 ≤ e.1 then s
    else if e.2 then { s with boot := { s.boot with roots := s.boot.roots.map (fun r => if r.1 = e.1 then (r.1, { r.2 with drive := true }) else r) } }
    else s.report (.unconfigured e.1)) s

/-- The steps of R376 from power good on. -/
def bootSteps (s : State) (b : BootIn) : State :=
  match chooseBank s.boot.flashA s.boot.flashB with
  | none => bootStops s 1
  | some bank =>
    let s := loadImages s (if bank then s.boot.flashB else s.boot.flashA)
    let ns := b.entropyNs.getD (10 ^ 9 + 1)
    if 10 ^ 9 < ns then bootStops { s with ps := s.ps + 10 ^ 12 } 2
    else
      let s := { s with
        ps := s.ps + 1000 * ns
        boot := { s.boot with bank := some bank, entOk := true, samples := entropyRun, drbg := s.boot.drbg + 1, key := s.boot.drbg + 1 } }
      if b.untrained ≠ [] then bootStops s 3
      else if b.uninit ≠ [] then bootStops s 4
      else
        let s := b.ports.foldl (fun s e => trainPort s e.1 e.2) (startKernels (freshLines s))
        let s := enumerate s b.devices
        { s with boot := { s.boot with booted := true, status := if 2 ^ 20 ≤ s.boot.xmss then 5 else 0 } }

/-- BOOT: power is good, or becomes so; a boot runs once in each power-up. -/
def execBoot (b : BootIn) (s : State) : Host.Outcome State Fault Refusal :=
  .next (if !s.boot.powered then bootSteps (coldState s true) b else if s.boot.status = 0xFF then bootSteps s b else s)

-- firmware

/-- FIRMWARE_UPDATE: the bank that was not booted is written (R378); with `cut`, power is lost meanwhile and the bank will not verify. -/
def execFirmwareUpdate (bank : Bool) (b : Bank) (cut : Bool) (s : State) : Host.Outcome State Fault Refusal :=
  .next (
    let put := fun (s : State) (b : Bank) =>
      { s with boot := if bank then { s.boot with flashB := b } else { s.boot with flashA := b } }
    if !s.boot.booted ∨ s.boot.bank = some bank then s
    else if cut then coldState (put s { b with torn := true }) false
    else put s { b with torn := false })

-- clock and power

/-- CLOCK_THROTTLE: the core clock moves by 100 MHz between 1.5 and 2.5 GHz (R380). -/
def execClockThrottle (up : Bool) (s : State) : Host.Outcome State Fault Refusal :=
  .next { s with boot := { s.boot with clock := if up then min 25 (s.boot.clock + 1) else max 15 (s.boot.clock - 1) } }

/-- OVER_TEMPERATURE_POWER_OFF: a die at 105 degrees with the clock at its lowest step (R381). -/
def execOverTemperaturePowerOff (s : State) : Host.Outcome State Fault Refusal :=
  .next (if s.boot.powered ∧ 105 ≤ s.boot.temp.toInt ∧ s.boot.clock = 15 then coldState s false else s)

/-- POWER_OFF (R382). -/
def execPowerOff (s : State) : Host.Outcome State Fault Refusal := .next (if s.boot.powered then coldState s false else s)

-- the management connector (R383)

/-- The module's address on the bus. -/
def smbusAddr (s : State) : BitVec 7 := 0x40 + s.boot.straps.setWidth 7

/-- The answer of the connector to a command at its address; it works only while the module is powered. -/
def smbusAnswer (s : State) (bs : Option (List Byte)) : State :=
  if s.boot.powered ∧ s.boot.busAddr = smbusAddr s then { s with boot := { s.boot with smbus := bs, nack := bs.isNone } } else s

/-- SMBUS_BOOT_STATUS. -/
def execSmbusBootStatus (s : State) : Host.Outcome State Fault Refusal := .next (smbusAnswer s (some [BitVec.ofNat 8 s.boot.status]))
/-- SMBUS_DIE_TEMPERATURE. -/
def execSmbusDieTemperature (s : State) : Host.Outcome State Fault Refusal := .next (smbusAnswer s (some [s.boot.temp]))
/-- SMBUS_INPUT_POWER. -/
def execSmbusInputPower (s : State) : Host.Outcome State Fault Refusal := .next (smbusAnswer s (some (leBytes 2 s.boot.power.toNat)))
/-- SMBUS_COOLANT_TEMPERATURE. -/
def execSmbusCoolantTemperature (s : State) : Host.Outcome State Fault Refusal := .next (smbusAnswer s (some [s.boot.coolant]))
/-- SMBUS_CORE_CLOCK. -/
def execSmbusCoreClock (s : State) : Host.Outcome State Fault Refusal := .next (smbusAnswer s (some [BitVec.ofNat 8 s.boot.clock]))
/-- SMBUS_NACK: any command but 0x01 to 0x05. -/
def execSmbusNack (cmd : Byte) (s : State) : Host.Outcome State Fault Refusal :=
  .next (if cmd = 0 ∨ 5 < cmd.toNat then smbusAnswer s none else s)

-- the entropy source (R349)

/-- ENTROPY_HEALTH_TEST: one sample has passed both tests, or a test fires. The source is failing until 1,024 consecutive samples have passed. A reseed is
one step with the key that it is for, so none is in progress as a test fires (log 5). -/
def execEntropyHealthTest (passed : Bool) (s : State) : Host.Outcome State Fault Refusal :=
  .next { s with boot :=
    if passed then
      { s.boot with samples := min entropyRun (s.boot.samples + 1), entOk := s.boot.entOk || decide (entropyRun ≤ s.boot.samples + 1) }
    else { s.boot with samples := 0, entOk := false } }

end Sys2Proof.Machine
end

