-- ==== Sys2Proof/Machine/Dispatch.lean ====
section
/-! DEFINITION. The meaning of every instruction and event: one direct call for each constructor of `Instr`. -/

namespace Sys2Proof.Machine

open Sys2Proof

/-- The meaning of an instruction or event in a state. -/
def exec (i : Instr) (s : State) : Host.Outcome State Fault Refusal :=
  match i with
  | .add c t sat d a b => Sys2Proof.Machine.execAdd c t sat d a b s
  | .sub c t sat d a b => Sys2Proof.Machine.execSub c t sat d a b s
  | .mul c t sat d a b => Sys2Proof.Machine.execMul c t sat d a b s
  | .mulhi c t d a b => Sys2Proof.Machine.execMulhi c t d a b s
  | .mad c t sat d a b => Sys2Proof.Machine.execMad c t sat d a b s
  | .madhi c t d a b => Sys2Proof.Machine.execMadhi c t d a b s
  | .abs c wide sat d a => Sys2Proof.Machine.execAbs c wide sat d a s
  | .neg c wide sat d a => Sys2Proof.Machine.execNeg c wide sat d a s
  | .min c t d a b => Sys2Proof.Machine.execMin c t d a b s
  | .max c t d a b => Sys2Proof.Machine.execMax c t d a b s
  | .setp c cmp t d a b => Sys2Proof.Machine.execSetp c cmp t d a b s
  | .sel c wide d a b pc neg => Sys2Proof.Machine.execSel c wide d a b pc neg s
  | .and c wide d a b => Sys2Proof.Machine.execAnd c wide d a b s
  | .or c wide d a b => Sys2Proof.Machine.execOr c wide d a b s
  | .xor c wide d a b => Sys2Proof.Machine.execXor c wide d a b s
  | .not c wide d a => Sys2Proof.Machine.execNot c wide d a s
  | .andn c wide d a b => Sys2Proof.Machine.execAndn c wide d a b s
  | .orn c wide d a b => Sys2Proof.Machine.execOrn c wide d a b s
  | .shl c wide d a b => Sys2Proof.Machine.execShl c wide d a b s
  | .shr c wide d a b => Sys2Proof.Machine.execShr c wide d a b s
  | .sra c wide d a b => Sys2Proof.Machine.execSra c wide d a b s
  | .rol c wide d a b => Sys2Proof.Machine.execRol c wide d a b s
  | .ror c wide d a b => Sys2Proof.Machine.execRor c wide d a b s
  | .bfe c t d a b => Sys2Proof.Machine.execBfe c t d a b s
  | .bfi c wide d a b => Sys2Proof.Machine.execBfi c wide d a b s
  | .popc c wide d a => Sys2Proof.Machine.execPopc c wide d a s
  | .clz c wide d a => Sys2Proof.Machine.execClz c wide d a s
  | .ctz c wide d a => Sys2Proof.Machine.execCtz c wide d a s
  | .brev c wide d a => Sys2Proof.Machine.execBrev c wide d a s
  | .mov c wide d a => Sys2Proof.Machine.execMov c wide d a s
  | .lea c sgn scale d a b => Sys2Proof.Machine.execLea c sgn scale d a b s
  | .fadd c r d a b => Sys2Proof.Machine.execFadd c r d a b s
  | .fsub c r d a b => Sys2Proof.Machine.execFsub c r d a b s
  | .fmul c r d a b => Sys2Proof.Machine.execFmul c r d a b s
  | .fma c r d a b => Sys2Proof.Machine.execFma c r d a b s
  | .fmin c d a b => Sys2Proof.Machine.execFmin c d a b s
  | .fmax c d a b => Sys2Proof.Machine.execFmax c d a b s
  | .fabs c d a => Sys2Proof.Machine.execFabs c d a s
  | .fneg c d a => Sys2Proof.Machine.execFneg c d a s
  | .fsetp c cmp d a b => Sys2Proof.Machine.execFsetp c cmp d a b s
  | .frnd c r d a => Sys2Proof.Machine.execFrnd c r d a s
  | .fclass c d a => Sys2Proof.Machine.execFclass c d a s
  | .hadd2 c bf r d a b => Sys2Proof.Machine.execHadd2 c bf r d a b s
  | .hsub2 c bf r d a b => Sys2Proof.Machine.execHsub2 c bf r d a b s
  | .hmul2 c bf r d a b => Sys2Proof.Machine.execHmul2 c bf r d a b s
  | .hfma2 c bf r d a b => Sys2Proof.Machine.execHfma2 c bf r d a b s
  | .hmin2 c bf d a b => Sys2Proof.Machine.execHmin2 c bf d a b s
  | .hmax2 c bf d a b => Sys2Proof.Machine.execHmax2 c bf d a b s
  | .hsetp2 c bf cmp d a b => Sys2Proof.Machine.execHsetp2 c bf cmp d a b s
  | .rcp c r d a => Sys2Proof.Machine.execRcp c r d a s
  | .rsq c r d a => Sys2Proof.Machine.execRsq c r d a s
  | .sqrt c r d a => Sys2Proof.Machine.execSqrt c r d a s
  | .ex2 c r d a => Sys2Proof.Machine.execEx2 c r d a s
  | .lg2 c r d a => Sys2Proof.Machine.execLg2 c r d a s
  | .sin c r d a => Sys2Proof.Machine.execSin c r d a s
  | .cos c r d a => Sys2Proof.Machine.execCos c r d a s
  | .cvt c dt st sat r hi dst d a => Sys2Proof.Machine.execCvt c dt st sat r hi dst d a s
  | .dxdec c fmt d a b => Sys2Proof.Machine.execDxdec c fmt d a b s
  | .shfl c m wide seg d a b => Sys2Proof.Machine.execShfl c m wide seg d a b s
  | .vote c m d a => Sys2Proof.Machine.execVote c m d a s
  | .redux c o d a => Sys2Proof.Machine.execRedux c o d a s
  | .scan c o excl d a => Sys2Proof.Machine.execScan c o excl d a s
  | .matchLanes c m wide d a => Sys2Proof.Machine.execMatchLanes c m wide d a s
  | .elect c high d => Sys2Proof.Machine.execElect c high d s
  | .plut c table pc d a b => Sys2Proof.Machine.execPlut c table pc d a b s
  | .umov c wide d a => Sys2Proof.Machine.execUmov c wide d a s
  | .uld c wide d a b => Sys2Proof.Machine.execUld c wide d a b s
  | .bra c disp => Sys2Proof.Machine.execBra c disp s
  | .call c disp => Sys2Proof.Machine.execCall c disp s
  | .jmp c a => Sys2Proof.Machine.execJmp c a s
  | .calli c a => Sys2Proof.Machine.execCalli c a s
  | .ret c => Sys2Proof.Machine.execRet c s
  | .reform c => Sys2Proof.Machine.execReform c s
  | .demote c => Sys2Proof.Machine.execDemote c s
  | .exit c => Sys2Proof.Machine.execExit c s
  | .trap c a => Sys2Proof.Machine.execTrap c a s
  | .brk c code => Sys2Proof.Machine.execBrk c code s
  | .svc c num d a => Sys2Proof.Machine.execSvc c num d a s
  | .rte c next => Sys2Proof.Machine.execRte c next s
  | .rdsr c sr d idx => Sys2Proof.Machine.execRdsr c sr d idx s
  | .wrsr c sr a idx => Sys2Proof.Machine.execWrsr c sr a idx s
  | .raise c lab => Sys2Proof.Machine.execRaise c lab s
  | .declass c lab d a => Sys2Proof.Machine.execDeclass c lab d a s
  | .tmark c tag a => Sys2Proof.Machine.execTmark c tag a s
  | .launch c d a b => Sys2Proof.Machine.execLaunch c d a b s
  | .ld c sp w pol d a b => Sys2Proof.Machine.execLd c sp w pol d a b s
  | .st c sp w pol d a b => Sys2Proof.Machine.execSt c sp w pol d a b s
  | .atom c o sp d a b => Sys2Proof.Machine.execAtom c o sp d a b s
  | .red c o sp a b => Sys2Proof.Machine.execRed c o sp a b s
  | .fence c sc => Sys2Proof.Machine.execFence c sc s
  | .pref c sp home a b => Sys2Proof.Machine.execPref c sp home a b s
  | .resv c buf fmt lab slot d a b => Sys2Proof.Machine.execResv c buf fmt lab slot d a b s
  | .resfree c all slot => Sys2Proof.Machine.execResfree c all slot s
  | .mld c slot a b => Sys2Proof.Machine.execMld c slot a b s
  | .mswap c => Sys2Proof.Machine.execMswap c s
  | .mstream c d a b => Sys2Proof.Machine.execMstream c d a b s
  | .mread c slot d a b => Sys2Proof.Machine.execMread c slot d a b s
  | .mzero c slot a b => Sys2Proof.Machine.execMzero c slot a b s
  | .mfuse c sh => Sys2Proof.Machine.execMfuse c sh s
  | .mrel c => Sys2Proof.Machine.execMrel c s
  | .copy c u ns d a b => Sys2Proof.Machine.execCopy c u ns d a b s
  | .quant c u ns d a b => Sys2Proof.Machine.execQuant c u ns d a b s
  | .rqt c u ns d a b => Sys2Proof.Machine.execRqt c u ns d a b s
  | .htest c d a => Sys2Proof.Machine.execHtest c d a s
  | .hcancel c a => Sys2Proof.Machine.execHcancel c a s
  | .hmov c d a => Sys2Proof.Machine.execHmov c d a s
  | .cadd c m d a b => Sys2Proof.Machine.execCadd c m d a b s
  | .cwait c d a b => Sys2Proof.Machine.execCwait c d a b s
  | .cread c d a => Sys2Proof.Machine.execCread c d a s
  | .carm c d a => Sys2Proof.Machine.execCarm c d a s
  | .cdisarm c d a b => Sys2Proof.Machine.execCdisarm c d a b s
  | .ovw c d a b => Sys2Proof.Machine.execOvw c d a b s
  | .ovget c d => Sys2Proof.Machine.execOvget c d s
  | .ovend c => Sys2Proof.Machine.execOvend c s
  | .xinv c part d a => Sys2Proof.Machine.execXinv c part d a s
  | .xprobe c k d a => Sys2Proof.Machine.execXprobe c k d a s
  | .walkerAdd d a b => Sys2Proof.Machine.execWalkerAdd d a b s
  | .walkerSub d a b => Sys2Proof.Machine.execWalkerSub d a b s
  | .walkerAnd d a b => Sys2Proof.Machine.execWalkerAnd d a b s
  | .walkerOr d a b => Sys2Proof.Machine.execWalkerOr d a b s
  | .walkerXor d a b => Sys2Proof.Machine.execWalkerXor d a b s
  | .walkerSll d a b => Sys2Proof.Machine.execWalkerSll d a b s
  | .walkerSrl d a b => Sys2Proof.Machine.execWalkerSrl d a b s
  | .walkerSra d a b => Sys2Proof.Machine.execWalkerSra d a b s
  | .walkerMul d a b => Sys2Proof.Machine.execWalkerMul d a b s
  | .walkerAddi d a imm => Sys2Proof.Machine.execWalkerAddi d a imm s
  | .walkerAndi d a imm => Sys2Proof.Machine.execWalkerAndi d a imm s
  | .walkerOri d a imm => Sys2Proof.Machine.execWalkerOri d a imm s
  | .walkerXori d a imm => Sys2Proof.Machine.execWalkerXori d a imm s
  | .walkerSlli d a n => Sys2Proof.Machine.execWalkerSlli d a n s
  | .walkerSrli d a n => Sys2Proof.Machine.execWalkerSrli d a n s
  | .walkerSrai d a n => Sys2Proof.Machine.execWalkerSrai d a n s
  | .walkerCat d a u => Sys2Proof.Machine.execWalkerCat d a u s
  | .walkerBeq a b imm => Sys2Proof.Machine.execWalkerBeq a b imm s
  | .walkerBne a b imm => Sys2Proof.Machine.execWalkerBne a b imm s
  | .walkerBlt a b imm => Sys2Proof.Machine.execWalkerBlt a b imm s
  | .walkerBge a b imm => Sys2Proof.Machine.execWalkerBge a b imm s
  | .walkerBltu a b imm => Sys2Proof.Machine.execWalkerBltu a b imm s
  | .walkerBgeu a b imm => Sys2Proof.Machine.execWalkerBgeu a b imm s
  | .walkerJmp a imm => Sys2Proof.Machine.execWalkerJmp a imm s
  | .walkerLdpD d a imm => Sys2Proof.Machine.execWalkerLdpD d a imm s
  | .walkerLdpW d a imm => Sys2Proof.Machine.execWalkerLdpW d a imm s
  | .walkerLdvD d a imm => Sys2Proof.Machine.execWalkerLdvD d a imm s
  | .walkerLdvW d a imm => Sys2Proof.Machine.execWalkerLdvW d a imm s
  | .walkerHash d a b => Sys2Proof.Machine.execWalkerHash d a b s
  | .walkerTick d => Sys2Proof.Machine.execWalkerTick d s
  | .walkerDone d a => Sys2Proof.Machine.execWalkerDone d a s
  | .walkerFault code => Sys2Proof.Machine.execWalkerFault code s
  | .mldComplete core => Sys2Proof.Machine.execMldComplete core s
  | .mswapTakeEffect core => Sys2Proof.Machine.execMswapTakeEffect core s
  | .mstreamRow core => Sys2Proof.Machine.execMstreamRow core s
  | .mstreamComplete core => Sys2Proof.Machine.execMstreamComplete core s
  | .mrelTakeEffect core => Sys2Proof.Machine.execMrelTakeEffect core s
  | .mzeroComplete core => Sys2Proof.Machine.execMzeroComplete core s
  | .xinvInvalidate core cmd => Sys2Proof.Machine.execXinvInvalidate core cmd s
  | .walkStart cell => Sys2Proof.Machine.execWalkStart cell s
  | .walkTimeExpiry cell proc => Sys2Proof.Machine.execWalkTimeExpiry cell proc s
  | .walkerLoadReturn cell proc => Sys2Proof.Machine.execWalkerLoadReturn cell proc s
  | .routineLoad part words => Sys2Proof.Machine.execRoutineLoad part words s
  | .parkEnd core team thread => Sys2Proof.Machine.execParkEnd core team thread s
  | .heatDraw core team => Sys2Proof.Machine.execHeatDraw core team s
  | .forcedReform core team => Sys2Proof.Machine.execForcedReform core team s
  | .fenceConditionsHold core team thread => Sys2Proof.Machine.execFenceConditionsHold core team thread s
  | .memoryResponse core req => Sys2Proof.Machine.execMemoryResponse core req s
  | .l1Fill core req => Sys2Proof.Machine.execL1Fill core req s
  | .leaseExpiry core line => Sys2Proof.Machine.execLeaseExpiry core line s
  | .storePerform core req => Sys2Proof.Machine.execStorePerform core req s
  | .atomicPerform core req => Sys2Proof.Machine.execAtomicPerform core req s
  | .lineWriteBack line => Sys2Proof.Machine.execLineWriteBack line s
  | .lineRead line => Sys2Proof.Machine.execLineRead line s
  | .lineCorrection line => Sys2Proof.Machine.execLineCorrection line s
  | .onchipEccError double pl => Sys2Proof.Machine.execOnchipEccError double pl s
  | .engineLineWrite core cmd => Sys2Proof.Machine.execEngineLineWrite core cmd s
  | .engineCommandComplete core cmd => Sys2Proof.Machine.execEngineCommandComplete core cmd s
  | .commandCancelStop core cmd => Sys2Proof.Machine.execCommandCancelStop core cmd s
  | .queueElementArrival core team q => Sys2Proof.Machine.execQueueElementArrival core team q s
  | .counterAddHome r => Sys2Proof.Machine.execCounterAddHome r s
  | .launchSubmit n => Sys2Proof.Machine.execLaunchSubmit n s
  | .placeClusters part => Sys2Proof.Machine.execPlaceClusters part s
  | .teamEnd core team => Sys2Proof.Machine.execTeamEnd core team s
  | .anchorBatchForm core => Sys2Proof.Machine.execAnchorBatchForm core s
  | .anchorBatchEnd core => Sys2Proof.Machine.execAnchorBatchEnd core s
  | .ovwLoopComplete core => Sys2Proof.Machine.execOvwLoopComplete core s
  | .preemptStopRequest part ctx => Sys2Proof.Machine.execPreemptStopRequest part ctx s
  | .preemptDeadlineExpiry part ctx => Sys2Proof.Machine.execPreemptDeadlineExpiry part ctx s
  | .contextSave part ctx pa => Sys2Proof.Machine.execContextSave part ctx pa s
  | .contextRestore part ctx origins => Sys2Proof.Machine.execContextRestore part ctx origins s
  | .contextCreate part ctx word lbase => Sys2Proof.Machine.execContextCreate part ctx word lbase s
  | .contextDestroy part ctx => Sys2Proof.Machine.execContextDestroy part ctx s
  | .contextPageOut part ctx => Sys2Proof.Machine.execContextPageOut part ctx s
  | .svcInfo part => Sys2Proof.Machine.execSvcInfo part s
  | .svcYield part => Sys2Proof.Machine.execSvcYield part s
  | .svcNsOpen part => Sys2Proof.Machine.execSvcNsOpen part s
  | .svcNsClose part => Sys2Proof.Machine.execSvcNsClose part s
  | .svcQuote part => Sys2Proof.Machine.execSvcQuote part s
  | .svcTrace part => Sys2Proof.Machine.execSvcTrace part s
  | .svcReply part call => Sys2Proof.Machine.execSvcReply part call s
  | .certSlotWrite slot chain => Sys2Proof.Machine.execCertSlotWrite slot chain s
  | .traceSample part pl imm => Sys2Proof.Machine.execTraceSample part pl imm s
  | .partitionCreate r => Sys2Proof.Machine.execPartitionCreate r s
  | .partitionDestroy part => Sys2Proof.Machine.execPartitionDestroy part s
  | .queueEnable part q ctx => Sys2Proof.Machine.execQueueEnable part q ctx s
  | .queueDisable part q => Sys2Proof.Machine.execQueueDisable part q s
  | .sliceKernelConfigWrite part it => Sys2Proof.Machine.execSliceKernelConfigWrite part it s
  | .unitRetire u => Sys2Proof.Machine.execUnitRetire u s
  | .vfReset part => Sys2Proof.Machine.execVfReset part s
  | .frameReceive port symbols => Sys2Proof.Machine.execFrameReceive port symbols s
  | .replayRequest port seq => Sys2Proof.Machine.execReplayRequest port seq s
  | .linkTraining port remote => Sys2Proof.Machine.execLinkTraining port remote s
  | .linkReply n ans => Sys2Proof.Machine.execLinkReply n ans s
  | .inboundRead m ctx addr width => Sys2Proof.Machine.execInboundRead m ctx addr width s
  | .inboundWrite m ctx addr data => Sys2Proof.Machine.execInboundWrite m ctx addr data s
  | .inboundAtomic m ctx addr op b d => Sys2Proof.Machine.execInboundAtomic m ctx addr op b d s
  | .inboundCounterAdd m ctx addr n => Sys2Proof.Machine.execInboundCounterAdd m ctx addr n s
  | .inboundCounterRead m ctx addr => Sys2Proof.Machine.execInboundCounterRead m ctx addr s
  | .inboundLaunch m msg => Sys2Proof.Machine.execInboundLaunch m msg s
  | .inboundPost m msg => Sys2Proof.Machine.execInboundPost m msg s
  | .connectionReset part remote => Sys2Proof.Machine.execConnectionReset part remote s
  | .nvmeCommandComplete core cmd n ans => Sys2Proof.Machine.execNvmeCommandComplete core cmd n ans s
  | .boot b => Sys2Proof.Machine.execBoot b s
  | .firmwareUpdate bank b cut => Sys2Proof.Machine.execFirmwareUpdate bank b cut s
  | .clockThrottle up => Sys2Proof.Machine.execClockThrottle up s
  | .overTemperaturePowerOff => Sys2Proof.Machine.execOverTemperaturePowerOff s
  | .powerOff => Sys2Proof.Machine.execPowerOff s
  | .smbusBootStatus => Sys2Proof.Machine.execSmbusBootStatus s
  | .smbusDieTemperature => Sys2Proof.Machine.execSmbusDieTemperature s
  | .smbusInputPower => Sys2Proof.Machine.execSmbusInputPower s
  | .smbusCoolantTemperature => Sys2Proof.Machine.execSmbusCoolantTemperature s
  | .smbusCoreClock => Sys2Proof.Machine.execSmbusCoreClock s
  | .smbusNack cmd => Sys2Proof.Machine.execSmbusNack cmd s
  | .entropyHealthTest passed => Sys2Proof.Machine.execEntropyHealthTest passed s

end Sys2Proof.Machine
end

