-- ==== Sys2Proof/Machine/Fetch.lean ====
section
/-! DEFINITION. Instruction fetch (R28, R337): the translation of a lane set's PC, the faults of a fetch, and the word. -/

namespace Sys2Proof.Machine

open Sys2Proof

/-- What a fetch comes to: a wait for a walk or an owned line, a fault of every lane, a physical address that does not exist, or the word. -/
inductive Fetched where
  | wait (s : State)
  | fault (s : State) (f : Flt)
  | bad (pa : Nat)
  | word (s : State) (w : Nat)

/-- What a fetch's checks on one page come to: a fault, a wait for the engine that owns the line, or the line. -/
inductive PageRes where
  | fault (f : Flt)
  | wait
  | ok (s : State) (k : ILine)

/-- A line as memory holds it. -/
def homeLine (s : State) (l : Nat) : ILine := { bytes := Mem.readN s.mem (l * 256) 256, pois := decide ((s.line l).pois ≠ 0) }

/-- Lines that an instruction cache of 256 KiB can hold (R12). -/
def icacheLines : Nat := 1024

/-- The copy of a line that serves a fetch: the one that the instruction cache holds, where it holds one. No rule keeps it current, so one that memory has
passed may serve or be fetched again, a free choice (DESIGN CHOICE, log 78). -/
def cachedLine (s : State) (core l : Nat) : Option ILine :=
  match Tbl.find (s.core core).icache l with
  | some k => if k = homeLine s l ∨ Config.freeBit [28, core, l, s.ps] then some k else none
  | none => none

/-- A line fetched at its home and put into the instruction cache and the home cache (R12, R14, R251); where the former is full, a line that no rule names is
replaced (log 87). -/
def icachePut (s : State) (core l cclass : Nat) : State :=
  let k := homeLine s l
  let held := Tbl.keys (s.core core).icache
  let s := homeTake s l cclass false
  let s := if held.contains l ∨ held.length < icacheLines then s
    else (s.modCore core (fun c => { c with
      icache := Tbl.del c.icache (held.getD (Config.freeEntry s.m.free % held.length) 0) })).bumpFree
  s.modCore core (fun c => { c with icache := Tbl.put c.icache l k })

/-- A fetch's checks on one translation (R337, orders 2 to 4), for the line that holds `pa`: the instruction cache's copy, or the line at its home, where a
fetch waits for an owner as any access of a thread does (R174) and the cache takes it. A fetch through a link window is refused as a read on a lost
connection is (log 22). -/
def fetchPage (s : State) (core : Nat) (x : Xlat) (pa pc : Nat) : PageRes :=
  let tv := accessBits false pc
  let l := pa / 256
  let serve := fun (s : State) (k : ILine) => if k.pois then PageRes.fault ⟨.memPoison, tv⟩ else .ok s k
  if !permsIn permExec (attrPerm x.attr) ∨ attrCnt x.attr then .fault ⟨.pagePermission, tv⟩
  else if attrSealed x.attr then .fault ⟨.sealedAccess, tv⟩
  else if isLink pa then .fault ⟨.memPoison, tv⟩
  else
    match cachedLine s core l with
    | some k => serve s k
    | none => if closed s (.mem l) then .wait else if noSuch pa then .ok s (homeLine s l) else serve (icachePut s core l (attrCclass x.attr)) (homeLine s l)

/-- The bytes of an instruction at `pc` out of the line that holds its first byte and the line that holds its last (R28). -/
def wordBytes (pc : Nat) (k k' : ILine) : List Byte :=
  let n := 256 - pc % 256
  ((k.bytes.drop (pc % 256)).take 12) ++ (if n < 12 then k'.bytes.take (12 - n) else [])

/-- The bytes of one instruction, two pages or two lines where it crosses (R28). Where it crosses a page, every check of the first page comes before the
second page's translation (DESIGN CHOICE, log 88). -/
def fetchWord (s : State) (i : Iss) : Fetched :=
  let l := i.lanes.headD 0
  let pc := i.pc.toNat
  let va2 := (pc + 11) % 2 ^ 52
  match xlateThread s i.team l pc pc kindExec permExec with
  | .wait s => .wait s
  | .ans s (.fail f) => .fault s f
  | .ans s (.ok x) =>
    match fetchPage s i.core x (x.pa pc) pc with
    | .fault f => .fault s f
    | .wait => .wait s
    | .ok s k =>
      match xlateThread s i.team l va2 pc kindExec permExec with
      | .wait s => .wait s
      | .ans s (.fail f) => .fault s f
      | .ans s (.ok y) =>
        match (if y.pa va2 / 256 = x.pa pc / 256 then PageRes.ok s k else fetchPage s i.core y (y.pa va2) pc) with
        | .fault f => .fault s f
        | .wait => .wait s
        | .ok s k' =>
          if noSuch (x.pa pc) then .bad (x.pa pc)
          else if noSuch (y.pa va2) then .bad (y.pa va2)
          else .word s (leNat (wordBytes pc k k'))

end Sys2Proof.Machine
end

