-- ==== Sys2Proof/Machine/Turn.lean ====
section
/-! DEFINITION. What one step does (log 1): a lane set that its core has chosen issues its instruction, or the next turn is taken: a core cycle,
a walker instruction, an event, or a change that comes from outside; and the placing of an instruction where the next step fetches it. -/

namespace Sys2Proof.Machine

open Sys2Proof

def State.setCur (s : State) (c : Cur) : State := { s with m := { s.m with cur := c } }

/-- Between steps nothing executes. -/
def rest : Host.Outcome State Fault Refusal → Host.Outcome State Fault Refusal
  | .next s => .next (s.setCur .none)
  | .fault f => .fault f
  | .refused r => .refused r

-- a lane set issues (R51)

/-- A fault of the word (R47). -/
def WordFault.flt : WordFault → Flt
  | .illegalOpcode v => ⟨.illegalOpcode, v⟩
  | .reservedBits v => ⟨.reservedBits, v⟩
  | .illegalOperand v => ⟨.illegalOperand, v⟩

/-- A fault of the fetch or of the word, raised in every lane of the lane set with the PC's label (R47, R337); the group has issued (R46). -/
def faultLanes (s : State) (i : Iss) (f : Flt) : State :=
  i.lanes.foldl (fun s l => takeFault s i.team l f (pcLabel s i.team l)) (noteGroup s i.team i.lanes false)

/-- The instruction of a lane set fetched, decoded for its team's registers, and executed. A team that a lane set of the same cycle has
halted issues nothing (R326). -/
def issueOne (s : State) (i : Iss) : Host.Outcome State Fault Refusal :=
  let tm := s.team i.team
  if (Tbl.find s.teams i.team).isNone ∨ tm.halted ∨ tm.ended then .next s
  else
    match fetchWord s i with
    | .wait s => .next (holdLanes s i.team i.lanes)
    | .fault s f => .next (faultLanes s i f)
    | .bad pa => .fault (.noSuchAddress pa)
    | .word s w =>
      match decodeCore tm.hdr.regs (BitVec.ofNat 96 w) with
      | .error f => .next (faultLanes s i (Sys2Proof.Machine.WordFault.flt f))
      | .ok ins => exec ins s

-- a walker instruction (R264, R267)

/-- The word at a walker processor's PC executed; one that no instruction encodes executes as `fault 0x7FF`. -/
def walkOne (s : State) (cell proc : Nat) : Host.Outcome State Fault Refusal :=
  match walkerFetch s cell proc with
  | none => .next s
  | some w => exec ((decodeWalker w).getD (.walkerFault 0x7FF)) (s.setCur (.walker cell proc))

-- turns

/-- Whether a constructor is an event: it has no word. -/
def isEvent (i : Instr) : Bool := (coreForm i).isNone && (walkerFields i).isNone

def isBoot : Instr → Bool
  | .boot _ => true
  | _ => false

/-- Time that passes (R379): TIME, and the VTIME of each context that has a team resident (R69). Without power none does. -/
def passTime (s : State) (dt : Nat) : State :=
  if !s.boot.powered then s
  else
    { s with
      ps := s.ps + dt
      parts := s.parts.map (fun p => (p.1, { p.2 with
        ctxs := p.2.ctxs.map (fun c => if s.residentTeams p.1 c.1 = [] then c else (c.1, { c.2 with vtime := c.2.vtime + dt })) })) }

/-- Whether a core has cycles: in service, on a booted module (R377). -/
def clocked (s : State) (core : Nat) : Bool := s.boot.booted && decide (core < 96) && !(s.core core).dead

/-- The last picosecond of the walker cycles in which each walk's next instruction issues (R21, R268) and in which each complex starts its next walk
(R259). -/
def walkerEnds (s : State) : List Nat :=
  (s.cells.flatMap (fun c => c.2.procs.map (fun p => p.2.start + walkerDue s c.1 p.2) ++ (startDue s c.1).toList)).map (fun c => 800 * (c + 1) - 1)

/-- The time that may pass before a turn (R21): no core's cycle is passed over, and no walker cycle in which an instruction issues or a walk starts. -/
def timeTo (s : State) (dt : Nat) : Nat :=
  (walkerEnds s).foldl (fun d e => min d (e - s.ps))
    (((List.range 96).filter (clocked s)).foldl (fun d c => min d ((s.core c).due + corePeriod s - 1 - s.ps)) dt)

/-- What a turn does. A core has a cycle once its time has come; a module without power does nothing but boot (R382). -/
def act (s : State) (a : Act) : Host.Outcome State Fault Refusal :=
  match a with
  | .cycle core => .next (if clocked s core && decide ((s.core core).due ≤ s.ps) then cycleCore s core else s)
  | .walker cell proc => walkOne s cell proc
  | .event i => if isEvent i && (s.boot.powered || isBoot i) then exec i s else .next s
  | .flip line b => .next (flipLine s line b)
  | .sensors t p c => .next { s with boot := { s.boot with temp := t, power := p, coolant := c } }
  | .replaceAtc core i => .next (s.modCore core (fun k => { k with atc := k.atc.eraseIdx i }))
  | .replaceL2 cell i => .next (s.modCell cell (fun k => { k with l2 := k.l2.eraseIdx i }))
  | .replaceL1 core sector => .next (l1Drop s core (sector * 64))
  | .smbusAddress a => .next { s with boot := { s.boot with busAddr := a } }
  | .foreignImage im => .next { s with m := { s.m with foreign := some im } }
  | .fetchAhead core part =>
    .next (if clocked s core && decide ((s.core core).owner = some part) then s.countCore core part .fetchAhead else s)

/-- The next turn: the first that is scheduled, or a free one (log 1). -/
def takeTurn (s : State) : Turn × State :=
  match s.m.turns with
  | t :: ts => (t, { s with m := { s.m with turns := ts } })
  | [] => (Config.freeTurn s.m.steps, { s with m := { s.m with steps := s.m.steps + 1 } })

/-- One step. -/
def stepOnce (s : State) : Host.Outcome State Fault Refusal :=
  rest (match s.m.issueQ with
    | i :: is => issueOne { s with m := { s.m with issueQ := is, cur := .lanes i } } i
    | [] => let x := takeTurn s; act (passTime x.2 (timeTo x.2 x.1.dt)) x.1.act)

-- an instruction placed where the next step fetches it

/-- A walker word placed at the PC of the walk that runs on processor 0 of cell 0, whose turn is next; where no walk runs there, one starts. -/
def placeWalker (s : State) (w : Nat) : State :=
  let p : WProc := match Tbl.find (s.cell 0).procs 0 with
    | some p => p
    | none => { walk := { id := 0, part := 0, tag := 0, va := 0, kind := 0, word := 0, rqrs := [] }, start := walkerCycle s }
  let s := s.modCell 0 (fun k => { k with procs := Tbl.put k.procs 0 p })
  let at_ := regionFor s 0 p.walk.part * 1024 + p.set.pc
  { (s.modCell 0 (fun k => { k with routine := Tbl.put k.routine at_ (BitVec.ofNat 32 w) })) with
    m := { s.m with issueQ := [], turns := { act := .walker 0 0 } :: s.m.turns } }

/-- The team that `placeCore` adds: one thread at PC 0 on core 0, with every register at the value of its start. -/
def soloTeam : Team :=
  { hdr := { regs := 2048, teamX := 1, teamY := 1, teamZ := 1, gridX := 1, gridY := 1, gridZ := 1 }
    al := { slots := [0] }
    threads := [(0, {})], groups := [(0, { lanes := [0] })] }

/-- A translation of the page of address 0: frame 0, read, write and execute. -/
def soloXlat : Xlat := { psize := 12, frame := 0, attr := 12 * 8192 + 7 }

/-- A core word placed where the lane set that issues next fetches it: the lane of a team of its own, and at the physical address of its PC,
whose translation its core's ATC holds and whose line its instruction cache does not. -/
def placeCore (s : State) (w : Nat) : State :=
  let s := { s with teams := Tbl.put s.teams 0 soloTeam }
  let s := s.modCore 0 (fun k => { k with atc := soloXlat :: k.atc, icache := Tbl.del k.icache 0 })
  { s with
    mem := Mem.writeN s.mem 0 (leBytes 12 w)
    m := { s.m with issueQ := [{ core := 0, team := 0, lanes := [0], pc := 0 }] } }

end Sys2Proof.Machine
end

