-- ==== Sys2Proof/Machine/Step.lean ====
section
/-! DEFINITION. The step, and the placing of an instruction for the next one. -/

namespace Sys2Proof.Machine

open Sys2Proof

/-- One step of the module (`stepOnce`). -/
def step (s : State) : Host.Outcome State Fault Refusal := stepOnce s

/-- The state with an instruction where the next step fetches it: a walker word of 32 bits in the routine of a walk that runs (`placeWalker`), or
a core word of 96 bits at the PC of a lane set that issues (`placeCore`). -/
def State.withFetchWord (s : State) (nbits w : Nat) : State := if nbits = 32 then placeWalker s w else placeCore s w

end Sys2Proof.Machine
end

