-- ==== Sys2Proof/Safety.lean ====
section
/-! DEFINITION. The terms in which claims speak of runs: the canonical form of memory, a lane set that executes, and what an issue leaves alone. -/

namespace Sys2Proof.Safety

open Sys2Proof Sys2Proof.Machine

/-- Device memory holds its canonical form. -/
def MemOk (s : State) : Prop := Mem.wf s.mem = true

/-- Lane set `i` executes: its team stands, and its lanes differ. -/
structure Issuing (s : State) (i : Iss) : Prop where
  cur : s.m.cur = .lanes i
  team : (Tbl.find s.teams i.team).isSome = true
  lanes : i.lanes.Nodup

/-- No lane of the set faults before the effect of form `f`: each is active, or guarded off (R36, R51). -/
def Unfaulted (s : State) (i : Iss) (f : Form) : Prop := ∀ l ∈ i.lanes, stageOf s i l f = .act ∨ stageOf s i l f = .off

/-- The lanes in which the instruction is active, in the order of the lane set. -/
def active (s : State) (i : Iss) (f : Form) : List Nat := i.lanes.filter (fun l => decide (stageOf s i l f = .act))

/-- State `t` is state `s`, in which the effect of an instruction stands, after its issue has ended without a fault (R51): nothing has changed but
the lanes' PCs and their bookkeeping of issue and park, the group's Y and cycle of issue, and event counters. -/
structure Settled (s t : State) (i : Iss) (pc : Nat → PC) : Prop where
  ps : t.ps = s.ps
  boot : t.boot = s.boot
  mem : t.mem = s.mem
  lines : t.lines = s.lines
  stored : t.stored = s.stored
  slices : t.slices = s.slices
  cells : t.cells = s.cells
  parts : t.parts = s.parts
  slots : t.slots = s.slots
  grids : t.grids = s.grids
  waiters : t.waiters = s.waiters
  adds : t.adds = s.adds
  subs : t.subs = s.subs
  links : t.links = s.links
  unpubSys : t.unpubSys = s.unpubSys
  reports : t.reports = s.reports
  cores : ∀ c, { t.core c with ev := [] } = { s.core c with ev := [] }
  others : ∀ u, u ≠ i.team → t.team u = s.team u
  team : { t.team i.team with threads := [], groups := [] } = { s.team i.team with threads := [], groups := [] }
  regs : ∀ l, (t.thread i.team l).r = { (s.thread i.team l).r with pc := (t.thread i.team l).r.pc }
  traps : ∀ l, (t.thread i.team l).t = (s.thread i.team l).t
  outs : ∀ l, (t.thread i.team l).out = (s.thread i.team l).out
  bounds : ∀ l, (t.thread i.team l).bound = (s.thread i.team l).bound ∧ (t.thread i.team l).binding = (s.thread i.team l).binding
  idle : ∀ l, l ∉ i.lanes → t.thread i.team l = s.thread i.team l
  pcs : ∀ l, l ∈ i.lanes → (t.thread i.team l).r.pc = pc l

/-- An instruction completes: it answers a next state, the state `s'` after its effect with the issue ended; the PC of each lane is `pc`'s. -/
def Completes (ins : Instr) (s : State) (i : Iss) (s' : State) (pc : Nat → PC) : Prop :=
  ∃ t, exec ins s = .next t ∧ Settled s' t i pc

/-- The sequential successor of each lane (R28, R130). -/
def nextPc (s : State) (i : Iss) (l : Nat) : PC := (s.thread i.team l).r.pc + 12

/-- Destination `d` of lane `l` holds a value with a label: one register, or a pair with the low word first (R32, R50). -/
def Given (t : State) (tm l : Nat) (w : Bool) (d : Operand) (x : DWord) (lab : Label) : Prop :=
  match encsOf w d with
  | [] => True
  | [e] => regNow t tm l e = asHeld e ⟨x.setWidth 32, lab, false⟩
  | e :: e' :: _ =>
    regNow t tm l e = asHeld e ⟨x.setWidth 32, lab, false⟩ ∧ regNow t tm l e' = asHeld e' ⟨(x >>> 32).setWidth 32, lab, false⟩

/-- A v or p register, of which every lane has its own. -/
def laneReg (e : Nat) : Bool := decide (e < 0x800) || (decide (0x900 ≤ e) && decide (e < 0x908))

/-- State `s'` is state `s` but for the registers `encs` of the lanes `ls` of team `tm`, and the hazards of the static contract. -/
structure OnlyRegs (s s' : State) (tm : Nat) (ls encs : List Nat) : Prop where
  rest : { s' with teams := s.teams } = s
  stands : ∀ u, (Tbl.find s'.teams u).isSome = (Tbl.find s.teams u).isSome
  others : ∀ u, u ≠ tm → s'.team u = s.team u
  team : { s'.team tm with threads := [] } = { s.team tm with threads := [] }
  lanes : ∀ l, l ∉ ls → s'.thread tm l = s.thread tm l
  regs : ∀ l e, e ∉ encs → regNow s' tm l e = regNow s tm l e
  kept : ∀ l, (s'.thread tm l).t = (s.thread tm l).t ∧ (s'.thread tm l).out = (s.thread tm l).out ∧
    (s'.thread tm l).bound = (s.thread tm l).bound ∧ (s'.thread tm l).binding = (s.thread tm l).binding ∧
    (s'.thread tm l).r = { (s.thread tm l).r with v := (s'.thread tm l).r.v, p := (s'.thread tm l).r.p } ∧
    (s'.thread tm l).run = { (s.thread tm l).run with haz := (s'.thread tm l).run.haz }

/-- The static contract is kept in the active lanes (R42): no register that the word reads or writes breaks it. -/
def Ordered (s : State) (i : Iss) (f : Form) : Prop := ∀ l ∈ active s i f, formHazard s i l f = none

/-- The registers that the form's D names. -/
def dests (f : Form) : List Nat := encsOf f.sd.wide f.d

/-- Instruction `ins` computes in each lane (R98, R101, R102): wherever it issues without a fault and with its contract kept, it completes; in
each active lane D holds the value of `op` on the lane's own sources, read at issue, with Lab of every operand read; nothing else changes; every
lane goes on at its sequential successor. -/
def Computes (ins : Instr) (k : Kind) (op : Srcs → DWord) : Prop :=
  ∀ (regs : Nat) (s : State) (i : Iss), ins.wf regs = true → Issuing s i → Unfaulted s i (formOf ins) → Ordered s i (formOf ins) →
    ∃ s', Completes ins s i s' (nextPc s i) ∧ OnlyRegs s s' i.team (active s i (formOf ins)) (dests (formOf ins)) ∧
      ∀ l ∈ active s i (formOf ins),
        Given s' i.team l (formOf ins).sd.wide (formOf ins).d (op (readSrcs s i.team l k (formOf ins)))
          (srcsLab s i.team l (formOf ins) (readSrcs s i.team l k (formOf ins)))

/-- What a participant of a cross-lane instruction reads at issue (R119). -/
def seenBy (s : State) (i : Iss) (k : Kind) (f : Form) (l : Nat) : Peer :=
  { l, a := readOp s i.team l k f.sa.wide f.a, b := readOp s i.team l .int f.sb.wide f.b, pcl := pcLabel s i.team l, gl := guardLab s i.team l f.c }

/-- The participants of a cross-lane instruction that faults in none of them (R119): the active lanes. -/
def peers (s : State) (i : Iss) (k : Kind) (f : Form) : List Peer := (active s i f).map (seenBy s i k f)

/-- Instruction `ins` acts across its participants (R119): it completes; each participant's D holds what `op` gives it, with the label of what it
receives, its PC label and its guard's label; nothing else changes. -/
def Crosses (ins : Instr) (k : Kind) (op : List Peer → Peer → Src) : Prop :=
  ∀ (regs : Nat) (s : State) (i : Iss), ins.wf regs = true → Issuing s i → Unfaulted s i (formOf ins) → Ordered s i (formOf ins) →
    ∃ s', Completes ins s i s' (nextPc s i) ∧ OnlyRegs s s' i.team (active s i (formOf ins)) (dests (formOf ins)) ∧
      ∀ p ∈ peers s i k (formOf ins),
        Given s' i.team p.l (formOf ins).sd.wide (formOf ins).d (op (peers s i k (formOf ins)) p).val
          (Label.joinAll [(op (peers s i k (formOf ins)) p).lab, p.pcl, p.gl])

/-- A cross-lane value taken from the participant at lane position `k`; with none there the lane keeps its own (R120). -/
def takenFrom (ps : List Peer) (p : Peer) (k : Nat) : Src :=
  match ps.find? (fun q => decide (lanePos q.l = k)) with
  | some q => ⟨q.a.val, Label.joinAll [q.a.lab, q.pcl, p.b.lab]⟩
  | none => ⟨p.a.val, p.a.lab.join p.b.lab⟩

/-- A mask with the bit of each participant's lane position, and the label of what they all give (R121). -/
def maskOf (ps : List Peer) : DWord := ps.foldl (fun m q => m ||| (1 <<< lanePos q.l)) 0
def labelOf (ps : List Peer) : Label := Label.joinAll (ps.map (fun q => q.a.lab.join q.pcl))

/-- The values of participants combined one after another, from the first on, with the label of all of them (R122); an FP32 NaN is CanonNaN (R91). -/
def combined (o : RedOp) : List Peer → Src
  | [] => {}
  | q :: qs =>
    let first := if redKind o = .f32 ∧ FFmt.f32.decode q.a.val.toNat = .nan then BitVec.ofNat 64 FFmt.f32.canonNaN else q.a.val
    ⟨qs.foldl (fun x r => redStep o x r.a.val) first, labelOf (q :: qs)⟩

/-- The participants up to a lane, and those before it. -/
def before (ps : List Peer) (p : Peer) : List Peer := ps.takeWhile (fun q => decide (q.l ≠ p.l))
def upTo (ps : List Peer) (p : Peer) : List Peer := before ps p ++ (ps.filter (fun q => decide (q.l = p.l))).take 1

/-- One lane issues alone, and is active. -/
structure Solo (s : State) (i : Iss) (l : Nat) (f : Form) : Prop where
  issuing : Issuing s i
  lane : i.lanes = [l]
  act : stageOf s i l f = .act

/-- State `s'` is state `s` but for the threads `ls` of team `tm`, each of which is what `g` makes of it. -/
structure OnlyThreads (s s' : State) (tm : Nat) (ls : List Nat) (g : Nat → Thread → Thread) : Prop where
  rest : { s' with teams := s.teams } = s
  stands : ∀ u, (Tbl.find s'.teams u).isSome = (Tbl.find s.teams u).isSome
  others : ∀ u, u ≠ tm → s'.team u = s.team u
  team : { s'.team tm with threads := [] } = { s.team tm with threads := [] }
  idle : ∀ l, l ∉ ls → s'.thread tm l = s.thread tm l
  did : ∀ l ∈ ls, s'.thread tm l = g l (s.thread tm l)

/-- State `s'` is state `s` but for the s and h registers `encs` of team `tm`, what is unpublished of them (R44), and the hazards of the static
contract. -/
structure OnlyTeamRegs (s s' : State) (tm : Nat) (encs : List Nat) : Prop where
  rest : { s' with teams := s.teams } = s
  others : ∀ u, u ≠ tm → s'.team u = s.team u
  team : { s'.team tm with threads := [], unpub := [], r := { (s'.team tm).r with s := [], h := [] } } =
    { s.team tm with threads := [], unpub := [], r := { (s.team tm).r with s := [], h := [] } }
  lanes : ∀ l, s'.thread tm l = { s.thread tm l with run := { (s.thread tm l).run with haz := (s'.thread tm l).run.haz } }
  regs : ∀ l e, e ∉ encs → regNow s' tm l e = regNow s tm l e

/-- A register of a thread's trap file given a value and a label. -/
def trapped (th : Thread) (code : FaultCode) (tval : Nat) (lab : Label) (pc : PC) : TTrap :=
  { th.t with
    trap := true, sup := false, tpc := ⟨pc.setWidth 64, lab⟩, tapc := ⟨pc.setWidth 64, lab⟩, tval := ⟨BitVec.ofNat 64 tval, lab⟩
    tcause := ⟨BitVec.ofNat 64 code.code, lab⟩ }

/-- A lane that can take a precise fault at once through TVEC (R325): outside trap mode, owed nothing, with a handler. -/
def CanTrap (s : State) (t l : Nat) : Prop :=
  (s.thread t l).t.trap = false ∧ (s.thread t l).out.owes = [] ∧ (s.thread t l).out.sFault = none ∧ tvecFor s t l ≠ 0

/-- Instruction `ins`, issued alone in lane `l`, raises a precise fault through TVEC (R325): the trap registers hold the cause, the handler runs
next, and the lane's registers, return stack and PC label are as they were. -/
def Traps (ins : Instr) (s : State) (i : Iss) (l : Nat) (code : FaultCode) (tval : Nat) (lab : Label) : Prop :=
  ∃ t, exec ins s = .next t ∧
    (t.thread i.team l).t = trapped (s.thread i.team l) code tval lab (s.thread i.team l).r.pc ∧
    (t.thread i.team l).r = { (s.thread i.team l).r with pc := tvecFor s i.team l &&& ~~~(3 : PC) } ∧
    t.mem = s.mem ∧ t.lines = s.lines ∧ (∀ k, k ≠ l → (t.thread i.team k).r = (s.thread i.team k).r)

/-- Instruction `ins`, issued alone in a lane that can trap, in validating mode, takes STATIC_HAZARD before any effect where its guard's read, or another of its
reads and writes, breaks the static contract (R42, R46). -/
def HazardTraps (ins : Instr) : Prop :=
  ∀ (s : State) (i : Iss) (l v : Nat), Issuing s i → i.lanes = [l] → CanTrap s i.team l → (s.team i.team).hdr.vmode = true →
    (guardHazard (s.thread i.team l) (formOf ins).c = some v → Traps ins s i l .staticHazard v (pcLabel s i.team l)) ∧
    (guardHazard (s.thread i.team l) (formOf ins).c = none → guardPasses s i.team l (formOf ins).c = true → formHazard s i l (formOf ins) = some v →
      Traps ins s i l .staticHazard v (labOf s i.team l (formOf ins).c []))

/-- The translation of an address by a thread stands in its core's ATC with the permissions that an access needs (R247, R248). -/
structure Hits (s : State) (t l va need : Nat) (x : Xlat) : Prop where
  noRes : (s.thread t l).run.xres = []
  hit : hitOf (s.core (s.team t).at_.core).atc (s.team t).at_.part (s.team t).tag va (accessKey s (.thread t l)) = some x
  perm : permsIn need (attrPerm x.attr) = true

/-- The slot of a return entry, at local offset `off`, can be reached by the lane's own store or load (R78, R180): its translation stands in the ATC with the
permission, the page is not sealed, and no overwriting loop watches the team's accesses. -/
structure ReachesSlot (s : State) (t l off need : Nat) (x : Xlat) : Prop extends Hits s t l (localVa s t l off) need x where
  unsealed : attrSealed x.attr = false
  noLoop : loopOf s t = none

/-- A store to a slot behind a link window finds room in its sender's window (R369). -/
def SlotMaySend (s : State) (i : Iss) (pa : Nat) : Prop := isLink pa = true → sendHeld s (s.team i.team).at_.part pa 8 = false

/-- A call of lane `l` alone at depth 4 or more completes (R78): it goes to `target`, the address after it is pushed, and the oldest of the four entries on
the chip leaves for its slot as a store of 8 bytes that the lane's park waits for; through a link window it is sent as a message (R366), and on a lost
connection it is discarded (R367). -/
def Spills (ins : Instr) (s : State) (i : Iss) (l : Nat) (x : Xlat) (target : PC) : Prop :=
  let th := s.thread i.team l
  let pa := x.pa (localVa s i.team l (8 * (th.r.rsd - 4)))
  let lost := isLink pa = true ∧ windowOf s (s.team i.team).at_.part pa = none
  let r : TRegs := { th.r with ret := (th.r.pc + 12) :: th.r.ret.take 3, rsd := th.r.rsd + 1 }
  let owes := th.out.owes ++ [{ id := s.newId, pc := th.r.pc, ic := th.run.ic, counts := false }]
  ∃ s', Completes ins s i s' (fun _ => target) ∧
    (¬ lost → s'.mem = s.mem ∧ s'.thread i.team l = { th with r, out := if isLink pa then { th.out with links := th.out.links + 1, owes }
        else { th.out with stores := th.out.stores + 1, owes } } ∧
      (s'.core i.core).out = (s.core i.core).out ++
        [{ id := s.newId, kind := .store, line := pa / 256, link := isLink pa
           parts := [{ team := i.team, thread := l, off := pa % 256, n := 8, data := (th.r.ret.getD 3 0).setWidth 64, x := some x }] }] ∧
      (isLink pa = true → (Tbl.find s'.links.reqs s.newId).isSome = true)) ∧
    (lost → s'.thread i.team l = { th with r } ∧ (s'.core i.core).out = (s.core i.core).out)

/-- The virtual address of an access to global or local memory (R154, R179). -/
def vaOf (s : State) (t l : Nat) (sp : Space) (ea : Nat) : Nat := if sp = .g then ea % 2 ^ 52 else localVa s t l ea

/-- An access of `n` bytes at `ea` that passes orders 1 to 3 of R180 in global or local memory. -/
def InSpace (sp : Space) (n ea : Nat) : Prop := (sp = .g ∨ sp = .l) ∧ ea % n = 0 ∧ (sp = .l → ea + n ≤ 65536)

/-- The effective address of a lane's access, from A and B as it reads them (R179); atomics have no offset. -/
def eaIn (s : State) (t l : Nat) (sp : Space) (a b : Operand) (offs : Bool) : Nat :=
  eaOf sp (readOp s t l .int (decide (sp = .g)) a).val (if offs then (readOp s t l .int false b).val else 0)

/-- Lab of the operands that form the address. -/
def eaLab (s : State) (t l : Nat) (c : Ctl) (sp : Space) (a b : Operand) (offs : Bool) : Label :=
  labOf s t l c [(readOp s t l .int (decide (sp = .g)) a).lab, if offs then (readOp s t l .int false b).lab else 0]

/-- At issue, memory and every register stand as they were. -/
def Untouched (s s' : State) (t : Nat) : Prop :=
  s'.mem = s.mem ∧ s'.lines = s.lines ∧ (∀ u, u ≠ t → s'.team u = s.team u) ∧ ∀ l e, regNow s' t l e = regNow s t l e

/-- What a request to counter `k`, named by `c`, carries of the translation that found it: the counter line's own, none of a near counter (R263, R301). -/
def FoundBy (x : Option Xlat) (c : DWord) (k : CtrKey) : Prop :=
  (∀ pa, k = .line pa → ∃ y, x = some y ∧ y.pa (c.toNat % 2 ^ 52) = pa) ∧ ∀ u j, k = .near u j → x = none

/-- A command has issued from lane `l` with a new handle in entry `e` (R216, R217): the entry is pending, and h register `d` holds its token with
the command's label. -/
def HasHandle (s s' : State) (i : Iss) (l e : Nat) (d : BitVec 4) (lab : Label) : Prop :=
  (s'.handle i.core e).st = .pending ∧
  regNow s' i.team l (0x920 + d.toNat) =
    ⟨mkToken i.core e (if (s.handle i.core e).gen = 0xFFFF then 1 else (s.handle i.core e).gen + 1), lab, false⟩

/-- A command can issue from lane `l` (R174, R192, R216, R221): `l` is the lowest active lane that is no helper, the lanes' earlier accesses are
performed, and entry `e` of the handle table is free. -/
structure MayCommand (s : State) (i : Iss) (f : Form) (l e : Nat) : Prop where
  issuing : Issuing s i
  unfaulted : Unfaulted s i f
  ordered : Ordered s i f
  lane : leads s i f (active s i f) = some l
  may : commandMayIssue s i.team (active s i f) = true
  entry : freeEntry s i.core = some e

/-- The store pages that the reads in flight on a core have still to take are tagged with their contexts (R333). -/
def ReadsOwn (s : State) (core : Nat) : Prop :=
  ∀ x ∈ flyOf s core, ∀ p f c q t, x.ins = .mread p f c q t → accownAt s core p = (s.team x.team).tag

/-- The store page, and the byte of the accumulator buffer, at which column `n` of a stream's next row stands (R97, R195). -/
def cellPage (tm : Team) (x : Stream) (tile : Tile) (n : Nat) : Nat := slotPage tm x.acc (x.p0 + x.row / 32 * (tile.n / 32) + n / 32)
def cellAt (tm : Team) (x : Stream) (tile : Tile) (n : Nat) : Nat := cellPage tm x tile n * 4096 + x.row % 32 * 128 + n % 32 * 4

/-- The next row of a stream of team `k` has been accumulated (R97, R201, R207): each column's sum takes the dot product of the activation row `vals` with the
column's weights; the row's pages rise to the labels of tile, row and handle; a poisoned row or column marks its sums' sectors; no other byte and no
other mark of the accumulators changes, and device memory does not. -/
structure Accumulated (s t : State) (core k : Nat) (x : Stream) (tile : Tile) (vals : List FVal) (lab : Label) (pois : Bool) : Prop where
  sums : ∀ n < tile.n, bufRead t core .acc (cellAt (s.team k) x tile n) 4 =
    dotAcc (isDx tile.fmt) (bufRead s core .acc (cellAt (s.team k) x tile n) 4)
      (List.zipWith FVal.mul vals ((tile.cols.getD n []).flatMap (blockVals tile.fmt true))) % 2 ^ 32
  others : ∀ a, (∀ n < tile.n, a < cellAt (s.team k) x tile n ∨ cellAt (s.team k) x tile n + 4 ≤ a) →
    Mem.read (t.core core).bufs.acc a = Mem.read (s.core core).bufs.acc a
  labels : ∀ c < tile.n / 32, accLabel t core (cellPage (s.team k) x tile (32 * c)) =
    (accLabel s core (cellPage (s.team k) x tile (32 * c))).join (Label.joinAll [tile.lab, lab, x.hlab])
  marks : ∀ j, Tbl.getD (t.core core).bufs.accPois j false =
    (Tbl.getD (s.core core).bufs.accPois j false ||
      (List.range tile.n).any (fun n => decide (cellAt (s.team k) x tile n / 64 = j) && (pois || tile.pois.getD n false)))
  mem : t.mem = s.mem

/-- All lanes of the set are owed the completion `id` of an instruction (R198, R205), for which no fence waits (R169). -/
def OwedToAll (s s' : State) (i : Iss) (id : Nat) (lab : Label) : Prop :=
  ∀ l ∈ i.lanes, (s'.thread i.team l).out.owes = (s.thread i.team l).out.owes ++
    [{ id, pc := (s.thread i.team l).r.pc, ic := (s.thread i.team l).run.ic, lab, counts := false }]

/-- A command `m` has issued from lane `l` (R216, R221): its handle is pending, it stands last in its core's list, and memory and every other
register are as they were. -/
structure Issued (s s' : State) (i : Iss) (l : Nat) (d : BitVec 4) (m : Cmd) : Prop where
  handle : HasHandle s s' i l m.entry d m.hlab
  cmds : (s'.core i.core).cmds = (s.core i.core).cmds ++ [m]
  mem : s'.mem = s.mem
  lines : s'.lines = s.lines
  regs : ∀ k e, e ≠ 0x920 + d.toNat → regNow s' i.team k e = regNow s i.team k e

/-- The label of the register that holds a block's address; a block in s registers has none. -/
def blockAddrLab (s : State) (i : Iss) (l : Nat) (f : Form) : Label := if f.block = 0 then (readOp s i.team l .int false f.a).lab else 0

/-- The result of an instruction that lane `l` is owed under the number `id`. -/
def oweOf (s : State) (i : Iss) (l id : Nat) (dest : Dest) (lab : Label) (wr : Bool) (addr : Nat) : Owe :=
  { id, pc := (s.thread i.team l).r.pc, ic := (s.thread i.team l).run.ic, dest, lab, wr, addr }

/-- No result owed to the lane has the next number (log 6). -/
def FreshOwe (s : State) (t l : Nat) : Prop := ∀ o ∈ (s.thread t l).out.owes, o.id ≠ s.newId

/-- A walker processor can issue an instruction that names the registers `rs` (R264, R268): it executes, no load in flight writes one of them,
and a load finds none in flight. -/
structure Walks (s : State) (c q : Nat) (p : WProc) (rs : List (BitVec 5)) (ld : Bool) : Prop where
  cur : s.m.cur = .walker c q
  proc : Tbl.find (s.cell c).procs q = some p
  free : ∀ r ∈ rs, p.set.busy r.toNat = false
  noLoad : ld = true → p.set.load = none

/-- The count at which it issues (R268): the first at which every register that it names can be read, and a load's port is free. -/
def issueAt (p : WProc) (rs : List (BitVec 5)) (ld : Bool) : Nat :=
  (rs.map (fun r => p.set.readyAt r.toNat)).foldl max (max p.cycles (if ld then p.set.ldReady else 0))

/-- The limit of the walk's partition (R256). -/
def walkLimit (s : State) (p : WProc) : Nat := (s.part p.walk.part).limit

/-- The walk comes to count `t`: neither the limit nor a poison mark on its way ends it before (R256, R257). -/
def Below (s : State) (p : WProc) (t : Nat) : Prop :=
  t < walkLimit s p ∧ ∀ l, p.set.load = some l → l.pois = true → t < l.iss + 4

/-- Walker instruction `ins` writes one register after `lat` cycles (R264, R268 to R270): in its walker cycle, below the limit, it completes with `op` of the register
set and the count of issue in w`d`, writes to w0 discarded, and the PC on the next word; no other register and nothing else changes. -/
def WalkComputes (ins : Instr) (rs : List (BitVec 5)) (d : BitVec 5) (lat : Nat) (op : WSet → Nat → DWord) : Prop :=
  ∀ (s : State) (c q : Nat) (p : WProc), Walks s c q p (d :: rs) false → Below s p (issueAt p (d :: rs) false) →
    issueAt p (d :: rs) false ≤ walkerNow s p →
    ∃ p', exec ins s = .next (putProc s c q p') ∧ p'.walk = p.walk ∧ p'.start = p.start ∧ p'.cycles = issueAt p (d :: rs) false + 1 ∧
      p'.n.isSome = p.n.isSome ∧ (p.n.isSome = true → p'.o = p.o) ∧
      p'.set.pc = (p.set.pc + 1) % 1024 ∧ p'.set.load = p.set.load ∧ p'.set.ldReady = p.set.ldReady ∧
      ∀ r, p'.set.reg r = (if r = d.toNat ∧ r ≠ 0 then op p.set (issueAt p (d :: rs) false) else p.set.reg r) ∧
        p'.set.readyAt r = if r = d.toNat ∧ r ≠ 0 then issueAt p (d :: rs) false + lat else p.set.readyAt r

/-- Walker instruction `ins` goes to another PC (R271): it completes with the PC `pc` of the register set, and leaves no cycle, or one where the
branch is taken, with no issue. -/
def WalkJumps (ins : Instr) (rs : List (BitVec 5)) (taken : WSet → Prop) (pc : WSet → Nat) : Prop :=
  ∀ (s : State) (c q : Nat) (p : WProc), Walks s c q p rs false → Below s p (issueAt p rs false) → issueAt p rs false ≤ walkerNow s p →
    ∃ p', exec ins s = .next (putProc s c q p') ∧ p'.walk = p.walk ∧ p'.start = p.start ∧
      p'.n.isSome = p.n.isSome ∧ (p.n.isSome = true → p'.o = p.o) ∧
      (taken p.set → p'.set = { p.set with pc := pc p.set } ∧ p'.cycles = issueAt p rs false + 2) ∧
      (¬ taken p.set → p'.set = { p.set with pc := (p.set.pc + 1) % 1024 } ∧ p'.cycles = issueAt p rs false + 1)

/-- One lane awaits the result of request `req` in the v register `n`, or in the pair from it, and nothing else. -/
structure Awaits (s : State) (t l req n : Nat) (o : Owe) (wide : Bool := false) : Prop where
  team : (Tbl.find s.teams t).isSome = true
  owes : (s.thread t l).out.owes = [o]
  id : o.id = req
  dest : o.dest = .v n wide
  low : n + 1 < 0x800

/-- The result has come back: the register holds `x` with a label, and the lane is owed nothing. -/
def Received (t : State) (tm l n : Nat) (x : DWord) (lab : Label) (wide : Bool := false) : Prop :=
  regNow t tm l n = ⟨x.setWidth 32, lab, false⟩ ∧ (wide = true → regNow t tm l (n + 1) = ⟨(x >>> 32).setWidth 32, lab, false⟩) ∧
  (t.thread tm l).out.owes = []

/-- The result has come back as a poison mark: MEM_POISON waits for the lane's park (R181). -/
def ReceivedPoison (t : State) (tm l : Nat) (o : Owe) : Prop :=
  (t.thread tm l).out.sFault = some ⟨o.ic, o.pc, .memPoison, accessBits o.wr o.addr, o.lab.join o.flab⟩ ∧ (t.thread tm l).out.owes = []

/-- A request of one lane that a core has in flight, and that its home may perform (R168). -/
structure AtHome (s : State) (core req : Nat) (r : Req) (p : Part) : Prop where
  found : findReq s core req = some r
  part : r.parts = [p]
  may : mayPerform s core r = true
  exists_ : noSuch (r.line * 256) = false
  inLine : p.off < 256

/-- Memory holds `bs` from `a` on, and every other byte is as it was. -/
def Wrote (s t : State) (a : Nat) (bs : List Byte) : Prop :=
  ∀ b, Mem.read t.mem b = if a ≤ b ∧ b < a + bs.length then bs.getD (b - a) 0 else Mem.read s.mem b

/-- The slice kernel has answered a call (R140): its state, and its value. -/
def Answered (t : State) (part id st v : Nat) : Prop := ∃ d ∈ (t.part part).calls, d.id = id ∧ d.ans = some (st, v)

/-- A call that the slice kernel serves now, of label 0 (R345). -/
def Calls (s : State) (part num : Nat) (c : Call) : Prop := nextCall s part num = some c ∧ c.lab = 0

/-- A stream that is at its time slot (R201): first of its quadrant to be ready, with a tile, its gate open, rows left and nothing that ends it. -/
structure RowDue (s : State) (core : Nat) (e : MFly) (x : Stream) (tile : Tile) : Prop where
  ready : firstReady s core (fun m => (isStream m).isSome) = some e
  stream : isStream e.ins = some x
  tile : (s.core core).quad.active = some tile
  gate : x.gateMet = true
  noFlt : x.flt = none
  noCode : x.code = none
  left : x.row < x.m
  going : x.cancel = false ∧ (s.team e.team).atStop = false

/-- A row that is to be accumulated: its pages are the context's own, and no engine command with an earlier stamp owns one (R174, R201, R333). -/
structure RowMayGo (s : State) (core : Nat) (e : MFly) (x : Stream) (tile : Tile) : Prop extends RowDue s core e x tile where
  valid : x.row < x.v
  free : rowHeld s core e.team x = false
  own : ∀ p ∈ x.rowPages (s.team e.team), accownAt s core p = (s.team e.team).tag

/-- A command that its engine works on (R221, R229, R230): in progress, with no fault, mark or stop, on a core whose reads in flight find their own pages. -/
structure Working (s : State) (core id : Nat) (m : Cmd) : Prop where
  found : findCmd s core id = some m
  begun : inProgress s core m = true
  noFlt : m.flt = none
  going : m.cancel = false ∧ m.drained = false ∧ m.cut = none ∧ (s.team m.team).atStop = false
  noMark : m.mark = none
  reads : ReadsOwn s core

/-- A copy at its destination line `u` (R224): the source bytes `srcs` stand among the lines that it has read. -/
structure Copying (s : State) (core id : Nat) (m : Cmd) (w : CopyW) (u : Nat) (srcs : List (Option Nat)) : Prop extends Working s core id m where
  work : m.work = .copy w
  line : (w.dstLines (s.team m.team))[m.pos]? = some u
  map : w.lineMap (s.team m.team) m.v u = srcs
  present : ∀ a, some a ∈ srcs → ∃ k ∈ m.snaps, k.line = a / 256
  early : ∀ a ∈ (if m.pos = 0 then w.early (s.team m.team) m.v m.id else []), ∃ k ∈ m.snaps, k.line = a

/-- The label of a line's bytes as a copy carries them (R224). -/
def copyLab (m : Cmd) (srcs : List (Option Nat)) : Label :=
  Label.joinAll (m.hlab :: srcs.filterMap (Option.map (fun a => (snapAt m.snaps (a / 256)).lab)))

/-- The command after a line that was written whole. -/
def pastLine (m : Cmd) (srcs : List (Option Nat)) : Cmd :=
  { m with pos := m.pos + 1, landed := m.landed + (srcs.filter Option.isSome).length, xres := [], owned := m.owned.filter (fun e => decide (e.1 ≠ m.pos)) }

/-- The bytes of line `u` of a memory after a copy's write: those that have a source are its bytes, every other byte is as it was. -/
def CopiedInto (a b : Mem) (u : Nat) (m : Cmd) (srcs : List (Option Nat)) : Prop :=
  ∀ x, Mem.read b x = if x / 256 = u then (match srcs.getD (x % 256) none with | some y => snapByte m.snaps y | none => Mem.read a x) else Mem.read a x

/-- The translation of an engine's write to global memory stands in its core's ATC, and lets it write data of a label (R174, R247). -/
structure EngineHits (s : State) (core : Nat) (m : Cmd) (va : Nat) (lab : Label) (x : Xlat) : Prop where
  noRes : m.xres = []
  hit : hitOf (s.core core).atc m.part (tagOf m.part m.ctx) va (accessKey s (.cmd core m.id)) = some x
  perm : permsIn permWrite (attrPerm x.attr) = true
  plain : attrCnt x.attr = false
  flow : ¬ attrLabel x.attr < lab
  exists_ : noSuch (x.pa va) = false

/-- The 32 values that output block `i` of a quantisation is made from (R226, R227), by the lines that the command has read: rows at or past the valid count
are zeros; `rqt` takes a column of a block of its source. -/
def quantVals (w : QuantW) (tm : Team) (m : Cmd) (i : Nat) : List FVal :=
  let zero : FVal := .fin false 0 0
  let block := fun r j => blockVals w.src.fmt false (blockWith (snapRead m.snaps) (slotBase tm w.src) w.src (w.srow0 + r) j)
  if w.rqt then
    let n := w.rows / 32
    (List.range 32).map (fun k => if 32 * (i % n) + k < m.v then (block (32 * (i % n) + k) (i / n / 32)).getD (i / n % 32) zero else zero)
  else if m.v ≤ i / w.kb then List.replicate 32 zero
  else if w.src.buf = .acc then
    let page := slotPage tm w.src (w.srow0 + i / w.kb / 32 * w.kb + i % w.kb)
    (List.range 32).map (fun c => FFmt.f32.decode (snapRead m.snaps (page * 4096 + i / w.kb % 32 * 128 + 4 * c) 4))
  else block (i / w.kb) (i % w.kb)

/-- A quantisation at its destination line `u`, which output blocks `is` touch (R226, R227): their sources stand among the lines that it has read, unpoisoned;
no two of the blocks' byte ranges overlap. -/
structure Quantising (s : State) (core id : Nat) (m : Cmd) (w : QuantW) (u : Nat) (is : List Nat) : Prop extends Working s core id m where
  work : m.work = .quant w
  form : w.rqt = true → w.src.buf ≠ .acc
  noPush : pushWaits s m = false
  line : (w.dstLines (s.team m.team))[m.pos]? = some u
  blocks : is = (List.range w.blocks).filter (fun i => (spanNums (w.dstSpans (s.team m.team) i)).contains u)
  present : ∀ a ∈ spanNums ((is.flatMap (w.srcBlocks m.v)).flatMap (w.srcSpans (s.team m.team))), ∃ k ∈ m.snaps, k.line = a
  clean : is.any (w.blockPois (s.team m.team) m.snaps m.v) = false
  apart : ∀ i ∈ is, ∀ j ∈ is, ∀ p ∈ w.dstSpans (s.team m.team) i, ∀ q ∈ w.dstSpans (s.team m.team) j, (i, p) ≠ (j, q) →
    p.1 + p.2 ≤ q.1 ∨ q.1 + q.2 ≤ p.1

/-- An inbound request of an admitted sender that has not come before, behind none of the sender's that reach the same bytes; `xs` are the translations by
which it is performed (R175, R370). -/
structure Comes (s : State) (m : Sender) (ctx : Nat) (addr : DWord) (op : InOp) (xs : List Xlat := []) : Prop where
  fresh : s.links.inb.find? (fun e => decide (e.2.from_ = m) && decide (e.2.addr = addr) && decide (e.2.op = op)) = none
  arrives : arrives s m.part m.src = true
  message : noMessage m addr op = false
  first : inBehind s s.newId { from_ := m, ctx := inCtx s m ctx, addr, op, xs } = false
  admitted : admitted s m = true

/-- What the translation of an inbound request looks in stands as it was. -/
def SameHomes (s u : State) : Prop := u.cells = s.cells ∧ u.cores = s.cores ∧ u.parts = s.parts ∧ u.teams = s.teams ∧ u.m.steps = s.m.steps

/-- One with a translation in the level-2 cache of the partition's cell. -/
structure Inbound (s : State) (m : Sender) (ctx : Nat) (addr : DWord) (op : InOp) (x : Xlat) : Prop extends Comes s m ctx addr op [x] where
  hit : hitOf (s.cell (homeCell s m.part)).l2 m.part (tagOf m.part (inCtx s m ctx)) (addr.toNat % 2 ^ 52) (accessKey s (.inb s.newId)) = some x
  perm : permsIn op.need (attrPerm x.attr) = true
  unsealed : attrSealed x.attr = false
  label : op.writes = true → ¬ attrLabel x.attr < m.lab

/-- A PC within the routine region (R271). -/
def pcMod (x : Int) : Nat := (x % 1024).toNat

end Sys2Proof.Safety
end

