-- ==== Sys2Proof/Certificates/Slice0/Obligations.lean ====
section
/-! DEFINITION. The statements for the provers. -/

open Sys2Proof Sys2Proof.Machine Sys2Proof.Safety

-- decoding and stepping

/-- A step runs the decoded instruction (R28, R51): where a lane set is chosen, its team stands and is not halted, its PC's page is translated by
an entry that permits its fetch, and the twelve bytes that the fetch is served decode for the team's registers, the step is that instruction's meaning
with the lane set taken from the queue and current; afterwards nothing executes. Where the bytes do not decode, every lane of the set that can trap takes the
fault of the word, with its TVAL (R47). A line is served by the core's instruction cache where that holds it as
memory has it, and is brought into the cache from its home where the cache does not hold it; out of such lines the bytes are those of memory.
The model's choice (log 78): a line comes whole, as its home has it at the fetch; what a copy that memory has passed serves is not stated. -/
def Obligations.StepRunsDecoded : Prop :=
  (∀ (s : State) (i : Iss) (is : List Iss) (l : Nat) (ls : List Nat) (x : Xlat) (u v : State) (k k' : ILine),
    let pc := i.pc.toNat
    let s0 := { s with m := { s.m with issueQ := is, cur := .lanes i } }
    let hits := fun (s : State) (va : Nat) => (s.thread i.team l).run.xres = [] ∧
      hitOf (s.core (s.team i.team).at_.core).atc (s.team i.team).at_.part (s.team i.team).tag va (accessKey s (.thread i.team l)) = some x
    s.m.issueQ = i :: is → i.lanes = l :: ls → (Tbl.find s.teams i.team).isSome = true → (s.team i.team).halted = false →
    (s.team i.team).ended = false → pc % 4096 ≤ 4084 → hits s0 pc → hits u (pc + 11) →
    fetchPage s0 i.core x (x.pa pc) pc = .ok u k →
    (if x.pa (pc + 11) / 256 = x.pa pc / 256 then v = u ∧ k' = k else fetchPage u i.core x (x.pa (pc + 11)) pc = .ok v k') →
    noSuch (x.pa pc) = false → noSuch (x.pa (pc + 11)) = false →
    let word := decodeCore (s.team i.team).hdr.regs (BitVec.ofNat 96 (leNat (wordBytes pc k k')))
    (∀ ins, word = .ok ins → step s = rest (exec ins v)) ∧
    (∀ f, word = .error f → i.lanes.Nodup → (∀ j ∈ i.lanes, CanTrap s i.team j) →
      ∃ t, step s = .next t ∧ t.mem = s.mem ∧ ∀ j ∈ i.lanes,
        (t.thread i.team j).t = trapped (s.thread i.team j) (Machine.WordFault.flt f).code (Machine.WordFault.flt f).tval (pcLabel s i.team j)
          (s.thread i.team j).r.pc ∧
        (t.thread i.team j).r = { (s.thread i.team j).r with pc := tvecFor s i.team j &&& ~~~(3 : PC) })) ∧
  (∀ (s : State) (core : Nat) (x : Xlat) (pa pc : Nat),
    permsIn permExec (attrPerm x.attr) = true → attrCnt x.attr = false → attrSealed x.attr = false → isLink pa = false →
    (s.line (pa / 256)).pois = 0 →
    (Tbl.find (s.core core).icache (pa / 256) = some (homeLine s (pa / 256)) → fetchPage s core x pa pc = .ok s (homeLine s (pa / 256))) ∧
    (Tbl.find (s.core core).icache (pa / 256) = none → closed s (.mem (pa / 256)) = false → noSuch pa = false →
      ∃ u, fetchPage s core x pa pc = .ok u (homeLine s (pa / 256)) ∧ u.mem = s.mem ∧ u.teams = s.teams ∧
        Tbl.find (u.core core).icache (pa / 256) = some (homeLine s (pa / 256)))) ∧
  (∀ (s : State) (pa pc : Nat), pa % 256 = pc % 256 →
    wordBytes pc (homeLine s (pa / 256)) (homeLine s (pa / 256 + 1)) = Mem.readN s.mem pa 12)

/-- A step runs a walker processor's instruction (R264, R267): where no lane set is chosen and the next turn is a processor whose walk stands and
waits for nothing, the step is the meaning of the word at its PC, and of `fault 0x7FF` where the word is no instruction.
A step performs an event (log 1): where no lane set is chosen, the next turn is an event and the module has power, the step is the event's
meaning once the turn's time has passed, as far as neither a core's cycle nor the cycle in which a walker's next instruction issues is passed over. That
time stops there is the model's reading of R21 (logs 1 and 83). -/
def Obligations.StepTakesTurns : Prop :=
  (∀ (s : State) (cell proc : Nat) (ts : List Turn) (w : BitVec 32),
      s.m.issueQ = [] → s.m.turns = ⟨0, .walker cell proc⟩ :: ts → s.boot.powered = true →
      walkerFetch (passTime { s with m := { s.m with turns := ts } } 0) cell proc = some w →
      step s = rest (exec ((decodeWalker w).getD (.walkerFault 0x7FF))
        ((passTime { s with m := { s.m with turns := ts } } 0).setCur (.walker cell proc)))) ∧
  (∀ (s : State) (dt : Nat) (e : Instr) (ts : List Turn),
      s.m.issueQ = [] → s.m.turns = ⟨dt, .event e⟩ :: ts → s.boot.powered = true → isEvent e = true →
      let u := { s with m := { s.m with turns := ts } }
      step s = rest (exec e (passTime u (timeTo u dt))))

-- integer arithmetic, logic and bit fields

/-- Row 0x01 with `min` and `max` (R102): each member forms its exact value from operands read under TYPE, then saturates or wraps it at width n;
all are of the integer class, whose latency is 2. -/
def Obligations.IntegerArithmetic : Prop :=
  (∀ c t sat d a b, Computes (.add c t sat d a b) .int (fun x => intResult t sat (readTy t x.a.val + readTy t x.b.val))) ∧
  (∀ c t sat d a b, Computes (.sub c t sat d a b) .int (fun x => intResult t sat (readTy t x.a.val - readTy t x.b.val))) ∧
  (∀ c t sat d a b, Computes (.mul c t sat d a b) .int (fun x => intResult t sat (readTy t x.a.val * readTy t x.b.val))) ∧
  (∀ c t d a b, Computes (.mulhi c t d a b) .int (fun x => intResult t false (readTy t x.a.val * readTy t x.b.val / 2 ^ t.width))) ∧
  (∀ c t sat d a b, Computes (.mad c t sat d a b) .int
    (fun x => intResult t sat (readTy t x.a.val * readTy t x.b.val + readTy t x.d.val))) ∧
  (∀ c t d a b, Computes (.madhi c t d a b) .int
    (fun x => intResult t false (readTy t x.a.val * readTy t x.b.val / 2 ^ t.width + readTy t x.d.val))) ∧
  (∀ c sat d a, Computes (.abs c false sat d a) .int (fun x => intResult .s32 sat (readTy .s32 x.a.val).natAbs)) ∧
  (∀ c sat d a, Computes (.abs c true sat d a) .int (fun x => intResult .s64 sat (readTy .s64 x.a.val).natAbs)) ∧
  (∀ c sat d a, Computes (.neg c false sat d a) .int (fun x => intResult .s32 sat (-readTy .s32 x.a.val))) ∧
  (∀ c sat d a, Computes (.neg c true sat d a) .int (fun x => intResult .s64 sat (-readTy .s64 x.a.val))) ∧
  (∀ c t d a b, Computes (.min c t d a b) .int (fun x => intResult t false (min (readTy t x.a.val) (readTy t x.b.val)))) ∧
  (∀ c t d a b, Computes (.max c t d a b) .int (fun x => intResult t false (max (readTy t x.a.val) (readTy t x.b.val)))) ∧
  (∀ c t sat d a b, ∀ f ∈ [formOf (.add c t sat d a b), formOf (.sub c t sat d a b), formOf (.mul c t sat d a b), formOf (.mulhi c t d a b),
    formOf (.mad c t sat d a b), formOf (.madhi c t d a b), formOf (.abs c false sat d a), formOf (.abs c true sat d a),
    formOf (.neg c false sat d a), formOf (.neg c true sat d a), formOf (.min c t d a b), formOf (.max c t d a b)], f.lat = .fix 2)

/-- `setp` and `sel` (R103, R104), and `mov` between registers of the lane, special registers and immediates (R108). -/
def Obligations.CompareSelectMove : Prop :=
  (∀ c t d a b, Computes (.setp c .eq t d a b) .int (fun x => if readTy t x.a.val = readTy t x.b.val then 1 else 0)) ∧
  (∀ c t d a b, Computes (.setp c .ne t d a b) .int (fun x => if readTy t x.a.val ≠ readTy t x.b.val then 1 else 0)) ∧
  (∀ c t d a b, Computes (.setp c .lt t d a b) .int (fun x => if readTy t x.a.val < readTy t x.b.val then 1 else 0)) ∧
  (∀ c t d a b, Computes (.setp c .le t d a b) .int (fun x => if readTy t x.a.val ≤ readTy t x.b.val then 1 else 0)) ∧
  (∀ c t d a b, Computes (.setp c .gt t d a b) .int (fun x => if readTy t x.b.val < readTy t x.a.val then 1 else 0)) ∧
  (∀ c t d a b, Computes (.setp c .ge t d a b) .int (fun x => if readTy t x.b.val ≤ readTy t x.a.val then 1 else 0)) ∧
  (∀ c w d a b pc, Computes (.sel c w d a b pc false) .int (fun x => if x.p.val = 1 then x.a.val else x.b.val)) ∧
  (∀ c w d a b pc, Computes (.sel c w d a b pc true) .int (fun x => if x.p.val = 1 then x.b.val else x.a.val)) ∧
  (∀ c w d a, (∀ n, a ≠ .q n) → (∀ n, a ≠ .h n) → (∀ n, d ≠ .q n) → Computes (.mov c w d a) .int (fun x => x.a.val))

/-- Rows 0x03 and 0x04 (R105, R106): bitwise operations at the width, and shifts by the 32-bit B operand read as unsigned; all are of the
integer class, whose latency is 2. -/
def Obligations.LogicAndShifts : Prop :=
  (∀ c w d a b, Computes (.and c w d a b) .int (fun x => low w (x.a.val &&& x.b.val))) ∧
  (∀ c w d a b, Computes (.or c w d a b) .int (fun x => low w (x.a.val ||| x.b.val))) ∧
  (∀ c w d a b, Computes (.xor c w d a b) .int (fun x => low w (x.a.val ^^^ x.b.val))) ∧
  (∀ c w d a, Computes (.not c w d a) .int (fun x => low w (~~~x.a.val))) ∧
  (∀ c w d a b, Computes (.andn c w d a b) .int (fun x => low w (x.a.val &&& ~~~x.b.val))) ∧
  (∀ c w d a b, Computes (.orn c w d a b) .int (fun x => low w (x.a.val ||| ~~~x.b.val))) ∧
  (∀ c w d a b, Computes (.shl c w d a b) .int (fun x => low w (low w x.a.val <<< (x.b.val.toNat % 2 ^ 32)))) ∧
  (∀ c w d a b, Computes (.shr c w d a b) .int (fun x => low w x.a.val >>> (x.b.val.toNat % 2 ^ 32))) ∧
  (∀ c d a b, Computes (.sra c false d a b) .int
    (fun x => ((x.a.val.setWidth 32).sshiftRight (min (x.b.val.toNat % 2 ^ 32) 31)).setWidth 64)) ∧
  (∀ c d a b, Computes (.sra c true d a b) .int (fun x => x.a.val.sshiftRight (min (x.b.val.toNat % 2 ^ 32) 63))) ∧
  (∀ c d a b, Computes (.rol c false d a b) .int (fun x => ((x.a.val.setWidth 32).rotateLeft (x.b.val.toNat % 32)).setWidth 64)) ∧
  (∀ c d a b, Computes (.rol c true d a b) .int (fun x => x.a.val.rotateLeft (x.b.val.toNat % 64))) ∧
  (∀ c d a b, Computes (.ror c false d a b) .int (fun x => ((x.a.val.setWidth 32).rotateRight (x.b.val.toNat % 32)).setWidth 64)) ∧
  (∀ c d a b, Computes (.ror c true d a b) .int (fun x => x.a.val.rotateRight (x.b.val.toNat % 64))) ∧
  (∀ c w d a b, ∀ f ∈ [formOf (.and c w d a b), formOf (.or c w d a b), formOf (.xor c w d a b), formOf (.not c w d a), formOf (.andn c w d a b),
    formOf (.orn c w d a b), formOf (.shl c w d a b), formOf (.shr c w d a b), formOf (.sra c w d a b), formOf (.rol c w d a b),
    formOf (.ror c w d a b)], f.lat = .fix 2)

/-- Row 0x05 and `lea` (R107, R109): pos and len are clamped to the width; a count of 64 bits is still a 32-bit result. -/
def Obligations.BitFieldsAndAddresses : Prop :=
  (∀ c t d a b, Computes (.bfe c t d a b) .int (fun x =>
    let pos := min (x.b.val.toNat % 256) t.width
    let len := min (x.b.val.toNat / 256 % 256) (t.width - pos)
    let y := x.a.val.toNat / 2 ^ pos % 2 ^ len
    if len = 0 then 0
    else if t.signed ∧ 2 ^ (len - 1) ≤ y then wrapN t.width ((y : Int) - 2 ^ len) else BitVec.ofNat 64 y)) ∧
  (∀ c w d a b, Computes (.bfi c w d a b) .int (fun x =>
    let pos := min (x.b.val.toNat % 256) (nBits w)
    let len := min (x.b.val.toNat / 256 % 256) (nBits w - pos)
    let mask : DWord := BitVec.ofNat 64 ((2 ^ len - 1) * 2 ^ pos)
    low w ((x.d.val &&& ~~~mask) ||| ((x.a.val <<< pos) &&& mask)))) ∧
  (∀ c w d a, Computes (.popc c w d a) .int (fun x =>
    BitVec.ofNat 64 ((List.range (nBits w)).countP (fun j => x.a.val.getLsbD j)))) ∧
  (∀ c w d a, Computes (.clz c w d a) .int (fun x =>
    BitVec.ofNat 64 (if low w x.a.val = 0 then nBits w else nBits w - 1 - Nat.log2 (low w x.a.val).toNat))) ∧
  (∀ c w d a, Computes (.ctz c w d a) .int (fun x =>
    BitVec.ofNat 64 (((List.range (nBits w)).find? (fun j => x.a.val.getLsbD j)).getD (nBits w)))) ∧
  (∀ c d a, Computes (.brev c false d a) .int (fun x => (x.a.val.setWidth 32).reverse.setWidth 64)) ∧
  (∀ c d a, Computes (.brev c true d a) .int (fun x => x.a.val.reverse)) ∧
  (∀ c n d a b, Computes (.lea c false n d a b) .int (fun x => x.a.val + (x.b.val.setWidth 32).setWidth 64 * 2 ^ n.toNat)) ∧
  (∀ c n d a b, Computes (.lea c true n d a b) .int (fun x => x.a.val + (x.b.val.setWidth 32).signExtend 64 * 2 ^ n.toNat))

-- floating point

/-- Rows 0x08 and 0x09 (R110 to R113): FP32 on the low words. -/
def Obligations.Fp32 : Prop :=
  (∀ c r d a b, Computes (.fadd c r d a b) .f32 (fun x => fp2 (FFmt.f32.add r) x.a.val x.b.val)) ∧
  (∀ c r d a b, Computes (.fsub c r d a b) .f32 (fun x => fp2 (FFmt.f32.sub r) x.a.val x.b.val)) ∧
  (∀ c r d a b, Computes (.fmul c r d a b) .f32 (fun x => fp2 (FFmt.f32.mul r) x.a.val x.b.val)) ∧
  (∀ c r d a b, Computes (.fma c r d a b) .f32
    (fun x => BitVec.ofNat 64 (FFmt.f32.fma r (x.a.val.toNat % 2 ^ 32) (x.b.val.toNat % 2 ^ 32) (x.d.val.toNat % 2 ^ 32)))) ∧
  (∀ c d a b, Computes (.fmin c d a b) .f32 (fun x => fp2 FFmt.f32.least x.a.val x.b.val)) ∧
  (∀ c d a b, Computes (.fmax c d a b) .f32 (fun x => fp2 FFmt.f32.greatest x.a.val x.b.val)) ∧
  (∀ c d a, Computes (.fabs c d a) .f32 (fun x => fp1 FFmt.f32.fabs x.a.val)) ∧
  (∀ c d a, Computes (.fneg c d a) .f32 (fun x => fp1 FFmt.f32.fneg x.a.val)) ∧
  (∀ c cmp d a b, Computes (.fsetp c cmp d a b) .f32
    (fun x => if FFmt.f32.test cmp (x.a.val.toNat % 2 ^ 32) (x.b.val.toNat % 2 ^ 32) then 1 else 0)) ∧
  (∀ c r d a, Computes (.frnd c r d a) .f32 (fun x => fp1 (FFmt.f32.frnd r) x.a.val)) ∧
  (∀ c d a, Computes (.fclass c d a) .f32 (fun x => fp1 fclass32 x.a.val))

/-- Row 0x0A (R114): each element of a packed pair on its own, in its own format; `hsetp2` writes the predicate named for element 0 and the next
for element 1, both with Lab of the sources. -/
def Obligations.PackedPairs : Prop :=
  (∀ c bf r d a b, Computes (.hadd2 c bf r d a b) (.pair bf) (fun x => packed2 ((halfFmt bf).add r) x.a.val x.b.val)) ∧
  (∀ c bf r d a b, Computes (.hsub2 c bf r d a b) (.pair bf) (fun x => packed2 ((halfFmt bf).sub r) x.a.val x.b.val)) ∧
  (∀ c bf r d a b, Computes (.hmul2 c bf r d a b) (.pair bf) (fun x => packed2 ((halfFmt bf).mul r) x.a.val x.b.val)) ∧
  (∀ c bf r d a b, Computes (.hfma2 c bf r d a b) (.pair bf) (fun x => packed3 ((halfFmt bf).fma r) x.a.val x.b.val x.d.val)) ∧
  (∀ c bf d a b, Computes (.hmin2 c bf d a b) (.pair bf) (fun x => packed2 (halfFmt bf).least x.a.val x.b.val)) ∧
  (∀ c bf d a b, Computes (.hmax2 c bf d a b) (.pair bf) (fun x => packed2 (halfFmt bf).greatest x.a.val x.b.val)) ∧
  (∀ c bf cmp n a b regs s i,
    let ins : Instr := .hsetp2 c bf cmp (.p n) a b
    let f := formOf ins
    ins.wf regs = true → Issuing s i → Unfaulted s i f → Ordered s i f →
    ∃ s', Completes ins s i s' (nextPc s i) ∧ OnlyRegs s s' i.team (active s i f) [0x900 + n.toNat, 0x901 + n.toNat] ∧
      ∀ l ∈ active s i f,
        let x := readSrcs s i.team l (.pair bf) f
        let lo := (halfFmt bf).test cmp (x.a.val.toNat % 2 ^ 16) (x.b.val.toNat % 2 ^ 16)
        let hi := (halfFmt bf).test cmp (x.a.val.toNat / 2 ^ 16 % 2 ^ 16) (x.b.val.toNat / 2 ^ 16 % 2 ^ 16)
        regNow s' i.team l (0x900 + n.toNat) = ⟨if lo then 1 else 0, srcsLab s i.team l f x, false⟩ ∧
        regNow s' i.team l (0x901 + n.toNat) = ⟨if hi then 1 else 0, srcsLab s i.team l f x, false⟩)

/-- Rows 0x0B, 0x0C and 0x0E (R115 to R118, R125): special functions, conversions, the decoding of a DX element, and a predicate by table.
Where the manual leaves a point open, the clauses rest on the model's readings of log 18. -/
def Obligations.FunctionsAndConversions : Prop :=
  (∀ c r d a, Computes (.rcp c r d a) .f32 (fun x => fp1 rcp32 x.a.val)) ∧
  (∀ c r d a, Computes (.rsq c r d a) .f32 (fun x => fp1 rsq32 x.a.val)) ∧
  (∀ c r d a, Computes (.sqrt c r d a) .f32 (fun x => fp1 sqrt32 x.a.val)) ∧
  (∀ c r d a, Computes (.ex2 c r d a) .f32 (fun x => fp1 ex2_32 x.a.val)) ∧
  (∀ c r d a, Computes (.lg2 c r d a) .f32 (fun x => fp1 lg2_32 x.a.val)) ∧
  (∀ c r d a, Computes (.sin c r d a) .f32 (fun x => fp1 sin32 x.a.val)) ∧
  (∀ c r d a, Computes (.cos c r d a) .f32 (fun x => fp1 cos32 x.a.val)) ∧
  (∀ c dt ft sat r hi dst d a, Computes (.cvt c dt ft sat r hi dst d a) (cvtKind ft)
    (fun x => cvtPlace dst (cvtOp dt ft sat r hi x.a.val) x.d.val)) ∧
  (∀ c fmt d a b, Computes (.dxdec c fmt d a b) .int (fun x => BitVec.ofNat 64 (FFmt.f32.round .rn
    (dxElem fmt (x.a.val.toNat % 256) (x.a.val.toNat / 256 % 256) (x.b.val.toNat % 2 ^ dxW fmt))))) ∧
  (∀ c table pc d a b, Computes (.plut c table pc d a b) .int (fun x =>
    if table.getLsbD ((if x.a.val = 0 then 0 else 4) + (if x.b.val = 0 then 0 else 2) + (if x.p.val = 1 then 1 else 0)) then 1 else 0))

/-- The special inputs of row 0x0B (R115). -/
def Obligations.SpecialInputs : Prop :=
  (∀ f ∈ [rcp32, rsq32, sqrt32, ex2_32, lg2_32, sin32, cos32], ∀ x, (FFmt.f32.decode x).isNaN = true → f x = FFmt.f32.canonNaN) ∧
  ([rcp32, rsq32, sqrt32, ex2_32, lg2_32, sin32, cos32].map (fun f => f 0xFF800000) =
    [0x80000000, 0x7FC00000, 0x7FC00000, 0, 0x7FC00000, 0x7FC00000, 0x7FC00000]) ∧
  ([rcp32, rsq32, sqrt32, ex2_32, lg2_32, sin32, cos32].map (fun f => f 0x80000000) =
    [0xFF800000, 0xFF800000, 0x80000000, 0x3F800000, 0xFF800000, 0x80000000, 0x3F800000]) ∧
  ([rcp32, rsq32, sqrt32, ex2_32, lg2_32, sin32, cos32].map (fun f => f 0) =
    [0x7F800000, 0x7F800000, 0, 0x3F800000, 0xFF800000, 0, 0x3F800000]) ∧
  ([rcp32, rsq32, sqrt32, ex2_32, lg2_32, sin32, cos32].map (fun f => f 0x7F800000) =
    [0, 0, 0x7F800000, 0x7F800000, 0x7F800000, 0x7FC00000, 0x7FC00000]) ∧
  (∀ f ∈ [rsq32, sqrt32, lg2_32], ∀ x m e, FFmt.f32.decode x = .fin true m e → 0 < m → f x = FFmt.f32.canonNaN)

-- across lanes

/-- `shfl`, `match` and `elect` (R119, R120, R123, R124). A lane that no participant supplies keeps its own value.
`vote`, `redux` and `scan` (R121, R122): what the participants hold, combined one after another in the order of the lane set, which is ascending lane position
in every lane set that a core issues; the statement holds of any order. A NaN that `redux` or `scan` of an FP32 operation delivers is CanonNaN, that of a single
participant too (R91). -/
def Obligations.CrossLaneInstructions : Prop :=
  (∀ c w g d a b, Crosses (.shfl c .at w g d a b) .int (fun ps p => takenFrom ps p
    (lanePos p.l - lanePos p.l % g.size + p.b.val.toNat % 2 ^ 32 % g.size))) ∧
  (∀ c w g d a b, Crosses (.shfl c .rot w g d a b) .int (fun ps p => takenFrom ps p
    (lanePos p.l - lanePos p.l % g.size + (lanePos p.l % g.size + g.size - p.b.val.toNat % 2 ^ 32 % g.size) % g.size))) ∧
  (∀ c w g d a b, Crosses (.shfl c .pair w g d a b) .int (fun ps p => takenFrom ps p
    (lanePos p.l ^^^ (p.b.val.toNat % 2 ^ 32 % g.size)))) ∧
  (∀ c w g d a b, Crosses (.shfl c .shift w g d a b) .int (fun ps p =>
    let k := (lanePos p.l : Int) - (p.b.val.setWidth 32).toInt
    if (lanePos p.l - lanePos p.l % g.size : Nat) ≤ k ∧ k < (lanePos p.l - lanePos p.l % g.size + g.size : Nat) then takenFrom ps p k.toNat
    else ⟨p.a.val, p.a.lab.join p.b.lab⟩)) ∧
  (∀ c w d a, Crosses (.matchLanes c .peers w d a) .int (fun ps p =>
    ⟨maskOf (ps.filter (fun q => decide (q.a.val = p.a.val))), labelOf ps⟩)) ∧
  (∀ c w d a, Crosses (.matchLanes c .same w d a) .int (fun ps p =>
    ⟨if ps.all (fun q => decide (q.a.val = p.a.val)) then 1 else 0, labelOf ps⟩)) ∧
  (∀ c w d a, Crosses (.matchLanes c .first w d a) .int (fun ps p =>
    ⟨BitVec.ofNat 64 (((ps.find? (fun q => decide (q.a.val = p.a.val))).map (fun q => lanePos q.l)).getD 0), labelOf ps⟩)) ∧
  (∀ c hi d, Crosses (.elect c hi d) .int (fun ps p =>
    ⟨if (if hi then ps.getLast? else ps.head?).map Peer.l = some p.l then 1 else 0, Label.joinAll (ps.map (fun q => q.pcl.join q.gl))⟩)) ∧
  (∀ c d a, Crosses (.vote c .every d a) .int (fun ps _ => ⟨if ps.all (fun q => decide (q.a.val ≠ 0)) then 1 else 0, labelOf ps⟩)) ∧
  (∀ c d a, Crosses (.vote c .some d a) .int (fun ps _ => ⟨if ps.any (fun q => decide (q.a.val ≠ 0)) then 1 else 0, labelOf ps⟩)) ∧
  (∀ c d a, Crosses (.vote c .same d a) .int (fun ps _ =>
    ⟨if ps.all (fun q => decide (q.a.val ≠ 0)) || ps.all (fun q => decide (q.a.val = 0)) then 1 else 0, labelOf ps⟩)) ∧
  (∀ c d a, Crosses (.vote c .mask d a) .int (fun ps _ =>
    ⟨maskOf (ps.filter (fun q => decide (q.a.val ≠ 0))) + (maskOf ps <<< 16), labelOf ps⟩)) ∧
  (∀ c d a, Crosses (.vote c .count d a) .int (fun ps _ =>
    ⟨BitVec.ofNat 64 (ps.countP (fun q => decide (q.a.val ≠ 0))), labelOf ps⟩)) ∧
  (∀ c o d a, Crosses (.redux c o d a) (redKind o) (fun ps _ => combined o ps)) ∧
  (∀ c o d a, Crosses (.scan c o false d a) (redKind o) (fun ps p => combined o (upTo ps p))) ∧
  (∀ c o d a, Crosses (.scan c o true d a) (redKind o) (fun ps p =>
    match before ps p with
    | [] => ⟨redIdentity o, p.a.lab⟩
    | q :: qs => ⟨(combined o (q :: qs)).val, (combined o (q :: qs)).lab.join p.a.lab⟩))

-- queue registers and handles

/-- `mov` to and from queue registers (R108, R214), a move from one to another claiming its elements in one and their places in the other at issue: pushes and pops in ascending lane position; a pop is an owed result with its claim on the
queue, and answers at once with 0xFFFF_FFFF where a loop queue has ended.
Reads of a handle (R108, R126, R217, R218): with the command done without a fault, each lane's D, or the team register of `umov`, holds the status
word; an empty handle reads 0xFE and a stale one 0xFF; while the command is pending the lanes wait where they are.
Where the manual leaves a point open, the clauses rest on the model's readings of logs 19, 34 and 63. -/
def Obligations.QueueAndHandleMoves : Prop :=
  (∀ c a q regs s i,
    let ins : Instr := .mov c false (.q q) a
    let f := formOf ins
    (∀ n, a ≠ .q n) → (∀ n, a ≠ .h n) → ins.wf regs = true → Issuing s i → Unfaulted s i f →
    ((s.team i.team).queue q.toNat).room (active s i f).length = true →
    ∃ s', Completes ins s i s' (nextPc s i) ∧
      s' = s.modQueue i.team q.toNat (fun k => k.push ((active s i f).map (fun l =>
        ⟨(readOp s i.team l .int false a).val.setWidth 32, labOf s i.team l c [(readOp s i.team l .int false a).lab], false⟩))) ∧
      ((s'.team i.team).queue q.toNat).elems = ((s.team i.team).queue q.toNat).elems ++ (active s i f).map (fun l =>
        ⟨(readOp s i.team l .int false a).val.setWidth 32, labOf s i.team l c [(readOp s i.team l .int false a).lab], false⟩)) ∧
  (∀ c d q regs s i l,
    let ins : Instr := .mov c false d (.q q)
    (∀ n, d ≠ .q n) → ins.wf regs = true → Solo s i l (formOf ins) → ((s.team i.team).queue q.toNat).atEnd = false →
    (∀ o ∈ (s.thread i.team l).out.owes, o.id ≠ s.newId) →
    ∃ s', Completes ins s i s' (nextPc s i) ∧
      ((s'.team i.team).queue q.toNat).claims = ((s.team i.team).queue q.toNat).claims ++ [.thread l s.newId] ∧
      (s'.thread i.team l).out.owes = (s.thread i.team l).out.owes ++
        [{ id := s.newId, pc := (s.thread i.team l).r.pc, ic := (s.thread i.team l).run.ic, dest := destOf false d, addr := q.toNat
           endLab := pcLabel s i.team l, flab := labOf s i.team l c [] }] ∧
      (∀ e, regNow s' i.team l e = regNow s i.team l e) ∧ { s' with m := s.m, teams := s.teams } = s) ∧
  (∀ c d q regs s i l,
    let ins : Instr := .mov c false d (.q q)
    (∀ n, d ≠ .q n) → ins.wf regs = true → Solo s i l (formOf ins) → ((s.team i.team).queue q.toNat).atEnd = true →
    (∀ o ∈ (s.thread i.team l).out.owes, o.id ≠ s.newId) →
    ∃ s', Completes ins s i s' (nextPc s i) ∧ Given s' i.team l false d 0xFFFFFFFF (pcLabel s i.team l) ∧
      (s'.thread i.team l).out.owes = (s.thread i.team l).out.owes ∧ { s' with m := s.m, teams := s.teams } = s) ∧
  (∀ c q q' regs s i,
    let ins : Instr := .mov c false (.q q') (.q q)
    let f := formOf ins
    let ids := (active s i f).zipIdx.map (fun e => (e.1, s.newId + e.2))
    ins.wf regs = true → Issuing s i → Unfaulted s i f → ((s.team i.team).queue q.toNat).ended = false → active s i f ≠ [] →
    ((s.team i.team).queue q'.toNat).room (active s i f).length = true →
    ∃ s', Completes ins s i s' (nextPc s i) ∧ { s' with m := s.m, teams := s.teams } = s ∧
      ((s'.team i.team).queue q.toNat).claims = ((s.team i.team).queue q.toNat).claims ++ ids.map (fun e => .thread e.1 e.2) ∧
      (∀ k, ((s'.team i.team).queue k).kept = ((s.team i.team).queue k).kept + if k = q'.toNat then (active s i f).length else 0) ∧
      (∀ k, ((s'.team i.team).queue k).elems = ((s.team i.team).queue k).elems) ∧
      (∀ e ∈ ids, ∃ o ∈ (s'.thread i.team e.1).out.owes, o.id = e.2 ∧ o.dest = .q q'.toNat ∧ o.lab = 0) ∧
      ∀ l e, regNow s' i.team l e = regNow s i.team l e) ∧
  (∀ c d n regs s i (x : Nat → Src),
    let ins : Instr := .mov c false d (.h n)
    let f := formOf ins
    (∀ q, d ≠ .q q) → ins.wf regs = true → Issuing s i → Unfaulted s i f → Ordered s i f →
    (∀ l ∈ active s i f, readHandle s i.team l n.toNat = .val (x l)) →
    ∃ s', Completes ins s i s' (nextPc s i) ∧ OnlyRegs s s' i.team (active s i f) (encsOf false d) ∧
      ∀ l ∈ active s i f, Given s' i.team l false d (x l).val (labOf s i.team l c [(x l).lab])) ∧
  (∀ c n k regs s i l ls x,
    let ins : Instr := .umov c false (.s k) (.h n)
    let f := formOf ins
    ins.wf regs = true → Issuing s i → Unfaulted s i f → Ordered s i f → active s i f = l :: ls →
    readHandle s i.team l n.toNat = .val x →
    ∃ s', Completes ins s i s' (nextPc s i) ∧ OnlyTeamRegs s s' i.team [0x800 + k.toNat] ∧
      regNow s' i.team l (0x800 + k.toNat) = ⟨x.val.setWidth 32, labOf s i.team l c [x.lab], false⟩) ∧
  (∀ s t l n, (regRead s t l (0x920 + n)).val = 0 → ∃ lab, readHandle s t l n = .val ⟨0xFE, lab⟩) ∧
  (∀ s t l n e, readToken s t (regRead s t l (0x920 + n)).val = .done e → e.flt = none → ∃ lab, readHandle s t l n = .val ⟨e.status.setWidth 64, lab⟩) ∧
  (∀ s t l n, readToken s t (regRead s t l (0x920 + n)).val = .stale → ∃ lab, readHandle s t l n = .val ⟨0xFF, lab⟩) ∧
  (∀ c d n regs s i l,
    let ins : Instr := .mov c false d (.h n)
    ins.wf regs = true → Solo s i l (formOf ins) → readToken s i.team (regRead s i.team l (0x920 + n.toNat)).val = .pending →
    ∃ t, exec ins s = .next t ∧ (t.thread i.team l).r = (s.thread i.team l).r ∧
      (t.thread i.team l).run.waitH = some (regRead s i.team l (0x920 + n.toNat)).val)

/-- `htest` and `hmov` (R228, R231): the status of a handle without waiting, as a word or as the predicate CODE 0x00 or 0x02; a token moved
with its label: from an h register the label is kept as it is.
`umov` of any source but a handle (R126): the lowest active lane's value goes to the team register, with Lab of that lane's reads. -/
def Obligations.HandleTestsAndUniformMoves : Prop :=
  (∀ c n k regs s i,
    let ins : Instr := .htest c (.v k) (.h n)
    let f := formOf ins
    ins.wf regs = true → Issuing s i → Unfaulted s i f → Ordered s i f →
    ∃ s', Completes ins s i s' (nextPc s i) ∧ OnlyRegs s s' i.team (active s i f) [k.toNat] ∧
      ∀ l ∈ active s i f, regNow s' i.team l k.toNat =
        ⟨(readToken s i.team (regRead s i.team l (0x920 + n.toNat)).val).status, (regRead s i.team l (0x920 + n.toNat)).lab, false⟩) ∧
  (∀ c n k regs s i,
    let ins : Instr := .htest c (.p k) (.h n)
    let f := formOf ins
    ins.wf regs = true → Issuing s i → Unfaulted s i f → Ordered s i f →
    ∃ s', Completes ins s i s' (nextPc s i) ∧ OnlyRegs s s' i.team (active s i f) [0x900 + k.toNat] ∧
      ∀ l ∈ active s i f,
        let code := (readToken s i.team (regRead s i.team l (0x920 + n.toNat)).val).status.toNat % 256
        regNow s' i.team l (0x900 + k.toNat) =
          ⟨if code = 0 ∨ code = 2 then 1 else 0, (regRead s i.team l (0x920 + n.toNat)).lab, false⟩) ∧
  (HRead.pending.status = 0xFD ∧ HRead.null.status = 0xFE ∧ HRead.stale.status = 0xFF ∧ ∀ e, (HRead.done e).status = e.status) ∧
  (∀ c n k regs s i,
    let ins : Instr := .hmov c (.v k) (.h n)
    let f := formOf ins
    ins.wf regs = true → Issuing s i → Unfaulted s i f → Ordered s i f →
    ∃ s', Completes ins s i s' (nextPc s i) ∧ OnlyRegs s s' i.team (active s i f) [k.toNat] ∧
      ∀ l ∈ active s i f, regNow s' i.team l k.toNat =
        ⟨(regRead s i.team l (0x920 + n.toNat)).val, (regRead s i.team l (0x920 + n.toNat)).lab, false⟩) ∧
  (∀ c a k regs s i l ls,
    let ins : Instr := .hmov c (.h k) a
    let f := formOf ins
    let x := readOp s i.team l .int false a
    ins.wf regs = true → Issuing s i → Unfaulted s i f → Ordered s i f → active s i f = l :: ls →
    ∃ s', Completes ins s i s' (nextPc s i) ∧ OnlyTeamRegs { s with cores := s'.cores } s' i.team [0x920 + k.toNat] ∧
      (∀ core, { s'.core core with hnd := [] } = { s.core core with hnd := [] }) ∧
      regNow s' i.team l (0x920 + k.toNat) = ⟨x.val.setWidth 32, (match a with | .h _ => x.lab | _ => labOf s i.team l c [x.lab]), false⟩) ∧
  (∀ c w k a regs s i l ls,
      let ins : Instr := .umov c w (.s k) a
      let f := formOf ins
      (∀ n, a ≠ .h n) → ins.wf regs = true → Issuing s i → Unfaulted s i f → Ordered s i f → active s i f = l :: ls →
      ∃ s', Completes ins s i s' (nextPc s i) ∧ OnlyTeamRegs s s' i.team (encsOf w (.s k)) ∧
        Given s' i.team l w (.s k) (readOp s i.team l .int w a).val (labOf s i.team l c [(readOp s i.team l .int w a).lab]))

-- control flow

/-- `bra` and `jmp` (R130 to R132): where no label exceeds the PC label, every active lane goes to its target and every other lane on; nothing
else changes. -/
def Obligations.Branches : Prop :=
  (∀ c disp s i,
    let ins : Instr := .bra c disp
    let f := formOf ins
    Issuing s i → Unfaulted s i f → (∀ l ∈ active s i f, ¬ pcLabel s i.team l < guardLab s i.team l c) →
    Completes ins s i s (fun l => if l ∈ active s i f then (s.thread i.team l).r.pc + 12 + 12 * disp.signExtend 52
      else (s.thread i.team l).r.pc + 12)) ∧
  (∀ c a regs s i,
    let ins : Instr := .jmp c a
    let f := formOf ins
    ins.wf regs = true → Issuing s i → Unfaulted s i f →
    (∀ l ∈ active s i f, ¬ pcLabel s i.team l < guardLab s i.team l c ∧ ¬ pcLabel s i.team l < (readOp s i.team l .int true a).lab) →
    Completes ins s i s (fun l => if l ∈ active s i f then (readOp s i.team l .int true a).val.setWidth 52 &&& ~~~(3 : PC)
      else (s.thread i.team l).r.pc + 12))

/-- `call`, `calli` and `ret` (R78, R131 to R133): a call pushes the address after it, a return pops and goes there. At depth 4 or more a call first sends the
oldest entry on the chip to its slot in local memory, and at depth 5 or more a return loads the entry that comes onto the chip from its slot: a live copy in the
L1 serves it, else the slot's home, and a slot behind a link window travels as any access does (R154, R366), a store on a lost connection being discarded (R367).
Where that store or load would fault or bring a poison mark, the call or return raises CALL_STACK with the slot's offset and bit 63 instead.
Where the manual leaves a point open, the clauses rest on the model's readings of log 29. -/
def Obligations.CallsAndReturns : Prop :=
  (∀ c disp s i,
    let ins : Instr := .call c disp
    let f := formOf ins
    Issuing s i → Unfaulted s i f →
    (∀ l ∈ active s i f, ¬ pcLabel s i.team l < guardLab s i.team l c ∧ (s.thread i.team l).r.rsd < 4) →
    ∃ s', Completes ins s i s' (fun l => if l ∈ active s i f then (s.thread i.team l).r.pc + 12 + 12 * disp.signExtend 52
        else (s.thread i.team l).r.pc + 12) ∧
      OnlyThreads s s' i.team (active s i f) (fun _ th => { th with
        r := { th.r with ret := (th.r.pc + 12) :: th.r.ret.take 3, rsd := th.r.rsd + 1 } })) ∧
  (∀ c a regs s i,
    let ins : Instr := .calli c a
    let f := formOf ins
    ins.wf regs = true → Issuing s i → Unfaulted s i f →
    (∀ l ∈ active s i f, ¬ pcLabel s i.team l < guardLab s i.team l c ∧ ¬ pcLabel s i.team l < (readOp s i.team l .int true a).lab ∧
      (s.thread i.team l).r.rsd < 4) →
    ∃ s', Completes ins s i s' (fun l => if l ∈ active s i f then (readOp s i.team l .int true a).val.setWidth 52 &&& ~~~(3 : PC)
        else (s.thread i.team l).r.pc + 12) ∧
      OnlyThreads s s' i.team (active s i f) (fun _ th => { th with
        r := { th.r with ret := (th.r.pc + 12) :: th.r.ret.take 3, rsd := th.r.rsd + 1 } })) ∧
  (∀ c s i (top : Nat → PC) (below : Nat → List PC),
    let ins : Instr := .ret c
    let f := formOf ins
    Issuing s i → Unfaulted s i f →
    (∀ l ∈ active s i f, ¬ pcLabel s i.team l < guardLab s i.team l c ∧ 0 < (s.thread i.team l).r.rsd ∧ (s.thread i.team l).r.rsd ≤ 4 ∧
      (s.thread i.team l).r.ret = top l :: below l) →
    ∃ s', Completes ins s i s' (fun l => if l ∈ active s i f then top l else (s.thread i.team l).r.pc + 12) ∧
      OnlyThreads s s' i.team (active s i f) (fun l th => { th with r := { th.r with ret := below l, rsd := th.r.rsd - 1 } })) ∧
  (∀ c disp s i l x,
    let n := (s.thread i.team l).r.rsd
    Solo s i l (formOf (.call c disp)) → ¬ pcLabel s i.team l < guardLab s i.team l c → 4 ≤ n → n < 1028 →
    ReachesSlot s i.team l (8 * (n - 4)) permWrite x → attrCnt x.attr = false → ¬ attrLabel x.attr < pcLabel s i.team l →
    SlotMaySend s i (x.pa (localVa s i.team l (8 * (n - 4)))) →
    Spills (.call c disp) s i l x ((s.thread i.team l).r.pc + 12 + 12 * disp.signExtend 52)) ∧
  (∀ c a regs s i l x,
    let n := (s.thread i.team l).r.rsd
    (Instr.calli c a).wf regs = true → Solo s i l (formOf (.calli c a)) → ¬ pcLabel s i.team l < guardLab s i.team l c →
    ¬ pcLabel s i.team l < (readOp s i.team l .int true a).lab → 4 ≤ n → n < 1028 →
    ReachesSlot s i.team l (8 * (n - 4)) permWrite x → attrCnt x.attr = false → ¬ attrLabel x.attr < pcLabel s i.team l →
    SlotMaySend s i (x.pa (localVa s i.team l (8 * (n - 4)))) →
    Spills (.calli c a) s i l x ((readOp s i.team l .int true a).val.setWidth 52 &&& ~~~(3 : PC))) ∧
  (∀ c s i l x top below,
    let n := (s.thread i.team l).r.rsd
    let va := localVa s i.team l (8 * (n - 5))
    let pa := x.pa va
    let refilled := fun (v : PC) => ∃ s', Completes (.ret c) s i s' (fun _ => top) ∧ s'.mem = s.mem ∧ s'.reports = s.reports ∧
      OnlyThreads s { s with teams := s'.teams } i.team [l] (fun _ th => { th with r := { th.r with ret := below ++ [v], rsd := th.r.rsd - 1 } })
    let stopped := fun (noticed : Bool) => ∃ t, exec (.ret c) s = .next t ∧ (noticed = false → t.mem = s.mem) ∧
      (t.thread i.team l).t = trapped (s.thread i.team l) .callStack (2 ^ 63 + 8 * (n - 5)) (labOf s i.team l c []) (s.thread i.team l).r.pc ∧
      (t.thread i.team l).r = { (s.thread i.team l).r with pc := tvecFor s i.team l &&& ~~~(3 : PC) }
    Solo s i l (formOf (.ret c)) → ¬ pcLabel s i.team l < guardLab s i.team l c → 5 ≤ n → (s.thread i.team l).r.ret = top :: below →
    ReachesSlot s i.team l (8 * (n - 5)) permRead x →
    (isLink pa = false → ∀ k, cacheable x pa = true → l1Live s i.core pa = some k →
      (k.pois = false → refilled (pcOf (leNat ((k.bytes.drop (pa % 64)).take 8)))) ∧ (k.pois = true → CanTrap s i.team l → stopped false)) ∧
    (isLink pa = false → (cacheable x pa = true → l1Live s i.core pa = none) →
      (∀ r ∈ (s.core i.core).out, r.kind.onLine = true → r.line ≠ pa / 256) → closed s (.mem (pa / 256)) = false →
      (poisAt s pa = false → refilled (pcOf (homeRead s pa 8))) ∧ (poisAt s pa = true → CanTrap s i.team l → stopped false)) ∧
    (isLink pa = true → ∀ d, slotRead s i.core i.team l va = some d →
      (∀ bs, d.ans = some (some bs) → refilled (pcOf (leNat bs))) ∧ (d.ans = some none → CanTrap s i.team l → stopped false)) ∧
    (isLink pa = true → slotRead s i.core i.team l va = none → windowOf s (s.team i.team).at_.part pa = none → CanTrap s i.team l → stopped true)) ∧
  (∀ c disp a toReg s i l,
    let ins : Instr := if toReg then .calli c a else .call c disp
    let n := (s.thread i.team l).r.rsd
    let off := 8 * (n - 4)
    let va := localVa s i.team l off
    let stopped := Traps ins s i l .callStack (2 ^ 63 + off) (labOf s i.team l c [])
    Solo s i l (formOf ins) → CanTrap s i.team l → ¬ pcLabel s i.team l < guardLab s i.team l c →
    (toReg = true → ¬ pcLabel s i.team l < (readOp s i.team l .int true a).lab) → 4 ≤ n → n < 1028 →
    (∀ e g, answerFor (s.thread i.team l).run.xres va kindWrite = some e → e.res = .fail g → stopped) ∧
    (∀ x, Hits s i.team l va permWrite x → SlotMaySend s i (x.pa va) →
      (attrSealed x.attr = true ∨ attrCnt x.attr = true ∨ attrLabel x.attr < pcLabel s i.team l) → stopped)) ∧
  (∀ c s i l,
    let n := (s.thread i.team l).r.rsd
    let off := 8 * (n - 5)
    let va := localVa s i.team l off
    let stopped := Traps (.ret c) s i l .callStack (2 ^ 63 + off) (labOf s i.team l c [])
    Solo s i l (formOf (.ret c)) → CanTrap s i.team l → ¬ pcLabel s i.team l < guardLab s i.team l c → 5 ≤ n → (s.thread i.team l).r.ret ≠ [] →
    (∀ e g, answerFor (s.thread i.team l).run.xres va kindLoad = some e → e.res = .fail g → stopped) ∧
    (∀ x, Hits s i.team l va permRead x → attrSealed x.attr = true → stopped))

/-- Where a branch, a call or a return stops (R131 to R134, R78): a label above the PC label is LABEL_BRANCH, the guard's before the target's, also where both
are, and a full or empty return stack is CALL_STACK; neither moves the PC or the stack.
Where a privileged instruction traps (R139, R142 to R145, R147): the register's access forbids it, `rte` stands outside trap mode, `declass` has no
authority; an ACCOWN index of 768 or more is ILLEGAL_OPERAND.
Where the static contract is broken in validating mode (R42, R46): the lane takes STATIC_HAZARD before any effect, for its guard's predicate before the guard is
evaluated. A read of a register nearer to its producer than the latency breaks rule 1, a read or write of a variable-latency destination rule 2, a write that
would be overtaken rule 4; TVAL names the distance, the rule, the field and the register. That the newest of several broken writes is named, and that a write
of variable latency breaks no rule 4, are the model's choices (logs 92 and 86). -/
def Obligations.ControlTraps : Prop :=
  (∀ c disp s i l,
    Solo s i l (formOf (.bra c disp)) → CanTrap s i.team l → pcLabel s i.team l < guardLab s i.team l c →
    Traps (.bra c disp) s i l .labelBranch ((pcLabel s i.team l).toNat * 4 + (guardLab s i.team l c).toNat) (labOf s i.team l c [0])) ∧
  (∀ c a s i l,
    let la := (readOp s i.team l .int true a).lab
    Solo s i l (formOf (.jmp c a)) → CanTrap s i.team l → ¬ pcLabel s i.team l < guardLab s i.team l c → pcLabel s i.team l < la →
    Traps (.jmp c a) s i l .labelBranch (16 + (pcLabel s i.team l).toNat * 4 + la.toNat) (labOf s i.team l c [la])) ∧
  (∀ c a disp s i l,
    let la := (readOp s i.team l .int true a).lab
    let g := guardLab s i.team l c
    let v := (pcLabel s i.team l).toNat * 4 + g.toNat
    CanTrap s i.team l → pcLabel s i.team l < g →
    (Solo s i l (formOf (.jmp c a)) → Traps (.jmp c a) s i l .labelBranch v (labOf s i.team l c [la])) ∧
    (Solo s i l (formOf (.calli c a)) → Traps (.calli c a) s i l .labelBranch v (labOf s i.team l c [la])) ∧
    (Solo s i l (formOf (.call c disp)) → Traps (.call c disp) s i l .labelBranch v (labOf s i.team l c [0])) ∧
    (Solo s i l (formOf (.ret c)) → Traps (.ret c) s i l .labelBranch v (labOf s i.team l c [0]))) ∧
  (∀ c a s i l,
    let la := (readOp s i.team l .int true a).lab
    Solo s i l (formOf (.calli c a)) → CanTrap s i.team l → ¬ pcLabel s i.team l < guardLab s i.team l c →
    (pcLabel s i.team l < la → Traps (.calli c a) s i l .labelBranch (16 + (pcLabel s i.team l).toNat * 4 + la.toNat) (labOf s i.team l c [la])) ∧
    (¬ pcLabel s i.team l < la → 1028 ≤ (s.thread i.team l).r.rsd → Traps (.calli c a) s i l .callStack 1028 (labOf s i.team l c []))) ∧
  (∀ c disp s i l,
    Solo s i l (formOf (.call c disp)) → CanTrap s i.team l → ¬ pcLabel s i.team l < guardLab s i.team l c → 1028 ≤ (s.thread i.team l).r.rsd →
    Traps (.call c disp) s i l .callStack 1028 (labOf s i.team l c [])) ∧
  (∀ c s i l,
    Solo s i l (formOf (.ret c)) → CanTrap s i.team l → ¬ pcLabel s i.team l < guardLab s i.team l c → (s.thread i.team l).r.rsd = 0 →
    Traps (.ret c) s i l .callStack 0 (labOf s i.team l c [])) ∧
  (∀ c sr d ix s i l,
    Solo s i l (formOf (.rdsr c sr d ix)) → CanTrap s i.team l → (s.thread i.team l).t.sup = false → (sr = .svec ∨ sr = .accown) →
    Traps (.rdsr c sr d ix) s i l .privilege sr.code (labOf s i.team l c [])) ∧
  (∀ c sr a ix s i l,
    Solo s i l (formOf (.wrsr c sr a ix)) → CanTrap s i.team l →
    (sr = .tstat ∨ sr = .ctxid ∨ sr = .time ∨ sr = .vtime ∨ ((s.thread i.team l).t.sup = false ∧ sr ≠ .tvec)) →
    Traps (.wrsr c sr a ix) s i l .privilege (256 + sr.code) (labOf s i.team l c [])) ∧
  (∀ c nx s i l,
    Solo s i l (formOf (.rte c nx)) → CanTrap s i.team l → Traps (.rte c nx) s i l .privilege 1024 (labOf s i.team l c [])) ∧
  (∀ c lab d a s i l,
    Solo s i l (formOf (.declass c lab d a)) → CanTrap s i.team l → ((s.thread i.team l).t.sup = false ∨ mayDeclass s i = false) →
    Traps (.declass c lab d a) s i l .privilege 512 (labOf s i.team l c [])) ∧
  (∀ c d ix s i l,
    let x := readOp s i.team l .int false ix
    Solo s i l (formOf (.rdsr c .accown d ix)) → CanTrap s i.team l → (s.thread i.team l).t.sup = true →
    poisonIn s i l (formOf (.rdsr c .accown d ix)) [1] = none → 768 ≤ x.val.toNat →
    Traps (.rdsr c .accown d ix) s i l .illegalOperand (min x.val.toNat 0xFFFF * 2 ^ 16 + 2 ^ 12 + encOf ix) (labOf s i.team l c [x.lab])) ∧
  (∀ c a ix s i l,
    let x := readOp s i.team l .int false ix
    Solo s i l (formOf (.wrsr c .accown a ix)) → CanTrap s i.team l → (s.thread i.team l).t.sup = true →
    poisonIn s i l (formOf (.wrsr c .accown a ix)) [2] = none → 768 ≤ x.val.toNat →
    Traps (.wrsr c .accown a ix) s i l .illegalOperand (min x.val.toNat 0xFFFF * 2 ^ 16 + 2 * 2 ^ 12 + encOf ix) (labOf s i.team l c [x.lab])) ∧
  ((∀ c t sat d a b, HazardTraps (.add c t sat d a b)) ∧ (∀ c r d a b, HazardTraps (.fma c r d a b)) ∧ (∀ c cmp t d a b, HazardTraps (.setp c cmp t d a b)) ∧
    (∀ c r d a, HazardTraps (.rcp c r d a)) ∧ (∀ c m w g d a b, HazardTraps (.shfl c m w g d a b)) ∧ (∀ c disp, HazardTraps (.bra c disp)) ∧
    (∀ c a, HazardTraps (.jmp c a)) ∧ (∀ c sr d ix, HazardTraps (.rdsr c sr d ix)) ∧ (∀ c sr a ix, HazardTraps (.wrsr c sr a ix))) ∧
  (∀ (th : Thread) (h : Haz) (hs : List Haz) (field : Nat), th.run.haz = h :: hs →
    let dist := th.run.ic - h.ic
    (h.lat = none → readHazard th field h.enc = some (2 ^ 14 + field * 2 ^ 12 + h.enc) ∧ ∀ q, writeHazard th q h.enc = some (2 ^ 14 + h.enc)) ∧
    (∀ p, h.lat = some p → (dist < p → readHazard th field h.enc = some (min dist 255 * 2 ^ 16 + field * 2 ^ 12 + h.enc)) ∧
      ∀ q, dist < p + 1 - q → writeHazard th (.fix q) h.enc = some (min dist 255 * 2 ^ 16 + 3 * 2 ^ 14 + h.enc))) ∧
  (∀ (th : Thread) (field enc : Nat), (∀ h ∈ th.run.haz, h.enc = enc → ∃ p, h.lat = some p ∧ p ≤ th.run.ic - h.ic) →
    readHazard th field enc = none ∧ ∀ q, (∀ h ∈ th.run.haz, ∀ p, h.enc = enc → h.lat = some p → p + 1 - q ≤ th.run.ic - h.ic) →
      writeHazard th (.fix q) enc = none)

/-- `reform`, `demote` and `exit` (R135 to R137): a reform parks every lane of the set, and changes nothing else; a demoted lane is a helper; a lane
that exits parks at its own PC and ends when its park does. -/
def Obligations.Reshaping : Prop :=
  (∀ c s i,
    let ins : Instr := .reform c
    Issuing s i → Unfaulted s i (formOf ins) → i.lanes ≠ [] →
    ∃ t, exec ins s = .next t ∧ Settled s t i (nextPc s i) ∧ ∀ l ∈ i.lanes, (t.thread i.team l).run.park = some ⟨s.newId, .reform⟩) ∧
  (∀ c s i,
    let ins : Instr := .demote c
    let f := formOf ins
    Issuing s i → Unfaulted s i f →
    ∃ s', Completes ins s i s' (nextPc s i) ∧
      OnlyThreads s s' i.team (active s i f) (fun _ th => { th with t := { th.t with helper := true } })) ∧
  (∀ c s i,
    let ins : Instr := .exit c
    let f := formOf ins
    Issuing s i → Unfaulted s i f → active s i f ≠ [] →
    ∃ t, exec ins s = .next t ∧
      Settled s t i (fun l => if l ∈ active s i f then (s.thread i.team l).r.pc else (s.thread i.team l).r.pc + 12) ∧
      ∀ l ∈ active s i f, (t.thread i.team l).run.park = some ⟨s.newId, .exit⟩)

/-- `trap` and `brk` (R138, R325): the fault that they raise is taken through TVEC.
A fault in trap mode, or one with no handler, halts the team (R325, R326): no thread of it issues again, the lane's trap registers keep what they
hold, and the slice kernel receives the report.
Where the manual leaves a point open, the clauses rest on the model's readings of logs 57 and 76. -/
def Obligations.TrapsAndHalts : Prop :=
  (∀ c a s i l,
    let x := readOp s i.team l .int false a
    Solo s i l (formOf (.trap c a)) → CanTrap s i.team l →
    Traps (.trap c a) s i l .trap x.val.toNat (labOf s i.team l c [x.lab])) ∧
  (∀ c code s i l,
    Solo s i l (formOf (.brk c code)) → CanTrap s i.team l → Traps (.brk c code) s i l .break_ code.toNat (labOf s i.team l c [])) ∧
  (∀ s t l code tval pcr apc lab,
    (Tbl.find s.teams t).isSome = true → (s.thread t l).t.trap = true → (s.team t).halted = false →
    let u := trapEntry s t l code tval pcr apc lab
    (u.team t).halted = true ∧ (u.team t).haltDouble = true ∧ (u.thread t l) = (s.thread t l) ∧
      u.reports = s.reports ++ [.halt (s.team t).tag (s.team t).at_.core l code.code (BitVec.ofNat 64 tval) (pcr.setWidth 64) true]) ∧
  (∀ s t l code tval pcr apc lab,
    (Tbl.find s.teams t).isSome = true → (s.thread t l).t.trap = false → (s.team t).halted = false → code ≠ .accFirstUse → tvecFor s t l = 0 →
    let u := trapEntry s t l code tval pcr apc lab
    (u.team t).halted = true ∧ (u.team t).haltDouble = false ∧ (u.thread t l) = (s.thread t l) ∧
      u.reports = s.reports ++ [.halt (s.team t).tag (s.team t).at_.core l code.code (BitVec.ofNat 64 tval) (pcr.setWidth 64) false]) ∧
  (∀ s i is, s.m.issueQ = i :: is → (s.team i.team).halted = true → step s = .next { s with m := { s.m with issueQ := is, cur := .none } })

/-- `rte` (R139): a lane in trap mode goes to TPC, or past it with NEXT, with bits [1:0] cleared; TRAP and SUP clear, and nothing else of it changes. -/
def Obligations.TrapReturn : Prop :=
  ∀ c nx s i,
    let ins : Instr := .rte c nx
    let f := formOf ins
    Issuing s i → Unfaulted s i f → (∀ l ∈ active s i f, (s.thread i.team l).t.trap = true) →
    ∃ s', Completes ins s i s' (fun l => if l ∈ active s i f
        then ((s.thread i.team l).t.tpc.val.setWidth 52 + (if nx then 12 else 0)) &&& ~~~(3 : PC)
        else (s.thread i.team l).r.pc + 12) ∧
      OnlyThreads s s' i.team (active s i f) (fun _ th => { th with t := { th.t with trap := false, sup := false } })

/-- `rdsr` (R142, R69): the value of the register as the lane sees it, with its label; for ACCOWN the element that the index names.
`wrsr` (R143): a thread-scope register in each active lane; a register of team, partition or core scope once, from the lowest.
The label of a register that carries none is the PC label (R70). Where the manual leaves a point open, the clauses rest on the model's readings of logs 11, 31 and 92. -/
def Obligations.SystemRegisters : Prop :=
  (∀ c sr d ix regs s i,
      let ins : Instr := .rdsr c sr d ix
      let f := formOf ins
      ins.wf regs = true → Issuing s i → Unfaulted s i f → Ordered s i f →
      (∀ l ∈ active s i f, (sr = .svec ∨ sr = .accown → (s.thread i.team l).t.sup = true) ∧
        (sr = .accown → poisonIn s i l f [1] = none ∧ (readOp s i.team l .int false ix).val.toNat < 768)) →
      ∃ s', Completes ins s i s' (nextPc s i) ∧ OnlyRegs s s' i.team (active s i f) (encsOf true d) ∧
        ∀ l ∈ active s i f,
          let th := s.thread i.team l
          let tm := s.team i.team
          let p := pcLabel s i.team l
          let own := fun (x : SysVal) => Given s' i.team l true d x.val (labOf s i.team l c [x.lab])
          match sr with
          | .tstat => Given s' i.team l true d (tm.tstat th) p
          | .tpc => own th.t.tpc
          | .tapc => own th.t.tapc
          | .tcause => own th.t.tcause
          | .tval => own th.t.tval
          | .tvec => Given s' i.team l true d ((tvecFor s i.team l).setWidth 64) p
          | .svec => Given s' i.team l true d (svecFor s i.team l) p
          | .ctxid => Given s' i.team l true d (BitVec.ofNat 64 (tm.at_.part * 64 + tm.at_.ctx)) p
          | .accown => s.unpubSys = [] →
            Given s' i.team l true d (BitVec.ofNat 64 (accownAt s tm.at_.core (readOp s i.team l .int false ix).val.toNat))
              (labOf s i.team l c [(readOp s i.team l .int false ix).lab])
          | .time => Given s' i.team l true d (BitVec.ofNat 64 (s.ps / 1000)) p
          | .vtime => Given s' i.team l true d (BitVec.ofNat 64 ((s.ctx tm.at_.part tm.at_.ctx).vtime / 1000)) p) ∧
  (∀ c sr a ix regs s i (g : DWord → Label → Thread → Thread),
    let ins : Instr := .wrsr c sr a ix
    let f := formOf ins
    ins.wf regs = true → Issuing s i → Unfaulted s i f →
    (∀ l ∈ active s i f, (s.thread i.team l).t.sup = true ∧ poisonIn s i l f [1] = none) →
    ((sr = .tpc ∧ g = fun x lab th => { th with t := { th.t with tpc := ⟨(x.setWidth 52 &&& ~~~(3 : PC)).setWidth 64, lab⟩ } }) ∨
     (sr = .tapc ∧ g = fun x lab th => { th with t := { th.t with tapc := ⟨(x.setWidth 52 &&& ~~~(3 : PC)).setWidth 64, lab⟩ } }) ∨
     (sr = .tcause ∧ g = fun x lab th => { th with t := { th.t with tcause := ⟨x &&& 0x1FFFF, lab⟩ } }) ∨
     (sr = .tval ∧ g = fun x lab th => { th with t := { th.t with tval := ⟨x, lab⟩ } })) →
    ∃ s', Completes ins s i s' (nextPc s i) ∧
      OnlyThreads s s' i.team (active s i f) (fun l th => g (readOp s i.team l .int true a).val
        (labOf s i.team l c [(readOp s i.team l .int true a).lab]) th)) ∧
  (∀ c a regs s i l ls,
    let ins : Instr := .wrsr c .tvec a .z
    let x := (readOp s i.team l .int true a).val
    ins.wf regs = true → Issuing s i → Unfaulted s i (formOf ins) → active s i (formOf ins) = l :: ls →
    poisonIn s i l (formOf ins) [1] = none →
    ∃ s', Completes ins s i s' (nextPc s i) ∧ (s'.team i.team).r.tvec = x.setWidth 52 &&& ~~~(3 : PC) ∧
      { s' with teams := s.teams, unpubSys := s.unpubSys } = s ∧ ∀ k, s'.thread i.team k = s.thread i.team k) ∧
  (∀ c a regs s i l ls,
    let ins : Instr := .wrsr c .svec a .z
    let x := (readOp s i.team l .int true a).val
    ins.wf regs = true → Issuing s i → Unfaulted s i (formOf ins) → active s i (formOf ins) = l :: ls →
    (∀ k ∈ active s i (formOf ins), (s.thread i.team k).t.sup = true) → poisonIn s i l (formOf ins) [1] = none →
    ∃ s', Completes ins s i s' (nextPc s i) ∧ (s'.part (s.team i.team).at_.part).svec = x ∧
      { s' with parts := s.parts, unpubSys := s.unpubSys } = s) ∧
  (∀ c a ix regs s i l ls,
    let ins : Instr := .wrsr c .accown a ix
    let x := (readOp s i.team l .int true a).val
    let n := (readOp s i.team l .int false ix).val.toNat
    ins.wf regs = true → Issuing s i → Unfaulted s i (formOf ins) → active s i (formOf ins) = l :: ls →
    (∀ k ∈ active s i (formOf ins), (s.thread i.team k).t.sup = true ∧ (readOp s i.team k .int false ix).val.toNat < 768 ∧
      poisonIn s i k (formOf ins) [2] = none) → poisonIn s i l (formOf ins) [1] = none →
    ∃ s', Completes ins s i s' (nextPc s i) ∧ { s' with cores := s.cores, unpubSys := s.unpubSys } = s ∧
      ∀ m, accownAt s' (s.team i.team).at_.core m = if m = n then x.toNat % 65536 else accownAt s (s.team i.team).at_.core m)

/-- `raise`, `declass` and `tmark` (R146 to R148): the PC label rises and never falls; a declassified value takes exactly the label of the word; a
trace mark of a lane that is no helper asks for its record to be appended with an add to HEAD, or is dropped and counted; a helper's does nothing. Whether the
buffer is full is found where the add is performed, and no clause is about that. HEAD is added to in the host's context, which is the model's reading (log 27:
R356 names none).
Where the manual leaves a point open, the clauses rest on the model's readings of log 27. -/
def Obligations.LabelsAndMarks : Prop :=
  (∀ c lab s i,
    let ins : Instr := .raise c lab
    let f := formOf ins
    Issuing s i → Unfaulted s i f →
    ∃ s', Completes ins s i s' (nextPc s i) ∧
      OnlyThreads s s' i.team (active s i f) (fun _ th => { th with r := { th.r with pcl := if th.r.pcl < lab then lab else th.r.pcl } })) ∧
  (∀ c lab d a regs s i,
    let ins : Instr := .declass c lab d a
    let f := formOf ins
    ins.wf regs = true → Issuing s i → Unfaulted s i f → Ordered s i f →
    (∀ l ∈ active s i f, (s.thread i.team l).t.sup = true ∧ poisonIn s i l f [1] = none) → mayDeclass s i = true →
    ∃ s', Completes ins s i s' (nextPc s i) ∧ OnlyRegs s s' i.team (active s i f) (encsOf false d) ∧
      ∀ l ∈ active s i f, Given s' i.team l false d (readOp s i.team l .int false a).val lab) ∧
  (∀ c tag a s i l cfg,
    let ins : Instr := .tmark c tag a
    let x := readOp s i.team l .int false a
    let tm := s.team i.team
    Solo s i l (formOf ins) → (s.thread i.team l).t.helper = false → (s.part tm.at_.part).trace.cfg = some cfg →
    (s.part tm.at_.part).trace.on = true → ¬ cfg.tlab < labOf s i.team l c [x.lab] →
    ∃ s', Completes ins s i s' (nextPc s i) ∧ { s' with m := s.m, adds := s.adds } = s ∧
      Tbl.find s'.adds s.newId = some {
        part := tm.at_.part, ctx := (s.part tm.at_.part).hostCtx, core := i.core, addr := cfg.head, n := 1, who := .head
        data := traceRecord (BitVec.ofNat 64 (s.ps / 1000)) (BitVec.ofNat 64 ((s.ctx tm.at_.part tm.at_.ctx).vtime / 1000)) 1 tag.toNat i.core l
          tm.tag (s.thread i.team l).r.pc (x.val.setWidth 32) }) ∧
  (∀ c tag a s i l,
    let ins : Instr := .tmark c tag a
    let x := readOp s i.team l .int false a
    let tm := s.team i.team
    Solo s i l (formOf ins) → (s.thread i.team l).t.helper = false →
    ((s.part tm.at_.part).trace.on = false ∨ ∃ cfg, (s.part tm.at_.part).trace.cfg = some cfg ∧ cfg.tlab < labOf s i.team l c [x.lab]) →
    ∃ s', Completes ins s i s' (nextPc s i) ∧ s'.adds = s.adds ∧
      (s'.part tm.at_.part).trace.dropped = (s.part tm.at_.part).trace.dropped + 1) ∧
  (∀ c tag a s i l, Solo s i l (formOf (.tmark c tag a)) → (s.thread i.team l).t.helper = true →
    Completes (.tmark c tag a) s i s (nextPc s i))

/-- `svc` and `launch` (R140, R149): a call is queued with its argument and label, and the lane is owed its reply; a helper sends none and is owed
zero; a launch takes a new handle and submits the record's address to its queue.
Where the manual leaves a point open, the clauses rest on the model's readings of logs 12, 52 and 66. -/
def Obligations.CallsToTheKernel : Prop :=
  (∀ c num d a regs s i l,
    let ins : Instr := .svc c num d a
    let x := readOp s i.team l .int true a
    let tm := s.team i.team
    let lab := labOf s i.team l c [x.lab]
    ins.wf regs = true → Solo s i l (formOf ins) → (s.thread i.team l).t.helper = false → fenceMet s i.team [l] .dev = true →
    ∃ s', Completes ins s i s' (nextPc s i) ∧
      (s'.part tm.at_.part).calls = (s.part tm.at_.part).calls ++
        [{ id := s.newId, team := i.team, thread := l, owe := s.newId, ctx := tm.at_.ctx, tag := tm.tag, num := num.toNat, a := x.val, lab }] ∧
      (s'.thread i.team l).out.owes = (s.thread i.team l).out.owes ++
        [{ id := s.newId, pc := (s.thread i.team l).r.pc, ic := (s.thread i.team l).run.ic, dest := destOf true d, lab, counts := false }] ∧
      (∀ e, regNow s' i.team l e = regNow s i.team l e)) ∧
  (∀ c num d a regs s i l,
    let ins : Instr := .svc c num d a
    ins.wf regs = true → Solo s i l (formOf ins) → (s.thread i.team l).t.helper = true →
    ∃ s', Completes ins s i s' (nextPc s i) ∧ s'.parts = s.parts ∧
      ∃ r ∈ (s'.core i.core).out, r.kind = .reply 0 0 false ∧ ∃ o ∈ (s'.thread i.team l).out.owes, o.id = r.id ∧ o.dest = destOf true d) ∧
  (∀ c d a b regs s i l e,
    let ins : Instr := .launch c (.h d) a b
    let x := readOp s i.team l .int true a
    let y := readOp s i.team l .int false b
    let lab := labOf s i.team l c [x.lab, y.lab]
    ins.wf regs = true → Issuing s i → Unfaulted s i (formOf ins) → Ordered s i (formOf ins) →
    leads s i (formOf ins) (active s i (formOf ins)) = some l → (s.thread i.team l).out.stores = 0 → (s.thread i.team l).out.tw ≤ s.now →
    freeEntry s i.core = some e →
    ∃ s', Completes ins s i s' (nextPc s i) ∧
      Tbl.find s'.subs s.newId = some {
        src := .launch i.core e, part := (s.team i.team).at_.part, ctx := (s.team i.team).at_.ctx, addr := x.val, queue := y.val.toNat % 64
        bad := decide (64 ≤ y.val.toNat) || decide (x.val.toNat % 256 ≠ 0), hlab := lab, team := some i.team, lanes := i.lanes } ∧
      regNow s' i.team l (0x920 + d.toNat) = ⟨mkToken i.core e (if (s.handle i.core e).gen = 0xFFFF then 1 else (s.handle i.core e).gen + 1), lab, false⟩ ∧
      (s'.handle i.core e).st = .pending)

-- memory

/-- `ld` (R170, R179 to R182): an access of a lane that passes its checks leaves as a request to its line, or is answered from the L1 or from the
team's own shared memory; the lane is owed the value in D with Lab of the address; memory and registers are untouched at issue.
`uld` (R127): one load, of the lowest active lane, through the L1, whose result the team register is owed.
Where the manual leaves a point open, the clauses rest on the model's readings of logs 36 and 61. -/
def Obligations.AllLoads : Prop :=
  (∀ c sp w pol d a b regs s i l,
      let ins : Instr := .ld c sp w pol d a b
      let n := w.bytes
      let ea := eaIn s i.team l sp a b true
      let lab := eaLab s i.team l c sp a b true
      let owe : Owe := { id := s.newId, pc := (s.thread i.team l).r.pc, ic := (s.thread i.team l).run.ic, dest := destOf (decide (w = .b64)) d,
                         lab, wr := false, addr := ea % 2 ^ 52 }
      let sends := fun (r : Req) => ∃ s', Completes ins s i s' (nextPc s i) ∧ Untouched s s' i.team ∧
        (s'.core i.core).out = (s.core i.core).out ++ [r] ∧ (s'.thread i.team l).out.owes = (s.thread i.team l).out.owes ++ [owe]
      ins.wf regs = true → Solo s i l (formOf ins) →
      (∀ x, InSpace sp n ea → Hits s i.team l (vaOf s i.team l sp ea) permRead x → attrSealed x.attr = false →
        isLink (x.pa (vaOf s i.team l sp ea)) = false → ovwCheck s i.team (vaOf s i.team l sp ea) n .ovwRead = none →
        let pa := x.pa (vaOf s i.team l sp ea)
        (pol = .l1 → cacheable x pa = true → l1Live s i.core pa = none) →
        sends { id := s.newId, kind := ldKind pol x pa, line := pa / 256, mse := missing s i.core (pa / 256) [pa % 256 / 64]
                parts := [{ team := i.team, thread := l, off := pa % 256, n, sx := LdWidth.sext w, x := some x }] }) ∧
      (∀ x k, InSpace sp n ea → Hits s i.team l (vaOf s i.team l sp ea) permRead x → attrSealed x.attr = false → pol = .l1 →
        ovwCheck s i.team (vaOf s i.team l sp ea) n .ovwRead = none →
        let pa := x.pa (vaOf s i.team l sp ea)
        cacheable x pa = true → l1Live s i.core pa = some k →
        sends { id := s.newId
                kind := if (s.thread i.team l).t.helper && k.pois then .reply 0 0 false
                  else .reply (extendVal n (LdWidth.sext w) (leNat ((k.bytes.drop (pa % 64)).take n))) ((attrLabel x.attr).join k.lab) k.pois
                parts := [{ team := i.team, thread := l, off := 0, n, sx := LdWidth.sext w }] }) ∧
      (∀ off, sp = .s → ea % n = 0 → sharedPlace s i.team ea n false = some (i.team, off) → sharedBusy s i.core i.team off = false →
        sends { id := s.newId
                kind := if (s.thread i.team l).t.helper && (s.team i.team).shPois off then .reply 0 0 false
                  else .reply (extendVal n (LdWidth.sext w) (leNat (Mem.readN (s.team i.team).sh.bytes off n))) ((s.team i.team).shLab off)
                    ((s.team i.team).shPois off)
                parts := [{ team := i.team, thread := l, off := 0, n, sx := LdWidth.sext w }] }) ∧
      (∀ u off, sp = .s → ea % n = 0 → sharedPlace s i.team ea n false = some (u, off) → (u ≠ i.team ∨ sharedBusy s i.core i.team off = true) →
        sends { id := s.newId, kind := .shLoad u, parts := [{ team := i.team, thread := l, off, n, sx := LdWidth.sext w }] })) ∧
  (∀ c w k a b regs s i l ls x,
      let ins : Instr := .uld c w (.s k) a b
      let n := if w then 8 else 4
      let ea := eaIn s i.team l .g a b true
      let pa := x.pa (ea % 2 ^ 52)
      ins.wf regs = true → Issuing s i → Unfaulted s i (formOf ins) → active s i (formOf ins) = l :: ls → ea % n = 0 →
      Hits s i.team l (ea % 2 ^ 52) permRead x → attrSealed x.attr = false → isLink pa = false →
      ovwCheck s i.team (ea % 2 ^ 52) n .ovwRead = none → (cacheable x pa = true → l1Live s i.core pa = none) →
      ∃ s', Completes ins s i s' (nextPc s i) ∧ Untouched s s' i.team ∧
        (s'.core i.core).out = (s.core i.core).out ++
          [{ id := s.newId, kind := ldKind .l1 x pa, line := pa / 256, mse := missing s i.core (pa / 256) [pa % 256 / 64]
             parts := [{ team := i.team, thread := l, off := pa % 256, n, x := some x }] }] ∧
        (s'.thread i.team l).out.owes = (s.thread i.team l).out.owes ++
          [{ id := s.newId, pc := (s.thread i.team l).r.pc, ic := (s.thread i.team l).run.ic, dest := destOf w (.s k)
             lab := eaLab s i.team l c .g a b true, wr := false, addr := ea % 2 ^ 52 }])

/-- `st` (R167, R172, R179 to R183): a store that passes its checks leaves as a request with its bytes, and its lane counts it; one through a link window is
sent as a message (R366), and one on a lost connection is discarded (R367). One to the team's own shared memory is performed at once, which raises the line's
label, and not where the sector is poisoned; one to another team's, or to a line of its own that an engine or an earlier request holds, leaves as a request to
that core. A helper's store does nothing.
Where the manual leaves a point open, the clauses rest on the model's readings of log 36. -/
def Obligations.Stores : Prop :=
  ∀ c sp w pol d a b regs s i l,
    let ins : Instr := .st c sp w pol d a b
    let n := w.bytes
    let ea := eaIn s i.team l sp a b true
    let y := readOp s i.team l .int (decide (w = .b64)) d
    let lab := (eaLab s i.team l c sp a b true).join y.lab
    let part := (s.team i.team).at_.part
    let real := (s.thread i.team l).t.helper = false
    ins.wf regs = true → Solo s i l (formOf ins) →
    (∀ x, InSpace sp n ea → real → Hits s i.team l (vaOf s i.team l sp ea) permWrite x →
      attrSealed x.attr = false → attrCnt x.attr = false → loopOf s i.team = none → ¬ attrLabel x.attr < lab →
      let pa := x.pa (vaOf s i.team l sp ea)
      let r : Req := {
        id := s.newId, kind := .store, line := pa / 256, link := isLink pa
        parts := [{ team := i.team, thread := l, off := pa % 256, n, data := y.val, x := some x, strm := decide (pol = .strm) }] }
      (isLink pa = false → ∃ s', Completes ins s i s' (nextPc s i) ∧ Untouched s s' i.team ∧ (s'.core i.core).out = (s.core i.core).out ++ [r] ∧
        (s'.thread i.team l).out = { (s.thread i.team l).out with stores := (s.thread i.team l).out.stores + 1 }) ∧
      (∀ k, isLink pa = true → windowOf s part pa = some k → sendHeld s part pa n = false →
        ∃ s', Completes ins s i s' (nextPc s i) ∧ Untouched s s' i.team ∧ (s'.core i.core).out = (s.core i.core).out ++ [r] ∧
          (s'.thread i.team l).out = { (s.thread i.team l).out with links := (s.thread i.team l).out.links + 1 } ∧
          ∃ q, Tbl.find s'.links.reqs s.newId = some q ∧ q.dest = k.dest ∧ q.msgs = [(remoteAt k pa, .write n y.val)]) ∧
      (isLink pa = true → windowOf s part pa = none → ∃ s', Completes ins s i s' (nextPc s i) ∧ (s'.core i.core).out = (s.core i.core).out ∧
        (s'.thread i.team l).out = (s.thread i.team l).out ∧ s'.links = s.links)) ∧
    (∀ u off, sp = .s → ea % n = 0 → real → sharedPlace s i.team ea n false = some (u, off) →
      (u = i.team → sharedBusy s i.core u off = false → ∃ s', Completes ins s i s' (nextPc s i) ∧ { s' with m := s.m, teams := s.teams } = s ∧
        (∀ k, s'.thread i.team k = s.thread i.team k) ∧
        ((s.team u).shPois off = false → (s'.team u).sh.bytes = Mem.writeN (s.team u).sh.bytes off (leBytes n y.val.toNat) ∧
          (s'.team u).shLab off = ((s.team u).shLab off).join lab) ∧
        ((s.team u).shPois off = true → (s'.team u).sh = (s.team u).sh)) ∧
      (u ≠ i.team ∨ sharedBusy s i.core u off = true → ∃ s', Completes ins s i s' (nextPc s i) ∧ Untouched s s' i.team ∧
        (s'.core i.core).out = (s.core i.core).out ++
          [{ id := s.newId, kind := .shStore u, parts := [{ team := i.team, thread := l, off, n, data := y.val, lab }] }] ∧
        (s'.thread i.team l).out = if u = i.team then { (s.thread i.team l).out with own := (s.thread i.team l).out.own + 1 }
          else { (s.thread i.team l).out with acks := (s.thread i.team l).out.acks + 1 })) ∧
    (InSpace sp n ea ∨ (sp = .s ∧ ea % n = 0 ∧ (sharedPlace s i.team ea n false).isSome = true) → (s.thread i.team l).t.helper = true →
      ∃ s', Completes ins s i s' (nextPc s i) ∧ { s' with m := s.m } = s)

/-- `atom` and `red` (R171, R172, R184, R185): the request carries the operation and its operands, through a link window as a message (R366); `atom` owes its
lane the old value, and neither touches memory at issue. On the team's own shared memory the operation is performed at once, and the reply holds the old
value, its label and its mark; a poisoned sector is not written. On another team's, or on a line of its own that an engine or an earlier request holds, it
leaves as a request to that core. A helper's does nothing, and an `atom` of a helper is owed zero (R82).
On a lost connection a reduction is discarded, and an `atom` is owed a poison mark (R367). -/
def Obligations.Atomics : Prop :=
  (∀ c o sp d a b regs s i l,
    let ins : Instr := .atom c o sp d a b
    let n := if o.wide then 8 else 4
    let ea := eaIn s i.team l sp a b false
    let kind : Kind := match o with | .int _ _ => .int | .fadd _ => .f32 | .fmin => .f32 | .fmax => .f32
    let y := readOp s i.team l kind o.wide b
    let z := if o.isCas then readOp s i.team l .int o.wide d else {}
    let eal := eaLab s i.team l c sp a b false
    let lab := Label.joinAll [eal, y.lab, z.lab]
    let part := (s.team i.team).at_.part
    let real := (s.thread i.team l).t.helper = false
    let owe : Owe := { id := s.newId, pc := (s.thread i.team l).r.pc, ic := (s.thread i.team l).run.ic, dest := destOf o.wide d, lab := eal, wr := true
                       addr := ea % 2 ^ 52 }
    let sends := fun (r : Req) (q : State → Prop) => ∃ s', Completes ins s i s' (nextPc s i) ∧ Untouched s s' i.team ∧
      (s'.core i.core).out = (s.core i.core).out ++ [r] ∧ (s'.thread i.team l).out.owes = (s.thread i.team l).out.owes ++ [owe] ∧ q s'
    let reply := fun (x : DWord) (xl : Label) (p : Bool) =>
      ({ id := s.newId, kind := .reply x xl p, parts := [{ team := i.team, thread := l, off := 0, n }] } : Req)
    ins.wf regs = true → Solo s i l (formOf ins) →
    (∀ x, InSpace sp n ea → real → Hits s i.team l (vaOf s i.team l sp ea) permBoth x → attrSealed x.attr = false → attrCnt x.attr = false →
      ovwCheck s i.team (vaOf s i.team l sp ea) n .ovwRead = none → ¬ attrLabel x.attr < lab →
      let pa := x.pa (vaOf s i.team l sp ea)
      let r : Req := {
        id := s.newId, kind := .atomic o true, line := pa / 256, link := isLink pa
        parts := [{ team := i.team, thread := l, off := pa % 256, n, data := y.val, cmp := z.val, x := some x }] }
      (isLink pa = false → sends r (fun s' => (s'.thread i.team l).out.stores = (s.thread i.team l).out.stores + 1)) ∧
      (∀ k, isLink pa = true → windowOf s part pa = some k → sendHeld s part pa n = false →
        sends r (fun s' => (s'.thread i.team l).out.links = (s.thread i.team l).out.links + 1 ∧
          ∃ q, Tbl.find s'.links.reqs s.newId = some q ∧ q.dest = k.dest ∧ q.msgs = [(remoteAt k pa, .atomic o true y.val z.val)])) ∧
      (isLink pa = true → windowOf s part pa = none → ∃ s', Completes ins s i s' (nextPc s i) ∧ s'.links = s.links ∧
        (∃ r ∈ (s'.core i.core).out, r.kind = .reply 0 0 true ∧ ∃ o ∈ (s'.thread i.team l).out.owes, o.id = r.id ∧ o.dest = owe.dest) ∧
        (s'.thread i.team l).out.links = (s.thread i.team l).out.links)) ∧
    (∀ u off, sp = .s → ea % n = 0 → real → sharedPlace s i.team ea n false = some (u, off) →
      let old := BitVec.ofNat 64 (leNat (Mem.readN (s.team u).sh.bytes off n))
      (u = i.team → sharedBusy s i.core u off = false →
        sends (reply old ((s.team u).shLab off) ((s.team u).shPois off)) (fun s' => (s'.team u).sh.bytes =
          if (s.team u).shPois off then (s.team u).sh.bytes
          else Mem.writeN (s.team u).sh.bytes off (leBytes n (atomNew o old y.val z.val).toNat))) ∧
      (u ≠ i.team ∨ sharedBusy s i.core u off = true →
        sends { id := s.newId, kind := .shAtomic u o true
                parts := [{ team := i.team, thread := l, off, n, data := y.val, cmp := z.val, lab }] }
          (fun s' => if u = i.team then (s'.thread i.team l).out.own = (s.thread i.team l).out.own + 1
            else (s'.thread i.team l).out.acks = (s.thread i.team l).out.acks + 1))) ∧
    (InSpace sp n ea ∨ (sp = .s ∧ ea % n = 0 ∧ (sharedPlace s i.team ea n false).isSome = true) → (s.thread i.team l).t.helper = true →
      sends (reply 0 lab false) (fun s' => ∀ u, (s'.team u).sh = (s.team u).sh))) ∧
  (∀ c o sp a b regs s i l,
    let ins : Instr := .red c o sp a b
    let n := if o.wide then 8 else 4
    let ea := eaIn s i.team l sp a b false
    let kind : Kind := match o with | .int _ _ => .int | .fadd _ => .f32 | .fmin => .f32 | .fmax => .f32
    let y := readOp s i.team l kind o.wide b
    let lab := Label.joinAll [eaLab s i.team l c sp a b false, y.lab, 0]
    let part := (s.team i.team).at_.part
    let real := (s.thread i.team l).t.helper = false
    ins.wf regs = true → Solo s i l (formOf ins) →
    (∀ x, InSpace sp n ea → real → Hits s i.team l (vaOf s i.team l sp ea) permWrite x → attrSealed x.attr = false → attrCnt x.attr = false →
      ovwCheck s i.team (vaOf s i.team l sp ea) n .ovwPartial = none → ¬ attrLabel x.attr < lab →
      let pa := x.pa (vaOf s i.team l sp ea)
      let r : Req := {
        id := s.newId, kind := .atomic o false, line := pa / 256, link := isLink pa
        parts := [{ team := i.team, thread := l, off := pa % 256, n, data := y.val, x := some x }] }
      (isLink pa = false → ∃ s', Completes ins s i s' (nextPc s i) ∧ Untouched s s' i.team ∧ (s'.core i.core).out = (s.core i.core).out ++ [r] ∧
        (s'.thread i.team l).out = { (s.thread i.team l).out with stores := (s.thread i.team l).out.stores + 1 }) ∧
      (∀ k, isLink pa = true → windowOf s part pa = some k → sendHeld s part pa n = false →
        ∃ s', Completes ins s i s' (nextPc s i) ∧ Untouched s s' i.team ∧ (s'.core i.core).out = (s.core i.core).out ++ [r] ∧
          (s'.thread i.team l).out = { (s.thread i.team l).out with links := (s.thread i.team l).out.links + 1 } ∧
          ∃ q, Tbl.find s'.links.reqs s.newId = some q ∧ q.dest = k.dest ∧ q.msgs = [(remoteAt k pa, .atomic o false y.val 0)]) ∧
      (isLink pa = true → windowOf s part pa = none → ∃ s', Completes ins s i s' (nextPc s i) ∧ (s'.core i.core).out = (s.core i.core).out ∧
        (s'.thread i.team l).out = (s.thread i.team l).out ∧ s'.links = s.links)) ∧
    (∀ u off, sp = .s → ea % n = 0 → real → sharedPlace s i.team ea n false = some (u, off) →
      let old := BitVec.ofNat 64 (leNat (Mem.readN (s.team u).sh.bytes off n))
      (u = i.team → sharedBusy s i.core u off = false → ∃ s', Completes ins s i s' (nextPc s i) ∧ { s' with m := s.m, teams := s.teams } = s ∧
        (∀ k, s'.thread i.team k = s.thread i.team k) ∧
        (s'.team u).sh.bytes = if (s.team u).shPois off then (s.team u).sh.bytes
          else Mem.writeN (s.team u).sh.bytes off (leBytes n (atomNew o old y.val 0).toNat)) ∧
      (u ≠ i.team ∨ sharedBusy s i.core u off = true → ∃ s', Completes ins s i s' (nextPc s i) ∧ Untouched s s' i.team ∧
        (s'.core i.core).out = (s.core i.core).out ++
          [{ id := s.newId, kind := .shAtomic u o false, parts := [{ team := i.team, thread := l, off, n, data := y.val, lab }] }] ∧
        (s'.thread i.team l).out = if u = i.team then { (s.thread i.team l).out with own := (s.thread i.team l).out.own + 1 }
          else { (s.thread i.team l).out with acks := (s.thread i.team l).out.acks + 1 })) ∧
    (InSpace sp n ea ∨ (sp = .s ∧ ea % n = 0 ∧ (sharedPlace s i.team ea n false).isSome = true) → (s.thread i.team l).t.helper = true →
      ∃ s', Completes ins s i s' (nextPc s i) ∧ { s' with m := s.m } = s))

/-- Where an access stops before its translation (R179, R180, orders 1 to 3): a buffer space, an address that is no multiple of its width, one
beyond local or shared memory. -/
def Obligations.AccessTraps : Prop :=
  (∀ c sp w pol d a b s i l,
    let ins : Instr := .ld c sp w pol d a b
    let n := w.bytes
    let ea := eaIn s i.team l sp a b true
    let lab := eaLab s i.team l c sp a b true
    Solo s i l (formOf ins) → CanTrap s i.team l →
    ((sp = .wb ∨ sp = .ab ∨ sp = .acc) → Traps ins s i l .bufferPort (ea % 2 ^ 52) lab) ∧
    ((sp = .g ∨ sp = .l ∨ sp = .s) → ea % n ≠ 0 → Traps ins s i l .misaligned (ea % 2 ^ 52) lab) ∧
    (sp = .l → ea % n = 0 → 65536 < ea + n → Traps ins s i l .localRange (ea % 2 ^ 52) lab) ∧
    (sp = .s → ea % n = 0 → sharedPlace s i.team ea n false = none → Traps ins s i l .sharedRange (ea % 2 ^ 52) lab)) ∧
  (∀ c sp w pol d a b s i l,
    let ins : Instr := .st c sp w pol d a b
    let n := w.bytes
    let ea := eaIn s i.team l sp a b true
    let lab := eaLab s i.team l c sp a b true
    Solo s i l (formOf ins) → CanTrap s i.team l →
    ((sp = .wb ∨ sp = .ab ∨ sp = .acc) → Traps ins s i l .bufferPort (2 ^ 52 + ea % 2 ^ 52) lab) ∧
    ((sp = .g ∨ sp = .l ∨ sp = .s) → ea % n ≠ 0 → Traps ins s i l .misaligned (2 ^ 52 + ea % 2 ^ 52) lab) ∧
    (sp = .l → ea % n = 0 → 65536 < ea + n → Traps ins s i l .localRange (2 ^ 52 + ea % 2 ^ 52) lab) ∧
    (sp = .s → ea % n = 0 → sharedPlace s i.team ea n false = none → Traps ins s i l .sharedRange (2 ^ 52 + ea % 2 ^ 52) lab))

/-- `fence` and `pref` (R169, R186, R187): a fence whose conditions are met goes on, and one whose conditions are not holds its lane set; a prefetch
asks for its line, and one to the home brings the line into its home cache, which changes nothing that an agent reads.
Where the manual leaves a point open, the clauses rest on the model's readings of log 73. -/
def Obligations.FencesAndPrefetches : Prop :=
  (∀ c sc s i,
    let ins : Instr := .fence c sc
    let f := formOf ins
    Issuing s i → Unfaulted s i f →
    (fenceMet s i.team (active s i f) sc = true → Completes ins s i s (nextPc s i)) ∧
    (fenceMet s i.team (active s i f) sc = false →
      ∃ s', Completes ins s i s' (nextPc s i) ∧
        OnlyThreads s s' i.team i.lanes (fun _ th => { th with run := { th.run with held := some (sc, active s i f) } }))) ∧
  (∀ c sp a b regs s i l x,
    let ins : Instr := .pref c sp false a b
    let ea := eaIn s i.team l sp a b true
    let pa := x.pa (vaOf s i.team l sp ea)
    ins.wf regs = true → Solo s i l (formOf ins) → InSpace sp 1 ea → (s.thread i.team l).t.helper = false →
    Hits s i.team l (vaOf s i.team l sp ea) permRead x → attrSealed x.attr = false → cacheable x pa = true →
    ovwCheck s i.team (vaOf s i.team l sp ea) 1 .ovwRead = none → owned s (.mem (pa / 256)) = false →
    (∃ j < 4, l1Live s i.core (pa / 256 * 256 + 64 * j) = none) →
    ∃ s', Completes ins s i s' (nextPc s i) ∧ Untouched s s' i.team ∧
      (s'.core i.core).out = (s.core i.core).out ++
        [{ id := s.newId, kind := .pref (attrLease x.attr), line := pa / 256, parts := [], x := some x
           mse := missing s i.core (pa / 256) (List.range 4) }]) ∧
  (∀ c sp a b regs s i l x,
    let ins : Instr := .pref c sp true a b
    let ea := eaIn s i.team l sp a b true
    ins.wf regs = true → Solo s i l (formOf ins) → InSpace sp 1 ea → (s.thread i.team l).t.helper = false →
    let pa := x.pa (vaOf s i.team l sp ea)
    Hits s i.team l (vaOf s i.team l sp ea) permRead x →
    ∃ s', Completes ins s i s' (nextPc s i) ∧ s'.mem = s.mem ∧ s'.teams = s.teams ∧ s'.cores = s.cores ∧
      (attrSealed x.attr = false → attrCnt x.attr = false → ovwCheck s i.team (vaOf s i.team l sp ea) 1 .ovwRead = none →
        owned s (.mem (pa / 256)) = false → isLink pa = false → noSuch pa = false → (s.line (pa / 256)).pois = 0 → attrCclass x.attr ≠ 2 →
        (s'.line (pa / 256)).held = true))

-- reservations and the quadrant

/-- `resv` and `resfree` (R157, R188, R189): the lowest lane's record goes into the slot with the largest of the slot's, the operands' and the units'
labels, which the units then carry; a record that breaks R157 is RESERVATION; a freed slot is invalid.
Where the manual leaves a point open, the clauses rest on the model's readings of log 11. -/
def Obligations.Reservations : Prop :=
  (∀ c buf fmt lab slot d a b regs s i l ls,
    let ins : Instr := .resv c buf fmt lab slot d a b
    let x := readOp s i.team l .int true a
    let y := readOp s i.team l .int false b
    let z := readOp s i.team l .int false d
    let r : Resv := { valid := true, lab := 0, buf, fmt, soff := y.val.toNat % 2 ^ 24, blk := z.val.toNat % 2 ^ 16, len := x.val.toNat / 2 ^ 32
                      base := x.val.toNat % 2 ^ 32 }
    let m := (s.team i.team).marks buf
    let top := Label.joinAll (lab :: labOf s i.team l c [x.lab, y.lab, z.lab] :: (unitsOf buf r.base r.len).map (fun u => Tbl.getD m u 0))
    ins.wf regs = true → Issuing s i → Unfaulted s i (formOf ins) → active s i (formOf ins) = l :: ls → resvWhy (s.team i.team) r = 0 →
    ∃ s', Completes ins s i s' (nextPc s i) ∧ { s' with teams := s.teams } = s ∧ (∀ k, s'.thread i.team k = s.thread i.team k) ∧
      (∀ n, (s'.team i.team).resvAt n = if n = slot.toNat then { r with lab := top } else (s.team i.team).resvAt n) ∧
      (∀ u ∈ unitsOf buf r.base r.len, Tbl.getD ((s'.team i.team).marks buf) u 0 = top)) ∧
  (∀ c buf fmt lab slot d a b s i l,
    let ins : Instr := .resv c buf fmt lab slot d a b
    let x := readOp s i.team l .int true a
    let y := readOp s i.team l .int false b
    let z := readOp s i.team l .int false d
    let r : Resv := { valid := true, lab := 0, buf, fmt, soff := y.val.toNat % 2 ^ 24, blk := z.val.toNat % 2 ^ 16, len := x.val.toNat / 2 ^ 32
                      base := x.val.toNat % 2 ^ 32 }
    Solo s i l (formOf ins) → CanTrap s i.team l → resvWhy (s.team i.team) r ≠ 0 →
    Traps ins s i l .reservation (resvWhy (s.team i.team) r * 16 + slot.toNat) (labOf s i.team l c [x.lab, y.lab, z.lab])) ∧
  (∀ c all slot regs s i,
    let ins : Instr := .resfree c all slot
    ins.wf regs = true → Issuing s i → Unfaulted s i (formOf ins) → active s i (formOf ins) ≠ [] →
    ∃ s', Completes ins s i s' (nextPc s i) ∧ { s' with teams := s.teams } = s ∧ (∀ k, s'.thread i.team k = s.thread i.team k) ∧
      ∀ n, (s'.team i.team).resvAt n =
        if n = slot.toNat ∨ (all ∧ n < 16) then { (s.team i.team).resvAt n with valid := false } else (s.team i.team).resvAt n)

/-- `mld`, `mswap` and `mzero` (R193, R198, R199, R205): what passes the checks of its order joins the quadrant's instructions in flight, claims the
quadrant for its team, and changes the shapes of the issue record; every lane of the set is owed the completion of a load or a clear.
`mstream`, with no gate, and `mread` (R200, R201, R204): a stream joins the instructions in flight with what its block names, and its handle is
pending; a read of a page that nothing holds takes its rows at once and pushes them as the queue has room.
Where the manual leaves a point open, the clauses rest on the model's readings of logs 24, 55 and 69. -/
def Obligations.MatrixInstructions : Prop :=
  (∀ c slot a b regs s i l,
    let ins : Instr := .mld c slot a b
    let x := readOp s i.team l .int false a
    let y := readOp s i.team l .int false b
    let r := resvRead s i.team l slot.toNat
    let kb0 := y.val.toNat % 256
    let kn := y.val.toNat / 256 % 256
    let nn := y.val.toNat / 65536 % 256
    let lab := r.lab.join (labOf s i.team l c [x.lab, y.lab])
    ins.wf regs = true → Issuing s i → Unfaulted s i (formOf ins) → leads s i (formOf ins) (active s i (formOf ins)) = some l →
    mldFault (irecOf s i.core) i.team x.val.toNat y.val.toNat slot.toNat r = none →
    ∃ s', Completes ins s i s' (nextPc s i) ∧ OwedToAll s s' i s.newId (labOf s i.team l c [x.lab, y.lab]) ∧
      flyOf s' i.core = flyOf s i.core ++
        [{ id := s.newId, team := i.team, ins := .mld r x.val.toNat kb0 kn nn lab (stampNow s i.core) i.lanes [] }] ∧
      irecOf s' i.core = { irecOf s i.core with owner := some i.team, shadow := some { k := 32 * kn, n := 32 * nn, fmt := r.fmt, lab, kb0 } }) ∧
  (∀ c s i l tile,
    let ins : Instr := .mswap c
    Issuing s i → Unfaulted s i (formOf ins) → leads s i (formOf ins) (active s i (formOf ins)) = some l →
    ownWhy (irecOf s i.core) i.team = none → (irecOf s i.core).shadow = some tile →
    ∃ s', Completes ins s i s' (nextPc s i) ∧ flyOf s' i.core = flyOf s i.core ++ [{ id := s.newId, team := i.team, ins := .mswap }] ∧
      irecOf s' i.core = { irecOf s i.core with owner := some i.team, active := some tile, shadow := none }) ∧
  (∀ c slot a b regs s i l,
    let ins : Instr := .mzero c slot a b
    let x := readOp s i.team l .int false a
    let y := readOp s i.team l .int false b
    let r := resvRead s i.team l slot.toNat
    let lab := labOf s i.team l c [x.lab, y.lab]
    let ps := (List.range y.val.toNat).map (fun j => slotPage (s.team i.team) r (x.val.toNat + j))
    ins.wf regs = true → Issuing s i → Unfaulted s i (formOf ins) → leads s i (formOf ins) (active s i (formOf ins)) = some l →
    ownWhy (irecOf s i.core) i.team = none → 0 < y.val.toNat → y.val.toNat ≤ 768 → r.valid = true → r.buf = .acc →
    x.val.toNat + y.val.toNat ≤ r.len → accCheck s i.team l ps = .ok →
    ∃ s', Completes ins s i s' (nextPc s i) ∧ OwedToAll s s' i s.newId lab ∧
      flyOf s' i.core = flyOf s i.core ++ [{ id := s.newId, team := i.team, ins := .mzero ps lab (stampNow s i.core) i.lanes }] ∧
      (irecOf s' i.core).owner = some i.team) ∧
  (∀ c d a b regs s i l e blk blab,
    let ins : Instr := .mstream c (.h d) a b
    let f := formOf ins
    let x := readOp s i.team l .int false a
    let v := readOp s i.team l .int false b
    let lab := labOf s i.team l c [x.lab, v.lab, blab]
    let cr := resvRead s i.team l (fieldOf blk 315 312)
    let ar := resvRead s i.team l (fieldOf blk 307 304)
    let st : Stream := {
      entry := e, kb0 := fieldOf blk 359 352, p0 := fieldOf blk 351 320, accN := fieldOf blk 315 312, acc := cr
      src := if fieldOf blk 308 308 = 1 then none else some ar, qn := fieldOf blk 307 304, m := fieldOf blk 303 288, row0 := fieldOf blk 287 256
      v := v.val.toNat, n := match (irecOf s i.core).active with | some k => k.n | none => 0
      gate := gateOf blk, hlab := lab, stamp := stampNow s i.core }
    ins.wf regs = true → MayCommand s i f l e → streamCount s i.core < 16 → readBlock s i.team i.core l f 64 = .ok blk blab →
    streamFault (irecOf s i.core) i.team blk cr ar lab = none → accCheck s i.team l (st.pages (s.team i.team).al.pBase) = .ok →
    (gateOf blk).gate = 0 →
    ∃ s', Completes ins s i s' (nextPc s i) ∧ HasHandle s s' i l e d lab ∧
      flyOf s' i.core = flyOf s i.core ++ [{ id := s.newId, team := i.team, ins := .mstream st }] ∧ (irecOf s' i.core).owner = some i.team) ∧
  (∀ c slot q a b regs s i l,
    let ins : Instr := .mread c slot (.q q) a b
    let x := readOp s i.team l .int false a
    let y := (readOp s i.team l .int false b).val.toNat
    let r := resvRead s i.team l slot.toNat
    let page := slotPage (s.team i.team) r x.val.toNat
    ins.wf regs = true → Issuing s i → Unfaulted s i (formOf ins) → leads s i (formOf ins) (active s i (formOf ins)) = some l →
    ownWhy (irecOf s i.core) i.team = none → y < 65536 → 0 < y / 256 % 256 → y % 256 + y / 256 % 256 ≤ 32 → r.valid = true → r.buf = .acc →
    x.val.toNat < r.len → accCheck s i.team l [page] = .ok → (s.team i.team).at_.core = i.core → flyOf s i.core = [] →
    (∀ k ∈ pageLines i.core page, cmdOwners s k = []) →
    ∃ s', Completes ins s i s' (nextPc s i) ∧ (irecOf s' i.core).owner = some i.team ∧
      (s'.team i.team).queue q.toNat = ((s.team i.team).queue q.toNat).push (readRows s i.core page (y % 256) (y / 256 % 256)) s.newId ∧
      flyOf s' i.core = if ((s'.team i.team).queue q.toNat).waits s.newId
        then [{ id := s.newId, team := i.team, ins := .mread page (y % 256) (y / 256 % 256) q.toNat true }] else [])

/-- `mfuse` and `mrel` (R191, R206, R208): a fusion of idle quadrants of one cluster makes a leader and lends it the others; a release frees the issue
records of its group at once and joins the instructions in flight there. -/
def Obligations.QuadrantGroups : Prop :=
  (∀ c sh s i l ms,
    let ins : Instr := .mfuse c sh
    let hosts := (clusterTeams s i.team).filterMap (fun u => if (s.team u).ended then none else some (s.team u).at_.core)
    Issuing s i → Unfaulted s i (formOf ins) → leads s i (formOf ins) (active s i (formOf ins)) = some l →
    ownWhy (irecOf s i.core) i.team = none → membersOf sh i.core = some ms → idleQuad s i.core false = true →
    (∀ m ∈ ms, idleQuad s m true = true ∧ (s.core m).owner = some (s.team i.team).at_.part ∧ m ∈ hosts) →
    ∃ s', Completes ins s i s' (nextPc s i) ∧ { s' with cores := s.cores } = s ∧
      (s'.core i.core).quad.role = .leader sh ∧ (s'.core i.core).quad.owner = some i.team ∧
      (∀ m ∈ ms, (s'.core m).quad.role = .lent i.core ∧ (s'.core m).quad.owner = some i.team ∧ irecOf s' m = { irecOf s m with owner := some i.team, role := .lent i.core })) ∧
  (∀ c s i l,
    let ins : Instr := .mrel c
    Issuing s i → Unfaulted s i (formOf ins) → leads s i (formOf ins) (active s i (formOf ins)) = some l →
    (irecOf s i.core).role = .alone → ((irecOf s i.core).owner = none ∨ (irecOf s i.core).owner = some i.team) →
    ∃ s', Completes ins s i s' (nextPc s i) ∧ (irecOf s' i.core).owner = none ∧
      flyOf s' i.core = flyOf s i.core ++ [{ id := s.newId, team := i.team, ins := .mrel }]) ∧
  (∀ c s i l sh,
    let ins : Instr := .mrel c
    Issuing s i → Unfaulted s i (formOf ins) → leads s i (formOf ins) (active s i (formOf ins)) = some l →
    (irecOf s i.core).role = .leader sh → (irecOf s i.core).owner = some i.team →
    ∃ s', Completes ins s i s' (nextPc s i) ∧ ∀ m ∈ groupOf (.leader sh) i.core,
      irecOf s' m = {} ∧ flyOf s' m = flyOf s m ++ [{ id := s.newId, team := i.team, ins := .mrel }])

/-- What the events of a quadrant do (R97, R198 to R209): the first instruction in flight of a kind that shares nothing with an earlier one takes effect.
A load reads its source lines, each once and whole, one that no earlier-stamped command owns at a time and in no order that a rule names (R25, R174); with the
last of them its tile is in the shadow plane, and its lane set is owed no more; a swap makes it the active one; a clear zeroes its pages, sets their label
and clears their marks, and no other page changes; a release frees each quadrant of the group; a stream's row adds to its accumulators, raises their labels
and marks what is poisoned, whether it comes from a slot or from a queue, and a row past the valid count does nothing; a stream with every row done ends,
with its DONE where it has one.
Where the manual leaves a point open, the clauses rest on the model's readings of log 24. That a stream which is cancelled after its last row ends with CODE 0x01
and no add to DONE is the model's choice (DESIGN CHOICE, log 86: R203, R229). -/
def Obligations.QuadrantEvents : Prop :=
  (∀ core s e r r0 kb0 kn nn lab stamp lanes ss,
    let base := slotBase (s.team e.team) r
    let left := (tileLines base r r0 kb0 kn nn).filter (fun l => !ss.any (fun k => decide (k.line = l)))
    let free := fun (l : Nat) => l ∈ left ∧ ownedBefore s (bufLineK core r.buf (256 * l)) stamp = false
    firstReady s core isMld = some e → e.ins = .mld r r0 kb0 kn nn lab stamp lanes ss →
    (∀ l, left = [l] → free l → ReadsOwn s core → ∃ t, exec (.mldComplete core) s = .next t ∧
      (t.core core).quad.shadow = some (readTile (ss ++ [bufSnap s core r.buf l]) base r r0 kb0 kn nn lab) ∧
      t.mem = s.mem ∧ (∀ x ∈ flyOf t core, x.id ≠ e.id) ∧ ∀ l ∈ lanes, ∀ o ∈ (t.thread e.team l).out.owes, o.id ≠ e.id) ∧
    (2 ≤ left.length → (∃ l, free l) → ∃ l t, free l ∧ exec (.mldComplete core) s = .next t ∧ t.mem = s.mem ∧ t.teams = s.teams ∧
      (t.core core).quad = { (s.core core).quad with fly := (s.core core).quad.fly.map (fun x => if x.id = e.id
        then { x with ins := .mld r r0 kb0 kn nn lab stamp lanes (ss ++ [bufSnap s core r.buf l]) } else x) }) ∧
    (left ≠ [] → (∀ l, ¬ free l) → exec (.mldComplete core) s = .next s)) ∧
  (∀ core s e, firstReady s core (fun m => decide (m = .mswap)) = some e → ReadsOwn s core →
    ∃ t, exec (.mswapTakeEffect core) s = .next t ∧ (t.core core).quad.active = (s.core core).quad.shadow ∧ (t.core core).quad.shadow = none ∧
      t.mem = s.mem ∧ ∀ x ∈ flyOf t core, x.id ≠ e.id) ∧
  (∀ core s e ps lab stamp lanes, firstReady s core isMzero = some e → e.ins = .mzero ps lab stamp lanes → ReadsOwn s core →
    (∀ k ∈ ps.flatMap (pageLines core), ∀ n ∈ cmdOwners s k, stamp ≤ n) → (∀ p ∈ ps, accownAt s core p = (s.team e.team).tag) →
    ∃ t, exec (.mzeroComplete core) s = .next t ∧ t.mem = s.mem ∧ (∀ x ∈ flyOf t core, x.id ≠ e.id) ∧
      (∀ p ∈ ps, accLabel t core p = lab ∧ (∀ o < 4096, bufRead t core .acc (p * 4096 + o) 1 = 0) ∧
        ∀ i < 64, Tbl.getD (t.core core).bufs.accPois (p * 64 + i) false = false) ∧
      (∀ p, p ∉ ps → accLabel t core p = accLabel s core p ∧
        (∀ o < 4096, bufRead t core .acc (p * 4096 + o) 1 = bufRead s core .acc (p * 4096 + o) 1) ∧
        ∀ i < 64, Tbl.getD (t.core core).bufs.accPois (p * 64 + i) false = Tbl.getD (s.core core).bufs.accPois (p * 64 + i) false) ∧
      ∀ l ∈ lanes, ∀ o ∈ (t.thread e.team l).out.owes, o.id ≠ e.id) ∧
  (∀ core s e,
    let c := match (s.core core).quad.role with | .lent ld => ld | .alone => core | .leader _ => core
    let group := groupOf (s.core c).quad.role c
    firstReady s c (fun m => decide (m = .mrel)) = some e → (∀ k ∈ group, ReadsOwn s k) →
    ∃ t, exec (.mrelTakeEffect core) s = .next t ∧ t.mem = s.mem ∧ ∀ k ∈ group,
      (t.core k).quad.role = .alone ∧ (t.core k).quad.shadow = none ∧ (t.core k).quad.active = none ∧
      ((∀ x ∈ flyOf s k, ∀ p f c q b, x.ins ≠ .mread p f c q b) → (t.core k).quad.owner = none)) ∧
  (∀ core s e x tile, RowDue s core e x tile → x.v ≤ x.row →
    exec (.mstreamRow core) s = .next (putStream s core e.id { x with row := x.row + 1 })) ∧
  (∀ core s e x tile r, RowMayGo s core e x tile → x.src = some r →
    let base := slotBase (s.team e.team) r
    let js := (List.range (tile.k / 32)).map (x.kb0 + ·)
    let pois := js.any (fun j => blockPois s core base r (x.row0 + x.row) j)
    (∀ k ∈ x.snaps, k = bufSnap s core r.buf k.line) →
    (∀ j ∈ js, ∀ k ∈ blockLines core base r (x.row0 + x.row) j, ownedBefore s k x.stamp = false) →
    ∃ t, exec (.mstreamRow core) s = .next t ∧ (t.core core).quad.owner = some e.team ∧
      Accumulated s t core e.team x tile (js.flatMap (fun j => blockVals r.fmt true (rawBlock s core base r (x.row0 + x.row) j))) r.lab pois ∧
      ∃ y, (∃ z ∈ flyOf t core, z.id = e.id ∧ isStream z.ins = some y) ∧
        y = { x with row := x.row + 1, snaps := y.snaps, pois := x.pois || pois || tile.pois.any id }) ∧
  (∀ core s e x tile, RowMayGo s core e x tile → x.src = none → (Tbl.find s.teams e.team).isSome = true →
    let q := (s.team e.team).queue x.qn
    let row := q.elems.take (tile.k / 2)
    x.popped = [] → q.claims = [] → q.excess = [] → q.ended = false → tile.k / 2 ≤ q.elems.length → (∀ y ∈ row, ¬ x.acc.lab < y.lab) →
    ∃ t, exec (.mstreamRow core) s = .next t ∧ (t.core core).quad.owner = some e.team ∧
      Accumulated s t core e.team x tile (row.flatMap (pairVals tile.fmt)) (Label.joinAll (row.map QElem.lab)) (row.any QElem.pois) ∧
      ((t.team e.team).queue x.qn).elems = q.elems.drop (tile.k / 2) ∧ ((t.team e.team).queue x.qn).claims = [] ∧
      ∃ z ∈ flyOf t core, z.id = e.id ∧
        isStream z.ins = some { x with row := x.row + 1, pois := x.pois || row.any QElem.pois || tile.pois.any id }) ∧
  (∀ core s e x, firstReady s core (fun m => (isStream m).isSome) = some e → isStream e.ins = some x → ReadsOwn s core →
    let status := min x.v x.row * 65536 + if x.pois then 2 else 0
    let ended := fun (st : Nat) (f : Option Flt) => ∃ t, exec (.mstreamComplete core) s = .next t ∧ t.mem = s.mem ∧ (∀ y ∈ flyOf t core, y.id ≠ e.id) ∧
      (t.handle core x.entry).st ≠ .pending ∧ (t.handle core x.entry).status = BitVec.ofNat 32 st ∧ (t.handle core x.entry).flt = f
    (x.flt = none → x.code = none → x.cancel = false → x.gateMet = true → x.row = x.m → x.gate.done ≠ 0 →
      ∃ t, exec (.mstreamComplete core) s = .next t ∧ t.mem = s.mem ∧ (∀ y ∈ flyOf t core, y.id ≠ e.id) ∧
        Tbl.find t.adds s.newId = some {
          part := (s.team e.team).at_.part, ctx := (s.team e.team).at_.ctx, core, addr := x.gate.done, n := x.gate.damt
          who := .stream core x.entry status, team := some e.team, stamp := some x.stamp }) ∧
    ((s.handle core x.entry).st = .pending →
      (x.flt = none → x.code = none → x.cancel = false → x.gateMet = true → x.row = x.m → x.gate.done = 0 → ended status none) ∧
      (∀ f, x.flt = some f → ended (min x.v x.row * 65536 + x.code.getD 0x80) (some f)) ∧
      (x.flt = none → x.code = none → x.cancel = true → inRow s core e.team x = false → ended (min x.v x.row * 65536 + 1) none)))


-- engines, handles and translation from a thread

/-- `copy` (R216, R221 to R224): a copy whose block passes the checks of its order, with no gate, gets a handle and a place in its engine, with
the lines that it owns, the valid count of B and its stamp.
`quant` and `rqt` (R216, R221, R225 to R227).
Where the manual leaves a point open, the clauses rest on the model's readings of logs 12, 26, 77, 79 and 92. -/
def Obligations.EngineCommands : Prop :=
  (∀ c u ns d a b regs s i l e blk blab ls,
      let ins : Instr := .copy c u ns (.h d) a b
      let f := formOf ins
      let v := readOp s i.team l .int false b
      let lab := labOf s i.team l c [v.lab, (blockAddrLab s i l f).join blab]
      let full := if ns then blk * 2 ^ 256 else blk
      let k := copyBlock full
      let x : Side := ⟨false, k.skind, k.src, k.sstride, resvRead s i.team l (k.src % 16)⟩
      let y : Side := ⟨true, k.dkind, k.dst, k.dstride, resvRead s i.team l (k.dst % 16)⟩
      let w : CopyW := { src := x.endpt s i.team, dst := y.endpt s i.team, sstride := k.sstride, dstride := k.dstride, rows := k.rows
                         rbytes := k.rbytes, svrows := k.svrows, svbytes := k.svbytes }
      let us := w.dstLines (s.team i.team)
      ins.wf regs = true → MayCommand s i f l e → queued s i.core (.copy w) < 64 →
      readBlock s i.team i.core l f (if ns then 32 else 64) = .ok blk blab →
      copyFault s i.team full ns (s.thread i.team l).t.sup x y lab = none →
      ownLines s i.team l i.core w.dst ((List.range us.length).zip us) = .ok s ls → (ns = true ∨ (gateOf full).gate = 0) →
      ∃ s', Completes ins s i s' (nextPc s i) ∧ Issued s s' i l d {
        id := s.newId, team := i.team, part := (s.team i.team).at_.part, ctx := (s.team i.team).at_.ctx, entry := e
        gate := if ns then {} else gateOf full, work := .copy w, v := v.val.toNat, hlab := lab, stamp := stampNow s i.core
        sup := (s.thread i.team l).t.sup, owned := ls, ncmds := if w.isNvme then nvmeCmds w v.val.toNat else [] }) ∧
  (∀ (turn : Bool) c u ns d a b regs s i l e blk blab ls,
      let ins : Instr := if turn then .rqt c u ns (.h d) a b else .quant c u ns (.h d) a b
      let f := formOf ins
      let v := readOp s i.team l .int false b
      let lab := labOf s i.team l c [v.lab, (blockAddrLab s i l f).join blab]
      let full := if ns then blk * 2 ^ 256 else blk
      let w := quantOf full turn (resvRead s i.team l (fieldOf full 259 256)) (resvRead s i.team l (fieldOf full 263 260))
      let us := w.dstLines (s.team i.team)
      ins.wf regs = true → MayCommand s i f l e → queued s i.core (.quant w) < 32 →
      readBlock s i.team i.core l f (if ns then 32 else 64) = .ok blk blab → quantFault full ns w lab = none →
      ((s.thread i.team l).t.sup = true ∨ accCheck s i.team l (w.pages (s.team i.team)) = .ok) →
      ownLines s i.team l i.core w.dstEnd ((List.range us.length).zip us) = .ok s ls → (ns = true ∨ (gateOf full).gate = 0) →
      ∃ s', Completes ins s i s' (nextPc s i) ∧ Issued s s' i l d {
        id := s.newId, team := i.team, part := (s.team i.team).at_.part, ctx := (s.team i.team).at_.ctx, entry := e
        gate := if ns then {} else gateOf full, work := .quant w, v := v.val.toNat, hlab := lab, stamp := stampNow s i.core
        sup := (s.thread i.team l).t.sup, owned := ls })

/-- `xinv` and `xprobe` (R260 to R263): an invalidation of a range joins its core's commands; `xinv.part` outside supervisor handling is PRIVILEGE;
a probe that a cached translation permits returns the page's size, COMP, address and attributes, and one whose walk has failed the walk's code.
Where the manual leaves a point open, the clauses rest on the model's readings of logs 11, 13 and 58. -/
def Obligations.TranslationInstructions : Prop :=
  (∀ c part d a regs s i l e blk blab,
    let ins : Instr := .xinv c part (.h d) a
    let f := formOf ins
    let lab := labOf s i.team l c [(blockAddrLab s i l f).join blab]
    let base := fieldOf blk 319 256
    let len := fieldOf blk 383 320
    ins.wf regs = true → MayCommand s i f l e → queued s i.core (.xinv part base len) < 512 →
    (part = true → (s.thread i.team l).t.sup = true) → readBlock s i.team i.core l f 64 = .ok blk blab → fieldOf blk 511 384 = 0 →
    damtFault (gateOf blk) = none → base < 2 ^ 52 → 0 < len → len ≤ 2 ^ 52 → (gateOf blk).gate = 0 →
    ∃ s', Completes ins s i s' (nextPc s i) ∧ Issued s s' i l d {
      id := s.newId, team := i.team, part := (s.team i.team).at_.part, ctx := (s.team i.team).at_.ctx, entry := e, gate := gateOf blk
      work := .xinv part base len, hlab := lab, stamp := stampNow s i.core }) ∧
  (∀ c d a s i l,
    let ins : Instr := .xinv c true d a
    Solo s i l (formOf ins) → (s.thread i.team l).t.helper = false → (s.thread i.team l).t.sup = false → CanTrap s i.team l →
    Traps ins s i l .privilege (privTval false false true 0) (labOf s i.team l c [])) ∧
  (∀ c k d a regs s i l,
    let ins : Instr := .xprobe c k d a
    let x := readOp s i.team l .int true a
    let va := x.val.toNat % 2 ^ 52
    let tm := s.team i.team
    let kind := match k with | .r => 0 | .w => 1 | .x => 2
    let need := match k with | .r => 1 | .w => 2 | .x => 4
    let answers := fun (y : Nat) => ∃ s', Completes ins s i s' (nextPc s i) ∧ Untouched s s' i.team ∧
      (s'.core i.core).out = (s.core i.core).out ++
        [{ id := s.newId, kind := .reply (BitVec.ofNat 64 y) 0 false, parts := [{ team := i.team, thread := l, off := 0, n := 8 }] }] ∧
      (s'.thread i.team l).out.owes = (s.thread i.team l).out.owes ++
        [{ oweOf s i l s.newId (destOf true d) (labOf s i.team l c [x.lab]) false 0 with counts := false }]
    ins.wf regs = true → Solo s i l (formOf ins) →
    (∀ y, (s.thread i.team l).run.xres = [] → hitOf (s.core tm.at_.core).atc tm.at_.part tm.tag va (accessKey s (.thread i.team l)) = some y →
      permsIn need (attrPerm y.attr) = true →
      answers (y.psize * 2 ^ 58 + y.attr / 4096 % 2 * 2 ^ 57 + y.pa va / 4096 % 2 ^ 36 * 4096 + y.attr % 4096)) ∧
    (∀ g why last n, (s.thread i.team l).run.xres = [⟨va / 4096, kind, .fail ⟨g, why⟩, last, n⟩] →
      answers (2 ^ 63 + (if walkCode g then why / 2 ^ 63 % 2 * 2 ^ 27 + why / 2 ^ 52 % 2048 * 2 ^ 16 else 0) + g.code)))

/-- `hcancel` (R229): nothing where the handle is not pending; a command, stream or loop that has started is marked to stop at its next restart
point, and a command that waits on its gate ends at once with CODE 0x01. -/
def Obligations.Cancellation : Prop :=
  ∀ c n s i l,
    let ins : Instr := .hcancel c (.h n)
    let w := (regRead s i.team l (0x920 + n.toNat)).val
    let core := tokCore w
    Issuing s i → Unfaulted s i (formOf ins) → leads s i (formOf ins) (active s i (formOf ins)) = some l →
    (readToken s i.team w ≠ .pending → Completes ins s i s (nextPc s i)) ∧
    (∀ m, readToken s i.team w = .pending → (s.core core).cmds.find? (fun m => decide (m.entry = tokEntry w)) = some m →
      (m.gateMet = true → Completes ins s i (modCmd s core m.id (fun m => { m with cancel := true })) (nextPc s i)) ∧
      (m.gateMet = false → ∃ s', Completes ins s i s' (nextPc s i) ∧ findCmd s' core m.id = none ∧
        (s'.handle core m.entry).status = BitVec.ofNat 32 (statusOf s m + 1) ∧ (s'.handle core m.entry).st ≠ .pending)) ∧
    (∀ k x, readToken s i.team w = .pending → (∀ m ∈ (s.core core).cmds, m.entry ≠ tokEntry w) → flyOf s core = [k] →
      isStream k.ins = some x → x.entry = tokEntry w → x.gateMet = true →
      Completes ins s i (putStream s core k.id { x with cancel := true }) (nextPc s i)) ∧
    (∀ a, readToken s i.team w = .pending → (∀ m ∈ (s.core core).cmds, m.entry ≠ tokEntry w) → flyOf s core = [] →
      (s.core core).anchor = some a → a.entry = tokEntry w → a.gateMet = true →
      Completes ins s i (modLoop s core (fun a => { a with cancel := true })) (nextPc s i))

/-- What the events of the engines do (R162, R174, R218, R223, R224, R226, R227, R229, R263, R373). A copy writes one line of its destination, in shared memory,
in a slot, in global memory, or through a window as one message; from a poisoned source it marks the line. A quantisation writes the header and the elements of
each block that touches its line, and pushes the headers of blocks that are whole. A copy to a namespace sends whole blocks, of which a row that ends within one
leaves the rest as the namespace holds it.
Where the manual leaves a point open, the clauses rest on the model's readings of logs 14, 37, 69, 79, 80, 84, 88 and 92; a line of which every byte is skipped is
passed with a write of nothing (DESIGN CHOICE, log 87), and the cipher of a namespace's blocks is the model's (PRESUMED, log 15). -/
def Obligations.EngineEvents : Prop :=
  (∀ core id s m w u srcs td off, Copying s core id m w u srcs → w.dst = .sh td off → (∀ a, some a ∈ srcs → snapPois m.snaps a 1 = false) →
    ownedBefore s (.sh td u) m.stamp = false → (∀ j < 4, (s.team td).shPois (u * 256 + 64 * j) = false) → (Tbl.find s.teams td).isSome = true →
    ∃ t, exec (.engineLineWrite core id) s = .next t ∧ t.mem = s.mem ∧ findCmd t core id = some (pastLine m srcs) ∧
      (∀ x, u * 256 ≤ x → x < u * 256 + 256 → x < (s.team td).al.shLen → Mem.read (t.team td).sh.bytes x =
        match srcs.getD (x - u * 256) none with
        | some a => snapByte m.snaps a
        | none => Mem.read (s.team td).sh.bytes x) ∧
      (∀ x, x / 256 ≠ u → Mem.read (t.team td).sh.bytes x = Mem.read (s.team td).sh.bytes x) ∧
      (t.team td).shLab (u * 256) = ((s.team td).shLab (u * 256)).join (copyLab m srcs)) ∧
  (∀ core id s m w u srcs td off, Copying s core id m w u srcs → w.dst = .sh td off → w.src.isNvme = false →
    (∃ a, some a ∈ srcs ∧ snapPois m.snaps a 1 = true) →
    ownedBefore s (.sh td u) m.stamp = false → (Tbl.find s.teams td).isSome = true →
    ∃ t, exec (.engineLineWrite core id) s = .next t ∧ t.mem = s.mem ∧ (∀ x, Mem.read (t.team td).sh.bytes x = Mem.read (s.team td).sh.bytes x) ∧
      (∀ j < 4, (t.team td).shPois (u * 256 + 64 * j) = true) ∧
      ∃ m', findCmd t core id = some m' ∧ m'.pos = m.pos + 1 ∧ m'.mark = some m.pos ∧ m'.landed = m.landed) ∧
  (∀ core id s m w u srcs n r off, Copying s core id m w u srcs → w.dst = .slot n r off → (∀ a, some a ∈ srcs → snapPois m.snaps a 1 = false) →
    ownedBefore s (bufLineK core r.buf (u * 256)) m.stamp = false → (∀ j < 4, bufPois s core r.buf (u * 256 + 64 * j) 1 = false) →
    (¬ r.lab < copyLab m srcs →
      ∃ t, exec (.engineLineWrite core id) s = .next t ∧ t.mem = s.mem ∧ findCmd t core id = some (pastLine m srcs) ∧
        CopiedInto ((s.core core).bufs.mem r.buf) ((t.core core).bufs.mem r.buf) u m srcs ∧
        (r.buf = .acc → accLabel t core (u / 16) = (accLabel s core (u / 16)).join (copyLab m srcs))) ∧
    (r.lab < copyLab m srcs →
      ∃ t m', exec (.engineLineWrite core id) s = .next t ∧ findCmd t core id = some m' ∧ m'.flt = some (slotFlt .labelFlow true n) ∧ m'.pos = m.pos ∧
        (t.core core).bufs = (s.core core).bufs)) ∧
  (∀ core id s m w u srcs va x, Copying s core id m w u srcs → w.dst = .glob va → (∀ a, some a ∈ srcs → snapPois m.snaps a 1 = false) →
    EngineHits s core m (u * 256) (copyLab m srcs) x →
    let l := x.pa (u * 256) / 256
    (isLink (x.pa (u * 256)) = false → closedBefore s (.mem l) m.stamp = false → ((s.line l).pois = 0 ∨ ∀ y ∈ srcs, y.isSome = true) →
      ∃ t m', exec (.engineLineWrite core id) s = .next t ∧ CopiedInto s.mem t.mem l m srcs ∧ findCmd t core id = some m' ∧
        { m' with tw := m.tw, owned := m.owned } = { pastLine m srcs with owned := m.owned } ∧ m'.tw = max m.tw (twOf s l (attrLease x.attr)) ∧
        (∀ e ∈ m'.owned, e.1 ≠ m.pos) ∧ (t.line l).pois = 0 ∧ ((∃ y ∈ srcs, y.isSome = true) → (t.line l).lab = attrLabel x.attr)) ∧
    (∀ win, isLink (x.pa (u * 256)) = true → windowOf s m.part (x.pa (u * 256)) = some win →
      sendHeld s m.part (x.pa (u * 256)) (srcs.filter Option.isSome).length = false →
      ∃ t m', exec (.engineLineWrite core id) s = .next t ∧ t.mem = s.mem ∧ findCmd t core id = some m' ∧ m'.pos = m.pos + 1 ∧
        m'.lacks = m.lacks ++ [s.newId] ∧ Tbl.find t.links.reqs s.newId = some {
          part := m.part, core, req := s.newId, region := regionOf (x.pa (u * 256)), port := win.port, dest := win.dest, tctx := win.tctx
          msgs := [(remoteAt win (x.pa (u * 256)), .put (srcs.map (Option.map (snapByte m.snaps))) false)]
          bytes := (srcs.filter Option.isSome).length, lab := 0 })) ∧
  (∀ core id s m w u is d, Quantising s core id m w u is → Fmt.dx w.dst.fmt = some d →
    ownedBefore s (bufLineK core w.dst.buf (u * 256)) m.stamp = false → (∀ j < 4, bufPois s core w.dst.buf (u * 256 + 64 * j) 1 = false) →
    ¬ w.dst.lab < Label.joinAll (m.hlab :: is.map (w.blockLab (s.team m.team) m.snaps m.v)) →
    let tm := s.team m.team
    let z := fun i => dxEncode d w.rnd (quantVals w tm m i)
    ∃ t, exec (.engineLineWrite core id) s = .next t ∧ t.mem = s.mem ∧
      (∃ m', findCmd t core id = some m' ∧ m'.pos = m.pos + 1 ∧ m'.mark = none ∧ m'.flt = none) ∧
      (∀ i ∈ is, ∀ h e, w.dstSpans tm i = [h, e] → ∀ a, a / 256 = u →
        (h.1 ≤ a → a < h.1 + 2 → Mem.read ((t.core core).bufs.mem w.dst.buf) a = (leBytes 2 ((z i).1 + 256 * (z i).2.1)).getD (a - h.1) 0) ∧
        (e.1 ≤ a → a < e.1 + e.2 → Mem.read ((t.core core).bufs.mem w.dst.buf) a = (leBytes e.2 (z i).2.2).getD (a - e.1) 0)) ∧
      (∀ a, (a / 256 ≠ u ∨ ∀ i ∈ is, ∀ p ∈ w.dstSpans tm i, a < p.1 ∨ p.1 + p.2 ≤ a) →
        Mem.read ((t.core core).bufs.mem w.dst.buf) a = Mem.read ((s.core core).bufs.mem w.dst.buf) a) ∧
      (∀ q, w.qout = some q → w.blocks = 1 → w.dstLines tm = [u] → m.pushed = 0 → flyOf s core = [] → (Tbl.find s.teams m.team).isSome = true →
        (t.team m.team).queue q = (tm.queue q).push
          [⟨BitVec.ofNat 32 ((z 0).1 + 256 * (z 0).2.1), m.hlab.join (w.blockLab tm m.snaps m.v 0), false⟩] m.id)) ∧
  (∀ core id s m, findCmd s core id = some m → m.gateMet = true → m.tw ≤ s.now → m.lacks = [] → (s.handle core m.entry).st = .pending →
    let ends := fun (st : Nat) (f : Option Flt) => ∃ t, exec (.engineCommandComplete core id) s = .next t ∧ t.mem = s.mem ∧
      findCmd t core id = none ∧ (t.handle core m.entry).st ≠ .pending ∧ (t.handle core m.entry).status = BitVec.ofNat 32 st ∧
      (t.handle core m.entry).flt = f
    let code := if m.mark.isSome || m.refused then 2 else 0
    ReadsOwn s core →
    (∀ f, m.flt = some f → ends (statusOf s m + 0x80) (some f)) ∧
    (m.flt = none → startCode s m = none → workDone s m = true → pushWaits s m = false → behindCopy s core m = false → m.code = none →
      m.gate.done = 0 → ends (statusOf s m + code) none) ∧
    (m.flt = none → startCode s m = none → workDone s m = true → pushWaits s m = false → behindCopy s core m = false → m.code = none →
      m.gate.done ≠ 0 →
      ∃ t, exec (.engineCommandComplete core id) s = .next t ∧ findCmd t core id = none ∧ (t.handle core m.entry) = (s.handle core m.entry) ∧
        Tbl.find t.adds s.newId = some {
          part := m.part, ctx := m.ctx, core, addr := m.gate.done, n := m.gate.damt, who := .cmd core m.entry (statusOf s m + code)
          team := some m.team, stamp := some m.stamp })) ∧
  (∀ core id s m, findCmd s core id = some m → m.cancel = true → (workDone s m = false ∨ startCode s m ≠ none) → m.flt = none →
    m.tw ≤ s.now → m.lacks = [] →
    (∀ w, m.work = .quant w → cutDone s m w = true ∧ pushWaits s m = false) → m.work.engine ≠ 2 → (s.handle core m.entry).st = .pending →
    ∃ t, exec (.commandCancelStop core id) s = .next t ∧ findCmd t core id = none ∧
      (t.handle core m.entry).st ≠ .pending ∧ (t.handle core m.entry).status = BitVec.ofNat 32 (statusOf s m + 1)) ∧
  (∀ core id n s m w c ns o, findCmd s core id = some m → m.work = .copy w → w.dst = .nvme ns o → w.src.isNvme = false →
    m.ncmds[n]? = some c →
    let a := w.src.wrap (w.src.start (s.team m.team) + c.row * w.sstride + c.off)
    let us := w.src.lines a c.len
    let bytes := (List.range c.len).map (fun j => snapByte m.snaps (w.src.wrap (a + j))) ++ oldBytes s m.part ns ((o + c.row * w.rbytes + c.off) / 512) c
    let block := (o + c.row * w.rbytes + c.off) / 512
    inProgress s core m = true → m.flt = none → m.cancel = false → m.drained = false → c.done = false → nvmeCode s m w = none → nvmeBehind s m w = false →
    ReadsOwn s core →
    (∀ u ∈ us, ∃ k ∈ m.snaps, k.line = u) → m.mark = none → (∀ j < c.len, snapPois m.snaps (w.src.wrap (a + j)) 1 = false) →
    ¬ (nsAt s m.part ns).label < Label.joinAll (m.hlab :: us.map (fun u => (snapAt m.snaps u).lab)) →
    ∃ t, exec (.nvmeCommandComplete core id n .done) s = .next t ∧ t.mem = s.mem ∧
      t.reports = s.reports ++ [.drive (nsAt s m.part ns).port (nsAt s m.part ns).nsid ((nsAt s m.part ns).start + block)
        (onBlocks (fun b x => cipher (partKey s m.part 3) b 0 x) block bytes) false] ∧
      ∃ m', findCmd t core id = some m' ∧ m'.landed = m.landed + c.len ∧ m'.ncmds = m.ncmds.set n { c with done := true }) ∧
  (∀ core id s m p base len, findCmd s core id = some m → m.work = .xinv p base len → m.gateMet = true → m.flt = none →
    (m.pos = 0 → ∃ t, exec (.xinvInvalidate core id) s = .next t ∧ t.mem = s.mem ∧
      (∀ k, (t.core k).atc = (s.core k).atc.filter (fun x => !xinvDrops m p base len x)) ∧
      (∀ k, (t.cell k).l2 = (s.cell k).l2.filter (fun x => !xinvDrops m p base len x)) ∧
      ∃ m', findCmd t core id = some m' ∧ m'.pos = 1 ∧ m'.drained = m.drained) ∧
    (m.pos = 2 → m.drained = false → (∀ e ∈ m.lreads, ∀ r ∈ (s.core e.2).out, r.id ≠ e.1) →
      (∀ n ∈ m.waits, Tbl.find s.links.reqs n = none ∧ ∀ r, Tbl.find s.links.inb n = some r → r.done ≠ none) →
      ∃ t, exec (.xinvInvalidate core id) s = .next t ∧ ∃ m', findCmd t core id = some m' ∧ m'.drained = true))

-- counters

/-- Where a counter operation comes to (R299, R301, R316): a near counter of the thread's own team or of a team of its cluster, or a counter line of
a counter page, at its physical address.
`cadd` and `cread` (R307, R309): an operation on a counter that passes its checks leaves for the counter's home, and the lane is owed its result;
memory and registers are untouched at issue. `cadd.rel` waits for the conditions of its scope, and a label above 0 is LABEL_FLOW.
Where the manual leaves a point open, the clauses rest on the model's readings of logs 73 and 75. -/
def Obligations.CounterAccesses : Prop :=
  (∀ s t l (c : DWord) wr own j, c.toNat = 2 ^ 52 + j → j < 16 → locateLane s t l c wr own = .ok s (.near t j)) ∧
  (∀ s t l (c : DWord) wr own j rank u, c.toNat = 2 ^ 52 + 256 * rank + j → j < 16 → 0 < rank → rank < 16 → rankTeam s t (rank - 1) = some u →
    locateLane s t l c wr own = .ok s (.near u j)) ∧
  (∀ s t l (c : DWord) wr own x, c.toNat < 2 ^ 52 → c.toNat % 64 = 0 → Hits s t l c.toNat (if wr then permWrite else permRead) x →
    attrCnt x.attr = true → (own = true → isLink (x.pa c.toNat) = false) → locateLane s t l c wr own = .ok s (.line (x.pa c.toNat))) ∧
  (∀ c m d a b regs s i l k,
    let ins : Instr := .cadd c m d a b
    let x := readOp s i.team l .int true a
    let n := readOp s i.team l .int true b
    let lab := labOf s i.team l c [x.lab, n.lab]
    ins.wf regs = true → Solo s i l (formOf ins) → (m = .lim ∨ n.val.toNat < 2 ^ 62) → locateLane s i.team l x.val true false = .ok s k →
    (lab = 0 → (s.thread i.team l).t.helper = false → keyLink k = false → (∀ sc, m = .rel sc → fenceMet s i.team [l] sc = true) →
      ∃ s' y, Completes ins s i s' (nextPc s i) ∧ Untouched s s' i.team ∧ FoundBy y x.val k ∧
        (s'.core i.core).out = (s.core i.core).out ++
          [{ id := s.newId, kind := .cadd k (decide (m = .lim)), line := keyLine k
             parts := [{ team := i.team, thread := l, off := keyPa k % 256, n := 8, data := n.val, cmp := x.val, lab, x := y }] }] ∧
        (s'.thread i.team l).out.owes = (s.thread i.team l).out.owes ++
          [{ oweOf s i l s.newId (destOf (decide (m ≠ .lim)) d) lab true (x.val.toNat % 2 ^ 52) with counts := decide (d ≠ .z) }]) ∧
    (lab ≠ 0 → CanTrap s i.team l → (∀ sc, m = .rel sc → fenceMet s i.team [l] sc = true) →
      Traps ins s i l .labelFlow (2 ^ 52 + x.val.toNat % 2 ^ 52) lab)) ∧
  (∀ c d a regs s i l k,
    let ins : Instr := .cread c d a
    let x := readOp s i.team l .int true a
    let lab := labOf s i.team l c [x.lab]
    ins.wf regs = true → Solo s i l (formOf ins) → locateLane s i.team l x.val false false = .ok s k → keyLink k = false →
    ∃ s' y, Completes ins s i s' (nextPc s i) ∧ Untouched s s' i.team ∧ FoundBy y x.val k ∧
      (s'.core i.core).out = (s.core i.core).out ++
        [{ id := s.newId, kind := .cread k, line := keyLine k
           parts := [{ team := i.team, thread := l, off := keyPa k % 256, n := 8, cmp := x.val, lab, x := y }] }] ∧
      (s'.thread i.team l).out.owes = (s.thread i.team l).out.owes ++
        [oweOf s i l s.newId (destOf true d) lab false (x.val.toNat % 2 ^ 52)])

/-- `cwait` (R303, R308, R314): a wait that is met gives D the counter's value at once; one that is not arms a waiter that resumes the lane, which
does not issue until then.
`carm` and `cdisarm` (R310, R311, R313): a waiter block that passes its checks, and a token, go to the counter's home, and the lowest active lane is
owed the token, or the status; a new token is not 0 and held by no waiter of its home.
Where the manual leaves a point open, the clauses rest on the model's readings of logs 21, 73 and 75. -/
def Obligations.WaitsAndArming : Prop :=
  (∀ c d a b regs s i l k,
      let ins : Instr := .cwait c d a b
      let x := readOp s i.team l .int true a
      let n := readOp s i.team l .int true b
      let lab := labOf s i.team l c [x.lab, n.lab]
      let tm := s.team i.team
      ins.wf regs = true → Solo s i l (formOf ins) → FreshOwe s i.team l → locateLane s i.team l x.val false true = .ok s k →
      quiet s i.core k = true → ctrPois s k = false →
      (0 ≤ (ctrValue s k - n.val).toInt →
        ∃ s', Completes ins s i s' (nextPc s i) ∧ Given s' i.team l true d (ctrValue s k) lab ∧
          (s'.thread i.team l).out.owes = (s.thread i.team l).out.owes ∧ (∀ e, e ∉ encsOf true d → regNow s' i.team l e = regNow s i.team l e) ∧
          s'.mem = s.mem ∧ s'.waiters = s.waiters) ∧
      ((ctrValue s k - n.val).toInt < 0 →
        ∃ s', Completes ins s i s' (nextPc s i) ∧ (s'.thread i.team l).run.waitC = some ⟨destOf true d, lab⟩ ∧
          eligible s' i.team l = false ∧ (∀ e, regNow s' i.team l e = regNow s i.team l e) ∧
          ∃ sp, s'.waiters = s.waiters ++
            [{ ctr := k, thr := n.val, seq := s.newId, act := .resume i.team [l], part := tm.at_.part, ctx := tm.at_.ctx, spilled := sp }])) ∧
  (∀ c n a regs s i l ls k blk blab,
    let ins : Instr := .carm c (.s n) a
    let f := formOf ins
    let lab := labOf s i.team l c [blab]
    let x : DWord := BitVec.ofNat 64 (fieldOf blk 63 0)
    ins.wf regs = true → Issuing s i → Unfaulted s i f → active s i f = l :: ls →
    readBlock s i.team i.core l f 64 = .ok blk blab → armBlockFault blk = none → locateLane s i.team l x false true = .ok s k →
    keyLink k = false → lab = 0 → (s.thread i.team l).t.helper = false →
    ∃ s' y, Completes ins s i s' (nextPc s i) ∧ Untouched s s' i.team ∧ s'.waiters = s.waiters ∧ FoundBy y x k ∧
      (s'.core i.core).out = (s.core i.core).out ++
        [{ id := s.newId, kind := .arm k (BitVec.ofNat 64 (fieldOf blk 127 64)) (armAct blk), line := keyLine k
           parts := [{ team := i.team, thread := l, off := keyPa k % 256, n := 8, cmp := x, lab, x := y }] }] ∧
      (s'.thread i.team l).out.owes = (s.thread i.team l).out.owes ++
        [{ oweOf s i l s.newId (.s n.toNat false) lab false (x.toNat % 2 ^ 52) with counts := false }]) ∧
  (∀ s k, s.waiters.length < 2 ^ 31 → newToken s k ≠ 0 ∧ ∀ w ∈ s.waiters, sameHome s w.ctr k = true → w.token ≠ newToken s k) ∧
  (∀ c d a b regs s i l ls k,
    let ins : Instr := .cdisarm c d a b
    let x := readOp s i.team l .int true a
    let y := readOp s i.team l .int false b
    let lab := labOf s i.team l c [x.lab, y.lab]
    ins.wf regs = true → Issuing s i → Unfaulted s i (formOf ins) → active s i (formOf ins) = l :: ls →
    locateLane s i.team l x.val false true = .ok s k → keyLink k = false →
    ∃ s' z, Completes ins s i s' (nextPc s i) ∧ Untouched s s' i.team ∧ s'.waiters = s.waiters ∧ FoundBy z x.val k ∧
      (s'.core i.core).out = (s.core i.core).out ++
        [{ id := s.newId, kind := .disarm k (y.val.setWidth 32), line := keyLine k
           parts := [{ team := i.team, thread := l, off := keyPa k % 256, n := 8, data := y.val, cmp := x.val, lab, x := z }] }] ∧
      (s'.thread i.team l).out.owes = (s.thread i.team l).out.owes ++
        [{ oweOf s i l s.newId (destOf false d) lab false (x.val.toNat % 2 ^ 52) with counts := false }])

/-- COUNTER_ADD_HOME (R304, R307, R317): an add that the limit admits changes the value and returns the old one; one that would pass the limit is
refused, and the lane notes COUNTER_LIMIT; an engine's add that lands completes its handle.
`carm` and `cdisarm` at the home (R311, R313): a waiter is armed under a new token, which the s register receives; one that the home holds under the
token given is dropped, and the s register tells whether one was. That both are performed there as requests in the thread's order, and which tokens are
new, are the model's readings (logs 73 and 21).
Where the manual leaves a point open, the clauses rest on the model's readings of logs 21, 73, 74 and 92. -/
def Obligations.CounterAddsAtTheHome : Prop :=
  (∀ core req s r k p o n, findReq s core req = some r → r.kind = .cadd k false → r.parts = [p] → r.link = false → oldest s core r = true →
    k.closed s = false → ctrPois s k = false → (s.thread p.team p.thread).out.owes = [o] → o.id = req → o.dest = .v n true → n < 255 →
    (Tbl.find s.teams p.team).isSome = true → (∀ u j, k = .near u j → (Tbl.find s.teams u).isSome = true) →
    let v := ctrValue s k
    let lim := ctrLimit s k
    ((lim = 0 ∨ (v + p.data - lim).toInt ≤ 0) → (∀ w ∈ s.waiters, w.ctr = k → meets (v + p.data) w.thr = false) →
      ∃ t, exec (.counterAddHome (.thread core req)) s = .next t ∧ ctrValue t k = v + p.data ∧ ctrLimit t k = lim ∧
        regNow t p.team p.thread n = ⟨v.setWidth 32, o.lab, false⟩ ∧
        regNow t p.team p.thread (n + 1) = ⟨(v >>> 32).setWidth 32, o.lab, false⟩ ∧
        (s.thread p.team p.thread).out.sFault = (t.thread p.team p.thread).out.sFault ∧ t.waiters = s.waiters) ∧
    (p.data ≠ 0 → lim ≠ 0 → 0 < (v + p.data - lim).toInt → (s.thread p.team p.thread).out.sFault = none →
      ∃ t, exec (.counterAddHome (.thread core req)) s = .next t ∧ ctrValue t k = v ∧ t.mem = s.mem ∧
        (t.thread p.team p.thread).out.sFault = some ⟨o.ic, o.pc, .counterLimit, limitBits p.cmp, o.lab⟩)) ∧
  (∀ n s a k core entry status, Tbl.find s.adds n = some a → a.after ≤ s.now → a.who = .cmd core entry status → a.key = some k →
    a.waits s k = false → ctrPois s k = false → (∀ u j, k = .near u j → (Tbl.find s.teams u).isSome = true) → (s.handle core entry).st = .pending →
    (ctrLimit s k = 0 ∨ (ctrValue s k + a.n - ctrLimit s k).toInt ≤ 0) →
    (∀ w ∈ s.waiters, w.ctr = k → meets (ctrValue s k + a.n) w.thr = false) → a.link = none → a.rest = [] → keyLink k = false →
    ∃ t, exec (.counterAddHome (.pending n)) s = .next t ∧ ctrValue t k = ctrValue s k + a.n ∧ Tbl.find t.adds n = none ∧
      (t.handle core entry).st ≠ .pending ∧ (t.handle core entry).status = BitVec.ofNat 32 status) ∧
  (∀ core req s r p o n, findReq s core req = some r → r.parts = [p] → oldest s core r = true → (s.thread p.team p.thread).out.owes = [o] →
    o.id = req → o.dest = .s n false → n < 256 → (Tbl.find s.teams p.team).isSome = true →
    let tm := s.team p.team
    (∀ k thr a, r.kind = .arm k thr a → k.closed s = false → ctrPois s k = false → armFull s tm.at_.part k = false → meets (ctrValue s k) thr = false →
      ∃ t, exec (.counterAddHome (.thread core req)) s = .next t ∧ regNow t p.team p.thread (0x800 + n) = ⟨newToken s k, o.lab, false⟩ ∧
        ∃ sp, t.waiters = s.waiters ++
          [{ ctr := k, thr, seq := s.newId, act := a, token := newToken s k, part := tm.at_.part, ctx := tm.at_.ctx, spilled := sp }]) ∧
    (∀ k tok, r.kind = .disarm k tok → k.closed s = false →
      let held := fun (v : Waiter) => !v.act.armedByDevice && decide (v.token = tok) && decide (v.token ≠ 0) && sameHome s v.ctr k
      (∀ w, s.waiters.find? held = some w →
        ∃ t, exec (.counterAddHome (.thread core req)) s = .next t ∧ regNow t p.team p.thread (0x800 + n) = ⟨0, o.lab, false⟩ ∧
          t.waiters = s.waiters.filter (fun v => !(decide (v.ctr = w.ctr) && decide (v.seq = w.seq)))) ∧
      (s.waiters.find? held = none →
        ∃ t, exec (.counterAddHome (.thread core req)) s = .next t ∧ regNow t p.team p.thread (0x800 + n) = ⟨1, o.lab, false⟩ ∧
          t.waiters = s.waiters ∧ t.mem = s.mem)))

-- overwriting loops

/-- `ovw`, `ovget` and `ovend` (R285, R289, R290): a loop whose descriptor passes its checks, with no gate, starts on the core's anchor with an empty
map and a pending handle; an iteration is asked for from the loop's queue; a bound iteration with every cell whole ends, and one with a
part-written cell is OVW_PARTIAL.
Where the manual leaves a point open, the clauses rest on the model's readings of logs 62, 63, 75 and 92. -/
def Obligations.LoopInstructions : Prop :=
  (∀ c d a b regs s i l e blk,
    let ins : Instr := .ovw c (.h d) a b
    let f := formOf ins
    let x := readOp s i.team l .int true a
    let n := readOp s i.team l .int false b
    let lab := labOf s i.team l c [x.lab, n.lab]
    let qn := fieldOf blk 367 364
    let tm := s.team i.team
    ins.wf regs = true → MayCommand s i f l e → (s.core i.core).anchor = none → readDesc s i.team l i.core x.val.toNat = .ok s blk →
    (tm.queue qn).elems = [] → (tm.queue qn).excess = [] → descFault blk false = none → (gateOf blk).gate = 0 →
    ∃ s', Completes ins s i s' (nextPc s i) ∧ HasHandle s s' i l e d lab ∧ (s'.team i.team).r.loopq = some qn ∧ s'.mem = s.mem ∧
      (s'.core i.core).anchor = some {
        id := s.newId, team := i.team, part := tm.at_.part, ctx := tm.at_.ctx, gate := { gateOf blk with damt := BitVec.ofNat 64 n.val.toNat }
        rbase := fieldOf blk 319 256, ncells := fieldOf blk 336 320, size := cellBytes (fieldOf blk 345 344), qn
        fp := (footBases blk).map (footOf blk), n := n.val.toNat
        bsz := if fieldOf blk 359 352 = 0 then 256 else fieldOf blk 359 352, entry := e, hlab := lab, stamp := stampNow s i.core
        left := n.val.toNat } ∧
      ∀ k < fieldOf blk 336 320, Tbl.find (s'.core i.core).cover k = none) ∧
  (∀ c d regs s i l q,
    let ins : Instr := .ovget c d
    ins.wf regs = true → Solo s i l (formOf ins) → (s.thread i.team l).bound = none → (s.team i.team).r.loopq = some q →
    (s.thread i.team l).t.helper = false → ((s.team i.team).queue q).atEnd = false → FreshOwe s i.team l →
    ∃ s', Completes ins s i s' (nextPc s i) ∧
      ((s'.team i.team).queue q).claims = ((s.team i.team).queue q).claims ++ [.thread l s.newId] ∧
      (s'.thread i.team l).out.owes = (s.thread i.team l).out.owes ++
        [{ oweOf s i l s.newId (destOf false d) 0 false q with
          bindSlot := true, endLab := pcLabel s i.team l, flab := labOf s i.team l c [] }] ∧
      ∀ e, regNow s' i.team l e = regNow s i.team l e) ∧
  (∀ c s i l a b,
    let ins : Instr := .ovend c
    Solo s i l (formOf ins) → loopOf s i.team = some a → (s.thread i.team l).bound = some b → partWritten a b = none →
    ∃ s', Completes ins s i s' (nextPc s i) ∧ (s'.thread i.team l).bound = none ∧
      (s'.core (s.team i.team).at_.core).anchor =
        some { a with batch := a.batch.map (fun e => if e.idx = b.idx then { e with ended := true } else e) } ∧
      ∀ e, regNow s' i.team l e = regNow s i.team l e) ∧
  (∀ c s i l a b k,
    let ins : Instr := .ovend c
    Solo s i l (formOf ins) → loopOf s i.team = some a → (s.thread i.team l).bound = some b → partWritten a b = some k → CanTrap s i.team l →
    Traps ins s i l .ovwPartial (accessBits true (a.rbase + k * a.size)) (labOf s i.team l c []))

/-- What the anchor's events do (R282, R287, R288, R292): a batch takes iterations last-first and pushes their indices; at its end each cell
written becomes covered; the loop's work done, N is added to DONE.
Where the manual leaves a point open, the clauses rest on the model's readings of logs 62, 64 and 92. -/
def Obligations.LoopEvents : Prop :=
  (∀ core s a f n, (s.core core).anchor = some a → a.gateMet = true → a.running = false → a.adding = false → (s.team a.team).atStop = false →
    a.flt = none → a.poisoned = false → a.cancel = false → a.left = n + 1 → a.forming = [] → a.formLab = [] → a.bsz = 1 → a.fp = [f] → f.kind ≠ 1 →
    a.outside (f.spans n 0) = none → (∃ k ∈ a.cellSet (f.spans n 0), covBit (Tbl.getD (s.core core).cover k 0) = false) →
    (∀ k ∈ a.cellSet (f.spans n 0), Tbl.getD (s.core core).coverPois (coverSector k) false = false) → (Tbl.find s.teams a.team).isSome = true →
    ∃ t, exec (.anchorBatchForm core) s = .next t ∧ t.mem = s.mem ∧
      (t.team a.team).queue a.qn = ((s.team a.team).queue a.qn).push [⟨BitVec.ofNat 32 n, a.hlab.join 0, false⟩] a.id ∧
      (t.core core).anchor = some { a with
        left := n, xres := [], batch := [{ idx := n, slot := 0, cells := a.cellSet (f.spans n 0) }], forming := [], formLab := []
        running := true }) ∧
  (∀ core s a, (s.core core).anchor = some a → a.running = true → (∀ e ∈ a.batch, e.ended = true) → (s.team a.team).atStop = false →
    a.cancel = false →
    ∃ t, exec (.anchorBatchEnd core) s = .next t ∧ t.mem = s.mem ∧ (t.core core).anchor = some { a with running := false, batch := [] } ∧
      ∀ k e, Tbl.find (s.core core).cover k = some e → Tbl.find (t.core core).cover k = some (if wrBit e then 2048 else e)) ∧
  (∀ core s a, (s.core core).anchor = some a → a.gateMet = true → a.running = false → a.adding = false → a.flt = none → a.poisoned = false →
    a.left = 0 → a.forming = [] → (∀ r ∈ (s.core core).out, ∀ p ∈ r.parts, p.ovw = false) → a.tw ≤ s.now → a.lacks = [] →
    (s.team a.team).atStop = false → a.gate.done ≠ 0 →
    ∃ t, exec (.ovwLoopComplete core) s = .next t ∧ t.mem = s.mem ∧ (t.core core).anchor = some { a with adding := true } ∧
      Tbl.find t.adds s.newId = some {
        part := a.part, ctx := a.ctx, core, addr := a.gate.done, n := a.gate.damt, who := .loop core a.entry (a.skip + 0), team := some a.team, stamp := some a.stamp })

-- walkers

/-- The arithmetic of walkers (R269, R270, R275, R276): 64-bit registers, shifts by six bits, immediates of 11 bits extended by their sign.
The branches of walkers and `jmp` (R271): the displacement counts from the next word, and a PC wraps within the routine's region. The counts at which they issue and
results can be read (R268) follow the model's reading of log 35.
Where the manual leaves a point open, the clauses rest on the model's readings of logs 35 and 83. -/
def Obligations.WalkerArithmeticAndBranches : Prop :=
  (let sx := fun (j : BitVec 11) => j.signExtend 64;
    (∀ d a b, WalkComputes (.walkerAdd d a b) [a, b] d 1 (fun k _ => k.reg a.toNat + k.reg b.toNat)) ∧
    (∀ d a b, WalkComputes (.walkerSub d a b) [a, b] d 1 (fun k _ => k.reg a.toNat - k.reg b.toNat)) ∧
    (∀ d a b, WalkComputes (.walkerAnd d a b) [a, b] d 1 (fun k _ => k.reg a.toNat &&& k.reg b.toNat)) ∧
    (∀ d a b, WalkComputes (.walkerOr d a b) [a, b] d 1 (fun k _ => k.reg a.toNat ||| k.reg b.toNat)) ∧
    (∀ d a b, WalkComputes (.walkerXor d a b) [a, b] d 1 (fun k _ => k.reg a.toNat ^^^ k.reg b.toNat)) ∧
    (∀ d a b, WalkComputes (.walkerSll d a b) [a, b] d 1 (fun k _ => k.reg a.toNat <<< ((k.reg b.toNat).toNat % 64))) ∧
    (∀ d a b, WalkComputes (.walkerSrl d a b) [a, b] d 1 (fun k _ => k.reg a.toNat >>> ((k.reg b.toNat).toNat % 64))) ∧
    (∀ d a b, WalkComputes (.walkerSra d a b) [a, b] d 1 (fun k _ => (k.reg a.toNat).sshiftRight ((k.reg b.toNat).toNat % 64))) ∧
    (∀ d a b, WalkComputes (.walkerMul d a b) [a, b] d 3 (fun k _ => k.reg a.toNat * k.reg b.toNat)) ∧
    (∀ d a j, WalkComputes (.walkerAddi d a j) [a] d 1 (fun k _ => k.reg a.toNat + sx j)) ∧
    (∀ d a j, WalkComputes (.walkerAndi d a j) [a] d 1 (fun k _ => k.reg a.toNat &&& sx j)) ∧
    (∀ d a j, WalkComputes (.walkerOri d a j) [a] d 1 (fun k _ => k.reg a.toNat ||| sx j)) ∧
    (∀ d a j, WalkComputes (.walkerXori d a j) [a] d 1 (fun k _ => k.reg a.toNat ^^^ sx j)) ∧
    (∀ d a n, WalkComputes (.walkerSlli d a n) [a] d 1 (fun k _ => k.reg a.toNat <<< n.toNat)) ∧
    (∀ d a n, WalkComputes (.walkerSrli d a n) [a] d 1 (fun k _ => k.reg a.toNat >>> n.toNat)) ∧
    (∀ d a n, WalkComputes (.walkerSrai d a n) [a] d 1 (fun k _ => (k.reg a.toNat).sshiftRight n.toNat)) ∧
    (∀ d a u, WalkComputes (.walkerCat d a u) [a] d 1 (fun k _ => k.reg a.toNat * 2048 + u.setWidth 64)) ∧
    (∀ d a b, WalkComputes (.walkerHash d a b) [a, b] d 4 (fun k _ =>
      let x0 := k.reg a.toNat ^^^ k.reg b.toNat
      let x1 := (x0 ^^^ x0 >>> 31) * 0x9E3779B97F4A7C15 ^^^ k.reg b.toNat
      let x2 := (x1 ^^^ x1 >>> 29) * 0xC2B2AE3D27D4EB4F
      x2 ^^^ x2 >>> 32)) ∧
    (∀ d, WalkComputes (.walkerTick d) [] d 1 (fun _ t => BitVec.ofNat 64 (t % 2 ^ 32)))) ∧
  (let go := fun (j : BitVec 11) (k : WSet) => pcMod (k.pc + 1 + j.toInt);
    (∀ a b j, WalkJumps (.walkerBeq a b j) [a, b] (fun k => k.reg a.toNat = k.reg b.toNat) (go j)) ∧
    (∀ a b j, WalkJumps (.walkerBne a b j) [a, b] (fun k => k.reg a.toNat ≠ k.reg b.toNat) (go j)) ∧
    (∀ a b j, WalkJumps (.walkerBlt a b j) [a, b] (fun k => (k.reg a.toNat).toInt < (k.reg b.toNat).toInt) (go j)) ∧
    (∀ a b j, WalkJumps (.walkerBge a b j) [a, b] (fun k => (k.reg b.toNat).toInt ≤ (k.reg a.toNat).toInt) (go j)) ∧
    (∀ a b j, WalkJumps (.walkerBltu a b j) [a, b] (fun k => (k.reg a.toNat).toNat < (k.reg b.toNat).toNat) (go j)) ∧
    (∀ a b j, WalkJumps (.walkerBgeu a b j) [a, b] (fun k => (k.reg b.toNat).toNat ≤ (k.reg a.toNat).toNat) (go j)) ∧
    (∀ a j, WalkJumps (.walkerJmp a j) [a] (fun _ => True) (fun k => pcMod ((k.reg a.toNat).toNat + j.toInt))))

/-- The loads of walkers, the ends of walks and the time bound (R252, R255 to R258, R272, R273, R277, R278).
Where the manual leaves a point open, the clauses rest on the model's readings of logs 22, 35, 58, 59 and 92. -/
def Obligations.WalkerLoadsAndEnds : Prop :=
  (∀ (w : Bool) d a j s c q p,
    let ins : Instr := if w then .walkerLdpW d a j else .walkerLdpD d a j
    let n := if w then 4 else 8
    let ea := (p.set.reg a.toNat + j.signExtend 64).toNat
    let pa := ea - ea % n
    let t := issueAt p [d, a] true
    Walks s c q p [d, a] true → Below s p t → t ≤ walkerNow s p →
    (loadAllowed s p.walk.part pa n = false → exec ins s = .next (endWalk s c q t p (.fail ⟨.walkAllowance, walkTval p.n.isSome 10⟩))) ∧
    (loadAllowed s p.walk.part pa n = true → wdcLive s c pa = none →
      exec ins s = .next (putProc s c q { p.putSet { p.set with
        pc := (p.set.pc + 1) % 1024, load := some { d := d.toNat, virt := false, addr := pa, n, lease := 1, iss := t } } with cycles := t + 1 })) ∧
    (∀ k, loadAllowed s p.walk.part pa n = true → wdcLive s c pa = some k → k.pois ≠ 0 →
      exec ins s = .next (putProc s c q { p.putSet { p.set with
        pc := (p.set.pc + 1) % 1024
        load := some { d := d.toNat, virt := false, addr := pa, n, lease := 1, iss := t, pois := true } } with cycles := t + 1 })) ∧
    (∀ k, loadAllowed s p.walk.part pa n = true → wdcLive s c pa = some k → k.pois = 0 →
      ∃ p', exec ins s = .next (putProc s c q p') ∧ p'.cycles = t + 1 ∧ p'.set.pc = (p.set.pc + 1) % 1024 ∧ p'.set.load = none ∧
        ∀ r, p'.set.reg r =
          if r = d.toNat ∧ r ≠ 0 then BitVec.ofNat 64 (leNat ((k.bytes.drop (pa % 256)).take n)) else p.set.reg r)) ∧
  (∀ (w : Bool) d a j s c q p,
    let ins : Instr := if w then .walkerLdvW d a j else .walkerLdvD d a j
    let n := if w then 4 else 8
    let va := (p.set.reg a.toNat + j.signExtend 64).toNat % 2 ^ 52
    let t := issueAt p [d, a] true
    let found := hitOf (s.cell c).l2 p.walk.part p.walk.tag va [s.m.steps, c, q]
    Walks s c q p [d, a] true → Below s p t → t ≤ walkerNow s p →
    (found = none → p.n = none →
      exec ins s = .next (putProc s c q { p with
        cycles := t + 1
        o := { p.o with pc := (p.o.pc + 1) % 1024, load := some { d := d.toNat, virt := true, addr := va, n, iss := t } }
        n := some (entrySet va 8 (p.o.reg 3) (p.o.reg 4)) })) ∧
    (found = none → p.n ≠ none →
      exec ins s = .next (endWalk s c q t p (.fail ⟨.walkDepth, walkTval true 0⟩))) ∧
    (∀ x, found = some x → permsIn permRead (attrPerm x.attr) = true → attrSealed x.attr = false →
      attrCnt x.attr = false → loadAllowed s p.walk.part (x.pa va - x.pa va % n) n = true → attrLease x.attr = 0 →
      exec ins s = .next (putProc s c q { p.putSet { p.set with
        pc := (p.set.pc + 1) % 1024
        load := some { d := d.toNat, virt := false, addr := x.pa va - x.pa va % n, n, lease := 0, cclass := attrCclass x.attr, iss := t } } with
        cycles := t + 1 }))) ∧
  (∀ d a s c q p,
    let frame := (p.set.reg d.toNat).toNat
    let attr := (p.set.reg a.toNat).toNat
    let t := issueAt p [d, a] false
    Walks s c q p [d, a] false → Below s p t → t ≤ walkerNow s p →
    (walkWhy s p.walk.part frame attr ≠ 0 →
      exec (.walkerDone d a) s = .next (endWalk s c q t p (.fail ⟨.walkAllowance, walkTval p.n.isSome (walkWhy s p.walk.part frame attr)⟩))) ∧
    (walkWhy s p.walk.part frame attr = 0 → p.n = none →
      exec (.walkerDone d a) s = .next (endWalk s c q t p (.ok {
        part := p.walk.part, tag := p.walk.tag, vbase := p.walk.va - p.walk.va % 2 ^ attrPsize attr, psize := attrPsize attr, frame, attr })))) ∧
  (∀ code s c q p, Walks s c q p [] false → Below s p (issueAt p [] false) → issueAt p [] false ≤ walkerNow s p →
    exec (.walkerFault code) s = .next (endWalk s c q (issueAt p [] false) p (.fail ⟨.walkFault, walkTval p.n.isSome code.toNat⟩))) ∧
  (∀ code s c q p, Walks s c q p [] false → walkLimit s p ≤ issueAt p [] false → walkLimit s p ≤ walkerNow s p →
    (∀ l, p.set.load = some l → l.pois = true → walkLimit s p ≤ l.iss + 4) →
    exec (.walkerFault code) s = .next (endWalk s c q (walkLimit s p) p (.fail ⟨.walkTime, walkTval p.n.isSome 0⟩))) ∧
  (∀ code s c q p l, Walks s c q p [] false → p.set.load = some l → l.pois = true → l.iss + 4 < walkLimit s p → l.iss + 4 ≤ issueAt p [] false →
    l.iss + 4 ≤ walkerNow s p →
    exec (.walkerFault code) s = .next (endWalk s c q (l.iss + 4) p (.fail ⟨.memPoison, if p.walk.kind % 2 = 1 then 2 ^ 52 else 0⟩))) ∧
  (∀ s c q p f t l own last, p.walk.rqrs = [⟨.thread t l, own, last⟩] → (Tbl.find s.teams t).isSome = true →
    let s' := endWalk s c q (walkLimit s p) p (.fail f)
    Tbl.find (s'.cell c).procs q = none ∧ s'.mem = s.mem ∧ (s'.thread t l).run.xres =
      (s.thread t l).run.xres ++ [⟨p.walk.va / 4096, p.walk.kind, .fail { f with tval := f.tval + own % 2 ^ 52 }, last, p.walk.id⟩])

/-- What the events of walks do (R246, R249, R250, R256, R259, R267, R272).
Where the manual leaves a point open, the clauses rest on the model's readings of logs 8, 35, 58 and 92. -/
def Obligations.WalkEvents : Prop :=
  (∀ cell s c w ws, (∀ q < 8, Tbl.find (s.cell cell).procs q = none) → procUp s cell 0 = true → (s.cell cell).cur = some c →
    Tbl.getD (s.cell cell).queues c [] = w :: ws → 0 < Tbl.getD (s.cell cell).deficit c 0 → (s.cell cell).started ≠ some (walkerCycle s) →
    (∀ n, Tbl.find (s.cell cell).freed 0 = some n → n < walkerCycle s) →
    ∃ t, exec (.walkStart cell) s = .next t ∧ t.mem = s.mem ∧ Tbl.getD (t.cell cell).queues c [] = ws ∧
      ∃ p, Tbl.find (t.cell cell).procs 0 = some p ∧ p.walk = w ∧ p.n = none ∧ p.o.pc = 0 ∧ p.cycles = 0 ∧ p.start = walkerCycle s ∧
        p.o.reg 0 = 0 ∧ p.o.reg 1 = BitVec.ofNat 64 (w.va % 2 ^ 52) ∧ p.o.reg 2 = BitVec.ofNat 64 w.kind ∧ p.o.reg 3 = w.word ∧
        p.o.reg 4 = (s.part c).root ∧ ∀ r, 4 < r → p.o.reg r = 0) ∧
  (∀ cell proc s p, Tbl.find (s.cell cell).procs proc = some p →
    (walkerNow s p < walkLimit s p → exec (.walkTimeExpiry cell proc) s = .next s) ∧
    (walkLimit s p ≤ walkerNow s p → (∀ l, p.set.load = some l → l.pois = true → walkLimit s p ≤ l.iss + 4) → exec (.walkTimeExpiry cell proc) s = .next (endWalk s cell proc (walkLimit s p) p (.fail ⟨.walkTime, walkTval p.n.isSome 0⟩)))) ∧
  (∀ cell proc s p l, Tbl.find (s.cell cell).procs proc = some p → p.set.load = some l → l.virt = false → l.lease = 0 → l.pois = false →
    closed s (.mem (l.addr / 256)) = false → isLink l.addr = false → noSuch l.addr = false → (s.line (l.addr / 256)).pois = 0 →
    (regionOf l.addr = 0 → (s.slice (sliceOf l.addr)).dead = false) →
    ∃ p', exec (.walkerLoadReturn cell proc) s =
        .next (putProc ((homeTake s (l.addr / 256) l.cclass false).modCell cell (fun k => { k with wdc := Tbl.del k.wdc (l.addr / 256) })) cell proc p') ∧ p'.set.load = none ∧ p'.walk = p.walk ∧
      p'.cycles = p.cycles ∧ p'.set.pc = p.set.pc ∧
      ∀ r, p'.set.reg r = if r = l.d ∧ r ≠ 0 then BitVec.ofNat 64 (leNat (Mem.readN s.mem l.addr l.n)) else p.set.reg r) ∧
  (∀ part words s, words.length ≤ 1024 → (∀ w ∈ words, (decodeWalker w).isSome = true) →
    ∃ t, exec (.routineLoad part words) s = .next t ∧ t.mem = s.mem ∧
      ∀ core < 96, (s.core core).owner = some part → ∀ n < 1024,
        routineWord t (cellOf core) (posOf core) n = if h : n < words.length then words[n] else 0xFFE0003B) ∧
  (∀ part words s, (1024 < words.length ∨ ∃ w ∈ words, decodeWalker w = none) → exec (.routineLoad part words) s = .next s)

-- threads, groups and memory

/-- PARK_END, HEAT_DRAW, FORCED_REFORM and FENCE_CONDITIONS_HOLD (R41, R44, R79 to R81, R137, R169): a lane set whose results have all arrived
begins a segment, with its team writes published; a thread that exits leaves its group; one at a reform point joins a heat at its PC; a full heat
becomes a group in the lowest free slot; a starved heat marks the group with the fewest threads; a held lane set goes on when its fence is met.
Where the manual leaves a point open, the clauses rest on the model's readings of logs 34, 65 and 92. -/
def Obligations.ThreadEvents : Prop :=
  (∀ core t l s tm p, Tbl.find s.teams t = some tm → tm.at_.core = core → tm.halted = false → (s.thread t l).run.park = some p →
    (∀ e ∈ parkedUnder tm p.id, (tm.thread e.1).out.owes = [] ∧ (tm.thread e.1).out.sFault = none ∧ (tm.thread e.1).run.pend = none ∧
      e.2 = .seg ∧ tm.forcing e.1 = false ∧ tm.grouped e.1 = true) →
    ∃ u, exec (.parkEnd core t l) s = .next u ∧ u.mem = s.mem ∧
      (∀ e ∈ parkedUnder tm p.id, u.thread t e.1 = (s.thread t e.1).newSeg (s.core core).cyc ∧ ∀ x ∈ (u.team t).unpub, e.1 ∉ x.lanes) ∧
      ∀ k, (∀ e ∈ parkedUnder tm p.id, e.1 ≠ k) → u.thread t k = s.thread t k) ∧
  (∀ core t l s tm p (k : ParkKind), Tbl.find s.teams t = some tm → tm.at_.core = core → tm.halted = false →
    (s.thread t l).run.park = some p → parkedUnder tm p.id = [(l, k)] → (tm.thread l).out.owes = [] → (tm.thread l).out.sFault = none →
    (tm.thread l).run.pend = none →
    (k = .exit → ∃ u, exec (.parkEnd core t l) s = .next u ∧ (u.thread t l).run.exited = true ∧ (u.thread t l).t.trap = false ∧
      (u.team t).grouped l = false) ∧
    (k = .reform → (tm.thread l).run.waitC = none → ∃ u, exec (.parkEnd core t l) s = .next u ∧ (u.team t).grouped l = false ∧
      ∃ h ∈ (u.team t).heats, l ∈ h.lanes ∧ h.key = (s.thread t l).r.pc)) ∧
  (∀ core t l s tm p e, Tbl.find s.teams t = some tm → (s.thread t l).run.park = some p → e ∈ parkedUnder tm p.id →
    (tm.thread e.1).out.owes ≠ [] → exec (.parkEnd core t l) s = .next s) ∧
  (∀ core t s tm h hs n, Tbl.find s.teams t = some tm → tm.at_.core = core → tm.halted = false → tm.forced = none → tm.heats = h :: hs →
    h.lanes.length = tm.positions.length → n ∈ tm.al.slots → Tbl.find tm.groups n = none →
    (∀ m ∈ tm.al.slots, Tbl.find tm.groups m = none → n ≤ m) →
    ∃ u, exec (.heatDraw core t) s = .next u ∧ Tbl.find (u.team t).groups n = some { lanes := h.lanes, formed := (s.core core).cyc } ∧
      (∀ k ∈ (u.team t).heats, k.id ≠ h.id) ∧ ∀ l, (u.thread t l).r = (s.thread t l).r) ∧
  (∀ core t s tm h, Tbl.find s.teams t = some tm → tm.at_.core = core → tm.forced = none → tm.freeSlots = [] → tm.groups ≠ [] → h ∈ tm.heats →
    (∃ c, h.since = some c ∧ c + 1024 ≤ (s.core core).cyc) →
    ∃ u e k, exec (.forcedReform core t) s = .next u ∧ e ∈ tm.groups ∧ (∀ g ∈ tm.groups, e.2.lanes.length ≤ g.2.lanes.length) ∧ k ∈ tm.heats ∧
      (∃ c, k.since = some c ∧ c + 1024 ≤ (s.core core).cyc) ∧ (u.team t).forced = some (e.1, k.id) ∧ u.mem = s.mem) ∧
  (∀ core t l s sc act, (s.thread t l).run.held = some (sc, act) → (s.team t).at_.core = core →
    (fenceMet s t act sc = true → ∃ u, exec (.fenceConditionsHold core t l) s = .next u ∧ u.mem = s.mem ∧
      ∀ k, u.thread t k = if (s.thread t k).run.held = some (sc, act) then
        { s.thread t k with run := { (s.thread t k).run with held := none } } else s.thread t k) ∧
    (fenceMet s t act sc = false → exec (.fenceConditionsHold core t l) s = .next s))

/-- MEMORY_RESPONSE, L1_FILL, LEASE_EXPIRY, STORE_PERFORM and ATOMIC_PERFORM (R164 to R168, R171, R181, R182), for a request of one lane: a load
returns its bytes, extended, with the page label joined to the line's, or the poison mark; a fill puts the sector in the L1 until its lease ends and
raises the line's horizon; a store changes its bytes alone and returns T_w; an atomic returns the old value.
Where the manual leaves a point open, the clauses rest on the model's readings of logs 36, 60 and 61. -/
def Obligations.MemoryEvents : Prop :=
  (∀ core req s r p n o, AtHome s core req r p → r.kind = .load false 0 → Awaits s p.team p.thread req n o →
    let pa := r.line * 256 + p.off
    (poisAt s pa = false → ∃ t, exec (.memoryResponse core req) s = .next t ∧ t.mem = s.mem ∧ findReq t core req = none ∧
      Received t p.team p.thread n (extendVal p.n p.sx (homeRead s pa p.n)) ((p.pageLab.join (s.line r.line).lab).join o.lab)) ∧
    (poisAt s pa = true → (s.thread p.team p.thread).t.helper = false → (s.thread p.team p.thread).out.sFault = none →
      ∃ t, exec (.memoryResponse core req) s = .next t ∧ t.mem = s.mem ∧ ReceivedPoison t p.team p.thread o) ∧
    (poisAt s pa = true → (s.thread p.team p.thread).t.helper = true →
      ∃ t, exec (.memoryResponse core req) s = .next t ∧ Received t p.team p.thread n 0 o.lab)) ∧
  (∀ core req s r p n o lease, AtHome s core req r p → r.kind = .load true lease → lease ≠ 0 → Awaits s p.team p.thread req n o →
    laterReqs s core req r.line = [] →
    let pa := r.line * 256 + p.off
    r.x = none → poisAt s pa = false → ∃ t, exec (.l1Fill core req) s = .next t ∧ t.mem = s.mem ∧
      Received t p.team p.thread n (extendVal p.n p.sx (homeRead s pa p.n)) ((p.pageLab.join (s.line r.line).lab).join o.lab) ∧
      Tbl.find (t.core core).l1 (pa / 64) = some
        { bytes := Mem.readN s.mem (pa / 64 * 64) 64, lab := (s.line r.line).lab, pois := false, expiry := s.now + leaseNs lease } ∧
      (t.line r.line).horizon = some (max (horizonOf s r.line) (s.now + leaseNs lease))) ∧
  (∀ core line s, ∃ t, exec (.leaseExpiry core line) s = .next t ∧ t.mem = s.mem ∧
    (∀ k v, k / 4 = line → Tbl.find (t.core core).l1 k = some v → s.now < v.expiry) ∧
    ∀ k v, Tbl.find (s.core core).l1 k = some v → k / 4 ≠ line ∨ s.now < v.expiry → Tbl.find (t.core core).l1 k = some v) ∧
  (∀ core req s r p, AtHome s core req r p → r.kind = .store → p.ovw = false → (Tbl.find s.teams p.team).isSome = true →
    let pa := r.line * 256 + p.off
    ∃ t, exec (.storePerform core req) s = .next t ∧ findReq t core req = none ∧
      (t.thread p.team p.thread).out.tw = max (s.thread p.team p.thread).out.tw (twOf s r.line p.lease) ∧
      (t.thread p.team p.thread).out.stores = (s.thread p.team p.thread).out.stores - 1 ∧
      (poisAt s pa = false → Wrote s t pa (leBytes p.n p.data.toNat) ∧ (t.line r.line).lab = p.pageLab) ∧
      (poisAt s pa = true → t.mem = s.mem ∧ t.lines = s.lines)) ∧
  (∀ core req s r p o n w, AtHome s core req r p → r.kind = .atomic o true → p.ovw = false → Awaits s p.team p.thread req n w →
    let pa := r.line * 256 + p.off
    let old := BitVec.ofNat 64 (homeRead s pa p.n)
    poisAt s pa = false →
    ∃ t, exec (.atomicPerform core req) s = .next t ∧ Wrote s t pa (leBytes p.n (atomNew o old p.data p.cmp).toNat) ∧
      Received t p.team p.thread n old ((p.pageLab.join (s.line r.line).lab).join w.lab) ∧
      (t.thread p.team p.thread).out.tw = max (s.thread p.team p.thread).out.tw (twOf s r.line p.lease))

/-- LINE_WRITE_BACK, LINE_READ, LINE_CORRECTION, ONCHIP_ECC_ERROR and QUEUE_ELEMENT_ARRIVAL (R160 to R163, R214, R335): a line written back has the
next version, and a record and a MAC that are its own; a line read back holds what is stored; the first flip that makes the MAC match corrects a
line, and with none it is poisoned; a double-bit error drops an L1's or an instruction cache's line, counts a word fetched ahead, and marks the data of every
other memory; an element that arrives goes to the oldest claim. The read of a sealed line rests on log 15 (the model's cipher), and the arrival of an element
that goes on to another queue on log 19 (the model's reading).
Where the manual leaves a point open, the clauses rest on the model's readings of logs 15, 19, 25 and 36. -/
def Obligations.LineAndQueueEvents : Prop :=
  (∀ line s,
    let folded := max (s.slice (sliceOf (line * 256))).horizon ((s.line line).horizon.getD 0)
    ((s.line line).dirty = false → ∃ t, exec (.lineWriteBack line) s = .next t ∧ t.mem = s.mem ∧ t.stored = s.stored ∧
      t.line line = { s.line line with horizon := none, held := false, low := false, away := true } ∧ (t.slice (sliceOf (line * 256))).horizon = folded) ∧
    ((s.line line).dirty = true → ∃ t st, exec (.lineWriteBack line) s = .next t ∧ t.mem = s.mem ∧
      t.line line = { s.line line with ver := (s.line line).ver + 1, dirty := false, horizon := none, held := false, low := false, away := true } ∧
      (t.slice (sliceOf (line * 256))).horizon = folded ∧
      Tbl.find t.stored line = some st ∧ st.mac = macOf s line st.record st.data ∧ st.record >>> 32 = ((s.line line).ver + 1).setWidth 64 ∧
      st.record.getLsbD 26 = (s.line line).sealed ∧ (st.record.ushiftRight 24).setWidth 2 = (s.line line).lab ∧
      (st.record.getLsbD 27 = true ↔ (s.line line).pois ≠ 0))) ∧
  (∀ line s st, storedOf s line = st → (s.line line).away = true →
    let held := st.data.take (64 * ((st.record >>> 2).toNat % 8))
    let ver := (st.record.ushiftRight 32).setWidth 32
    let now := Mem.readN s.mem (line * 256) 256
    let loads := fun bs => ∃ t, exec (.lineRead line) s = .next t ∧ (t.line line).away = false ∧ (t.line line).lab = (st.record.ushiftRight 24).setWidth 2 ∧
      (t.line line).ver = ver ∧ Wrote s t (line * 256) (unpackLine (st.record.toNat % 4) ((st.record >>> 8).toNat % 256) bs)
    (st.mac ≠ macOf s line st.record st.data → exec (.lineRead line) s = .next s) ∧
    (st.mac = macOf s line st.record st.data → st.record.getLsbD 26 = false → loads held) ∧
    (st.mac = macOf s line st.record st.data → st.record.getLsbD 26 = true →
      cipher (partKey s (ownerPart s line) 1) (line * 256) ver now = held → loads now)) ∧
  (∀ line s st i, storedOf s line = st → (s.line line).away = true → st.mac ≠ macOf s line st.record st.data →
    i < 128 + 8 * st.data.length →
    let good := fun j => (flipStored st j).mac = macOf s line (flipStored st j).record (flipStored st j).data
    good i → (∀ j < i, ¬ good j) →
    ∃ t, exec (.lineCorrection line) s = .next t ∧ Tbl.find t.stored line = some (flipStored st i) ∧ (t.line line).away = false) ∧
  (∀ line s st, storedOf s line = st → (s.line line).away = true → st.mac ≠ macOf s line st.record st.data →
    (∀ j < 128 + 8 * st.data.length, (flipStored st j).mac ≠ macOf s line (flipStored st j).record (flipStored st j).data) →
    ∃ t x, exec (.lineCorrection line) s = .next t ∧ (t.line line).pois = 15 ∧ (t.line line).away = false ∧ .linePoison (line * 256) ∈ t.reports ∧ t.mem = s.mem ∧
      Tbl.find t.stored line = some x ∧ x.record.getLsbD 27 = true ∧ x.mac = macOf s line x.record x.data) ∧
  (∀ line s, (s.line line).away = false → exec (.lineRead line) s = .next s ∧ exec (.lineCorrection line) s = .next s) ∧
  (∀ pl s, exec (.onchipEccError false pl) s = .next s) ∧
  (∀ core line s, ∃ t, exec (.onchipEccError true (.l1 core line)) s = .next t ∧ t.mem = s.mem ∧
    ∀ k, k / 4 = line → Tbl.find (t.core core).l1 k = none) ∧
  (∀ core t l n s, (Tbl.find s.teams t).isSome = true → ∃ u, exec (.onchipEccError true (.vreg core t l n)) s = .next u ∧
    (u.team t).vreg (u.thread t l) n = { (s.team t).vreg (s.thread t l) n with pois := true }) ∧
  (∀ core line s, ∃ t, exec (.onchipEccError true (.icache core line)) s = .next t ∧ t.mem = s.mem ∧
    ∀ k, Tbl.find (t.core core).icache k = if k = line then none else Tbl.find (s.core core).icache k) ∧
  (∀ sector s pl, pl = .home sector ∨ pl = .flitHome sector → (s.line (sector / 4)).away = false →
    ∃ t, exec (.onchipEccError true pl) s = .next t ∧ t.mem = s.mem ∧ .linePoison (sector / 4 * 256) ∈ t.reports ∧
      ∀ j < 4, bitAt (t.line (sector / 4)).pois j = (bitAt (s.line (sector / 4)).pois j || decide (j = sector % 4))) ∧
  (∀ core sector s, ∃ t, exec (.onchipEccError true (.flitL1 core sector)) s = .next t ∧ t.mem = s.mem ∧
    ∀ k v, Tbl.find (s.core core).l1 k = some v → Tbl.find (t.core core).l1 k = some (if k = sector then { v with pois := true } else v)) ∧
  (∀ core part s, ∃ t, exec (.onchipEccError true (.ahead core part)) s = .next t ∧ t.mem = s.mem ∧
    ∀ j e, Tbl.find (s.core core).ev j = some e →
      Tbl.find (t.core core).ev j = some (if e.part = part ∧ e.ev = .fetchAhead then { e with val := e.val + 1 } else e)) ∧
  (∀ core sector s, ∃ t, exec (.onchipEccError true (.cover core sector)) s = .next t ∧ t.mem = s.mem ∧ (t.core core).cover = (s.core core).cover ∧
    ∀ j, Tbl.getD (t.core core).coverPois j false = (Tbl.getD (s.core core).coverPois j false || decide (j = sector))) ∧
  (∀ cell sector s l, Tbl.find (s.cell cell).wdc (sector / 4) = some l →
    ∃ t l', exec (.onchipEccError true (.walker cell sector)) s = .next t ∧ Tbl.find (t.cell cell).wdc (sector / 4) = some l' ∧
      l'.bytes = l.bytes ∧ ∀ j < 4, bitAt l'.pois j = (bitAt l.pois j || decide (j = sector % 4))) ∧
  (∀ core sector s,
    let marked := fun (pl : EccPlace) (m : Bufs → Tbl Bool) => ∃ t, exec (.onchipEccError true pl) s = .next t ∧ t.mem = s.mem ∧
      ((t.core core).bufs.wb, (t.core core).bufs.ab, (t.core core).bufs.acc) = ((s.core core).bufs.wb, (s.core core).bufs.ab, (s.core core).bufs.acc) ∧
      ∀ j, Tbl.getD (m (t.core core).bufs) j false = (Tbl.getD (m (s.core core).bufs) j false || decide (j = sector))
    marked (.wbuf core sector) Bufs.wbPois ∧ marked (.abuf core sector) Bufs.abPois ∧ marked (.acc core sector) Bufs.accPois) ∧
  (∀ core t s, (Tbl.find s.teams t).isSome = true →
    (∀ q i, ∃ u, exec (.onchipEccError true (.queue core t q i)) s = .next u ∧
      (u.team t).queue q = { (s.team t).queue q with elems := ((s.team t).queue q).elems.modify i (fun e => { e with pois := true }) }) ∧
    (∀ i, ∃ u, exec (.onchipEccError true (.near core t i)) s = .next u ∧ (u.team t).nearAt i = { (s.team t).nearAt i with pois := true }) ∧
    (∀ n, ∃ u, exec (.onchipEccError true (.sreg core t n)) s = .next u ∧ (u.team t).sreg n = { (s.team t).sreg n with pois := true }) ∧
    (∀ sector, ∃ u, exec (.onchipEccError true (.shared core t sector)) s = .next u ∧ (u.team t).sh.bytes = (s.team t).sh.bytes ∧
      ∀ j, Tbl.getD (u.team t).sh.pois j false = (Tbl.getD (s.team t).sh.pois j false || decide (j = sector)))) ∧
  (∀ core t q l id n s cs e es o, Awaits s t l id n o → (s.team t).at_.core = core → ((s.team t).queue q).claims = .thread l id :: cs →
    ((s.team t).queue q).elems = e :: es → ((s.team t).queue q).excess = [] → e.pois = false → o.bindSlot = false →
    ∃ u, exec (.queueElementArrival core t q) s = .next u ∧ Received u t l n (e.val.setWidth 64) (e.lab.join o.lab) ∧
      ((u.team t).queue q).claims = cs ∧ ((u.team t).queue q).elems = es) ∧
  (∀ core t q r l id s cs e es o, (Tbl.find s.teams t).isSome = true → (s.thread t l).out.owes = [o] → o.id = id → o.dest = .q r → r ≠ q →
    (s.team t).at_.core = core → ((s.team t).queue q).claims = .thread l id :: cs → ((s.team t).queue q).elems = e :: es →
    ((s.team t).queue q).excess = [] → ((s.team t).queue r).excess = [] → e.pois = false → o.bindSlot = false →
    ∃ u, exec (.queueElementArrival core t q) s = .next u ∧ (u.thread t l).out.owes = [] ∧
      ((u.team t).queue q).claims = cs ∧ ((u.team t).queue q).elems = es ∧
      (u.team t).queue r = { (s.team t).queue r with
        kept := ((s.team t).queue r).kept - 1, elems := ((s.team t).queue r).elems ++ [⟨e.val, e.lab.join o.lab, false⟩], ended := false })

/-- What is stored of a line is the line (R161): each way of packing 256 bytes gives them back, in at most four sectors.
Where the manual leaves a point open, the clauses rest on the model's readings of log 70. -/
def Obligations.LinesArePackedWhole : Prop :=
  ∀ comp bs, bs.length = 256 →
    unpackLine (packLine comp bs).cmeth (packLine comp bs).cparam (packLine comp bs).data = bs ∧
    (packLine comp bs).data.length % 64 = 0 ∧ (packLine comp bs).nsec ≤ 4 ∧ (comp = false → (packLine comp bs).data = bs)

-- launches, contexts and the slice kernel

/-- LAUNCH_SUBMIT, PLACE_CLUSTERS and TEAM_END (R150, R233 to R242, R371): a host's launch of a good record goes to the end of its queue, and a bad,
a disabled and a full queue's are refused, each with its code; a grid's cluster of one team starts on the first core that admits it, with its entry
PC, label floor and constants; the last team of a grid ends it, and GDAMT goes to GDONE.
Where the manual leaves a point open, the clauses rest on the model's readings of logs 21, 30, 32, 66, 67 and 68. -/
def Obligations.LaunchesAndTeams : Prop :=
  (∀ n s b m rtag, Tbl.find s.subs n = some b → b.src = .host m rtag → b.rest = [] → subBehind s n b = false →
    let q := lqueue s b.part b.queue
    let refusedWith := fun code => ∃ t, exec (.launchSubmit n) s = .next t ∧ Tbl.find t.subs n = none ∧
      t.reports = s.reports ++ [.reply m (launchReply rtag code 0)] ∧ lqueue t b.part b.queue = q ∧ t.mem = s.mem
    let good := b.bad = false ∧ b.queue < 64 ∧ b.addr.toNat % 256 = 0
    (¬ good → refusedWith 0x12) ∧ (good → q.enabled = false → refusedWith 0x11) ∧
    (∀ r, good → q.enabled = true → readRecord s n b.addr.toNat = .done s r → recordFault s b.part r.1 = none →
      ¬ (hdrOf r.1).lfloor < b.hlab →
      (64 ≤ q.recs.length → refusedWith 0x10) ∧
      (q.recs.length < 64 → ∃ t, exec (.launchSubmit n) s = .next t ∧ Tbl.find t.subs n = none ∧
        t.reports = s.reports ++ [.reply m (launchReply rtag 0 0)] ∧ t.mem = s.mem ∧
        (lqueue t b.part b.queue).recs = q.recs ++ [{ hdr := hdrOf r.1, consts := r.2, seq := s.newId }]))) ∧
  (∀ part s g gr al lt, (s.part part).queues = [] → s.grids = [(g, gr)] → gr.part = part → ctxRuns (s.ctx part gr.ctx) = true →
    let h := gr.record.hdr
    gr.next + 1 = h.teams → h.cshapeW = 1 → h.cshapeH = 1 → h.cfallW = 0 → h.cfallH = 0 → hasUnit s part 0 = true → admits s 0 h = some al →
    freeLt s (s.ctx part gr.ctx).lts = some lt →
    ∃ t tm, exec (.placeClusters part) s = .next t ∧ Tbl.find t.teams (s.newId + 1) = some tm ∧ t.mem = s.mem ∧
      tm.at_.core = 0 ∧ tm.at_.part = part ∧ tm.at_.ctx = gr.ctx ∧ tm.at_.index = gr.next ∧ tm.al = al ∧ tm.r.tvec = pcOf h.tvec ∧
      (∀ l < h.threads, (tm.thread l).r.pc = pcOf h.entry ∧ (tm.thread l).r.pcl = h.lfloor ∧
        ∀ n, tm.vreg (tm.thread l) n = ⟨0, h.lfloor, false⟩) ∧
      (∀ n w, gr.record.consts[n]? = some w → tm.sreg n = ⟨w, h.lfloor, false⟩) ∧
      Tbl.find t.grids g = some { gr with next := h.teams, live := gr.live + 1 }) ∧
  (∀ core k s tm gr, Tbl.find s.teams k = some tm → tm.at_.core = core → tm.ended = false → tm.halted = false → tm.live = [] →
    commandsLeft s core k = false → tm.threads.all (fun e => settled s e.2) = true → clusterTeams s k = [k] → (irecOf s core).owner ≠ some k →
    Tbl.find s.grids tm.at_.grid = some gr → gr.live = 1 → gr.record.hdr.teams ≤ gr.next → gr.spoiled = false →
    ∃ t, exec (.teamEnd core k) s = .next t ∧ Tbl.find t.teams k = none ∧ Tbl.find t.grids tm.at_.grid = none ∧ t.mem = s.mem ∧
      (gr.record.hdr.gdone = 0 → t.adds = s.adds) ∧
      (gr.record.hdr.gdone ≠ 0 → Tbl.find t.adds s.newId = some {
        part := gr.part, ctx := gr.ctx, core := 96, addr := BitVec.ofNat 64 gr.record.hdr.gdone, n := BitVec.ofNat 64 gr.record.hdr.gdamt
        who := .grid })) ∧
  (∀ core k s tm, Tbl.find s.teams k = some tm → tm.live ≠ [] → exec (.teamEnd core k) s = .next s)

/-- PREEMPT_STOP_REQUEST, PREEMPT_DEADLINE_EXPIRY and the events of contexts (R328 to R334, R349): the groups of a context's teams stop; a stopped
context is saved with its VTIME and leaves its cores, and has that VTIME again when it is restored; an image with a poison mark is refused; a context gets a key of its own, or none while the
entropy source fails, and none before SVEC is set; one that is destroyed or paged out has its accumulator pages spilled and keeps none.
What a stopped context waits for before it is saved is the model's choice (log 88), and so are the order of stamps that a restore gives and what becomes of the
pages of a team that lands elsewhere (logs 87 and 90).
Where the manual leaves a point open, the clauses rest on the model's readings of logs 5, 16, 32, 48, 49, 87, 88 and 90. -/
def Obligations.ContextEvents : Prop :=
  (∀ part ctx s, (Tbl.find (s.part part).ctxs ctx).isSome = true → ctxRuns (s.ctx part ctx) = true →
    ∃ t, exec (.preemptStopRequest part ctx) s = .next t ∧ (t.ctx part ctx).stopAt = some s.now ∧ t.mem = s.mem ∧
      ∀ k tm, Tbl.find s.teams k = some tm →
        t.team k = if tm.at_.part = part ∧ tm.at_.ctx = ctx then { tm with stop := true } else tm) ∧
  (∀ part ctx s t0, (s.ctx part ctx).stopAt = some t0 → (s.ctx part ctx).yield = false →
    (s.now < t0 + deadlineNs s part → exec (.preemptDeadlineExpiry part ctx) s = .next s) ∧
    (t0 + deadlineNs s part ≤ s.now → ∃ t, exec (.preemptDeadlineExpiry part ctx) s = .next t ∧
      ∀ k tm, Tbl.find s.teams k = some tm → tm.at_.part = part → tm.at_.ctx = ctx → ∀ g ∈ tm.groups, (t.team k).stopped.contains g.1 = true)) ∧
  (∀ part ctx pa s,
    let g := (ctxTeams s part ctx).foldl (fun s e => giveBack s e.1) s
    let ts := ctxTeams g part ctx
    let us := ts.map (fun e => saveTeam g e.1)
    let full := ts.any (fun e => !e.2.halted && e.2.groups.any (fun g => !e.2.clean g.2))
    let bs := imageBytes (tagOf part ctx) ((s.ctx part ctx).vtime / 1000) s.now us full (ts.any (fun e => e.2.halted))
    (s.ctx part ctx).stopAt ≠ none → (∀ e ∈ ts, e.2.ended = true ∨ teamStill g e.1 e.2 = true) → pa % 256 = 0 → ownsRange s part pa bs.length = true →
    ∃ t im, exec (.contextSave part ctx pa) s = .next t ∧ ctxTeams t part ctx = [] ∧ (t.ctx part ctx).stopAt = none ∧
      (t.ctx part ctx).saved = some im ∧ im.pa = pa ∧ im.bytes = bs ∧ im.teams = us ∧ im.vtime = (s.ctx part ctx).vtime ∧ im.stime = s.now ∧
      Wrote s t pa bs) ∧
  (∀ part ctx (o : Landing) s im, (Tbl.find (s.part part).ctxs ctx).isSome = true → (ctxTeams s part ctx = [] ∨ (s.ctx part ctx).saved ≠ none) →
    (s.ctx part ctx).paged = false → o.pa % 256 = 0 → ownsRange s part o.pa (max o.len (s.ctx part ctx).out.length) = true →
    imageAt s part ctx o.pa o.len = some im → rangeAway s o.pa im.bytes.length = false →
    let s' := startRestore s part ctx im
    let base := ((s'.ctx part ctx).saved.bind Image.base).getD 0
    (imagePoisoned s im = true → exec (.contextRestore part ctx o) s = .next (s.report (.imageRefused part ctx))) ∧
    (imagePoisoned s im = false → im.teams = [] → ∃ t, exec (.contextRestore part ctx o) s = .next t ∧
      (t.ctx part ctx).saved = none ∧ (t.ctx part ctx).paged = false ∧ t.teams = s.teams) ∧
    (∀ clu c u, imagePoisoned s im = false → im.clusters = [clu] → o.at_ = [c] → c < 96 →
      landCluster s' part clu c im.teams (freshStamp base im.order) = some u →
      ∃ t, exec (.contextRestore part ctx o) s = .next t ∧ t.teams = u.teams ∧ t.mem = u.mem ∧ (t.ctx part ctx).saved = none ∧
        (im.base = none → (t.ctx part ctx).vtime = im.vtime))) ∧
  (∀ part ctx (o : Landing) s, (Tbl.find (s.part part).ctxs ctx).isSome = true → (ctxTeams s part ctx = [] ∨ (s.ctx part ctx).saved ≠ none) →
    (s.ctx part ctx).paged = false → o.pa % 256 = 0 → ownsRange s part o.pa (max o.len (s.ctx part ctx).out.length) = true →
    (imageAt s part ctx o.pa o.len = none ∨ ∃ im, imageAt s part ctx o.pa o.len = some im ∧ rangeAway s o.pa im.bytes.length = true) →
    exec (.contextRestore part ctx o) s = .next s) ∧
  (∀ part ctx word (y : Layout) s, (s.part part).live = true → ctx < 64 → Tbl.find (s.part part).ctxs ctx = none → y.lbase % 65536 = 0 →
    y.lbase < 2 ^ 52 → y.area % 4096 = 0 → (s.part part).svec ≠ 0 →
    (s.boot.entOk = true → ∃ t, exec (.contextCreate part ctx word y) s = .next t ∧
      t.ctx part ctx = { word, lbase := y.lbase, key := s.boot.drbg + 1, area := y.area } ∧ t.boot.drbg = s.boot.drbg + 1 ∧ t.mem = s.mem) ∧
    (s.boot.entOk = false → exec (.contextCreate part ctx word y) s = .next (s.report .keyEntropy))) ∧
  (∀ part ctx word (y : Layout) s, (s.part part).svec = 0 → exec (.contextCreate part ctx word y) s = .next s) ∧
  (∀ part ctx s,
    let tag := tagOf part ctx
    let at_ := fun (cp : Nat × Nat) => areaOf (s.ctx part ctx) cp.1 cp.2
    let spilled := fun (t : State) => (taggedPages s tag = [] → t.mem = s.mem) ∧
      (∀ cp, taggedPages s tag = [cp] → Wrote s t (at_ cp) (Mem.readN (s.core cp.1).bufs.acc (cp.2 * 4096) 4096)) ∧
      ∀ c, ∀ a ∈ (t.core c).accown, a.2 ≠ tag
    (∀ cp ∈ taggedPages s tag, ownsRange s part (at_ cp) 4096 = true ∧ inHandler s part cp = false) →
    (ctxTeams s part ctx = [] → (∀ q ∈ (s.part part).queues, q.2.enabled = true → q.2.ctx ≠ ctx) →
      ∃ t, exec (.contextDestroy part ctx) s = .next t ∧ Tbl.find (t.part part).ctxs ctx = none ∧ spilled t ∧
        ∀ c, ∀ x ∈ (t.core c).atc, ¬ (x.part = part ∧ x.tag = tag)) ∧
    (∀ ns block im, (s.ctx part ctx).saved = some im → (s.ctx part ctx).paged = false → rangeAway s im.pa im.bytes.length = false →
      block + (im.bytes.length + 16 + 511) / 512 ≤ (nsAt s part ns).len →
      ∃ t bs, exec (.contextPageOut part ⟨ctx, ns, block⟩) s = .next t ∧ (t.ctx part ctx).paged = true ∧ (t.ctx part ctx).saved = some im ∧
        spilled t ∧ t.reports = s.reports ++ [.drive (nsAt s part ns).port (nsAt s part ns).nsid ((nsAt s part ns).start + block) bs false] ∧ bs.length = (im.bytes.length + 16 + 511) / 512 * 512))

/-- The calls of `svc` as the slice kernel serves them (R140, R319, R343 to R345, R350 to R352, R356), with CERT_SLOT_WRITE and TRACE_SAMPLE.
That a sample is added to HEAD in the host's context is the model's reading (log 27), and so is the number that stands for its core (log 68).
Where the manual leaves a point open, the clauses rest on the model's readings of logs 20, 21, 27, 50, 51, 52, 68 and 92. -/
def Obligations.SliceKernelCalls : Prop :=
  (∀ num s part c, nextCall s part num = some c → c.lab ≠ 0 → num < 6 →
    ∃ t, exec (match num with
        | 0 => .svcInfo part | 1 => .svcYield part | 2 => .svcNsOpen part | 3 => .svcNsClose part | 4 => .svcQuote part | _ => .svcTrace part) s =
      .next t ∧ Answered t part c.id 1 4 ∧ t.mem = s.mem) ∧
  (∀ s part c, Calls s part 0 c →
    let item := c.a.toNat % 256
    let ans := fun v => ∃ t, exec (.svcInfo part) s = .next t ∧ Answered t part c.id 0 v ∧ t.mem = s.mem
    (item = 0 → ans part) ∧ (item = 1 → ans (partUnits s part).length) ∧ (item = 2 → ans (partSlices s part).length) ∧
    (item = 3 → ans (if (s.part part).demoted then 1 else 0)) ∧ (item = 4 → ans ((s.part part).trace.dropped % 2 ^ 32)) ∧
    (5 ≤ item → ∃ t, exec (.svcInfo part) s = .next t ∧ Answered t part c.id 1 2)) ∧
  (∀ s part c, Calls s part 1 c → (Tbl.find (s.part part).ctxs c.ctx).isSome = true → ctxRuns (s.ctx part c.ctx) = true →
    ∃ t, exec (.svcYield part) s = .next t ∧ Answered t part c.id 0 0 ∧ (t.ctx part c.ctx).stopAt = some s.now ∧
      (t.ctx part c.ctx).yield = true) ∧
  (∀ s part c, Calls s part 2 c →
    let n := c.a.toNat % 16
    (Tbl.find (s.part part).nss n = none → ∃ t, exec (.svcNsOpen part) s = .next t ∧ Answered t part c.id 1 2) ∧
    (∀ k, Tbl.find (s.part part).nss n = some k → freeFile s part = none → ∃ t, exec (.svcNsOpen part) s = .next t ∧ Answered t part c.id 1 3) ∧
    (∀ k h, Tbl.find (s.part part).nss n = some k → freeFile s part = some h →
      ∃ t, exec (.svcNsOpen part) s = .next t ∧ Answered t part c.id 0 h ∧ 1 ≤ h ∧ h ≤ 255 ∧ Tbl.find (s.part part).files h = none ∧
        Tbl.find (t.part part).files h = some (c.ctx, n, c.a.getLsbD 4))) ∧
  (∀ s part c, Calls s part 3 c →
    let h := c.a.toNat % 256
    (∀ f, Tbl.find (s.part part).files h = some f → f.1 = c.ctx →
      ∃ t, exec (.svcNsClose part) s = .next t ∧ Answered t part c.id 0 0 ∧ Tbl.find (t.part part).files h = none) ∧
    ((∀ f, Tbl.find (s.part part).files h = some f → f.1 ≠ c.ctx) →
      ∃ t, exec (.svcNsClose part) s = .next t ∧ Answered t part c.id 1 2 ∧ (t.part part).files = (s.part part).files)) ∧
  (∀ s part c x, Calls s part 4 c → quoteArea s part c = .ok s x → c.gen = none →
    let slot := homeRead s (x.pa c.a.toNat + 64) 1
    (8 ≤ slot → ∃ t, exec (.svcQuote part) s = .next t ∧ Answered t part c.id 1 2 ∧ t.mem = s.mem) ∧
    (slot < 8 → ∃ t, exec (.svcQuote part) s = .next t ∧ t.mem = s.mem ∧ ∃ d ∈ (t.part part).calls, d.id = c.id ∧
      d.gen = some (slot, (Tbl.getD s.boot.certs slot ([], 0)).2.toNat))) ∧
  (∀ s part c x slot g, Calls s part 4 c → quoteArea s part c = .ok s x → c.gen = some (slot, g) →
    let pa := x.pa c.a.toNat
    let gen := (Tbl.getD s.boot.certs slot ([], 0)).2
    (2 ^ 20 ≤ s.boot.xmss → ∃ t, exec (.svcQuote part) s = .next t ∧ Answered t part c.id 0 2 ∧ t.mem = s.mem) ∧
    (s.boot.xmss < 2 ^ 20 → g ≠ gen.toNat → ∃ t, exec (.svcQuote part) s = .next t ∧ Answered t part c.id 0 1 ∧ t.mem = s.mem) ∧
    (s.boot.xmss < 2 ^ 20 → g = gen.toNat → ∃ t, exec (.svcQuote part) s = .next t ∧ Answered t part c.id 0 0 ∧
      t.boot.xmss = s.boot.xmss + 1 ∧ Mem.readN t.mem pa 256 = quoteHead s part c (Mem.readN s.mem pa 64) slot gen)) ∧
  (∀ s part c, Calls s part 5 c → ∃ t, exec (.svcTrace part) s = .next t ∧ Answered t part c.id 0 0 ∧ (t.part part).trace.on = c.a.getLsbD 0) ∧
  (∀ s part c st v n o, (s.part part).calls = [c] → c.ans = some (st, v) → v < 2 ^ 32 → st < 2 ^ 32 → Awaits s c.team c.thread c.owe n o true →
    ∃ t, exec (.svcReply part c.id) s = .next t ∧ (t.part part).calls = [] ∧
      Received t c.team c.thread n (BitVec.ofNat 64 (st + v * 2 ^ 32)) o.lab true) ∧
  (∀ s part c, (s.part part).calls = [c] → c.ans = none → c.num < 6 → exec (.svcReply part c.id) s = .next s) ∧
  (∀ s part c n o, (s.part part).calls = [c] → c.ans = none → 6 ≤ c.num → c.lab = 0 → Awaits s c.team c.thread c.owe n o true →
    ∃ t, exec (.svcReply part c.id) s = .next t ∧ Received t c.team c.thread n (1 + 1 * 2 ^ 32) o.lab true) ∧
  (∀ slot chain s, slot < 8 → ∃ t, exec (.certSlotWrite slot chain) s = .next t ∧ t.mem = s.mem ∧
    Tbl.find t.boot.certs slot = some (chain, (Tbl.getD s.boot.certs slot ([], 0)).2 + 1)) ∧
  (∀ part pl j s e, Tbl.find (evTable s pl) j = some e → e.part = part →
    ((s.part part).trace.cfg = none → ∃ t, exec (.traceSample part pl j) s = .next t ∧
      (t.part part).trace.dropped = (s.part part).trace.dropped + 1 ∧ t.adds = s.adds) ∧
    (∀ c, (s.part part).trace.cfg = some c → (s.part part).trace.on = true →
      ∃ t ctx, exec (.traceSample part pl j) s = .next t ∧ Tbl.find t.adds s.newId = some {
        part, ctx := (s.part part).hostCtx, core := 96, addr := c.head, n := 1, who := .head
        data := traceRecord (BitVec.ofNat 64 s.now) e.val 2 j (EvPlace.code pl).2 (EvPlace.code pl).1 ctx 0 0 }))

/-- PARTITION_CREATE, PARTITION_DESTROY, QUEUE_ENABLE, QUEUE_DISABLE, SLICE_KERNEL_CONFIG_WRITE, UNIT_RETIRE and VF_RESET (R235, R246, R253, R299,
R329, R342, R348, R349, R353 to R356, R358): a partition gets free units and slices, whose memory is zero, and a key; a value outside its limits is
not written; a halted team that the slice kernel ends advances no GDONE; a retired unit serves no more; a reset leaves no team, waiter or call of the
partition, and no request from outside without its answer. The slice kernel arms a waiter that posts for a host or a peer (R315); that it takes a place of the quota of `carm` is the model's choice (log 92).
What an event counter holds once it is assigned afresh is the model's choice (log 88).
Where the manual leaves a point open, the clauses rest on the model's readings of logs 5, 10, 53, 54, 91 and 92. -/
def Obligations.PartitionEvents : Prop :=
  (∀ r s,
    let mine : Minima := { weight := r.weight, link := r.linkMin, mesh := r.meshMin, cells := dedup (r.units.map cellOf) }
    s.boot.booted = true → r.num < 32 → (s.part r.num).live = false → r.slices ≠ [] → r.cls ≤ 7 → r.weight ≠ 0 → r.weight ≤ 64 →
    (∀ c ∈ r.units, c < 96 ∧ (s.core c).owner = none ∧ (s.core c).dead = false) →
    (∀ d ∈ r.slices, d < 32 ∧ (s.slice d).owner = none ∧ (s.slice d).dead = false) →
    (minimaFit s (mine :: admittedMinima s) = false → exec (.partitionCreate r) s = .next (s.report (.notAdmitted r.num))) ∧
    (minimaFit s (mine :: admittedMinima s) = true → s.boot.entOk = false → exec (.partitionCreate r) s = .next (s.report .keyEntropy)) ∧
    (minimaFit s (mine :: admittedMinima s) = true → s.boot.entOk = true →
      ∃ t, exec (.partitionCreate r) s = .next t ∧ (t.part r.num).live = true ∧ (t.part r.num).keys = s.boot.drbg + 1 ∧
        (t.part r.num).ctxs = [] ∧ (∀ c ∈ r.units, (t.core c).owner = some r.num ∧ (t.core c).l1 = [] ∧ (t.core c).icache = []) ∧
        (∀ d ∈ r.slices, (t.slice d).owner = some r.num) ∧
        (∀ e ∈ s.lines, regionOf (e.1 * 256) = 0 → sliceOf (e.1 * 256) ∈ r.slices → e.2.horizon.getD 0 ≤ (t.slice (sliceOf (e.1 * 256))).horizon) ∧
        (∀ p, p ≠ r.num → t.part p = s.part p) ∧ (MemOk s →
          ∀ a, Mem.read t.mem a = if regionOf a = 0 ∧ r.slices.contains (sliceOf a) = true then 0 else Mem.read s.mem a))) ∧
  (∀ part s, (s.part part).live = true → ((s.part part).ctxs ≠ [] → exec (.partitionDestroy part) s = .next s) ∧
    ((s.part part).ctxs = [] → ∃ t, exec (.partitionDestroy part) s = .next t ∧ (t.part part).live = false ∧
      (∀ d, (t.slice d).owner ≠ some part) ∧ (∀ c, ∀ x ∈ (t.core c).atc, x.part ≠ part) ∧ t.mem = s.mem)) ∧
  (∀ part q ctx s, q < 64 → (Tbl.find (s.part part).ctxs ctx).isSome = true → (lqueue s part q).enabled = false →
    ∃ t, exec (.queueEnable part q ctx) s = .next t ∧ lqueue t part q = { lqueue s part q with ctx, enabled := true } ∧ t.mem = s.mem) ∧
  (∀ part q s, (lqueue s part q).enabled = true →
    ∃ t, exec (.queueDisable part q) s = .next t ∧ lqueue t part q = { lqueue s part q with enabled := false, recs := [] } ∧
      t.reports = s.reports ++ List.replicate (lqueue s part q).recs.length (.discarded part q)) ∧
  (∀ part s, (s.part part).live = true →
    (∀ w, ∃ t, exec (.sliceKernelConfigWrite part (.root w)) s = .next t ∧ t.part part = { s.part part with root := w } ∧ t.mem = s.mem) ∧
    (∀ n, 16 ≤ n → n ≤ 65536 →
      ∃ t, exec (.sliceKernelConfigWrite part (.timeLimit n)) s = .next t ∧ t.part part = { s.part part with limit := n }) ∧
    (∀ n, n < 16 ∨ 65536 < n → exec (.sliceKernelConfigWrite part (.timeLimit n)) s = .next s) ∧
    (∀ n, 2 ≤ n → n ≤ 200 → ∃ t, exec (.sliceKernelConfigWrite part (.deadline n)) s = .next t ∧ deadlineNs t part = n * 1000) ∧
    (∀ n, n < 2 ∨ 200 < n → exec (.sliceKernelConfigWrite part (.deadline n)) s = .next s) ∧
    (∀ a, a ≠ 0 → ∃ t, exec (.sliceKernelConfigWrite part (.svec a)) s = .next t ∧ t.part part = { s.part part with svec := a }) ∧
    (∀ w cls link mesh, 0 < w → w ≤ 64 → cls ≤ 7 →
      let p := { s.part part with weight := w, cls, seq := s.newId, linkMin := link, meshMin := mesh, demoted := false }
      let u := (s.modPart part (fun _ => p)).bumpId
      (minimaFit u (admittedMinima u) = true → exec (.sliceKernelConfigWrite part (.admission w cls link mesh)) s = .next u) ∧
      (minimaFit u (admittedMinima u) = false →
        exec (.sliceKernelConfigWrite part (.admission w cls link mesh)) s = .next (s.report (.notAdmitted part)))) ∧
    (∀ n, 2 ^ 16 ≤ n → n ≤ 2 ^ 22 →
      ∃ t, exec (.sliceKernelConfigWrite part (.sendWindow n)) s = .next t ∧ t.part part = { s.part part with sendWin := n }) ∧
    (∀ n, n < 2 ^ 16 ∨ 2 ^ 22 < n → exec (.sliceKernelConfigWrite part (.sendWindow n)) s = .next s) ∧
    (∀ k src m, k < 32 → (endpointOk src.toNat = true → ∃ t, exec (.sliceKernelConfigWrite part (.launchRight k src m)) s = .next t ∧
        Tbl.find (t.part part).rights k = some (src, m)) ∧
      (endpointOk src.toNat = false → exec (.sliceKernelConfigWrite part (.launchRight k src m)) s = .next s)) ∧
    (∀ r w, 0 < r → r < 0x1FF →
      (windowForm w = true → regionFree s part r = true → ∃ t, exec (.sliceKernelConfigWrite part (.window r w)) s = .next t ∧
        Tbl.find t.links.windows r = some w ∧ Tbl.find t.links.winPart r = some part ∧ (∀ q, q ∈ t.links.lost ↔ q ∈ s.links.lost ∧ q ≠ r) ∧
        (w.valid = true → (part, w.dest) ∈ t.links.conns)) ∧
      (windowForm w = false ∨ regionFree s part r = false → exec (.sliceKernelConfigWrite part (.window r w)) s = .next s)) ∧
    (∀ pa, MemOk s → ownsRange s part (pa / 4096 * 4096) 4096 = true →
      ∃ t, exec (.sliceKernelConfigWrite part (.zeroFrame pa)) s = .next t ∧
        ∀ a, Mem.read t.mem a = if a / 4096 = pa / 4096 then 0 else Mem.read s.mem a)) ∧
  (∀ part s, (s.part part).live = true →
    let sets := fun (it : CfgItem) (p : PartSt) => ∃ t, exec (.sliceKernelConfigWrite part it) s = .next t ∧ t.part part = p ∧ t.mem = s.mem
    let keeps := fun (it : CfgItem) => exec (.sliceKernelConfigWrite part it) s = .next s
    (∀ i r,
      let good := i < 64 ∧ rangeAllowed r = true ∧ (r.valid = true → r.cntok = true → zeroFrames s part r = true)
      (good → sets (.range i r) { s.part part with ranges := Tbl.put (s.part part).ranges i r }) ∧ (¬ good → keeps (.range i r))) ∧
    (∀ f n, sets (.declassWindow f n) { s.part part with declass := (f, n) }) ∧
    (∀ c : TraceCfg,
      let good := c.base % 4096 = 0 ∧ c.base < 2 ^ 52 ∧ ∃ k, 7 ≤ k ∧ k ≤ 24 ∧ c.cap = 2 ^ k
      (good → sets (.trace c) { s.part part with trace := { (s.part part).trace with cfg := some c } }) ∧ (¬ good → keeps (.trace c))) ∧
    (∀ n, sets (.carmQuota n) { s.part part with carmQuota := n }) ∧
    (∀ pa thr dst msg,
      let k := CtrKey.line pa
      let arms := counterLineOf s part pa = true ∧ endpointOk dst.toNat = true ∧ k.closed s = false ∧ ctrPois s k = false ∧ armFull s part k = false
      (¬ arms → keeps (.postWaiter pa thr dst msg)) ∧
      (arms → meets (ctrValue s k) thr = false → ∃ t sp, exec (.sliceKernelConfigWrite part (.postWaiter pa thr dst msg)) s = .next t ∧
        t.parts = s.parts ∧ t.waiters = s.waiters ++ [{
          ctr := k, thr, seq := s.newId, act := .post dst msg, token := newToken s k, part, ctx := (s.part part).hostCtx, spilled := sp }]) ∧
      (arms → meets (ctrValue s k) thr = true → ∃ t, exec (.sliceKernelConfigWrite part (.postWaiter pa thr dst msg)) s = .next t ∧
        t.waiters = s.waiters ∧ t.mem = s.mem ∧ (reachable s part dst = true → t.reports = s.reports ++ [.postOut dst msg]))) ∧
    (∀ i ns, (i < 16 ∧ driveAt s ns.port = true → sets (.nameSpace i ns) { s.part part with nss := Tbl.put (s.part part).nss i ns }) ∧
      (16 ≤ i ∨ driveAt s ns.port = false → keeps (.nameSpace i ns))) ∧
    (∀ c, sets (.hostContext c) { s.part part with hostCtx := c }) ∧
    (∀ us, ∃ t, exec (.sliceKernelConfigWrite part (.timeSlice us)) s = .next t ∧ t.parts = s.parts ∧
      Tbl.getD t.slots part {} = { Tbl.getD s.slots part {} with slice := us }) ∧
    (∀ pl i ev, 8 ≤ i → keeps (.eventCounter pl i ev)) ∧
    (∀ pl i ev, i < 8 →
      let kept := ∃ e, Tbl.find (evTable s pl) i = some e ∧ e.part = part ∧ e.ev = ev
      ∃ t, exec (.sliceKernelConfigWrite part (.eventCounter pl i ev)) s = .next t ∧ t.parts = s.parts ∧ t.mem = s.mem ∧
        (∀ j, j ≠ i → Tbl.find (evTable t pl) j = Tbl.find (evTable s pl) j) ∧
        (kept → Tbl.find (evTable t pl) i = Tbl.find (evTable s pl) i) ∧ (¬ kept → Tbl.find (evTable t pl) i = some { part, ev }))) ∧
  (∀ r, rangeAllowed r = true → r.valid = true → r.base % 4096 = 0 ∧ 0 < r.len ∧ ∀ a, r.base ≤ a → a < r.base + r.len * 4096 → noSuch a = false) ∧
  (∀ part core k s tm gr, (s.part part).live = true → Tbl.find s.teams k = some tm → tm.at_.core = core →
    (tm.at_.part ≠ part → exec (.sliceKernelConfigWrite part (.endTeam core k)) s = .next s) ∧
    (tm.at_.part = part → tm.halted = true → tm.ended = false → commandsLeft s core k = false → tm.threads.all (fun e => settled s e.2) = true →
      clusterTeams s k = [k] → (irecOf s core).owner ≠ some k → Tbl.find s.grids tm.at_.grid = some gr → gr.live = 1 →
      gr.record.hdr.teams ≤ gr.next →
      ∃ t, exec (.sliceKernelConfigWrite part (.endTeam core k)) s = .next t ∧ Tbl.find t.teams k = none ∧ Tbl.find t.grids tm.at_.grid = none ∧
        t.adds = s.adds ∧ t.mem = s.mem)) ∧
  (∀ n s, n < 96 → (s.core n).dead = false → (s.core n).owner = none →
    ∃ t, exec (.unitRetire (.core n)) s = .next t ∧ (t.core n).dead = true ∧ .retired (.core n) ∈ t.reports ∧ t.mem = s.mem) ∧
  (∀ n s p, n < 96 → (s.core n).dead = false → (s.core n).owner = some p → (∃ e ∈ s.teams, e.2.at_.core = n) →
    ∃ t, exec (.unitRetire (.core n)) s = .next t ∧ (t.core n).dead = false ∧ ∀ e ∈ s.teams, e.2.at_.core = n →
      (Tbl.find (s.part p).ctxs e.2.at_.ctx).isSome = true → ctxRuns (s.ctx p e.2.at_.ctx) = true → (t.ctx p e.2.at_.ctx).stopAt = some s.now) ∧
  (∀ d s, d < 32 → (s.slice d).dead = false → (s.slice d).owner = none →
    ∃ t, exec (.unitRetire (.slice d)) s = .next t ∧ (t.slice d).dead = true ∧ .retired (.slice d) ∈ t.reports) ∧
  (∀ part s, (s.part part).live = true → ∃ t, exec (.vfReset part) s = .next t ∧ (t.part part).live = true ∧ (t.part part).calls = [] ∧
    (t.part part).files = [] ∧ (∀ e ∈ t.teams, e.2.at_.part ≠ part) ∧ (∀ w ∈ t.waiters, w.part ≠ part) ∧
    (∀ g ∈ t.grids, g.2.part ≠ part) ∧ (∀ e ∈ t.links.inb, e.2.from_.part = part → e.2.done.isSome = true) ∧ .resetDone part ∈ t.reports)

-- links

/-- FRAME_RECEIVE, REPLAY_REQUEST, LINK_TRAINING, LINK_REPLY and CONNECTION_RESET (R362 to R368): a frame that passes moves the port on, one that
fails is asked for again from its first bad flit, the good ones before it handed on, and after 16 failures in a row the port is down; a port sends a frame again
that the other end asks for, 16 times and no more, after which it is down (which requests name one frame is the model's reading, log 92); an answer reaches the lane that waits for it; a
lost connection leaves no request outstanding.
Where the manual leaves a point open, the clauses rest on the model's readings of logs 38, 39, 40, 46 and 92. -/
def Obligations.LinkEvents : Prop :=
  (∀ port symbols s,
    let p := Tbl.getD s.links.ports port {}
    (p.up = false → exec (.frameReceive port symbols) s = .next s) ∧
    (∀ fr n, p.up = true → checkFrame symbols = (fr, n) →
      let next := if n = 0 then p.expect else (flitSeq fr (n - 1) + 1) % 2 ^ 24
      let flits := if n = 0 then p.flits else flitsOf fr n
      (p.fails ≠ 0 → n ≠ 0 → flitSeq fr 0 ≠ p.expect → exec (.frameReceive port symbols) s = .next s) ∧
      ((p.fails = 0 ∨ n = 0 ∨ flitSeq fr 0 = p.expect) →
        (n = 16 → ∃ t, exec (.frameReceive port symbols) s = .next t ∧ t.mem = s.mem ∧
          Tbl.getD t.links.ports port {} = { p with expect := next, fails := 0, flits := flitsOf fr 16 }) ∧
        (n < 16 → p.fails < 16 → ∃ t, exec (.frameReceive port symbols) s = .next t ∧ t.reports = s.reports ++ [.replay port next] ∧
          Tbl.getD t.links.ports port {} = { p with expect := next, fails := p.fails + 1, flits }) ∧
        (n < 16 → 16 ≤ p.fails → ∃ t, exec (.frameReceive port symbols) s = .next t ∧ (Tbl.getD t.links.ports port {}).up = false ∧
          ∀ w ∈ s.links.windows, w.2.valid = true → w.2.port = port → w.1 ∈ t.links.lost)))) ∧
  (∀ port seq s,
    let p := Tbl.getD s.links.ports port {}
    let sameFrame := p.resent.2 ≠ 0 ∧ (seq % 2 ^ 24 + 2 ^ 24 - p.resent.1) % 2 ^ 24 < 16
    let resends := fun n => ∃ t, exec (.replayRequest port seq) s = .next t ∧ t.reports = s.reports ++ [.resend port seq] ∧ t.mem = s.mem ∧
      Tbl.getD t.links.ports port {} = { p with resent := n }
    (p.up = false → exec (.replayRequest port seq) s = .next s) ∧
    (p.up = true → ¬ sameFrame → resends (seq % 2 ^ 24, 1)) ∧
    (p.up = true → sameFrame → p.resent.2 < 16 → resends (p.resent.1, p.resent.2 + 1)) ∧
    (p.up = true → sameFrame → 16 ≤ p.resent.2 → ∃ t, exec (.replayRequest port seq) s = .next t ∧ (Tbl.getD t.links.ports port {}).up = false ∧
      ∀ w ∈ s.links.windows, w.2.valid = true → w.2.port = port → w.1 ∈ t.links.lost)) ∧
  (∀ port remote s, s.boot.booted = true → port < 128 → endpointOk remote.toNat = true →
    ∃ t, exec (.linkTraining port remote) s = .next t ∧ Tbl.getD t.links.ports port {} = { remote, up := true } ∧ t.mem = s.mem) ∧
  (∀ n s q r p l1 lease bs lab k o, Tbl.find s.links.reqs n = some q → findReq s q.core n = some r → r.kind = .load l1 lease → r.parts = [p] →
    bs.length = p.n → Awaits s p.team p.thread n k o →
    ∃ t, exec (.linkReply n (.data bs lab)) s = .next t ∧ Tbl.find t.links.reqs n = none ∧
      Received t p.team p.thread k (extendVal p.n p.sx (leNat bs)) ((p.pageLab.join lab).join o.lab)) ∧
  (∀ n s q r p l1 lease k o, Tbl.find s.links.reqs n = some q → findReq s q.core n = some r → r.kind = .load l1 lease → r.parts = [p] →
    Awaits s p.team p.thread n k o → (s.thread p.team p.thread).t.helper = false → (s.thread p.team p.thread).out.sFault = none →
    ∃ t, exec (.linkReply n .refused) s = .next t ∧ Tbl.find t.links.reqs n = none ∧ ReceivedPoison t p.team p.thread o) ∧
  (∀ n ans s, Tbl.find s.links.reqs n = none → exec (.linkReply n ans) s = .next (s.report .linkError)) ∧
  (∀ part remote s, (arrives s part remote = true → ∃ t, exec (.connectionReset part remote) s = .next t ∧
      (∀ r ∈ regionsOf s part (fun w => decide (w.dest = remote)), r ∈ t.links.lost) ∧
      ∀ e ∈ t.links.reqs, ¬ (e.2.part = part ∧ e.2.dest = remote)) ∧
    (arrives s part remote = false → exec (.connectionReset part remote) s = .next (s.report .linkError)))

/-- The messages that come in through a link (R167, R175, R316, R365, R370, R371, R384): a read, a write or an atomic of up to eight bytes is performed
at its home and answered, a host's off its alignment is refused and a peer's is performed as several; a peer's engine reads, writes and marks whole lines, and
a write of a whole poisoned line clears it; a counter's add and read likewise; a launch becomes a submission; a peer's post reaches the
event queue; a sender that is no source is a link error.
Where the manual leaves a point open, the clauses rest on the model's readings of logs 41, 42, 43, 44, 45 and 68. -/
def Obligations.InboundMessages : Prop :=
  (∀ m ctx addr w s x, Inbound s m ctx addr (.read w) x →
    let pa := x.pa (addr.toNat % 2 ^ 52)
    (isHost m = true → 0 < w → addr.toNat % 2 ^ 52 % w ≠ 0 →
      ∃ t, exec (.inboundRead m ctx addr w) s = .next t ∧ t.mem = s.mem ∧
        t.reports = s.reports ++ [.refusal m FaultCode.misaligned.code addr]) ∧
    (isHost m = false → w = 8 → addr.toNat % 8 ≠ 0 → pa % 256 + 8 ≤ 256 → addr.toNat % 4096 + 8 ≤ 4096 → noSuch pa = false → isLink pa = false →
      closed s (.mem (pa / 256)) = false → (∀ j < w, poisAt s (pa + j) = false) →
      ∃ t r, exec (.inboundRead m ctx addr w) s = .next t ∧ t.mem = s.mem ∧ t.reports = s.reports ∧
        Tbl.find t.links.inb s.newId = some r ∧ r.todo.length = 1) ∧
    ((w ∈ [1, 2, 4, 8] ∨ (w = 256 ∧ isHost m = false)) → addr.toNat % 2 ^ 52 % w = 0 → noSuch pa = false → isLink pa = false →
      closed s (.mem (pa / 256)) = false →
      ((∀ j < w, poisAt s (pa + j) = false) →
        ∃ t, exec (.inboundRead m ctx addr w) s = .next t ∧ t.mem = s.mem ∧
          t.reports = s.reports ++ [.data m (Mem.readN s.mem pa w) ((attrLabel x.attr).join (s.line (pa / 256)).lab)]) ∧
      ((∃ j < w, poisAt s (pa + j) = true) →
        ∃ t, exec (.inboundRead m ctx addr w) s = .next t ∧ t.mem = s.mem ∧
          t.reports = s.reports ++ [.refusal m FaultCode.memPoison.code addr]))) ∧
  (∀ m ctx addr s (o : AtomForm) b d x, Inbound s m ctx addr (.atomic o b d) x →
    let pa := x.pa (addr.toNat % 2 ^ 52)
    let k := if o.op.wide then 8 else 4
    let old := homeRead s pa k
    addr.toNat % 2 ^ 52 % k = 0 → noSuch pa = false → isLink pa = false → closed s (.mem (pa / 256)) = false → attrCnt x.attr = false →
    poisAt s pa = false → twOf s (pa / 256) (attrLease x.attr) ≤ s.now →
    ∃ t, exec (.inboundAtomic m ctx addr o b d) s = .next t ∧
      t.reports = s.reports ++ [if o.ret then .data m (leBytes k old) ((attrLabel x.attr).join (s.line (pa / 256)).lab) else .ack m] ∧
      Wrote s t pa (leBytes k (atomNew o.op (BitVec.ofNat 64 old) b d).toNat)) ∧
  (∀ m ctx addr bs s x, Inbound s m ctx addr (.write (.bytes bs)) x →
    let pa := x.pa (addr.toNat % 2 ^ 52)
    bs.length ∈ [1, 2, 4, 8] → addr.toNat % 2 ^ 52 % bs.length = 0 → pa % 256 + bs.length ≤ 256 → noSuch pa = false → isLink pa = false →
    closed s (.mem (pa / 256)) = false → attrCnt x.attr = false → (s.line (pa / 256)).pois = 0 → twOf s (pa / 256) (attrLease x.attr) ≤ s.now →
    ∃ t, exec (.inboundWrite m ctx addr (.bytes bs)) s = .next t ∧ t.reports = s.reports ++ [.ack m] ∧ Wrote s t pa bs) ∧
  (∀ m ctx addr w s x, Inbound s m ctx addr (.write w) x →
    let pa := x.pa (addr.toNat % 2 ^ 52)
    let l := pa / 256
    let done := fun (g : State → Prop) => ∃ t, exec (.inboundWrite m ctx addr w) s = .next t ∧ t.reports = s.reports ++ [.ack m] ∧ g t
    addr.toNat % 256 = 0 → pa % 256 = 0 → noSuch pa = false → isLink pa = false → closed s (.mem l) = false → attrCnt x.attr = false →
    twOf s l (attrLease x.attr) ≤ s.now →
    (∀ bs, w = .bytes bs → bs.length = 256 → (s.line l).pois ≠ 0 → done (fun t => Wrote s t pa bs ∧ (t.line l).pois = 0)) ∧
    (∀ d, w = .line d false → isHost m = false → d.length = 256 → (s.line l).pois = 0 → done (fun t =>
      ∀ a, Mem.read t.mem a = if a / 256 = l then (d.getD (a % 256) none).getD (Mem.read s.mem a) else Mem.read s.mem a)) ∧
    (∀ d, w = .line d true → isHost m = false → d.length = 256 → done (fun t => t.mem = s.mem ∧ (t.line l).pois = 15)) ∧
    (∀ k, w = .mark k → isHost m = false → done (fun t =>
      t.mem = s.mem ∧ ∀ j < 4, bitAt (t.line l).pois j = (bitAt (s.line l).pois j || bitAt k j)))) ∧
  (∀ m ctx addr (n : AddForm) s k, Comes s m ctx addr (.add n.n n.lim) → m.lab = 0 →
    (∀ u, SameHomes s u → locate u none addr true true (fun u va =>
      xlateCell u (.inb s.newId) [] m.part (tagOf m.part (inCtx s m ctx)) va va (inKind m true) permWrite) = .ok u k) →
    k.closed s = false → ctrPois s k = false → (∀ u j, k = .near u j → (Tbl.find s.teams u).isSome = true) →
    let old := ctrValue s k
    let lim := ctrLimit s k
    let answered := fun (t : State) => exec (.inboundCounterAdd m ctx addr n) s = .next t ∧ t.reports = s.reports ++ [.data m (leBytes 8 old.toNat) 0]
    let refused := ∃ t, exec (.inboundCounterAdd m ctx addr n) s = .next t ∧ t.mem = s.mem ∧
      t.reports = s.reports ++ [.refusal m FaultCode.counterLimit.code addr]
    (n.lim = false → n.n.toNat < 2 ^ 62 → (∀ w ∈ s.waiters, w.ctr = k → meets (old + n.n) w.thr = false) →
      ((lim = 0 ∨ (old + n.n - lim).toInt ≤ 0) → ∃ t, answered t ∧ ctrValue t k = old + n.n) ∧
      (n.n ≠ 0 → lim ≠ 0 → 0 < (old + n.n - lim).toInt → refused)) ∧
    (n.lim = true →
      (n.n ≠ 0 → 0 ≤ (n.n - old).toInt → (lim = 0 ∨ 0 ≤ (n.n - lim).toInt) → ∃ t, answered t ∧ ctrValue t k = old ∧ ctrLimit t k = n.n) ∧
      ((n.n = 0 ∨ (n.n - old).toInt < 0 ∨ (lim ≠ 0 ∧ (n.n - lim).toInt < 0)) → refused))) ∧
  (∀ m ctx addr s k, Comes s m ctx addr .cread →
    (∀ u, SameHomes s u → locate u none addr false true (fun u va =>
      xlateCell u (.inb s.newId) [] m.part (tagOf m.part (inCtx s m ctx)) va va (inKind m false) permRead) = .ok u k) →
    k.closed s = false → ctrPois s k = false →
    ∃ t, exec (.inboundCounterRead m ctx addr) s = .next t ∧ t.mem = s.mem ∧
      t.reports = s.reports ++ [.data m (leBytes 8 (ctrValue s k).toNat) 0]) ∧
  (∀ m msg s, arrives s m.part m.src = true → msg.length = 32 →
    ∃ t b, exec (.inboundLaunch m msg) s = .next t ∧ Tbl.find t.subs s.newId = some b ∧ b.part = m.part ∧
      b.addr.toNat = leNat msg % 2 ^ 64 ∧ b.queue = leNat msg / 2 ^ 64 % 64 ∧
      b.src = (if isHost m then .host m (leNat msg / 2 ^ 96 % 2 ^ 32) else .peer m (leNat msg / 2 ^ 96 % 2 ^ 32)) ∧ t.mem = s.mem) ∧
  (∀ m msg s, isHost m = false → arrives s m.part m.src = true →
    exec (.inboundPost m msg) s = .next ((noteConn s m.part m.src).report (.post m.part m.src msg))) ∧
  (∀ m ctx addr w s, s.links.inb.find? (fun e => decide (e.2.from_ = m) && decide (e.2.addr = addr) && decide (e.2.op = .read w)) = none →
    (arrives s m.part m.src = false → exec (.inboundRead m ctx addr w) s = .next (s.report .linkError)) ∧
    (arrives s m.part m.src = true → 0 < w → admitted s m = false →
      exec (.inboundRead m ctx addr w) s = .next ((noteConn s m.part m.src).report (.refusal m 0 addr))))

-- the module

/-- BOOT, FIRMWARE_UPDATE, CLOCK_THROTTLE, the power events, the management connector and the entropy source's tests (R349, R375 to R383). That every byte
reads 0 once power is off is the model's choice (log 33: the manual gives memory no value then), and so is what becomes of images too large for the SRAM (log 89).
Where the manual leaves a point open, the clauses rest on the model's readings of logs 2, 3, 4, 5 and 47. -/
def Obligations.ModuleEvents : Prop :=
  (∀ b s, s.boot.powered = true → s.boot.status = 0xFF →
    let bank := chooseBank s.boot.flashA s.boot.flashB
    (bank = none → ∃ t, exec (.boot b) s = .next t ∧ t.boot.booted = s.boot.booted ∧ t.boot.status = 1) ∧
    (∀ k, bank = some k → (∀ ns, b.entropyNs = some ns → 10 ^ 9 < ns) →
      ∃ t, exec (.boot b) s = .next t ∧ t.boot.booted = s.boot.booted ∧ t.boot.status = 2) ∧
    (∀ k ns, bank = some k → b.entropyNs = some ns → ns ≤ 10 ^ 9 → b.untrained ≠ [] →
      ∃ t, exec (.boot b) s = .next t ∧ t.boot.booted = s.boot.booted ∧ t.boot.status = 3) ∧
    (∀ k ns, bank = some k → b.entropyNs = some ns → ns ≤ 10 ^ 9 → b.untrained = [] → b.uninit ≠ [] →
      ∃ t, exec (.boot b) s = .next t ∧ t.boot.booted = s.boot.booted ∧ t.boot.status = 4) ∧
    (∀ k ns, bank = some k → b.entropyNs = some ns → ns ≤ 10 ^ 9 → b.untrained = [] → b.uninit = [] →
      ∃ t, exec (.boot b) s = .next t ∧ t.boot.booted = true ∧ t.boot.status = (if 2 ^ 20 ≤ s.boot.xmss then 5 else 0) ∧
        t.boot.bank = some k ∧ t.boot.entOk = true ∧ (∀ a, Mem.read t.mem a = 0) ∧
        (∀ d < 32, (t.slice d).up = true ∧ (t.slice d).kernel = true ∧
          (t.slice d).sram = if k then (s.boot.flashB.firmware, s.boot.flashB.kernel) else (s.boot.flashA.firmware, s.boot.flashA.kernel)) ∧
        (∀ e ∈ b.ports, e.1 < 128 → endpointOk e.2.toNat = true → (Tbl.getD t.links.ports e.1 {}).up = true) ∧
        (∀ n < 4, (n, false) ∈ b.devices → .unconfigured n ∈ t.reports) ∧
        ∀ n < 4, (n, true) ∈ b.devices → (Tbl.find s.boot.roots n).isSome = true → driveAt t n = true)) ∧
  (∀ a b, (bankOk a = false → bankOk b = false → chooseBank a b = none) ∧ (bankOk a = true → bankOk b = false → chooseBank a b = some false) ∧
    (bankOk a = false → bankOk b = true → chooseBank a b = some true) ∧
    (bankOk a = true → bankOk b = true → chooseBank a b = some (decide (a.version < b.version))) ∧
    (2 ^ 20 < a.firmware.length + a.kernel.length → bankOk a = false)) ∧
  (∀ bank b s, s.boot.booted = true → s.boot.bank = some (!bank) →
    (∃ t, exec (.firmwareUpdate bank b false) s = .next t ∧ (if bank then t.boot.flashB else t.boot.flashA) = { b with torn := false } ∧
      (if bank then t.boot.flashA else t.boot.flashB) = (if bank then s.boot.flashA else s.boot.flashB) ∧ t.mem = s.mem) ∧
    (∃ t, exec (.firmwareUpdate bank b true) s = .next t ∧ bankOk (if bank then t.boot.flashB else t.boot.flashA) = false ∧
      (if bank then t.boot.flashA else t.boot.flashB) = (if bank then s.boot.flashA else s.boot.flashB) ∧ t.boot.powered = false)) ∧
  (∀ bank b cut s, s.boot.bank = some bank → exec (.firmwareUpdate bank b cut) s = .next s) ∧
  (∀ up s, ∃ t, exec (.clockThrottle up) s = .next t ∧ t.mem = s.mem ∧ t.boot.clock = (if up then min 25 (s.boot.clock + 1) else max 15 (s.boot.clock - 1)) ∧
    (15 ≤ s.boot.clock → s.boot.clock ≤ 25 → 15 ≤ t.boot.clock ∧ t.boot.clock ≤ 25)) ∧
  (∀ s, s.boot.powered = true →
    let off := fun (e : Instr) => ∃ t, exec e s = .next t ∧ t.boot.powered = false ∧ t.boot.booted = false ∧ t.teams = [] ∧ t.parts = [] ∧
      (∀ a, Mem.read t.mem a = 0) ∧ t.boot.flashA = s.boot.flashA ∧ t.boot.flashB = s.boot.flashB ∧ t.boot.xmss = s.boot.xmss ∧
      t.boot.certs = s.boot.certs ∧ t.ps = 0
    off .powerOff ∧ (105 ≤ s.boot.temp.toInt → s.boot.clock = 15 → off .overTemperaturePowerOff) ∧
    (s.boot.temp.toInt < 105 ∨ s.boot.clock ≠ 15 → exec .overTemperaturePowerOff s = .next s)) ∧
  (∀ s, s.boot.powered = true →
    let reads := fun (e : Instr) (bs : List Byte) =>
      (s.boot.busAddr = 0x40 + s.boot.straps.setWidth 7 → ∃ t, exec e s = .next t ∧ t.boot.smbus = some bs ∧ t.boot.nack = false ∧ t.mem = s.mem) ∧
      (s.boot.busAddr ≠ 0x40 + s.boot.straps.setWidth 7 → exec e s = .next s)
    reads .smbusBootStatus [BitVec.ofNat 8 s.boot.status] ∧ reads .smbusDieTemperature [s.boot.temp] ∧
    reads .smbusInputPower [s.boot.power.setWidth 8, (s.boot.power >>> 8).setWidth 8] ∧ reads .smbusCoolantTemperature [s.boot.coolant] ∧
    reads .smbusCoreClock [BitVec.ofNat 8 s.boot.clock] ∧
    (∀ cmd : Byte, s.boot.busAddr = 0x40 + s.boot.straps.setWidth 7 → cmd = 0 ∨ 5 < cmd.toNat → ∃ t, exec (.smbusNack cmd) s = .next t ∧ t.boot.nack = true ∧ t.boot.smbus = none)) ∧
  (∀ s, (∃ t, exec (.entropyHealthTest false) s = .next t ∧ t.boot.entOk = false ∧ t.boot.samples = 0 ∧ t.mem = s.mem) ∧
    ∃ t, exec (.entropyHealthTest true) s = .next t ∧ t.boot.samples = min 1024 (s.boot.samples + 1) ∧
      (t.boot.entOk = true ↔ s.boot.entOk = true ∨ 1024 ≤ s.boot.samples + 1) ∧ t.mem = s.mem)

-- encodings, reset, and what every step keeps

/-- Words that the manual writes out decode to the instructions that it gives with them (R48, R129, R178, R196, R267, R284, R306), and a word of zeros,
core or walker, is no instruction. -/
def Obligations.DecodedWords : Prop :=
  let c : Ctl := { gN := false, gP := 7, keep := 0, y := false, f := false, s := false }
  let reads := fun w0 w1 w2 i => decodeCore 64 (coreWord w0 w1 w2) = .ok i
  reads 0x08011D88 0x000000C0 0 (.fma c .rn (.v 4) (.v 2) (.v 3)) ∧
  reads 0x2802A908 0x13F7FF80 0x01000000 (.fmul { c with gP := 2, gN := true, s := true } .rz (.v 10) (.v 10) (.imm 0xFD)) ∧
  reads 0xFFFFDF11 0x1003FFFF 0x01000000 (.rte { c with s := true } true) ∧
  reads 0x20019C18 0x0043FFA0 0x0000001A (.ld c .g .b64 .byp (.v 6) (.s 8) (.imm 16)) ∧
  reads 0x10025C98 0x8013FF80 0x01000008 (.st { c with s := true } .s .b32 .l1 (.v 9) (.v 4) (.imm 4)) ∧
  reads 0x33FFDC1A 0x00060360 0 (.mld c 1 (.s 12) (.s 13)) ∧
  reads 0x0BFFDC9C 0x0043FFA0 0 (.cwait c .z (.s 2) (.imm 16)) ∧
  reads 0xFFFFDD1D 0x0003FFFF 0 (.ovend c) ∧
  decodeCore 64 0 = .error (.illegalOpcode 0) ∧
  decodeWalker 0xFFE0003B = some (.walkerFault 0x7FF) ∧ decodeWalker 0 = none

/-- Every core instruction's word decodes to it (R27, R30, R34, R48): no bit of an operand, of a code, of the guard or of a hint is lost. -/
def Obligations.CoreRoundTrip : Prop :=
  ∀ regs i f, i.wf regs = true → coreForm i = some f → decodeCore regs (encodeCore f) = .ok i

/-- Every word that decodes is the word of its instruction, which is well formed for the launch (R29, R31, R32, R47): no two words mean the same, and
every reserved bit is zero. -/
def Obligations.CoreWordsAreInstructions : Prop :=
  ∀ regs w i, decodeCore regs w = .ok i → i.wf regs = true ∧ ∃ f, coreForm i = some f ∧ encodeCore f = w

/-- A walker word decodes to an instruction exactly where it is that instruction's word (R265 to R267). -/
def Obligations.WalkerRoundTrip : Prop :=
  ∀ w i, decodeWalker w = some i ↔ ∃ f, walkerFields i = some f ∧ BitVec.ofNat 32 f.toNat = w

/-- Every step keeps device memory in its canonical form: addresses rise strictly, and no listed byte is zero.
Where the manual leaves a point open, the clauses rest on the model's readings of log 33. -/
def Obligations.StepKeepsMemory : Prop := ∀ s t, MemOk s → step s = .next t → MemOk t

/-- The module when power is good (R376, R379, R382): TIME is 0, nothing has booted, no team, partition or context stands, every byte of memory reads
0 (the model's choice, log 33), and memory has its canonical form. -/
def Obligations.ResetState : Prop :=
  MemOk State.reset ∧ State.reset.now = 0 ∧ State.reset.boot.powered = true ∧ State.reset.boot.booted = false ∧ State.reset.teams = [] ∧
  State.reset.m.issueQ = [] ∧ (∀ p, (State.reset.part p).live = false) ∧ (∀ c, (State.reset.core c).owner = none) ∧
  (∀ a, Mem.read State.reset.mem a = 0) ∧ ∀ p, (Tbl.getD State.reset.links.ports p {}).up = false
end

