-- ==== Sys2Proof/Laws/Tbl.lean ====
section
/-! SUPPORT. Laws of tables and memories: reads after writes, and that every operation keeps the canonical form. -/

namespace Sys2Proof.Machine

open Sys2Proof

-- reads after writes

@[simp] theorem Tbl.find_nil {α : Type} (k : Nat) : Tbl.find ([] : Tbl α) k = none := rfl

@[simp] theorem Tbl.find_put_self {α : Type} (t : Tbl α) (k : Nat) (v : α) : Tbl.find (Tbl.put t k v) k = some v := by
  induction t with
  | nil => simp [Tbl.put, Tbl.find]
  | cons e t ih =>
    obtain ⟨k', v'⟩ := e
    simp only [Tbl.put]
    split
    · simp [Tbl.find]
    · split
      · simp [Tbl.find]
      · simp [Tbl.find, *]

theorem Tbl.find_put_other {α : Type} (t : Tbl α) {k j : Nat} (v : α) (h : j ≠ k) : Tbl.find (Tbl.put t k v) j = Tbl.find t j := by
  induction t with
  | nil => simp [Tbl.put, Tbl.find, Ne.symm h]
  | cons e t ih =>
    obtain ⟨k', v'⟩ := e
    simp only [Tbl.put]
    split
    · simp [Tbl.find, Ne.symm h]
    · split
      · rename_i h1 h2
        subst h2
        simp [Tbl.find, Ne.symm h]
      · simp [Tbl.find, ih]

theorem Tbl.find_put {α : Type} (t : Tbl α) (k j : Nat) (v : α) :
    Tbl.find (Tbl.put t k v) j = if j = k then some v else Tbl.find t j := by
  split
  · rename_i h; subst h; simp
  · rename_i h; exact Tbl.find_put_other t v h

@[simp] theorem Tbl.getD_put_self {α : Type} (t : Tbl α) (k : Nat) (v d : α) : Tbl.getD (Tbl.put t k v) k d = v := by
  simp [Tbl.getD]

theorem Tbl.getD_put_other {α : Type} (t : Tbl α) {k j : Nat} (v d : α) (h : j ≠ k) :
    Tbl.getD (Tbl.put t k v) j d = Tbl.getD t j d := by
  simp [Tbl.getD, Tbl.find_put_other t v h]

theorem Tbl.getD_put {α : Type} (t : Tbl α) (k j : Nat) (v d : α) :
    Tbl.getD (Tbl.put t k v) j d = if j = k then v else Tbl.getD t j d := by
  split
  · rename_i h; subst h; simp
  · rename_i h; exact Tbl.getD_put_other t v d h

@[simp] theorem Tbl.getD_upd_self {α : Type} (t : Tbl α) (k : Nat) (d : α) (f : α → α) :
    Tbl.getD (Tbl.upd t k d f) k d = f (Tbl.getD t k d) := by
  simp [Tbl.upd]

theorem Tbl.getD_upd_other {α : Type} (t : Tbl α) {k j : Nat} (d : α) (f : α → α) (h : j ≠ k) :
    Tbl.getD (Tbl.upd t k d f) j d = Tbl.getD t j d := by
  simp [Tbl.upd, Tbl.getD_put_other t _ d h]

theorem Tbl.getD_of_find {α : Type} {t : Tbl α} {k : Nat} {v : α} (d : α) (h : Tbl.find t k = some v) : Tbl.getD t k d = v := by
  simp [Tbl.getD, h]

@[simp] theorem Tbl.find_del_self {α : Type} (t : Tbl α) (k : Nat) : Tbl.find (Tbl.del t k) k = none := by
  induction t with
  | nil => rfl
  | cons e t ih =>
    obtain ⟨k', v'⟩ := e
    simp only [Tbl.del]
    split
    · exact ih
    · simp [Tbl.find, *]

theorem Tbl.find_del_other {α : Type} (t : Tbl α) {k j : Nat} (h : j ≠ k) : Tbl.find (Tbl.del t k) j = Tbl.find t j := by
  induction t with
  | nil => rfl
  | cons e t ih =>
    obtain ⟨k', v'⟩ := e
    simp only [Tbl.del]
    split
    · rename_i h1
      subst h1
      simp [Tbl.find, Ne.symm h, ih]
    · simp [Tbl.find, ih]

-- the canonical form of tables

theorem Tbl.wfFrom_mono {α : Type} {a b : Nat} (h : a ≤ b) {t : Tbl α} (w : Tbl.wfFrom b t = true) : Tbl.wfFrom a t = true := by
  cases t with
  | nil => rfl
  | cons e t =>
    obtain ⟨k, v⟩ := e
    simp only [Tbl.wfFrom, Bool.and_eq_true, decide_eq_true_eq] at w ⊢
    exact ⟨by omega, w.2⟩

theorem Tbl.wfFrom_put {α : Type} (t : Tbl α) {lo k : Nat} (v : α) (h : lo ≤ k) (w : Tbl.wfFrom lo t = true) :
    Tbl.wfFrom lo (Tbl.put t k v) = true := by
  induction t generalizing lo with
  | nil => simp [Tbl.put, Tbl.wfFrom, h]
  | cons e t ih =>
    obtain ⟨k', v'⟩ := e
    simp only [Tbl.wfFrom, Bool.and_eq_true, decide_eq_true_eq] at w
    simp only [Tbl.put]
    split
    · simp only [Tbl.wfFrom, Bool.and_eq_true, decide_eq_true_eq]
      exact ⟨h, by omega, w.2⟩
    · split
      · rename_i h1 h2
        subst h2
        simp only [Tbl.wfFrom, Bool.and_eq_true, decide_eq_true_eq]
        exact ⟨h, w.2⟩
      · simp only [Tbl.wfFrom, Bool.and_eq_true, decide_eq_true_eq]
        exact ⟨w.1, ih (by omega) w.2⟩

theorem Tbl.wf_put {α : Type} {t : Tbl α} (k : Nat) (v : α) (w : Tbl.wf t = true) : Tbl.wf (Tbl.put t k v) = true :=
  Tbl.wfFrom_put t v (Nat.zero_le k) w

theorem Tbl.wf_upd {α : Type} {t : Tbl α} (k : Nat) (d : α) (f : α → α) (w : Tbl.wf t = true) : Tbl.wf (Tbl.upd t k d f) = true :=
  Tbl.wf_put k _ w

theorem Tbl.wfFrom_filter {α : Type} (p : Nat × α → Bool) (t : Tbl α) {lo : Nat} (w : Tbl.wfFrom lo t = true) :
    Tbl.wfFrom lo (t.filter p) = true := by
  induction t generalizing lo with
  | nil => rfl
  | cons e t ih =>
    obtain ⟨k, v⟩ := e
    simp only [Tbl.wfFrom, Bool.and_eq_true, decide_eq_true_eq] at w
    simp only [List.filter_cons]
    split
    · simp only [Tbl.wfFrom, Bool.and_eq_true, decide_eq_true_eq]
      exact ⟨w.1, ih w.2⟩
    · exact Tbl.wfFrom_mono (by omega) (ih w.2)

theorem Tbl.wf_filter {α : Type} (p : Nat × α → Bool) {t : Tbl α} (w : Tbl.wf t = true) : Tbl.wf (t.filter p) = true :=
  Tbl.wfFrom_filter p t w

theorem Tbl.del_eq_filter {α : Type} (t : Tbl α) (k : Nat) : Tbl.del t k = t.filter (fun e => decide (e.1 ≠ k)) := by
  induction t with
  | nil => rfl
  | cons e t ih =>
    obtain ⟨k', v'⟩ := e
    simp only [Tbl.del, List.filter_cons]
    split <;> simp_all

theorem Tbl.wf_del {α : Type} {t : Tbl α} (k : Nat) (w : Tbl.wf t = true) : Tbl.wf (Tbl.del t k) = true := by
  rw [Tbl.del_eq_filter]
  exact Tbl.wf_filter _ w

theorem Tbl.mem_put {α : Type} {t : Tbl α} {k : Nat} {v : α} {e : Nat × α} (h : e ∈ Tbl.put t k v) : e = (k, v) ∨ e ∈ t := by
  induction t with
  | nil => simpa [Tbl.put] using h
  | cons x t ih =>
    obtain ⟨k', v'⟩ := x
    simp only [Tbl.put] at h
    split at h
    · simpa using h
    · split at h
      · rcases List.mem_cons.mp h with h | h
        · exact .inl h
        · exact .inr (List.mem_cons_of_mem _ h)
      · rcases List.mem_cons.mp h with h | h
        · exact .inr (by simp [h])
        · rcases ih h with h | h
          · exact .inl h
          · exact .inr (List.mem_cons_of_mem _ h)

-- memory

theorem Mem.read_write (m : Mem) (a b : Nat) (x : Byte) : Mem.read (Mem.write m a x) b = if b = a then x else Mem.read m b := by
  simp only [Mem.read, Mem.write]
  by_cases h : b = a
  · subst h
    by_cases hx : x = Mem.blank
    · simp [hx, Tbl.getD]
    · simp [hx]
  · by_cases hx : x = Mem.blank
    · simp [hx, h, Tbl.getD, Tbl.find_del_other m h]
    · simp [hx, h, Tbl.getD_put_other m x Mem.blank h]

@[simp] theorem Mem.read_write_self (m : Mem) (a : Nat) (x : Byte) : Mem.read (Mem.write m a x) a = x := by simp [Mem.read_write]

theorem Mem.read_write_other (m : Mem) {a b : Nat} (x : Byte) (h : b ≠ a) : Mem.read (Mem.write m a x) b = Mem.read m b := by
  simp [Mem.read_write, h]

/-- A byte read after a list of bytes is written: the one written there, or the one that stood. -/
theorem Mem.read_writeN (bs : List Byte) (m : Mem) (a b : Nat) :
    Mem.read (Mem.writeN m a bs) b = if a ≤ b ∧ b < a + bs.length then bs.getD (b - a) 0 else Mem.read m b := by
  induction bs generalizing m a with
  | nil => simp [Mem.writeN]; try omega
  | cons x bs ih =>
    rw [Mem.writeN, ih, Mem.read_write]
    by_cases h0 : b = a
    · subst h0
      have h1 : ¬(b + 1 ≤ b ∧ b < b + 1 + bs.length) := by omega
      have h2 : b ≤ b ∧ b < b + (x :: bs).length := by simp
      rw [if_neg h1, if_pos h2]
      simp
    · by_cases h1 : a + 1 ≤ b ∧ b < a + 1 + bs.length
      · have h2 : a ≤ b ∧ b < a + (x :: bs).length := by simp; omega
        rw [if_pos h1, if_pos h2]
        have h3 : b - a = (b - (a + 1)) + 1 := by omega
        rw [h3]
        simp
      · have h2 : ¬(a ≤ b ∧ b < a + (x :: bs).length) := by simp; omega
        rw [if_neg h1, if_neg h2, if_neg h0]

theorem Mem.wf_write {m : Mem} (a : Nat) (x : Byte) (w : Mem.wf m = true) : Mem.wf (Mem.write m a x) = true := by
  simp only [Mem.wf, Bool.and_eq_true] at w
  simp only [Mem.wf, Mem.write, Bool.and_eq_true]
  split
  · refine ⟨Tbl.wf_del a w.1, ?_⟩
    rw [Tbl.del_eq_filter]
    rw [List.all_eq_true] at *
    intro e he
    exact w.2 e (List.mem_filter.mp he).1
  · rename_i hx
    refine ⟨Tbl.wf_put a x w.1, ?_⟩
    rw [List.all_eq_true] at *
    intro e he
    rcases Tbl.mem_put he with h | h
    · subst h; simp [hx]
    · exact w.2 e h

theorem Mem.wf_writeN {m : Mem} (a : Nat) (bs : List Byte) (w : Mem.wf m = true) : Mem.wf (Mem.writeN m a bs) = true := by
  induction bs generalizing m a with
  | nil => exact w
  | cons x bs ih => exact ih _ (Mem.wf_write a x w)

theorem Mem.wf_filter {m : Mem} (p : Host.Cell → Bool) (w : Mem.wf m = true) : Mem.wf (m.filter p) = true := by
  simp only [Mem.wf, Bool.and_eq_true] at w ⊢
  refine ⟨Tbl.wf_filter p w.1, ?_⟩
  rw [List.all_eq_true] at *
  intro e he
  exact w.2 e (List.mem_filter.mp he).1

end Sys2Proof.Machine
end

