-- ==== Sys2Proof/Laws/State.lean ====
section
/-! SUPPORT. Laws of the state: for each update, one lemma for each field that it leaves alone; what accessors find after updates. -/

namespace Sys2Proof.Machine

open Sys2Proof

-- setCur

@[simp] theorem State.setCur_ps (s : State) (c : Cur) : (s.setCur c).ps = s.ps := rfl
@[simp] theorem State.setCur_boot (s : State) (c : Cur) : (s.setCur c).boot = s.boot := rfl
@[simp] theorem State.setCur_mem (s : State) (c : Cur) : (s.setCur c).mem = s.mem := rfl
@[simp] theorem State.setCur_lines (s : State) (c : Cur) : (s.setCur c).lines = s.lines := rfl
@[simp] theorem State.setCur_stored (s : State) (c : Cur) : (s.setCur c).stored = s.stored := rfl
@[simp] theorem State.setCur_slices (s : State) (c : Cur) : (s.setCur c).slices = s.slices := rfl
@[simp] theorem State.setCur_cells (s : State) (c : Cur) : (s.setCur c).cells = s.cells := rfl
@[simp] theorem State.setCur_cores (s : State) (c : Cur) : (s.setCur c).cores = s.cores := rfl
@[simp] theorem State.setCur_teams (s : State) (c : Cur) : (s.setCur c).teams = s.teams := rfl
@[simp] theorem State.setCur_parts (s : State) (c : Cur) : (s.setCur c).parts = s.parts := rfl
@[simp] theorem State.setCur_slots (s : State) (c : Cur) : (s.setCur c).slots = s.slots := rfl
@[simp] theorem State.setCur_grids (s : State) (c : Cur) : (s.setCur c).grids = s.grids := rfl
@[simp] theorem State.setCur_waiters (s : State) (c : Cur) : (s.setCur c).waiters = s.waiters := rfl
@[simp] theorem State.setCur_adds (s : State) (c : Cur) : (s.setCur c).adds = s.adds := rfl
@[simp] theorem State.setCur_subs (s : State) (c : Cur) : (s.setCur c).subs = s.subs := rfl
@[simp] theorem State.setCur_links (s : State) (c : Cur) : (s.setCur c).links = s.links := rfl
@[simp] theorem State.setCur_unpubSys (s : State) (c : Cur) : (s.setCur c).unpubSys = s.unpubSys := rfl
@[simp] theorem State.setCur_reports (s : State) (c : Cur) : (s.setCur c).reports = s.reports := rfl

-- bumpId

@[simp] theorem State.bumpId_ps (s : State) : (s.bumpId).ps = s.ps := rfl
@[simp] theorem State.bumpId_boot (s : State) : (s.bumpId).boot = s.boot := rfl
@[simp] theorem State.bumpId_mem (s : State) : (s.bumpId).mem = s.mem := rfl
@[simp] theorem State.bumpId_lines (s : State) : (s.bumpId).lines = s.lines := rfl
@[simp] theorem State.bumpId_stored (s : State) : (s.bumpId).stored = s.stored := rfl
@[simp] theorem State.bumpId_slices (s : State) : (s.bumpId).slices = s.slices := rfl
@[simp] theorem State.bumpId_cells (s : State) : (s.bumpId).cells = s.cells := rfl
@[simp] theorem State.bumpId_cores (s : State) : (s.bumpId).cores = s.cores := rfl
@[simp] theorem State.bumpId_teams (s : State) : (s.bumpId).teams = s.teams := rfl
@[simp] theorem State.bumpId_parts (s : State) : (s.bumpId).parts = s.parts := rfl
@[simp] theorem State.bumpId_slots (s : State) : (s.bumpId).slots = s.slots := rfl
@[simp] theorem State.bumpId_grids (s : State) : (s.bumpId).grids = s.grids := rfl
@[simp] theorem State.bumpId_waiters (s : State) : (s.bumpId).waiters = s.waiters := rfl
@[simp] theorem State.bumpId_adds (s : State) : (s.bumpId).adds = s.adds := rfl
@[simp] theorem State.bumpId_subs (s : State) : (s.bumpId).subs = s.subs := rfl
@[simp] theorem State.bumpId_links (s : State) : (s.bumpId).links = s.links := rfl
@[simp] theorem State.bumpId_unpubSys (s : State) : (s.bumpId).unpubSys = s.unpubSys := rfl
@[simp] theorem State.bumpId_reports (s : State) : (s.bumpId).reports = s.reports := rfl

-- bumpFree

@[simp] theorem State.bumpFree_ps (s : State) : (s.bumpFree).ps = s.ps := rfl
@[simp] theorem State.bumpFree_boot (s : State) : (s.bumpFree).boot = s.boot := rfl
@[simp] theorem State.bumpFree_mem (s : State) : (s.bumpFree).mem = s.mem := rfl
@[simp] theorem State.bumpFree_lines (s : State) : (s.bumpFree).lines = s.lines := rfl
@[simp] theorem State.bumpFree_stored (s : State) : (s.bumpFree).stored = s.stored := rfl
@[simp] theorem State.bumpFree_slices (s : State) : (s.bumpFree).slices = s.slices := rfl
@[simp] theorem State.bumpFree_cells (s : State) : (s.bumpFree).cells = s.cells := rfl
@[simp] theorem State.bumpFree_cores (s : State) : (s.bumpFree).cores = s.cores := rfl
@[simp] theorem State.bumpFree_teams (s : State) : (s.bumpFree).teams = s.teams := rfl
@[simp] theorem State.bumpFree_parts (s : State) : (s.bumpFree).parts = s.parts := rfl
@[simp] theorem State.bumpFree_slots (s : State) : (s.bumpFree).slots = s.slots := rfl
@[simp] theorem State.bumpFree_grids (s : State) : (s.bumpFree).grids = s.grids := rfl
@[simp] theorem State.bumpFree_waiters (s : State) : (s.bumpFree).waiters = s.waiters := rfl
@[simp] theorem State.bumpFree_adds (s : State) : (s.bumpFree).adds = s.adds := rfl
@[simp] theorem State.bumpFree_subs (s : State) : (s.bumpFree).subs = s.subs := rfl
@[simp] theorem State.bumpFree_links (s : State) : (s.bumpFree).links = s.links := rfl
@[simp] theorem State.bumpFree_unpubSys (s : State) : (s.bumpFree).unpubSys = s.unpubSys := rfl
@[simp] theorem State.bumpFree_reports (s : State) : (s.bumpFree).reports = s.reports := rfl

-- report

@[simp] theorem State.report_m (s : State) (r : Report) : (s.report r).m = s.m := rfl
@[simp] theorem State.report_ps (s : State) (r : Report) : (s.report r).ps = s.ps := rfl
@[simp] theorem State.report_boot (s : State) (r : Report) : (s.report r).boot = s.boot := rfl
@[simp] theorem State.report_mem (s : State) (r : Report) : (s.report r).mem = s.mem := rfl
@[simp] theorem State.report_lines (s : State) (r : Report) : (s.report r).lines = s.lines := rfl
@[simp] theorem State.report_stored (s : State) (r : Report) : (s.report r).stored = s.stored := rfl
@[simp] theorem State.report_slices (s : State) (r : Report) : (s.report r).slices = s.slices := rfl
@[simp] theorem State.report_cells (s : State) (r : Report) : (s.report r).cells = s.cells := rfl
@[simp] theorem State.report_cores (s : State) (r : Report) : (s.report r).cores = s.cores := rfl
@[simp] theorem State.report_teams (s : State) (r : Report) : (s.report r).teams = s.teams := rfl
@[simp] theorem State.report_parts (s : State) (r : Report) : (s.report r).parts = s.parts := rfl
@[simp] theorem State.report_slots (s : State) (r : Report) : (s.report r).slots = s.slots := rfl
@[simp] theorem State.report_grids (s : State) (r : Report) : (s.report r).grids = s.grids := rfl
@[simp] theorem State.report_waiters (s : State) (r : Report) : (s.report r).waiters = s.waiters := rfl
@[simp] theorem State.report_adds (s : State) (r : Report) : (s.report r).adds = s.adds := rfl
@[simp] theorem State.report_subs (s : State) (r : Report) : (s.report r).subs = s.subs := rfl
@[simp] theorem State.report_links (s : State) (r : Report) : (s.report r).links = s.links := rfl
@[simp] theorem State.report_unpubSys (s : State) (r : Report) : (s.report r).unpubSys = s.unpubSys := rfl

-- modCore

@[simp] theorem State.modCore_m (s : State) (c : Nat) (f : Core → Core) : (s.modCore c f).m = s.m := rfl
@[simp] theorem State.modCore_ps (s : State) (c : Nat) (f : Core → Core) : (s.modCore c f).ps = s.ps := rfl
@[simp] theorem State.modCore_boot (s : State) (c : Nat) (f : Core → Core) : (s.modCore c f).boot = s.boot := rfl
@[simp] theorem State.modCore_mem (s : State) (c : Nat) (f : Core → Core) : (s.modCore c f).mem = s.mem := rfl
@[simp] theorem State.modCore_lines (s : State) (c : Nat) (f : Core → Core) : (s.modCore c f).lines = s.lines := rfl
@[simp] theorem State.modCore_stored (s : State) (c : Nat) (f : Core → Core) : (s.modCore c f).stored = s.stored := rfl
@[simp] theorem State.modCore_slices (s : State) (c : Nat) (f : Core → Core) : (s.modCore c f).slices = s.slices := rfl
@[simp] theorem State.modCore_cells (s : State) (c : Nat) (f : Core → Core) : (s.modCore c f).cells = s.cells := rfl
@[simp] theorem State.modCore_teams (s : State) (c : Nat) (f : Core → Core) : (s.modCore c f).teams = s.teams := rfl
@[simp] theorem State.modCore_parts (s : State) (c : Nat) (f : Core → Core) : (s.modCore c f).parts = s.parts := rfl
@[simp] theorem State.modCore_slots (s : State) (c : Nat) (f : Core → Core) : (s.modCore c f).slots = s.slots := rfl
@[simp] theorem State.modCore_grids (s : State) (c : Nat) (f : Core → Core) : (s.modCore c f).grids = s.grids := rfl
@[simp] theorem State.modCore_waiters (s : State) (c : Nat) (f : Core → Core) : (s.modCore c f).waiters = s.waiters := rfl
@[simp] theorem State.modCore_adds (s : State) (c : Nat) (f : Core → Core) : (s.modCore c f).adds = s.adds := rfl
@[simp] theorem State.modCore_subs (s : State) (c : Nat) (f : Core → Core) : (s.modCore c f).subs = s.subs := rfl
@[simp] theorem State.modCore_links (s : State) (c : Nat) (f : Core → Core) : (s.modCore c f).links = s.links := rfl
@[simp] theorem State.modCore_unpubSys (s : State) (c : Nat) (f : Core → Core) : (s.modCore c f).unpubSys = s.unpubSys := rfl
@[simp] theorem State.modCore_reports (s : State) (c : Nat) (f : Core → Core) : (s.modCore c f).reports = s.reports := rfl

-- modCell

@[simp] theorem State.modCell_m (s : State) (c : Nat) (f : Cell → Cell) : (s.modCell c f).m = s.m := rfl
@[simp] theorem State.modCell_ps (s : State) (c : Nat) (f : Cell → Cell) : (s.modCell c f).ps = s.ps := rfl
@[simp] theorem State.modCell_boot (s : State) (c : Nat) (f : Cell → Cell) : (s.modCell c f).boot = s.boot := rfl
@[simp] theorem State.modCell_mem (s : State) (c : Nat) (f : Cell → Cell) : (s.modCell c f).mem = s.mem := rfl
@[simp] theorem State.modCell_lines (s : State) (c : Nat) (f : Cell → Cell) : (s.modCell c f).lines = s.lines := rfl
@[simp] theorem State.modCell_stored (s : State) (c : Nat) (f : Cell → Cell) : (s.modCell c f).stored = s.stored := rfl
@[simp] theorem State.modCell_slices (s : State) (c : Nat) (f : Cell → Cell) : (s.modCell c f).slices = s.slices := rfl
@[simp] theorem State.modCell_cores (s : State) (c : Nat) (f : Cell → Cell) : (s.modCell c f).cores = s.cores := rfl
@[simp] theorem State.modCell_teams (s : State) (c : Nat) (f : Cell → Cell) : (s.modCell c f).teams = s.teams := rfl
@[simp] theorem State.modCell_parts (s : State) (c : Nat) (f : Cell → Cell) : (s.modCell c f).parts = s.parts := rfl
@[simp] theorem State.modCell_slots (s : State) (c : Nat) (f : Cell → Cell) : (s.modCell c f).slots = s.slots := rfl
@[simp] theorem State.modCell_grids (s : State) (c : Nat) (f : Cell → Cell) : (s.modCell c f).grids = s.grids := rfl
@[simp] theorem State.modCell_waiters (s : State) (c : Nat) (f : Cell → Cell) : (s.modCell c f).waiters = s.waiters := rfl
@[simp] theorem State.modCell_adds (s : State) (c : Nat) (f : Cell → Cell) : (s.modCell c f).adds = s.adds := rfl
@[simp] theorem State.modCell_subs (s : State) (c : Nat) (f : Cell → Cell) : (s.modCell c f).subs = s.subs := rfl
@[simp] theorem State.modCell_links (s : State) (c : Nat) (f : Cell → Cell) : (s.modCell c f).links = s.links := rfl
@[simp] theorem State.modCell_unpubSys (s : State) (c : Nat) (f : Cell → Cell) : (s.modCell c f).unpubSys = s.unpubSys := rfl
@[simp] theorem State.modCell_reports (s : State) (c : Nat) (f : Cell → Cell) : (s.modCell c f).reports = s.reports := rfl

-- modSlice

@[simp] theorem State.modSlice_m (s : State) (c : Nat) (f : Slice → Slice) : (s.modSlice c f).m = s.m := rfl
@[simp] theorem State.modSlice_ps (s : State) (c : Nat) (f : Slice → Slice) : (s.modSlice c f).ps = s.ps := rfl
@[simp] theorem State.modSlice_boot (s : State) (c : Nat) (f : Slice → Slice) : (s.modSlice c f).boot = s.boot := rfl
@[simp] theorem State.modSlice_mem (s : State) (c : Nat) (f : Slice → Slice) : (s.modSlice c f).mem = s.mem := rfl
@[simp] theorem State.modSlice_lines (s : State) (c : Nat) (f : Slice → Slice) : (s.modSlice c f).lines = s.lines := rfl
@[simp] theorem State.modSlice_stored (s : State) (c : Nat) (f : Slice → Slice) : (s.modSlice c f).stored = s.stored := rfl
@[simp] theorem State.modSlice_cells (s : State) (c : Nat) (f : Slice → Slice) : (s.modSlice c f).cells = s.cells := rfl
@[simp] theorem State.modSlice_cores (s : State) (c : Nat) (f : Slice → Slice) : (s.modSlice c f).cores = s.cores := rfl
@[simp] theorem State.modSlice_teams (s : State) (c : Nat) (f : Slice → Slice) : (s.modSlice c f).teams = s.teams := rfl
@[simp] theorem State.modSlice_parts (s : State) (c : Nat) (f : Slice → Slice) : (s.modSlice c f).parts = s.parts := rfl
@[simp] theorem State.modSlice_slots (s : State) (c : Nat) (f : Slice → Slice) : (s.modSlice c f).slots = s.slots := rfl
@[simp] theorem State.modSlice_grids (s : State) (c : Nat) (f : Slice → Slice) : (s.modSlice c f).grids = s.grids := rfl
@[simp] theorem State.modSlice_waiters (s : State) (c : Nat) (f : Slice → Slice) : (s.modSlice c f).waiters = s.waiters := rfl
@[simp] theorem State.modSlice_adds (s : State) (c : Nat) (f : Slice → Slice) : (s.modSlice c f).adds = s.adds := rfl
@[simp] theorem State.modSlice_subs (s : State) (c : Nat) (f : Slice → Slice) : (s.modSlice c f).subs = s.subs := rfl
@[simp] theorem State.modSlice_links (s : State) (c : Nat) (f : Slice → Slice) : (s.modSlice c f).links = s.links := rfl
@[simp] theorem State.modSlice_unpubSys (s : State) (c : Nat) (f : Slice → Slice) : (s.modSlice c f).unpubSys = s.unpubSys := rfl
@[simp] theorem State.modSlice_reports (s : State) (c : Nat) (f : Slice → Slice) : (s.modSlice c f).reports = s.reports := rfl

-- modTeam

@[simp] theorem State.modTeam_m (s : State) (t : Nat) (f : Team → Team) : (s.modTeam t f).m = s.m := by unfold State.modTeam; split <;> rfl
@[simp] theorem State.modTeam_ps (s : State) (t : Nat) (f : Team → Team) : (s.modTeam t f).ps = s.ps := by unfold State.modTeam; split <;> rfl
@[simp] theorem State.modTeam_boot (s : State) (t : Nat) (f : Team → Team) : (s.modTeam t f).boot = s.boot := by unfold State.modTeam; split <;> rfl
@[simp] theorem State.modTeam_mem (s : State) (t : Nat) (f : Team → Team) : (s.modTeam t f).mem = s.mem := by unfold State.modTeam; split <;> rfl
@[simp] theorem State.modTeam_lines (s : State) (t : Nat) (f : Team → Team) : (s.modTeam t f).lines = s.lines := by unfold State.modTeam; split <;> rfl
@[simp] theorem State.modTeam_stored (s : State) (t : Nat) (f : Team → Team) : (s.modTeam t f).stored = s.stored := by unfold State.modTeam; split <;> rfl
@[simp] theorem State.modTeam_slices (s : State) (t : Nat) (f : Team → Team) : (s.modTeam t f).slices = s.slices := by unfold State.modTeam; split <;> rfl
@[simp] theorem State.modTeam_cells (s : State) (t : Nat) (f : Team → Team) : (s.modTeam t f).cells = s.cells := by unfold State.modTeam; split <;> rfl
@[simp] theorem State.modTeam_cores (s : State) (t : Nat) (f : Team → Team) : (s.modTeam t f).cores = s.cores := by unfold State.modTeam; split <;> rfl
@[simp] theorem State.modTeam_parts (s : State) (t : Nat) (f : Team → Team) : (s.modTeam t f).parts = s.parts := by unfold State.modTeam; split <;> rfl
@[simp] theorem State.modTeam_slots (s : State) (t : Nat) (f : Team → Team) : (s.modTeam t f).slots = s.slots := by unfold State.modTeam; split <;> rfl
@[simp] theorem State.modTeam_grids (s : State) (t : Nat) (f : Team → Team) : (s.modTeam t f).grids = s.grids := by unfold State.modTeam; split <;> rfl
@[simp] theorem State.modTeam_waiters (s : State) (t : Nat) (f : Team → Team) : (s.modTeam t f).waiters = s.waiters := by unfold State.modTeam; split <;> rfl
@[simp] theorem State.modTeam_adds (s : State) (t : Nat) (f : Team → Team) : (s.modTeam t f).adds = s.adds := by unfold State.modTeam; split <;> rfl
@[simp] theorem State.modTeam_subs (s : State) (t : Nat) (f : Team → Team) : (s.modTeam t f).subs = s.subs := by unfold State.modTeam; split <;> rfl
@[simp] theorem State.modTeam_links (s : State) (t : Nat) (f : Team → Team) : (s.modTeam t f).links = s.links := by unfold State.modTeam; split <;> rfl
@[simp] theorem State.modTeam_unpubSys (s : State) (t : Nat) (f : Team → Team) : (s.modTeam t f).unpubSys = s.unpubSys := by unfold State.modTeam; split <;> rfl
@[simp] theorem State.modTeam_reports (s : State) (t : Nat) (f : Team → Team) : (s.modTeam t f).reports = s.reports := by unfold State.modTeam; split <;> rfl

-- modPart

@[simp] theorem State.modPart_m (s : State) (p : Nat) (f : PartSt → PartSt) : (s.modPart p f).m = s.m := rfl
@[simp] theorem State.modPart_ps (s : State) (p : Nat) (f : PartSt → PartSt) : (s.modPart p f).ps = s.ps := rfl
@[simp] theorem State.modPart_boot (s : State) (p : Nat) (f : PartSt → PartSt) : (s.modPart p f).boot = s.boot := rfl
@[simp] theorem State.modPart_mem (s : State) (p : Nat) (f : PartSt → PartSt) : (s.modPart p f).mem = s.mem := rfl
@[simp] theorem State.modPart_lines (s : State) (p : Nat) (f : PartSt → PartSt) : (s.modPart p f).lines = s.lines := rfl
@[simp] theorem State.modPart_stored (s : State) (p : Nat) (f : PartSt → PartSt) : (s.modPart p f).stored = s.stored := rfl
@[simp] theorem State.modPart_slices (s : State) (p : Nat) (f : PartSt → PartSt) : (s.modPart p f).slices = s.slices := rfl
@[simp] theorem State.modPart_cells (s : State) (p : Nat) (f : PartSt → PartSt) : (s.modPart p f).cells = s.cells := rfl
@[simp] theorem State.modPart_cores (s : State) (p : Nat) (f : PartSt → PartSt) : (s.modPart p f).cores = s.cores := rfl
@[simp] theorem State.modPart_teams (s : State) (p : Nat) (f : PartSt → PartSt) : (s.modPart p f).teams = s.teams := rfl
@[simp] theorem State.modPart_slots (s : State) (p : Nat) (f : PartSt → PartSt) : (s.modPart p f).slots = s.slots := rfl
@[simp] theorem State.modPart_grids (s : State) (p : Nat) (f : PartSt → PartSt) : (s.modPart p f).grids = s.grids := rfl
@[simp] theorem State.modPart_waiters (s : State) (p : Nat) (f : PartSt → PartSt) : (s.modPart p f).waiters = s.waiters := rfl
@[simp] theorem State.modPart_adds (s : State) (p : Nat) (f : PartSt → PartSt) : (s.modPart p f).adds = s.adds := rfl
@[simp] theorem State.modPart_subs (s : State) (p : Nat) (f : PartSt → PartSt) : (s.modPart p f).subs = s.subs := rfl
@[simp] theorem State.modPart_links (s : State) (p : Nat) (f : PartSt → PartSt) : (s.modPart p f).links = s.links := rfl
@[simp] theorem State.modPart_unpubSys (s : State) (p : Nat) (f : PartSt → PartSt) : (s.modPart p f).unpubSys = s.unpubSys := rfl
@[simp] theorem State.modPart_reports (s : State) (p : Nat) (f : PartSt → PartSt) : (s.modPart p f).reports = s.reports := rfl

-- modLine

@[simp] theorem State.modLine_m (s : State) (l : Nat) (f : Line → Line) : (s.modLine l f).m = s.m := rfl
@[simp] theorem State.modLine_ps (s : State) (l : Nat) (f : Line → Line) : (s.modLine l f).ps = s.ps := rfl
@[simp] theorem State.modLine_boot (s : State) (l : Nat) (f : Line → Line) : (s.modLine l f).boot = s.boot := rfl
@[simp] theorem State.modLine_mem (s : State) (l : Nat) (f : Line → Line) : (s.modLine l f).mem = s.mem := rfl
@[simp] theorem State.modLine_stored (s : State) (l : Nat) (f : Line → Line) : (s.modLine l f).stored = s.stored := rfl
@[simp] theorem State.modLine_slices (s : State) (l : Nat) (f : Line → Line) : (s.modLine l f).slices = s.slices := rfl
@[simp] theorem State.modLine_cells (s : State) (l : Nat) (f : Line → Line) : (s.modLine l f).cells = s.cells := rfl
@[simp] theorem State.modLine_cores (s : State) (l : Nat) (f : Line → Line) : (s.modLine l f).cores = s.cores := rfl
@[simp] theorem State.modLine_teams (s : State) (l : Nat) (f : Line → Line) : (s.modLine l f).teams = s.teams := rfl
@[simp] theorem State.modLine_parts (s : State) (l : Nat) (f : Line → Line) : (s.modLine l f).parts = s.parts := rfl
@[simp] theorem State.modLine_slots (s : State) (l : Nat) (f : Line → Line) : (s.modLine l f).slots = s.slots := rfl
@[simp] theorem State.modLine_grids (s : State) (l : Nat) (f : Line → Line) : (s.modLine l f).grids = s.grids := rfl
@[simp] theorem State.modLine_waiters (s : State) (l : Nat) (f : Line → Line) : (s.modLine l f).waiters = s.waiters := rfl
@[simp] theorem State.modLine_adds (s : State) (l : Nat) (f : Line → Line) : (s.modLine l f).adds = s.adds := rfl
@[simp] theorem State.modLine_subs (s : State) (l : Nat) (f : Line → Line) : (s.modLine l f).subs = s.subs := rfl
@[simp] theorem State.modLine_links (s : State) (l : Nat) (f : Line → Line) : (s.modLine l f).links = s.links := rfl
@[simp] theorem State.modLine_unpubSys (s : State) (l : Nat) (f : Line → Line) : (s.modLine l f).unpubSys = s.unpubSys := rfl
@[simp] theorem State.modLine_reports (s : State) (l : Nat) (f : Line → Line) : (s.modLine l f).reports = s.reports := rfl

-- modThread

@[simp] theorem State.modThread_m (s : State) (t l : Nat) (f : Thread → Thread) : (s.modThread t l f).m = s.m := State.modTeam_m s t _
@[simp] theorem State.modThread_ps (s : State) (t l : Nat) (f : Thread → Thread) : (s.modThread t l f).ps = s.ps := State.modTeam_ps s t _
@[simp] theorem State.modThread_boot (s : State) (t l : Nat) (f : Thread → Thread) : (s.modThread t l f).boot = s.boot := State.modTeam_boot s t _
@[simp] theorem State.modThread_mem (s : State) (t l : Nat) (f : Thread → Thread) : (s.modThread t l f).mem = s.mem := State.modTeam_mem s t _
@[simp] theorem State.modThread_lines (s : State) (t l : Nat) (f : Thread → Thread) : (s.modThread t l f).lines = s.lines := State.modTeam_lines s t _
@[simp] theorem State.modThread_stored (s : State) (t l : Nat) (f : Thread → Thread) : (s.modThread t l f).stored = s.stored := State.modTeam_stored s t _
@[simp] theorem State.modThread_slices (s : State) (t l : Nat) (f : Thread → Thread) : (s.modThread t l f).slices = s.slices := State.modTeam_slices s t _
@[simp] theorem State.modThread_cells (s : State) (t l : Nat) (f : Thread → Thread) : (s.modThread t l f).cells = s.cells := State.modTeam_cells s t _
@[simp] theorem State.modThread_cores (s : State) (t l : Nat) (f : Thread → Thread) : (s.modThread t l f).cores = s.cores := State.modTeam_cores s t _
@[simp] theorem State.modThread_parts (s : State) (t l : Nat) (f : Thread → Thread) : (s.modThread t l f).parts = s.parts := State.modTeam_parts s t _
@[simp] theorem State.modThread_slots (s : State) (t l : Nat) (f : Thread → Thread) : (s.modThread t l f).slots = s.slots := State.modTeam_slots s t _
@[simp] theorem State.modThread_grids (s : State) (t l : Nat) (f : Thread → Thread) : (s.modThread t l f).grids = s.grids := State.modTeam_grids s t _
@[simp] theorem State.modThread_waiters (s : State) (t l : Nat) (f : Thread → Thread) : (s.modThread t l f).waiters = s.waiters := State.modTeam_waiters s t _
@[simp] theorem State.modThread_adds (s : State) (t l : Nat) (f : Thread → Thread) : (s.modThread t l f).adds = s.adds := State.modTeam_adds s t _
@[simp] theorem State.modThread_subs (s : State) (t l : Nat) (f : Thread → Thread) : (s.modThread t l f).subs = s.subs := State.modTeam_subs s t _
@[simp] theorem State.modThread_links (s : State) (t l : Nat) (f : Thread → Thread) : (s.modThread t l f).links = s.links := State.modTeam_links s t _
@[simp] theorem State.modThread_unpubSys (s : State) (t l : Nat) (f : Thread → Thread) : (s.modThread t l f).unpubSys = s.unpubSys := State.modTeam_unpubSys s t _
@[simp] theorem State.modThread_reports (s : State) (t l : Nat) (f : Thread → Thread) : (s.modThread t l f).reports = s.reports := State.modTeam_reports s t _

-- modCtx

@[simp] theorem State.modCtx_m (s : State) (p c : Nat) (f : Ctx → Ctx) : (s.modCtx p c f).m = s.m := rfl
@[simp] theorem State.modCtx_ps (s : State) (p c : Nat) (f : Ctx → Ctx) : (s.modCtx p c f).ps = s.ps := rfl
@[simp] theorem State.modCtx_boot (s : State) (p c : Nat) (f : Ctx → Ctx) : (s.modCtx p c f).boot = s.boot := rfl
@[simp] theorem State.modCtx_mem (s : State) (p c : Nat) (f : Ctx → Ctx) : (s.modCtx p c f).mem = s.mem := rfl
@[simp] theorem State.modCtx_lines (s : State) (p c : Nat) (f : Ctx → Ctx) : (s.modCtx p c f).lines = s.lines := rfl
@[simp] theorem State.modCtx_stored (s : State) (p c : Nat) (f : Ctx → Ctx) : (s.modCtx p c f).stored = s.stored := rfl
@[simp] theorem State.modCtx_slices (s : State) (p c : Nat) (f : Ctx → Ctx) : (s.modCtx p c f).slices = s.slices := rfl
@[simp] theorem State.modCtx_cells (s : State) (p c : Nat) (f : Ctx → Ctx) : (s.modCtx p c f).cells = s.cells := rfl
@[simp] theorem State.modCtx_cores (s : State) (p c : Nat) (f : Ctx → Ctx) : (s.modCtx p c f).cores = s.cores := rfl
@[simp] theorem State.modCtx_teams (s : State) (p c : Nat) (f : Ctx → Ctx) : (s.modCtx p c f).teams = s.teams := rfl
@[simp] theorem State.modCtx_slots (s : State) (p c : Nat) (f : Ctx → Ctx) : (s.modCtx p c f).slots = s.slots := rfl
@[simp] theorem State.modCtx_grids (s : State) (p c : Nat) (f : Ctx → Ctx) : (s.modCtx p c f).grids = s.grids := rfl
@[simp] theorem State.modCtx_waiters (s : State) (p c : Nat) (f : Ctx → Ctx) : (s.modCtx p c f).waiters = s.waiters := rfl
@[simp] theorem State.modCtx_adds (s : State) (p c : Nat) (f : Ctx → Ctx) : (s.modCtx p c f).adds = s.adds := rfl
@[simp] theorem State.modCtx_subs (s : State) (p c : Nat) (f : Ctx → Ctx) : (s.modCtx p c f).subs = s.subs := rfl
@[simp] theorem State.modCtx_links (s : State) (p c : Nat) (f : Ctx → Ctx) : (s.modCtx p c f).links = s.links := rfl
@[simp] theorem State.modCtx_unpubSys (s : State) (p c : Nat) (f : Ctx → Ctx) : (s.modCtx p c f).unpubSys = s.unpubSys := rfl
@[simp] theorem State.modCtx_reports (s : State) (p c : Nat) (f : Ctx → Ctx) : (s.modCtx p c f).reports = s.reports := rfl

-- countCore

@[simp] theorem State.countCore_m (s : State) (c p : Nat) (e : Ev) (n : Nat) : (s.countCore c p e n).m = s.m := rfl
@[simp] theorem State.countCore_ps (s : State) (c p : Nat) (e : Ev) (n : Nat) : (s.countCore c p e n).ps = s.ps := rfl
@[simp] theorem State.countCore_boot (s : State) (c p : Nat) (e : Ev) (n : Nat) : (s.countCore c p e n).boot = s.boot := rfl
@[simp] theorem State.countCore_mem (s : State) (c p : Nat) (e : Ev) (n : Nat) : (s.countCore c p e n).mem = s.mem := rfl
@[simp] theorem State.countCore_lines (s : State) (c p : Nat) (e : Ev) (n : Nat) : (s.countCore c p e n).lines = s.lines := rfl
@[simp] theorem State.countCore_stored (s : State) (c p : Nat) (e : Ev) (n : Nat) : (s.countCore c p e n).stored = s.stored := rfl
@[simp] theorem State.countCore_slices (s : State) (c p : Nat) (e : Ev) (n : Nat) : (s.countCore c p e n).slices = s.slices := rfl
@[simp] theorem State.countCore_cells (s : State) (c p : Nat) (e : Ev) (n : Nat) : (s.countCore c p e n).cells = s.cells := rfl
@[simp] theorem State.countCore_teams (s : State) (c p : Nat) (e : Ev) (n : Nat) : (s.countCore c p e n).teams = s.teams := rfl
@[simp] theorem State.countCore_parts (s : State) (c p : Nat) (e : Ev) (n : Nat) : (s.countCore c p e n).parts = s.parts := rfl
@[simp] theorem State.countCore_slots (s : State) (c p : Nat) (e : Ev) (n : Nat) : (s.countCore c p e n).slots = s.slots := rfl
@[simp] theorem State.countCore_grids (s : State) (c p : Nat) (e : Ev) (n : Nat) : (s.countCore c p e n).grids = s.grids := rfl
@[simp] theorem State.countCore_waiters (s : State) (c p : Nat) (e : Ev) (n : Nat) : (s.countCore c p e n).waiters = s.waiters := rfl
@[simp] theorem State.countCore_adds (s : State) (c p : Nat) (e : Ev) (n : Nat) : (s.countCore c p e n).adds = s.adds := rfl
@[simp] theorem State.countCore_subs (s : State) (c p : Nat) (e : Ev) (n : Nat) : (s.countCore c p e n).subs = s.subs := rfl
@[simp] theorem State.countCore_links (s : State) (c p : Nat) (e : Ev) (n : Nat) : (s.countCore c p e n).links = s.links := rfl
@[simp] theorem State.countCore_unpubSys (s : State) (c p : Nat) (e : Ev) (n : Nat) : (s.countCore c p e n).unpubSys = s.unpubSys := rfl
@[simp] theorem State.countCore_reports (s : State) (c p : Nat) (e : Ev) (n : Nat) : (s.countCore c p e n).reports = s.reports := rfl

-- countCell

@[simp] theorem State.countCell_m (s : State) (c p : Nat) (e : Ev) (n : Nat) : (s.countCell c p e n).m = s.m := rfl
@[simp] theorem State.countCell_ps (s : State) (c p : Nat) (e : Ev) (n : Nat) : (s.countCell c p e n).ps = s.ps := rfl
@[simp] theorem State.countCell_boot (s : State) (c p : Nat) (e : Ev) (n : Nat) : (s.countCell c p e n).boot = s.boot := rfl
@[simp] theorem State.countCell_mem (s : State) (c p : Nat) (e : Ev) (n : Nat) : (s.countCell c p e n).mem = s.mem := rfl
@[simp] theorem State.countCell_lines (s : State) (c p : Nat) (e : Ev) (n : Nat) : (s.countCell c p e n).lines = s.lines := rfl
@[simp] theorem State.countCell_stored (s : State) (c p : Nat) (e : Ev) (n : Nat) : (s.countCell c p e n).stored = s.stored := rfl
@[simp] theorem State.countCell_slices (s : State) (c p : Nat) (e : Ev) (n : Nat) : (s.countCell c p e n).slices = s.slices := rfl
@[simp] theorem State.countCell_cores (s : State) (c p : Nat) (e : Ev) (n : Nat) : (s.countCell c p e n).cores = s.cores := rfl
@[simp] theorem State.countCell_teams (s : State) (c p : Nat) (e : Ev) (n : Nat) : (s.countCell c p e n).teams = s.teams := rfl
@[simp] theorem State.countCell_parts (s : State) (c p : Nat) (e : Ev) (n : Nat) : (s.countCell c p e n).parts = s.parts := rfl
@[simp] theorem State.countCell_slots (s : State) (c p : Nat) (e : Ev) (n : Nat) : (s.countCell c p e n).slots = s.slots := rfl
@[simp] theorem State.countCell_grids (s : State) (c p : Nat) (e : Ev) (n : Nat) : (s.countCell c p e n).grids = s.grids := rfl
@[simp] theorem State.countCell_waiters (s : State) (c p : Nat) (e : Ev) (n : Nat) : (s.countCell c p e n).waiters = s.waiters := rfl
@[simp] theorem State.countCell_adds (s : State) (c p : Nat) (e : Ev) (n : Nat) : (s.countCell c p e n).adds = s.adds := rfl
@[simp] theorem State.countCell_subs (s : State) (c p : Nat) (e : Ev) (n : Nat) : (s.countCell c p e n).subs = s.subs := rfl
@[simp] theorem State.countCell_links (s : State) (c p : Nat) (e : Ev) (n : Nat) : (s.countCell c p e n).links = s.links := rfl
@[simp] theorem State.countCell_unpubSys (s : State) (c p : Nat) (e : Ev) (n : Nat) : (s.countCell c p e n).unpubSys = s.unpubSys := rfl
@[simp] theorem State.countCell_reports (s : State) (c p : Nat) (e : Ev) (n : Nat) : (s.countCell c p e n).reports = s.reports := rfl

-- countSlice

@[simp] theorem State.countSlice_m (s : State) (c p : Nat) (e : Ev) (n : Nat) : (s.countSlice c p e n).m = s.m := rfl
@[simp] theorem State.countSlice_ps (s : State) (c p : Nat) (e : Ev) (n : Nat) : (s.countSlice c p e n).ps = s.ps := rfl
@[simp] theorem State.countSlice_boot (s : State) (c p : Nat) (e : Ev) (n : Nat) : (s.countSlice c p e n).boot = s.boot := rfl
@[simp] theorem State.countSlice_mem (s : State) (c p : Nat) (e : Ev) (n : Nat) : (s.countSlice c p e n).mem = s.mem := rfl
@[simp] theorem State.countSlice_lines (s : State) (c p : Nat) (e : Ev) (n : Nat) : (s.countSlice c p e n).lines = s.lines := rfl
@[simp] theorem State.countSlice_stored (s : State) (c p : Nat) (e : Ev) (n : Nat) : (s.countSlice c p e n).stored = s.stored := rfl
@[simp] theorem State.countSlice_cells (s : State) (c p : Nat) (e : Ev) (n : Nat) : (s.countSlice c p e n).cells = s.cells := rfl
@[simp] theorem State.countSlice_cores (s : State) (c p : Nat) (e : Ev) (n : Nat) : (s.countSlice c p e n).cores = s.cores := rfl
@[simp] theorem State.countSlice_teams (s : State) (c p : Nat) (e : Ev) (n : Nat) : (s.countSlice c p e n).teams = s.teams := rfl
@[simp] theorem State.countSlice_parts (s : State) (c p : Nat) (e : Ev) (n : Nat) : (s.countSlice c p e n).parts = s.parts := rfl
@[simp] theorem State.countSlice_slots (s : State) (c p : Nat) (e : Ev) (n : Nat) : (s.countSlice c p e n).slots = s.slots := rfl
@[simp] theorem State.countSlice_grids (s : State) (c p : Nat) (e : Ev) (n : Nat) : (s.countSlice c p e n).grids = s.grids := rfl
@[simp] theorem State.countSlice_waiters (s : State) (c p : Nat) (e : Ev) (n : Nat) : (s.countSlice c p e n).waiters = s.waiters := rfl
@[simp] theorem State.countSlice_adds (s : State) (c p : Nat) (e : Ev) (n : Nat) : (s.countSlice c p e n).adds = s.adds := rfl
@[simp] theorem State.countSlice_subs (s : State) (c p : Nat) (e : Ev) (n : Nat) : (s.countSlice c p e n).subs = s.subs := rfl
@[simp] theorem State.countSlice_links (s : State) (c p : Nat) (e : Ev) (n : Nat) : (s.countSlice c p e n).links = s.links := rfl
@[simp] theorem State.countSlice_unpubSys (s : State) (c p : Nat) (e : Ev) (n : Nat) : (s.countSlice c p e n).unpubSys = s.unpubSys := rfl
@[simp] theorem State.countSlice_reports (s : State) (c p : Nat) (e : Ev) (n : Nat) : (s.countSlice c p e n).reports = s.reports := rfl

@[simp] theorem State.setCur_cur (s : State) (c : Cur) : (s.setCur c).m.cur = c := rfl
@[simp] theorem State.setCur_turns (s : State) (c : Cur) : (s.setCur c).m.turns = s.m.turns := rfl
@[simp] theorem State.setCur_issueQ (s : State) (c : Cur) : (s.setCur c).m.issueQ = s.m.issueQ := rfl
@[simp] theorem State.setCur_self (s : State) : s.setCur s.m.cur = s := rfl
@[simp] theorem State.bumpId_cur (s : State) : s.bumpId.m.cur = s.m.cur := rfl
@[simp] theorem State.bumpFree_cur (s : State) : s.bumpFree.m.cur = s.m.cur := rfl
@[simp] theorem State.bumpId_nextId (s : State) : s.bumpId.m.nextId = s.m.nextId + 1 := rfl

-- accessors after updates

@[simp] theorem State.core_modCore_self (s : State) (c : Nat) (f : Core → Core) : (s.modCore c f).core c = f (s.core c) := by
  simp [State.core, State.modCore]
theorem State.core_modCore_other (s : State) {c d : Nat} (f : Core → Core) (h : d ≠ c) : (s.modCore c f).core d = s.core d := by
  simp [State.core, State.modCore, Tbl.getD_upd_other _ _ _ h]
@[simp] theorem State.cell_modCell_self (s : State) (c : Nat) (f : Cell → Cell) : (s.modCell c f).cell c = f (s.cell c) := by
  simp [State.cell, State.modCell]
theorem State.cell_modCell_other (s : State) {c d : Nat} (f : Cell → Cell) (h : d ≠ c) : (s.modCell c f).cell d = s.cell d := by
  simp [State.cell, State.modCell, Tbl.getD_upd_other _ _ _ h]
@[simp] theorem State.slice_modSlice_self (s : State) (c : Nat) (f : Slice → Slice) : (s.modSlice c f).slice c = f (s.slice c) := by
  simp [State.slice, State.modSlice]
theorem State.slice_modSlice_other (s : State) {c d : Nat} (f : Slice → Slice) (h : d ≠ c) : (s.modSlice c f).slice d = s.slice d := by
  simp [State.slice, State.modSlice, Tbl.getD_upd_other _ _ _ h]
@[simp] theorem State.part_modPart_self (s : State) (p : Nat) (f : PartSt → PartSt) : (s.modPart p f).part p = f (s.part p) := by
  simp [State.part, State.modPart]
theorem State.part_modPart_other (s : State) {p q : Nat} (f : PartSt → PartSt) (h : q ≠ p) : (s.modPart p f).part q = s.part q := by
  simp [State.part, State.modPart, Tbl.getD_upd_other _ _ _ h]
@[simp] theorem State.line_modLine_self (s : State) (l : Nat) (f : Line → Line) : (s.modLine l f).line l = f (s.line l) := by
  simp [State.line, State.modLine]
theorem State.line_modLine_other (s : State) {l k : Nat} (f : Line → Line) (h : k ≠ l) : (s.modLine l f).line k = s.line k := by
  simp [State.line, State.modLine, Tbl.getD_upd_other _ _ _ h]

/-- A team that stands. -/
def State.hasTeam (s : State) (t : Nat) : Prop := (Tbl.find s.teams t).isSome = true

theorem State.modTeam_of_find {s : State} {t : Nat} {tm : Team} (f : Team → Team) (h : Tbl.find s.teams t = some tm) :
    s.modTeam t f = { s with teams := Tbl.put s.teams t (f tm) } := by
  simp [State.modTeam, h]

theorem State.team_modTeam_self {s : State} {t : Nat} (f : Team → Team) (h : s.hasTeam t) : (s.modTeam t f).team t = f (s.team t) := by
  obtain ⟨tm, e⟩ := Option.isSome_iff_exists.mp h
  have e' : s.team t = tm := Tbl.getD_of_find _ e
  rw [e', State.modTeam_of_find f e]
  simp [State.team]
theorem State.team_modTeam_other (s : State) {t u : Nat} (f : Team → Team) (h : u ≠ t) : (s.modTeam t f).team u = s.team u := by
  unfold State.modTeam
  split
  · simp [State.team, Tbl.getD_put_other _ _ _ h]
  · rfl
/-- A team's update shows in the team where it stands, and nowhere. -/
theorem State.team_modTeam (s : State) (t u : Nat) (f : Team → Team) :
    (s.modTeam t f).team u = if u = t ∧ (Tbl.find s.teams t).isSome then f (s.team t) else s.team u := by
  by_cases h : u = t
  · subst h
    by_cases e : (Tbl.find s.teams u).isSome
    · rw [if_pos ⟨rfl, e⟩]; exact State.team_modTeam_self f e
    · rw [if_neg (fun x => e x.2)]
      unfold State.modTeam
      split
      · rename_i tm hh; simp [hh] at e
      · rfl
  · rw [if_neg (fun x => h x.1)]; exact State.team_modTeam_other s f h

@[simp] theorem State.hasTeam_modTeam (s : State) (t u : Nat) (f : Team → Team) : (s.modTeam t f).hasTeam u ↔ s.hasTeam u := by
  unfold State.hasTeam State.modTeam
  split
  · rename_i tm hh
    simp only [Tbl.find_put]
    split
    · rename_i e; subst e; simp [hh]
    · rfl
  · rfl
@[simp] theorem State.hasTeam_modThread (s : State) (t l u : Nat) (f : Thread → Thread) : (s.modThread t l f).hasTeam u ↔ s.hasTeam u :=
  State.hasTeam_modTeam s t u _
theorem State.hasTeam_of_teams {s s' : State} {t : Nat} (h : s'.teams = s.teams) : s'.hasTeam t ↔ s.hasTeam t := by
  simp [State.hasTeam, h]
theorem State.team_of_teams {s s' : State} (h : s'.teams = s.teams) (t : Nat) : s'.team t = s.team t := by
  simp [State.team, h]
theorem State.thread_of_teams {s s' : State} (h : s'.teams = s.teams) (t l : Nat) : s'.thread t l = s.thread t l := by
  simp [State.thread, State.team, h]

-- threads of a team

@[simp] theorem Team.thread_modThread_self (tm : Team) (l : Nat) (f : Thread → Thread) : (tm.modThread l f).thread l = f (tm.thread l) := by
  simp [Team.thread, Team.modThread]
theorem Team.thread_modThread_other (tm : Team) {l k : Nat} (f : Thread → Thread) (h : k ≠ l) :
    (tm.modThread l f).thread k = tm.thread k := by
  simp [Team.thread, Team.modThread, Tbl.getD_upd_other _ _ _ h]
@[simp] theorem Team.modThread_hdr (tm : Team) (l : Nat) (f : Thread → Thread) : (tm.modThread l f).hdr = tm.hdr := rfl
@[simp] theorem Team.modThread_at_ (tm : Team) (l : Nat) (f : Thread → Thread) : (tm.modThread l f).at_ = tm.at_ := rfl
@[simp] theorem Team.modThread_al (tm : Team) (l : Nat) (f : Thread → Thread) : (tm.modThread l f).al = tm.al := rfl
@[simp] theorem Team.modThread_r (tm : Team) (l : Nat) (f : Thread → Thread) : (tm.modThread l f).r = tm.r := rfl
@[simp] theorem Team.modThread_sh (tm : Team) (l : Nat) (f : Thread → Thread) : (tm.modThread l f).sh = tm.sh := rfl
@[simp] theorem Team.modThread_groups (tm : Team) (l : Nat) (f : Thread → Thread) : (tm.modThread l f).groups = tm.groups := rfl
@[simp] theorem Team.modThread_heats (tm : Team) (l : Nat) (f : Thread → Thread) : (tm.modThread l f).heats = tm.heats := rfl
@[simp] theorem Team.modThread_unpub (tm : Team) (l : Nat) (f : Thread → Thread) : (tm.modThread l f).unpub = tm.unpub := rfl
@[simp] theorem Team.modThread_unpubR (tm : Team) (l : Nat) (f : Thread → Thread) : (tm.modThread l f).unpubR = tm.unpubR := rfl
@[simp] theorem Team.modThread_forced (tm : Team) (l : Nat) (f : Thread → Thread) : (tm.modThread l f).forced = tm.forced := rfl
@[simp] theorem Team.modThread_halted (tm : Team) (l : Nat) (f : Thread → Thread) : (tm.modThread l f).halted = tm.halted := rfl
@[simp] theorem Team.modThread_haltDouble (tm : Team) (l : Nat) (f : Thread → Thread) : (tm.modThread l f).haltDouble = tm.haltDouble := rfl
@[simp] theorem Team.modThread_stop (tm : Team) (l : Nat) (f : Thread → Thread) : (tm.modThread l f).stop = tm.stop := rfl
@[simp] theorem Team.modThread_stopped (tm : Team) (l : Nat) (f : Thread → Thread) : (tm.modThread l f).stopped = tm.stopped := rfl
@[simp] theorem Team.modThread_ended (tm : Team) (l : Nat) (f : Thread → Thread) : (tm.modThread l f).ended = tm.ended := rfl

theorem State.thread_modThread_self {s : State} {t : Nat} (l : Nat) (f : Thread → Thread) (h : s.hasTeam t) :
    (s.modThread t l f).thread t l = f (s.thread t l) := by
  simp [State.modThread, State.thread, State.team_modTeam_self _ h]
theorem State.thread_modThread_lane (s : State) (t : Nat) {l k : Nat} (f : Thread → Thread) (h : k ≠ l) :
    (s.modThread t l f).thread t k = s.thread t k := by
  simp only [State.modThread, State.thread, State.team_modTeam]
  split
  · exact Team.thread_modThread_other _ f h
  · rfl
theorem State.thread_modThread_team (s : State) {t u : Nat} (l k : Nat) (f : Thread → Thread) (h : u ≠ t) :
    (s.modThread t l f).thread u k = s.thread u k := by
  simp [State.modThread, State.thread, State.team_modTeam_other s _ h]
@[simp] theorem State.team_modThread_hdr (s : State) (t l u : Nat) (f : Thread → Thread) : ((s.modThread t l f).team u).hdr = (s.team u).hdr := by
  simp only [State.modThread, State.team_modTeam]; split <;> simp_all
@[simp] theorem State.team_modThread_at_ (s : State) (t l u : Nat) (f : Thread → Thread) : ((s.modThread t l f).team u).at_ = (s.team u).at_ := by
  simp only [State.modThread, State.team_modTeam]; split <;> simp_all
@[simp] theorem State.team_modThread_al (s : State) (t l u : Nat) (f : Thread → Thread) : ((s.modThread t l f).team u).al = (s.team u).al := by
  simp only [State.modThread, State.team_modTeam]; split <;> simp_all
@[simp] theorem State.team_modThread_r (s : State) (t l u : Nat) (f : Thread → Thread) : ((s.modThread t l f).team u).r = (s.team u).r := by
  simp only [State.modThread, State.team_modTeam]; split <;> simp_all
@[simp] theorem State.team_modThread_sh (s : State) (t l u : Nat) (f : Thread → Thread) : ((s.modThread t l f).team u).sh = (s.team u).sh := by
  simp only [State.modThread, State.team_modTeam]; split <;> simp_all
@[simp] theorem State.team_modThread_groups (s : State) (t l u : Nat) (f : Thread → Thread) : ((s.modThread t l f).team u).groups = (s.team u).groups := by
  simp only [State.modThread, State.team_modTeam]; split <;> simp_all
@[simp] theorem State.team_modThread_heats (s : State) (t l u : Nat) (f : Thread → Thread) : ((s.modThread t l f).team u).heats = (s.team u).heats := by
  simp only [State.modThread, State.team_modTeam]; split <;> simp_all
@[simp] theorem State.team_modThread_unpub (s : State) (t l u : Nat) (f : Thread → Thread) : ((s.modThread t l f).team u).unpub = (s.team u).unpub := by
  simp only [State.modThread, State.team_modTeam]; split <;> simp_all
@[simp] theorem State.team_modThread_unpubR (s : State) (t l u : Nat) (f : Thread → Thread) : ((s.modThread t l f).team u).unpubR = (s.team u).unpubR := by
  simp only [State.modThread, State.team_modTeam]; split <;> simp_all
@[simp] theorem State.team_modThread_halted (s : State) (t l u : Nat) (f : Thread → Thread) : ((s.modThread t l f).team u).halted = (s.team u).halted := by
  simp only [State.modThread, State.team_modTeam]; split <;> simp_all
@[simp] theorem State.team_modThread_ended (s : State) (t l u : Nat) (f : Thread → Thread) : ((s.modThread t l f).team u).ended = (s.team u).ended := by
  simp only [State.modThread, State.team_modTeam]; split <;> simp_all

end Sys2Proof.Machine
end

