-- ==== Sys2Proof/Laws/Issue.lean ====
section
/-! SUPPORT. What the skeleton of an issue does (R51): an effect that is done leaves its own state, with the issue's bookkeeping. -/

namespace Sys2Proof.Machine

open Sys2Proof Sys2Proof.Safety

/-- A lane's outcome that completes its instruction. -/
def Out.quiet : Out → Bool
  | .fault _ _ => false
  | .wait => false
  | .next => true
  | .jump _ => true
  | .stay => true

/-- The PC that an outcome gives a lane. -/
def Out.pcAfter (pc : PC) : Out → PC
  | .next => pc + 12
  | .jump p => p
  | .stay => pc
  | .wait => pc
  | .fault _ _ => pc

/-- The bookkeeping of an issue on one thread. -/
def advanced (pc : PC) (th : Thread) : Thread :=
  { th with
    r := { th.r with pc := pc }
    run := { th.run with ic := th.run.ic + 1, age := 0, xres := [], waitH := none, waitQ := none } }

theorem advance_eq (s : State) (t l : Nat) (pc : PC) : advance s t l pc = s.modThread t l (advanced pc) := rfl

theorem settle_quiet (s : State) (t l : Nat) (o : Out) (h : o.quiet = true) :
    settle s t l o = s.modThread t l (advanced (o.pcAfter (s.thread t l).r.pc)) := by
  cases o <;> first | rfl | simp [Out.quiet] at h

/-- A lane that does not fault is advanced to its outcome's PC, or past the instruction where it is guarded off. -/
def pcOut (st : Stage) (o : Out) (pc : PC) : PC :=
  match st with
  | .off => pc + 12
  | .act => o.pcAfter pc
  | .fault _ _ => pc

theorem settleStage_quiet (s : State) (t l : Nat) (st : Stage) (o : Out) (h : faulted st o = false)
    (hs : st = .act ∨ st = .off) : settleStage s t l st o = s.modThread t l (advanced (pcOut st o (s.thread t l).r.pc)) := by
  rcases hs with rfl | rfl
  · cases o <;> first | rfl | simp [faulted] at h
  · rfl

theorem Settled.refl (s : State) (i : Iss) (pc : Nat → PC) (h : ∀ l ∈ i.lanes, (s.thread i.team l).r.pc = pc l) : Settled s s i pc := by
  constructor <;> first | rfl | (intros; rfl) | (intros; exact ⟨rfl, rfl⟩) | exact h

/-- A change of one thread's PC and bookkeeping. -/
def threadKept (a b : Thread) : Prop :=
  b.r = { a.r with pc := b.r.pc } ∧ b.t = a.t ∧ b.out = a.out ∧ b.bound = a.bound ∧ b.binding = a.binding

theorem threadKept.trans {a b c : Thread} (x : threadKept a b) (y : threadKept b c) : threadKept a c := by
  obtain ⟨x1, x2, x3, x4, x5⟩ := x
  obtain ⟨y1, y2, y3, y4, y5⟩ := y
  refine ⟨?_, by rw [y2, x2], by rw [y3, x3], by rw [y4, x4], by rw [y5, x5]⟩
  rw [y1, x1]

/-- A change of a team's threads within what an issue may change, in the lanes of `ls`. -/
structure Kept (s t : State) (tm : Nat) (ls : List Nat) : Prop where
  rest : { t with m := s.m, teams := s.teams, cores := s.cores } = s
  m : t.m.cur = s.m.cur ∧ t.m.turns = s.m.turns ∧ t.m.issueQ = s.m.issueQ
  cores : ∀ c, { t.core c with ev := [] } = { s.core c with ev := [] }
  stands : ∀ u, t.hasTeam u ↔ s.hasTeam u
  others : ∀ u, u ≠ tm → t.team u = s.team u
  team : { t.team tm with threads := [], groups := [] } = { s.team tm with threads := [], groups := [] }
  kept : ∀ l, threadKept (s.thread tm l) (t.thread tm l)
  idle : ∀ l, l ∉ ls → t.thread tm l = s.thread tm l

theorem threadKept.refl (a : Thread) : threadKept a a := ⟨rfl, rfl, rfl, rfl, rfl⟩

theorem Kept.refl (s : State) (tm : Nat) (ls : List Nat) : Kept s s tm ls :=
  ⟨rfl, ⟨rfl, rfl, rfl⟩, fun _ => rfl, fun _ => Iff.rfl, fun _ _ => rfl, rfl, fun _ => threadKept.refl _, fun _ _ => rfl⟩

theorem Kept.trans {s t u : State} {tm : Nat} {ls : List Nat} (x : Kept s t tm ls) (y : Kept t u tm ls) : Kept s u tm ls where
  rest := by
    have h := y.rest
    have g := x.rest
    rw [← h] at g
    exact g
  m := ⟨y.m.1.trans x.m.1, y.m.2.1.trans x.m.2.1, y.m.2.2.trans x.m.2.2⟩
  cores c := (y.cores c).trans (x.cores c)
  stands u := (y.stands u).trans (x.stands u)
  others v h := (y.others v h).trans (x.others v h)
  team := y.team.trans x.team
  kept l := (x.kept l).trans (y.kept l)
  idle l h := (y.idle l h).trans (x.idle l h)

theorem Kept.mono {s t : State} {tm : Nat} {ls ks : List Nat} (x : Kept s t tm ls) (h : ∀ l ∈ ls, l ∈ ks) : Kept s t tm ks :=
  ⟨x.rest, x.m, x.cores, x.stands, x.others, x.team, x.kept, fun l hl => x.idle l (fun hh => hl (h l hh))⟩

theorem Kept.modThread (s : State) (tm l : Nat) (f : Thread → Thread) (hf : ∀ th, threadKept th (f th)) :
    Kept s (s.modThread tm l f) tm [l] where
  rest := by
    simp only [State.modThread, State.modTeam]
    split <;> rfl
  m := by simp
  cores c := by simp [State.core]
  stands u := State.hasTeam_modThread s tm l u f
  others u h := State.team_modTeam_other s _ h
  team := by
    simp only [State.modThread, State.team_modTeam]
    split <;> simp [Team.modThread]
  kept k := by
    by_cases h : k = l
    · subst h
      by_cases ht : s.hasTeam tm
      · rw [State.thread_modThread_self k f ht]; exact hf _
      · have : s.modThread tm k f = s := by
          unfold State.modThread State.modTeam
          unfold State.hasTeam at ht
          split
          · rename_i x; simp [x] at ht
          · rfl
        rw [this]; exact threadKept.refl _
    · rw [State.thread_modThread_lane s tm f h]; exact threadKept.refl _
  idle k h := by
    have h' : k ≠ l := by simpa using h
    exact State.thread_modThread_lane s tm f h'

theorem advanced_kept (pc : PC) (th : Thread) : threadKept th (advanced pc th) := ⟨rfl, rfl, rfl, rfl, rfl⟩

/-- The fold that ends the instruction in each lane. -/
theorem settleFold_kept (s : State) (tm : Nat) (st : Nat → Stage) (o : Nat → Out) (ls : List Nat)
    (hq : ∀ l ∈ ls, faulted (st l) (o l) = false ∧ (st l = .act ∨ st l = .off)) :
    Kept s (ls.foldl (fun s l => settleStage s tm l (st l) (o l)) s) tm ls := by
  induction ls generalizing s with
  | nil => exact Kept.refl _ _ _
  | cons l ls ih =>
    have h0 := hq l (by simp)
    simp only [List.foldl_cons]
    rw [settleStage_quiet s tm l _ _ h0.1 h0.2]
    refine ((Kept.modThread s tm l _ (advanced_kept _)).mono (by simp)).trans ((ih _ ?_).mono (by intro k hk; simp [hk]))
    intro k hk
    exact hq k (by simp [hk])

theorem settleFold_pc (s : State) (tm : Nat) (st : Nat → Stage) (o : Nat → Out) (ls : List Nat) (hn : ls.Nodup) (ht : s.hasTeam tm)
    (hq : ∀ l ∈ ls, faulted (st l) (o l) = false ∧ (st l = .act ∨ st l = .off)) (l : Nat) (hl : l ∈ ls) :
    ((ls.foldl (fun s l => settleStage s tm l (st l) (o l)) s).thread tm l).r.pc = pcOut (st l) (o l) (s.thread tm l).r.pc := by
  induction ls generalizing s with
  | nil => simp at hl
  | cons k ls ih =>
    have h0 := hq k (by simp)
    simp only [List.foldl_cons]
    rw [settleStage_quiet s tm k _ _ h0.1 h0.2]
    have hq' : ∀ l ∈ ls, faulted (st l) (o l) = false ∧ (st l = .act ∨ st l = .off) := fun x hx => hq x (by simp [hx])
    have hn' := List.nodup_cons.mp hn
    by_cases e : l = k
    · subst e
      have := (settleFold_kept (s.modThread tm l (advanced (pcOut (st l) (o l) (s.thread tm l).r.pc))) tm st o ls hq').idle l hn'.1
      rw [this, State.thread_modThread_self l _ ht]
      rfl
    · have hl' : l ∈ ls := by simpa [e] using hl
      rw [ih _ hn'.2 ((State.hasTeam_modThread s tm k tm _).mpr ht) hq' hl', State.thread_modThread_lane s tm _ e]

theorem noteGroup_kept (s : State) (tm : Nat) (ls : List Nat) (y : Bool) (ks : List Nat) : Kept s (noteGroup s tm ls y) tm ks where
  rest := by
    simp only [noteGroup, State.modTeam]
    split <;> rfl
  m := by simp [noteGroup]
  cores c := by simp [noteGroup, State.core]
  stands u := by simp [noteGroup]
  others u h := by simp only [noteGroup]; exact State.team_modTeam_other s _ h
  team := by
    simp only [noteGroup, State.team_modTeam]
    split <;> simp
  kept l := by
    simp only [noteGroup, State.thread, State.team_modTeam]
    split <;> exact threadKept.refl _
  idle l _ := by
    simp only [noteGroup, State.thread, State.team_modTeam]
    split <;> rfl

theorem countCore_kept (s : State) (c p : Nat) (e : Ev) (n tm : Nat) (ks : List Nat) : Kept s (s.countCore c p e n) tm ks where
  rest := rfl
  m := ⟨rfl, rfl, rfl⟩
  cores d := by
    by_cases h : d = c
    · subst h; simp [State.countCore]
    · simp [State.countCore, State.core_modCore_other s _ h]
  stands _ := Iff.rfl
  others _ _ := rfl
  team := rfl
  kept _ := threadKept.refl _
  idle _ _ := rfl

/-- The events of an issue are counted, and nothing else changes. -/
theorem countIssue_kept (s : State) (c p : Nat) (both : Bool) (tm : Nat) (ks : List Nat) : Kept s (countIssue s c p both) tm ks := by
  cases both
  · exact countCore_kept s c p .issued 1 tm ks
  · exact (countCore_kept s c p .issued 1 tm ks).trans (countCore_kept _ c p .dual 1 tm ks)

theorem countIssue_thread (s : State) (c p : Nat) (both : Bool) (t l : Nat) : (countIssue s c p both).thread t l = s.thread t l := by
  cases both <;> rfl

theorem parkLanes_kept (s : State) (tm : Nat) (xs : List (Nat × ParkKind)) : Kept s (parkLanes s tm xs) tm (xs.map Prod.fst) := by
  unfold parkLanes
  split
  · exact Kept.refl _ _ _
  · have key : ∀ (ys : List (Nat × ParkKind)) (s : State) (id : Nat),
        Kept s (ys.foldl (fun s e => s.modThread tm e.1 (fun th => { th with run := { th.run with park := some ⟨id, e.2⟩ } })) s) tm
          (ys.map Prod.fst) := by
      intro ys
      induction ys with
      | nil => intro s id; exact Kept.refl _ _ _
      | cons y ys ih =>
        intro s id
        simp only [List.foldl_cons, List.map_cons]
        refine ((Kept.modThread s tm y.1 (fun th => { th with run := { th.run with park := some ⟨id, y.2⟩ } })
            (fun _ => ⟨rfl, rfl, rfl, rfl, rfl⟩)).mono (by simp)).trans
          ((ih _ id).mono (fun _ hk => List.mem_cons_of_mem _ hk))
    have h := key xs s s.newId
    exact ⟨h.rest, h.m, h.cores, h.stands, h.others, h.team, h.kept, h.idle⟩

theorem parkLanes_pc (s : State) (tm l : Nat) (xs : List (Nat × ParkKind)) :
    ((parkLanes s tm xs).thread tm l).r.pc = (s.thread tm l).r.pc := by
  unfold parkLanes
  split
  · rfl
  · have key : ∀ (ys : List (Nat × ParkKind)) (s : State) (id : Nat),
        ((ys.foldl (fun s e => s.modThread tm e.1 (fun th => { th with run := { th.run with park := some ⟨id, e.2⟩ } })) s).thread tm l).r.pc =
          (s.thread tm l).r.pc := by
      intro ys
      induction ys with
      | nil => intro s id; rfl
      | cons y ys ih =>
        intro s id
        simp only [List.foldl_cons]
        rw [ih]
        by_cases e : l = y.1
        · subst e
          simp only [State.modThread, State.thread, State.team_modTeam]
          split
          · simp
          · rfl
        · rw [State.thread_modThread_lane s tm _ e]
    exact key xs s s.newId

/-- What an issue comes to when its effect is done and no lane faults: the effect's state, with the issue's bookkeeping; each lane at the PC of its
outcome. -/
theorem issueWith_settled {s s' : State} {i : Iss} {e : SegEnd} {f : Form} {eff : State → Iss → List Nat → Eff} {outs : List (Nat × Out)}
    (hi : Issuing s i) (hu : Unfaulted s i f) (he : eff s i (active s i f) = .done s' outs) (ht : s'.hasTeam i.team)
    (ho : ∀ l ∈ active s i f, (outOf outs l).quiet = true) :
    Settled s' (issueWith e f eff s) i (fun l => pcOut (stageOf s i l f) (outOf outs l) (s'.thread i.team l).r.pc) := by
  have hq : ∀ l ∈ i.lanes, faulted (stageOf s i l f) (outOf outs l) = false ∧
      (stageOf s i l f = .act ∨ stageOf s i l f = .off) := by
    intro l hl
    refine ⟨?_, hu l hl⟩
    rcases hu l hl with h | h
    · have := ho l (by simp [active, hl, h])
      rw [h]
      cases hh : outOf outs l <;> simp_all [faulted, Out.quiet]
    · rw [h]; rfl
  have e0 : issueWith e f eff s = parkLanes (countIssue (noteGroup (i.lanes.foldl (fun s1 l => settleStage s1 i.team l (stageOf s i l f)
      (outOf outs l)) s') i.team i.lanes f.c.y) i.core (s.team i.team).at_.part (bothIssue s i)) i.team
      (i.lanes.filterMap (fun l =>
        if faulted (stageOf s i l f) (outOf outs l) then none
        else (parkOf e f.c ((active s i f).contains l)).map (fun k => (l, k)))) := by
    unfold issueWith
    simp only [hi.cur]
    have : (i.lanes.filter (fun l => decide (stageOf s i l f = .act))) = active s i f := rfl
    rw [this, he]
  have hsub : ∀ l ∈ (i.lanes.filterMap (fun l =>
        if faulted (stageOf s i l f) (outOf outs l) then none
        else (parkOf e f.c ((active s i f).contains l)).map (fun k => (l, k)))).map Prod.fst, l ∈ i.lanes := by
    intro l hl
    simp only [List.mem_map, List.mem_filterMap] at hl
    obtain ⟨x, ⟨k, hk, hx⟩, rfl⟩ := hl
    split at hx
    · simp at hx
    · simp only [Option.map_eq_some_iff] at hx
      obtain ⟨y, _, rfl⟩ := hx
      exact hk
  have k1 := settleFold_kept s' i.team (fun l => stageOf s i l f) (outOf outs) i.lanes hq
  have k2 := (k1.trans (noteGroup_kept _ i.team i.lanes f.c.y i.lanes)).trans
    (countIssue_kept _ i.core (s.team i.team).at_.part (bothIssue s i) i.team i.lanes)
  have k := k2.trans ((parkLanes_kept _ i.team _).mono hsub)
  rw [← e0] at k
  have fld : ∀ {α : Type} (g : State → α), (∀ x y z (u : State), g { u with m := x, teams := y, cores := z } = g u) →
      g (issueWith e f eff s) = g s' := by
    intro α g hg
    have := congrArg g k.rest
    rw [hg] at this
    exact this
  exact
    { ps := fld (·.ps) (fun _ _ _ _ => rfl), boot := fld (·.boot) (fun _ _ _ _ => rfl), mem := fld (·.mem) (fun _ _ _ _ => rfl)
      lines := fld (·.lines) (fun _ _ _ _ => rfl), stored := fld (·.stored) (fun _ _ _ _ => rfl)
      slices := fld (·.slices) (fun _ _ _ _ => rfl), cells := fld (·.cells) (fun _ _ _ _ => rfl)
      parts := fld (·.parts) (fun _ _ _ _ => rfl), slots := fld (·.slots) (fun _ _ _ _ => rfl)
      grids := fld (·.grids) (fun _ _ _ _ => rfl), waiters := fld (·.waiters) (fun _ _ _ _ => rfl)
      adds := fld (·.adds) (fun _ _ _ _ => rfl), subs := fld (·.subs) (fun _ _ _ _ => rfl), links := fld (·.links) (fun _ _ _ _ => rfl)
      unpubSys := fld (·.unpubSys) (fun _ _ _ _ => rfl), reports := fld (·.reports) (fun _ _ _ _ => rfl)
      cores := k.cores, others := k.others, team := k.team
      regs := fun l => (k.kept l).1, traps := fun l => (k.kept l).2.1, outs := fun l => (k.kept l).2.2.1
      bounds := fun l => ⟨(k.kept l).2.2.2.1, (k.kept l).2.2.2.2⟩, idle := k.idle
      pcs := by
        intro l hl
        rw [e0, parkLanes_pc]
        rw [countIssue_thread]
        have a2 : ∀ u : State, (noteGroup u i.team i.lanes f.c.y).thread i.team l = u.thread i.team l := by
          intro u
          exact (noteGroup_kept u i.team i.lanes f.c.y []).idle l (by simp)
        rw [a2]
        exact settleFold_pc s' i.team _ _ i.lanes hi.lanes ht hq l hl }

end Sys2Proof.Machine
end

