-- ==== Sys2Proof/Laws/Memory.lean ====
section
/-! SUPPORT. Laws of device memory's canonical form under the operations that write it, and of what taking a fault and returning a result do. -/

namespace Sys2Proof.Machine

open Sys2Proof Sys2Proof.Safety

-- the canonical form

/-- A line that leaves the home cache, and room made for one, change no byte. -/
theorem leaveHome_mem (s : State) (l : Nat) : (leaveHome s l).mem = s.mem := by
  unfold leaveHome
  simp only [State.modSlice_mem, State.modLine_mem]
  split <;> rfl

theorem makeRoom_mem (s : State) (l : Nat) : (makeRoom s l).mem = s.mem := by
  simp only [makeRoom]
  split
  · rfl
  · exact leaveHome_mem _ _

theorem homeTake_mem (s : State) (l cclass : Nat) (strm : Bool) : (homeTake s l cclass strm).mem = s.mem := by
  unfold homeTake
  split
  · rfl
  · rw [State.modLine_mem, makeRoom_mem]

/-- A change at a line's home does to memory what `g` does, whether the home cache keeps the line or not: `g`'s memory depends on memory alone. -/
theorem homePut_mem (s : State) (l cclass : Nat) (strm : Bool) (g : State → State) (m : Mem → Mem) (hg : ∀ u, (g u).mem = m u.mem) :
    (homePut s l cclass strm g).mem = m s.mem := by
  have h : ∀ (b : Bool), (g (if b then s else homeTake s l cclass strm)).mem = m s.mem := by
    intro b
    cases b
    · rw [hg]; exact congrArg m (homeTake_mem s l cclass strm)
    · exact hg s
  simp only [homePut]
  generalize (decide (homeRank cclass strm = 0) && !(s.line l).held && !(s.line l).dirty) = b
  have hb := h b
  cases b
  · rw [if_neg Bool.false_ne_true, State.modLine_mem]; exact hb
  · rw [if_pos rfl, leaveHome_mem, State.modLine_mem]; exact hb

@[simp] theorem homeMark_mem (s : State) (l : Nat) (f : Line → Line) (cclass : Nat) : (homeMark s l f cclass).mem = s.mem :=
  homePut_mem s l cclass false _ id (fun _ => rfl)

theorem homeWrite_mem (s : State) (pa : Nat) (bs : List Byte) (lab : Label) (comp sealed : Bool) (cclass : Nat) (strm : Bool) :
    (homeWrite s pa bs lab comp sealed cclass strm).mem = Mem.writeN s.mem pa bs :=
  homePut_mem s (pa / 256) cclass strm _ (fun m => Mem.writeN m pa bs) (fun _ => rfl)

theorem homeWrite_memOk {s : State} (pa : Nat) (bs : List Byte) (lab : Label) (comp sealed : Bool) (cclass : Nat) (strm : Bool) (h : MemOk s) :
    MemOk (homeWrite s pa bs lab comp sealed cclass strm) := by
  unfold MemOk
  rw [homeWrite_mem]
  exact Mem.wf_writeN pa bs h

theorem homeWrite_read (s : State) (pa : Nat) (bs : List Byte) (lab : Label) (comp sealed : Bool) (cclass : Nat) (strm : Bool) (b : Nat) :
    Mem.read (homeWrite s pa bs lab comp sealed cclass strm).mem b =
      if pa ≤ b ∧ b < pa + bs.length then bs.getD (b - pa) 0 else Mem.read s.mem b := by
  rw [homeWrite_mem]; exact Mem.read_writeN bs s.mem pa b

theorem storePart_memOk {r : Req} {s : State} {p : Part} (h : MemOk s) : MemOk (storePart r s p) := by
  simp only [storePart]
  split
  · exact h
  · exact homeWrite_memOk _ _ _ _ _ _ _ h

theorem writeMem_memOk {s : State} (l : Nat) (x : Xlat) (d : LineData) (mark : Bool) (h : MemOk s) : MemOk (writeMem s l x d mark).1 := by
  simp only [writeMem]
  unfold MemOk at h ⊢
  split
  · rw [homeMark_mem]; exact h
  · split
    · exact h
    · rw [homeWrite_mem, State.modLine_mem]
      exact Mem.wf_writeN _ _ h

theorem loadLine_memOk {s : State} (l : Nat) (st : Stored) (h : MemOk s) : MemOk (loadLine s l st) := by
  unfold loadLine MemOk
  simp only [State.modLine_mem]
  exact Mem.wf_writeN _ _ h

/-- A fold of steps that leave memory alone leaves it alone. -/
theorem foldl_mem {α : Type} (f : State → α → State) (hf : ∀ u x, (f u x).mem = u.mem) (xs : List α) (s : State) : (xs.foldl f s).mem = s.mem := by
  induction xs generalizing s with
  | nil => rfl
  | cons x xs ih => rw [List.foldl_cons, ih, hf]

theorem freshSlices_memOk {s : State} (ds : List Nat) (h : MemOk s) : MemOk (freshSlices s ds) := by
  unfold freshSlices MemOk
  refine Mem.wf_filter _ ?_
  rw [foldl_mem _ (fun u x => State.modSlice_mem u _ _)]
  exact h

theorem zeroFrame_memOk {s : State} (pa : Nat) (h : MemOk s) : MemOk (zeroFrame s pa) := Mem.wf_filter _ h

theorem placeCore_memOk {s : State} (w : Nat) (h : MemOk s) : MemOk (placeCore s w) := Mem.wf_writeN _ _ h

theorem writeImage_memOk {s : State} (pa : Nat) (bs : List Byte) (h : MemOk s) : MemOk (writeImage s pa bs) := by
  unfold writeImage MemOk
  rw [foldl_mem _ (fun u i => homeMark_mem u _ _ _)]
  exact Mem.wf_writeN _ _ h

theorem freshLines_memOk (s : State) : MemOk (freshLines s) := rfl

theorem reset_memOk : MemOk State.reset := rfl

-- taking a fault (R325)

/-- Outside trap mode, with a handler in TVEC, the thread's segment begins anew at the handler, and its trap registers hold the fault. -/
theorem trapEntry_taken (s : State) (t l : Nat) (code : FaultCode) (tval : Nat) (pcr apc : PC) (lab : Label)
    (ht : (s.thread t l).t.trap = false) (hc : code ≠ .accFirstUse) (hv : tvecFor s t l ≠ 0) :
    trapEntry s t l code tval pcr apc lab = (publish s t [l]).modThread t l (fun th => { (th.newSeg (s.core (s.team t).at_.core).cyc) with
      r := { th.r with pc := ((tvecFor s t l).setWidth 64).setWidth 52 &&& ~~~(3 : PC) }
      t := { th.t with
        trap := true, sup := false, tpc := ⟨pcr.setWidth 64, lab⟩, tapc := ⟨apc.setWidth 64, lab⟩, tval := ⟨BitVec.ofNat 64 tval, lab⟩
        tcause := ⟨BitVec.ofNat 64 (code.code + bit false 16), lab⟩ } }) := by
  have hv' : (tvecFor s t l).setWidth 64 ≠ 0 := by
    intro h
    apply hv
    have h2 := congrArg BitVec.toNat h
    rw [BitVec.toNat_setWidth] at h2
    have h3 := (tvecFor s t l).isLt
    apply BitVec.eq_of_toNat_eq
    have h4 : (tvecFor s t l).toNat % 2 ^ 64 = (tvecFor s t l).toNat := Nat.mod_eq_of_lt (by omega)
    rw [h4] at h2
    exact h2
  have ht' : ((s.team t).thread l).t.trap = false := ht
  unfold trapEntry
  simp only [ht', Bool.false_eq_true, if_false, decide_eq_false hc]
  rw [if_neg hv']

/-- In trap mode a fault halts the team (R326). -/
theorem trapEntry_double (s : State) (t l : Nat) (code : FaultCode) (tval : Nat) (pcr apc : PC) (lab : Label)
    (ht : (s.thread t l).t.trap = true) : trapEntry s t l code tval pcr apc lab = haltTeam s t l true code tval pcr := by
  have ht' : ((s.team t).thread l).t.trap = true := ht
  unfold trapEntry
  simp only [ht', if_true]

-- results that return (R41, R181)

/-- A result that the lane is not owed changes nothing. -/
theorem returnResult_none (s : State) (t l id : Nat) (r : Ret) (h : (s.thread t l).out.owes.find? (fun o => decide (o.id = id)) = none) :
    returnResult s t l id r = s := by
  rw [returnResult, h]

/-- A value is written to the destination of what the lane is owed, with the label of the access. -/
theorem returnResult_val (s : State) (t l id : Nat) (x : DWord) (lab : Label) (o : Owe)
    (h : (s.thread t l).out.owes.find? (fun o => decide (o.id = id)) = some o) :
    returnResult s t l id (.val x lab) = setDest (s.modThread t l (fun th => { th with out := { th.out with
      owes := th.out.owes.filter (fun o => decide (o.id ≠ id)) } })) t l o.dest x (lab.join o.lab) := by
  rw [returnResult, h]

/-- No result changes device memory or its lines. -/
theorem setReg_mem (s : State) (t l e : Nat) (r : Reg) : (setReg s t l e r).mem = s.mem := by
  unfold setReg
  split
  · simp
  · split
    · simp
    · split <;> simp

theorem setDest_mem (s : State) (t l : Nat) (d : Dest) (x : DWord) (lab : Label) : (setDest s t l d x lab).mem = s.mem := by
  cases d with
  | none => rfl
  | v n w => cases w <;> simp [setDest, setReg_mem]
  | s n w => cases w <;> simp [setDest, setReg_mem]
  | p n => simp [setDest, setReg_mem]
  | q n => simp [setDest, pushKept, State.modQueue]

theorem returnResult_mem (s : State) (t l id : Nat) (r : Ret) : (returnResult s t l id r).mem = s.mem := by
  unfold returnResult
  split
  · rfl
  · have give : ∀ (u : State) (d : Dest), (giveUp u t d).mem = u.mem := by
      intro u d
      cases d <;> simp [giveUp, pushKept, State.modQueue]
    cases r <;> simp [setDest_mem, noteSFault, give]

/-- A translation found in the core's ATC, with the permissions asked for, is the answer (R247, R248). -/
theorem xlate_hit {s : State} {core : Nat} {r : Rqr} {part tag va own kind need : Nat} {x : Xlat}
    (h : hitOf (s.core core).atc part tag va (accessKey s r) = some x) (hp : permsIn need (attrPerm x.attr) = true) :
    xlate s core r [] part tag va own kind need = .ans s (.ok x) := by
  simp [xlate, answerFor, h, hp]

/-- The same for a request that comes from no core, in the level-2 cache of its partition's cell. -/
theorem xlateCell_hit {s : State} {r : Rqr} {part tag va own kind need : Nat} {x : Xlat}
    (h : hitOf (s.cell (homeCell s part)).l2 part tag va (accessKey s r) = some x) (hp : permsIn need (attrPerm x.attr) = true) :
    xlateCell s r [] part tag va own kind need = .ans s (.ok x) := by
  simp [xlateCell, answerFor, h, hp]

end Sys2Proof.Machine
end

