-- ==== Sys2Proof/Laws/Orders.lean ====
section
/-! SUPPORT. What a free order is, whichever it is (R25), and what reading a line back from device memory leaves (R161, R162). -/

namespace Sys2Proof.Machine

/-- An item put in at a free place is there once, with all the others. -/
theorem freeInsert_perm {α : Type} (key : List Nat) (x : α) (l : List α) : (freeInsert key x l).Perm (x :: l) := by
  induction l with
  | nil => exact .refl _
  | cons y ys ih =>
    unfold freeInsert
    split
    · exact .refl _
    · exact (ih.cons y).trans (.swap x y ys)

/-- A free order holds each item as often as it was given. -/
theorem freeOrder_perm {α : Type} (key : List Nat) (l : List α) : (freeOrder key l).Perm l := by
  induction l with
  | nil => exact .refl _
  | cons x xs ih => exact (freeInsert_perm _ x _).trans (ih.cons x)

@[simp] theorem mem_freeOrder {α : Type} (key : List Nat) (l : List α) (x : α) : x ∈ freeOrder key l ↔ x ∈ l :=
  (freeOrder_perm key l).mem_iff

@[simp] theorem freeOrder_length {α : Type} (key : List Nat) (l : List α) : (freeOrder key l).length = l.length :=
  (freeOrder_perm key l).length_eq

theorem freeOrder_nodup {α : Type} {key : List Nat} {l : List α} (h : l.Nodup) : (freeOrder key l).Nodup :=
  (freeOrder_perm key l).nodup_iff.2 h

/-- A notice changes no line of memory. -/
@[simp] theorem notice_lines (s : State) (p tag : Nat) (arg : Option DWord) (u c : Option Nat) : (notice s p tag arg u c).lines = s.lines := by
  unfold notice emitTrace
  dsimp only
  repeat' split
  all_goals rfl

theorem notices_lines (ps : List Nat) (s : State) (tag : Nat) (arg : Option DWord) (u c : Option Nat) :
    (ps.foldl (fun s p => notice s p tag arg u c) s).lines = s.lines := by
  induction ps generalizing s with
  | nil => rfl
  | cons p ps ih => simp [ih]

/-- A poisoned line stands at its home, marked in all of its sectors. -/
theorem poisonLine_line (s : State) (l : Nat) : (poisonLine s l).line l = { s.line l with away := false, pois := 15 } := by
  have h (u : State) (h : u.lines = (s.modLine l (fun k => { k with away := false, pois := 15 })).lines) :
      u.line l = { s.line l with away := false, pois := 15 } := by
    rw [← State.line_modLine_self s l (fun k => { k with away := false, pois := 15 })]
    simp only [State.line, h]
  apply h
  unfold poisonLine
  dsimp only
  split
  · rfl
  · rw [notices_lines]; rfl

/-- A line read from device memory stands at its home. -/
theorem loadLine_home (s : State) (l : Nat) (st : Stored) : ((loadLine s l st).line l).away = false := by
  simp [loadLine]

/-- A line read back from device memory, corrected or poisoned where it must be, stands at its home. -/
theorem fetchLine_home (s : State) (l : Nat) : ((fetchLine s l).line l).away = false := by
  have away (u : State) (h : (u.line l).away = false ∨ (storedOf u l).mac ≠ macOf u l (storedOf u l).record (storedOf u l).data) :
      ((correctStored u l).line l).away = false := by
    unfold correctStored
    dsimp only
    split
    · next h' => exact h.elim id (fun n => by simpa [n] using h')
    · split
      · exact loadLine_home _ _ _
      · rw [poisonLine_line]
  apply away
  unfold readStored
  dsimp only
  split
  · next h => simpa using h
  · exact .inl (loadLine_home _ _ _)

end Sys2Proof.Machine
end

