-- ==== Sys2Proof/Laws/Write.lean ====
section
/-! SUPPORT. What a write of a v or p destination does (R42, R50), and what an instruction that computes in each lane leaves (R98). -/

namespace Sys2Proof.Machine

open Sys2Proof Sys2Proof.Safety

theorem OnlyRegs.refl (s : State) (tm : Nat) (ls encs : List Nat) : OnlyRegs s s tm ls encs :=
  ⟨rfl, fun _ => rfl, fun _ _ => rfl, rfl, fun _ _ => rfl, fun _ _ _ => rfl, fun _ => ⟨rfl, rfl, rfl, rfl, rfl, rfl⟩⟩

theorem OnlyRegs.trans {s t u : State} {tm : Nat} {ls encs : List Nat} (x : OnlyRegs s t tm ls encs) (y : OnlyRegs t u tm ls encs) :
    OnlyRegs s u tm ls encs where
  rest := by
    have h := y.rest
    have g := x.rest
    rw [← h] at g
    exact g
  stands v := (y.stands v).trans (x.stands v)
  others v h := (y.others v h).trans (x.others v h)
  team := y.team.trans x.team
  lanes l h := (y.lanes l h).trans (x.lanes l h)
  regs l e h := (y.regs l e h).trans (x.regs l e h)
  kept l := by
    obtain ⟨a1, a2, a3, a4, a5, a6⟩ := x.kept l
    obtain ⟨b1, b2, b3, b4, b5, b6⟩ := y.kept l
    refine ⟨b1.trans a1, b2.trans a2, b3.trans a3, b4.trans a4, ?_, ?_⟩
    · rw [b5, a5]
    · rw [b6, a6]

theorem OnlyRegs.mono {s t : State} {tm : Nat} {ls ks encs fs : List Nat} (x : OnlyRegs s t tm ls encs) (h : ∀ l ∈ ls, l ∈ ks)
    (g : ∀ e ∈ encs, e ∈ fs) : OnlyRegs s t tm ks fs :=
  ⟨x.rest, x.stands, x.others, x.team, fun l hl => x.lanes l (fun hh => hl (h l hh)), fun l e he => x.regs l e (fun hh => he (g e hh)), x.kept⟩

/-- A thread given a register of its own. -/
def Thread.putReg (th : Thread) (e : Nat) (r : Reg) : Thread :=
  if e < 0x800 then { th with r := { th.r with v := Tbl.put th.r.v e r } }
  else { th with r := { th.r with p := Tbl.put th.r.p (e - 0x900) ⟨decide (r.val ≠ 0), r.lab⟩ } }

/-- A register of a thread's own. -/
def Thread.getReg (th : Thread) (floor : Label) (e : Nat) : Reg :=
  if e < 0x800 then Tbl.getD th.r.v e { lab := floor }
  else let p := Tbl.getD th.r.p (e - 0x900) { lab := floor }; ⟨if p.val then 1 else 0, p.lab, false⟩

theorem regNow_lane (s : State) (t l e : Nat) (h : laneReg e = true) : regNow s t l e = (s.thread t l).getReg (s.team t).hdr.lfloor e := by
  simp only [laneReg, Bool.or_eq_true, Bool.and_eq_true, decide_eq_true_eq] at h
  unfold regNow Thread.getReg
  rcases h with h | ⟨h1, h2⟩
  · simp only [h, if_true]; rfl
  · have a : ¬ e < 0x800 := by omega
    have b : ¬ e < 0x900 := by omega
    simp only [a, b, h2, if_true, if_false]; rfl

theorem regNow_team (s : State) (t l e : Nat) (h : laneReg e = false) :
    regNow s t l e = if e < 0x900 then (s.team t).sreg (e - 0x800) else (s.team t).hreg (e - 0x920) := by
  simp only [laneReg, Bool.or_eq_false_iff, Bool.and_eq_false_iff, decide_eq_false_iff_not] at h
  unfold regNow
  obtain ⟨h1, h2⟩ := h
  rw [if_neg h1]
  by_cases b : e < 0x900
  · rw [if_pos b, if_pos b]
  · have c : ¬ e < 0x908 := by omega
    rw [if_neg b, if_neg c, if_neg b]

theorem Thread.getReg_putReg (th : Thread) (fl : Label) (e e' : Nat) (r : Reg) (h : laneReg e = true) (h' : laneReg e' = true) :
    (th.putReg e r).getReg fl e' = if e' = e then asHeld e r else th.getReg fl e' := by
  simp only [laneReg, Bool.or_eq_true, Bool.and_eq_true, decide_eq_true_eq] at h h'
  by_cases e0 : e' = e
  · subst e0
    rw [if_pos rfl]
    unfold Thread.putReg Thread.getReg asHeld
    by_cases a : e' < 0x800
    · have b : ¬(0x900 ≤ e' ∧ e' < 0x908) := by omega
      rw [if_pos a, if_pos a, if_neg b]
      simp
    · have b : 0x900 ≤ e' ∧ e' < 0x908 := by omega
      rw [if_neg a, if_neg a, if_pos b]
      simp
  · rw [if_neg e0]
    unfold Thread.putReg Thread.getReg
    by_cases a : e < 0x800
    · by_cases a' : e' < 0x800
      · rw [if_pos a, if_pos a', if_pos a']
        exact Tbl.getD_put_other _ _ _ e0
      · rw [if_pos a, if_neg a', if_neg a']
    · by_cases a' : e' < 0x800
      · rw [if_neg a, if_pos a', if_pos a']
      · have c : e' - 0x900 ≠ e - 0x900 := by omega
        rw [if_neg a, if_neg a', if_neg a']
        simp only [Tbl.getD_put_other _ _ _ c]

/-- The cycles of a fixed latency (R42). -/
def latCycles : Lat → Option Nat
  | .fix n => some n
  | .var => none
  | .none => none

/-- The bookkeeping of a write of its own register by a thread. -/
def Thread.wrote (e : Nat) (lat : Option Nat) (old r : Reg) (th : Thread) : Thread :=
  let th := th.putReg e r
  { th with run := { th.run with haz := ⟨e, lat, th.run.ic, old, asHeld e r⟩ :: th.run.haz } }

theorem modThread_modThread (s : State) (t l : Nat) (f g : Thread → Thread) :
    (s.modThread t l f).modThread t l g = s.modThread t l (fun th => g (f th)) := by
  have put2 : ∀ {α : Type} (x : Tbl α) (k : Nat) (a b : α), Tbl.put (Tbl.put x k a) k b = Tbl.put x k b := by
    intro α x k a b
    induction x with
    | nil => simp [Tbl.put]
    | cons y x ih =>
      obtain ⟨k', v'⟩ := y
      simp only [Tbl.put]
      split
      · simp [Tbl.put]
      · split
        · rename_i h1 h2; subst h2; simp [Tbl.put]
        · rename_i h1 h2; simp [Tbl.put, h1, h2, ih]
  simp only [State.modThread, State.modTeam]
  cases h : Tbl.find s.teams t with
  | none => simp [h]
  | some tm =>
    simp only [Tbl.find_put_self, put2, Team.modThread, Tbl.upd, Tbl.getD_put_self]

/-- A write that the contract orders after every earlier one of the segment is lost to none. -/
theorem overtaken_ordered (key : List Nat) (ic : Nat) (lat : Lat) (e : Nat) : ∀ (hs : List Haz) (r : Reg),
    hs.findSome? (fun h => h.breaks ic lat e) = none → overtaken key ic lat e hs r = r
  | [], _, _ => rfl
  | h :: hs, r, hn => by
    rw [List.findSome?_eq_none_iff] at hn
    have h0 : h.breaks ic lat e = none := hn h List.mem_cons_self
    simp only [overtaken, h0, Option.isSome_none, Bool.false_eq_true, false_and, if_false]
    exact overtaken_ordered key ic lat e hs r (List.findSome?_eq_none_iff.2 (fun x hx => hn x (List.mem_cons_of_mem _ hx)))

/-- A fixed-latency write of a register of the lane's own that the contract orders (R42). -/
theorem writeReg_lane {s : State} {t l : Nat} (act set : List Nat) {lat : Lat} {e : Nat} (r : Reg) (h : laneReg e = true)
    (hz : writeHazard (s.thread t l) lat e = none) :
    writeReg s t l act set lat e r =
      s.modThread t l (Thread.wrote e (latCycles lat) (regNow s t l e) r) := by
  have h' := h
  simp only [laneReg, Bool.or_eq_true, Bool.and_eq_true, decide_eq_true_eq] at h'
  unfold writeReg
  simp only [overtaken_ordered _ _ _ _ _ _ hz]
  rw [if_pos h']
  simp only [noteHaz, List.foldl_cons, List.foldl_nil]
  have : setReg s t l e r = s.modThread t l (fun th => th.putReg e r) := by
    unfold setReg
    rcases h' with a | ⟨a, b⟩
    · rw [if_pos a]; congr 1; funext th; simp [Thread.putReg, a]
    · have c : ¬ e < 0x800 := by omega
      have d : ¬ e < 0x900 := by omega
      rw [if_neg c, if_neg d, if_pos b]; congr 1; funext th; simp [Thread.putReg, c]
  rw [this, modThread_modThread]
  rfl

theorem wrote_kept (e : Nat) (lat : Option Nat) (old r : Reg) (th : Thread) :
    (th.wrote e lat old r).t = th.t ∧ (th.wrote e lat old r).out = th.out ∧ (th.wrote e lat old r).bound = th.bound ∧
    (th.wrote e lat old r).binding = th.binding ∧
    (th.wrote e lat old r).r = { th.r with v := (th.wrote e lat old r).r.v, p := (th.wrote e lat old r).r.p } ∧
    (th.wrote e lat old r).run = { th.run with haz := (th.wrote e lat old r).run.haz } := by
  unfold Thread.wrote Thread.putReg
  split <;> exact ⟨rfl, rfl, rfl, rfl, rfl, rfl⟩

theorem wrote_getReg (e : Nat) (lat : Option Nat) (old r : Reg) (th : Thread) (fl : Label) (e' : Nat) :
    (th.wrote e lat old r).getReg fl e' = (th.putReg e r).getReg fl e' := rfl

/-- A lane's own register written: it holds the value, and nothing else changes. -/
theorem modThread_wrote {s : State} {t l e : Nat} (lat : Option Nat) (old r : Reg) (h : laneReg e = true) (ht : s.hasTeam t) :
    OnlyRegs s (s.modThread t l (Thread.wrote e lat old r)) t [l] [e] ∧
    regNow (s.modThread t l (Thread.wrote e lat old r)) t l e = asHeld e r := by
  have hregs : ∀ k e', regNow (s.modThread t l (Thread.wrote e lat old r)) t k e' =
      if k = l ∧ e' = e then asHeld e r else regNow s t k e' := by
    intro k e'
    by_cases le : laneReg e' = true
    · rw [regNow_lane _ _ _ _ le, regNow_lane _ _ _ _ le, State.team_modThread_hdr]
      by_cases hk : k = l
      · subst hk
        rw [State.thread_modThread_self k _ ht, wrote_getReg, Thread.getReg_putReg _ _ _ _ _ h le]
        by_cases he : e' = e <;> simp [he]
      · rw [State.thread_modThread_lane s t _ hk]; simp [hk]
    · have le' : laneReg e' = false := by simpa using le
      have hne : e' ≠ e := by rintro rfl; exact le h
      rw [regNow_team _ _ _ _ le', regNow_team _ _ _ _ le']
      simp only [Team.sreg, Team.hreg, State.team_modThread_r, State.team_modThread_hdr, hne, and_false, if_false]
  refine ⟨⟨?_, ?_, ?_, ?_, ?_, ?_, ?_⟩, by rw [hregs]; simp⟩
  · simp only [State.modThread, State.modTeam]; split <;> rfl
  · intro u
    have := State.hasTeam_modThread s t l u (Thread.wrote e lat old r)
    simp only [State.hasTeam] at this
    cases hx : (Tbl.find s.teams u).isSome <;> simp_all
  · intro u hu; exact State.team_modTeam_other s _ hu
  · simp only [State.modThread, State.team_modTeam]; split <;> simp [Team.modThread]
  · intro k hk
    exact State.thread_modThread_lane s t _ (by simpa using hk)
  · intro k e' he; rw [hregs]; simp at he; simp [he]
  · intro k
    by_cases hk : k = l
    · subst hk; rw [State.thread_modThread_self k _ ht]; exact wrote_kept e lat old r _
    · rw [State.thread_modThread_lane s t _ hk]; exact ⟨rfl, rfl, rfl, rfl, rfl, rfl⟩

theorem hasTeam_of_only {s s' : State} {tm t : Nat} {ls encs : List Nat} (x : OnlyRegs s s' tm ls encs) (h : s.hasTeam t) : s'.hasTeam t := by
  unfold State.hasTeam at *
  rw [x.stands]; exact h

/-- The registers that a destination names are the lane's own. -/
def laneDest (w : Bool) (d : Operand) : Prop := ∀ e ∈ encsOf w d, laneReg e = true

theorem encsOf_cases (w : Bool) (d : Operand) : encsOf w d = [] ∨ (∃ e, encsOf w d = [e]) ∨ (∃ e, encsOf w d = [e, e + 1]) := by
  cases d <;> cases w <;> simp [encsOf]
  all_goals omega

theorem writeHazard_cons_other (th : Thread) (lat : Lat) {e e' : Nat} (n : Option Nat) (old r : Reg) (h : e' ≠ e) :
    writeHazard (th.wrote e n old r) lat e' = writeHazard th lat e' := by
  have a : (th.wrote e n old r).run.haz = ⟨e, n, th.run.ic, old, asHeld e r⟩ :: th.run.haz := by
    unfold Thread.wrote Thread.putReg; split <;> rfl
  have b : (th.wrote e n old r).run.ic = th.run.ic := by unfold Thread.wrote Thread.putReg; split <;> rfl
  unfold writeHazard
  rw [a, b]
  simp [Haz.breaks, Ne.symm h]

/-- A write of a v or p destination that the contract orders: the destination holds the value, and nothing else changes. -/
theorem writeOp_lane {s : State} {t l : Nat} (act set : List Nat) {lat : Lat} {w : Bool} {d : Operand} (x : DWord) (lab : Label)
    (ht : s.hasTeam t) (hd : laneDest w d) (hz : ∀ e ∈ encsOf w d, writeHazard (s.thread t l) lat e = none) :
    OnlyRegs s (writeOp s t l act set lat w d x lab) t [l] (encsOf w d) ∧ Given (writeOp s t l act set lat w d x lab) t l w d x lab := by
  unfold writeOp Given
  unfold laneDest at hd
  rcases encsOf_cases w d with e0 | ⟨e, e0⟩ | ⟨e, e0⟩
  · rw [e0]; exact ⟨OnlyRegs.refl _ _ _ _, trivial⟩
  · rw [e0] at hd hz ⊢
    have h1 := hd e List.mem_cons_self
    simp only
    rw [writeReg_lane act set _ h1 (hz e List.mem_cons_self)]
    exact modThread_wrote _ _ _ h1 ht
  · rw [e0] at hd hz ⊢
    have h1 := hd e List.mem_cons_self
    have h2 := hd (e + 1) (List.mem_cons_of_mem _ List.mem_cons_self)
    have z1 := hz e List.mem_cons_self
    have z2 := hz (e + 1) (List.mem_cons_of_mem _ List.mem_cons_self)
    simp only
    rw [writeReg_lane act set _ h1 z1]
    have A := modThread_wrote (s := s) (t := t) (l := l) (latCycles lat) (regNow s t l e) ⟨x.setWidth 32, lab, false⟩ h1 ht
    have ht' := hasTeam_of_only A.1 ht
    have z3 : writeHazard ((s.modThread t l (Thread.wrote e (latCycles lat) (regNow s t l e)
        ⟨x.setWidth 32, lab, false⟩)).thread t l) lat (e + 1) = none := by
      rw [State.thread_modThread_self l _ ht, writeHazard_cons_other _ _ _ _ _ (by omega)]
      exact z2
    rw [writeReg_lane act set _ h2 z3]
    have B := modThread_wrote (t := t) (l := l) (latCycles lat)
      (regNow (s.modThread t l (Thread.wrote e (latCycles lat) (regNow s t l e)
        ⟨x.setWidth 32, lab, false⟩)) t l (e + 1)) ⟨(x >>> 32).setWidth 32, lab, false⟩ h2 ht'
    refine ⟨OnlyRegs.trans (OnlyRegs.mono A.1 (by simp) (by simp)) (OnlyRegs.mono B.1 (by simp) (by simp)), ?_, B.2⟩
    rw [B.1.regs l e (by simp), A.2]

theorem regNow_only {s s' : State} {tm : Nat} {ls encs : List Nat} (x : OnlyRegs s s' tm ls encs) {l e : Nat} (h : laneReg e = true)
    (hl : l ∉ ls) : regNow s' tm l e = regNow s tm l e := by
  rw [regNow_lane _ _ _ _ h, regNow_lane _ _ _ _ h, x.lanes l hl]
  have := congrArg Team.hdr x.team
  simp only at this
  rw [this]

theorem Given.kept {s s' : State} {tm : Nat} {ls encs : List Nat} (x : OnlyRegs s s' tm ls encs) {l : Nat} {w : Bool} {d : Operand}
    {v : DWord} {lab : Label} (hd : laneDest w d) (hl : l ∉ ls) (g : Given s tm l w d v lab) : Given s' tm l w d v lab := by
  unfold Given at g ⊢
  unfold laneDest at hd
  rcases encsOf_cases w d with e0 | ⟨e, e0⟩ | ⟨e, e0⟩
  · rw [e0]; trivial
  · rw [e0] at hd g ⊢
    simp only at g ⊢
    rw [regNow_only x (hd e List.mem_cons_self) hl]; exact g
  · rw [e0] at hd g ⊢
    simp only at g ⊢
    rw [regNow_only x (hd e List.mem_cons_self) hl, regNow_only x (hd (e + 1) (List.mem_cons_of_mem _ List.mem_cons_self)) hl]; exact g

/-- Writes of one lane after another: each lane holds its value, and nothing else changes. -/
theorem writeLanes {s : State} {t : Nat} (act set : List Nat) {lat : Lat} {w : Bool} {d : Operand} (x : Nat → DWord) (lab : Nat → Label)
    (ht : s.hasTeam t) (hd : laneDest w d) (ls : List Nat) (hn : ls.Nodup)
    (hz : ∀ l ∈ ls, ∀ e ∈ encsOf w d, writeHazard (s.thread t l) lat e = none) :
    OnlyRegs s (ls.foldl (fun s' l => writeOp s' t l act set lat w d (x l) (lab l)) s) t ls (encsOf w d) ∧
    ∀ l ∈ ls, Given (ls.foldl (fun s' l => writeOp s' t l act set lat w d (x l) (lab l)) s) t l w d (x l) (lab l) := by
  induction ls generalizing s with
  | nil => exact ⟨OnlyRegs.refl _ _ _ _, by simp⟩
  | cons k ls ih =>
    simp only [List.foldl_cons]
    have hn' := List.nodup_cons.mp hn
    have A := writeOp_lane act set (lat := lat) (x k) (lab k) ht hd (hz k List.mem_cons_self)
    have B := ih (s := writeOp s t k act set lat w d (x k) (lab k)) (hasTeam_of_only A.1 ht) hn'.2 (by
      intro l hl e he
      have hne : l ∉ [k] := by
        intro h
        simp only [List.mem_singleton] at h
        exact hn'.1 (h ▸ hl)
      rw [A.1.lanes l hne]
      exact hz l (List.mem_cons_of_mem _ hl) e he)
    refine ⟨OnlyRegs.trans (OnlyRegs.mono A.1 (by simp) (by simp)) (OnlyRegs.mono B.1 (by intro l hl; simp [hl]) (by simp)), ?_⟩
    intro l hl
    rcases List.mem_cons.mp hl with rfl | hl
    · exact Given.kept B.1 hd hn'.1 A.2
    · exact B.2 l hl

theorem outOf_nil (l : Nat) : outOf [] l = .next := rfl

theorem nodup_active {s : State} {i : Iss} (f : Form) (h : i.lanes.Nodup) : (active s i f).Nodup :=
  List.Nodup.sublist List.filter_sublist h

/-- An instruction that computes in each lane completes: each active lane's destination holds the operation's value with Lab of its sources, and
nothing else changes but the issue's bookkeeping; every lane goes on at its sequential successor (R42, R49 to R51, R98, R130). -/
theorem issueAlu_spec {s : State} {i : Iss} {k : Kind} {f : Form} {op : Srcs → DWord} (hi : Issuing s i) (hu : Unfaulted s i f)
    (hd : laneDest f.sd.wide f.d) (hz : ∀ l ∈ active s i f, ∀ e ∈ encsOf f.sd.wide f.d, writeHazard (s.thread i.team l) f.lat e = none) :
    ∃ s', Settled s' (issueAlu k f op s) i (nextPc s i) ∧ OnlyRegs s s' i.team (active s i f) (encsOf f.sd.wide f.d) ∧
      ∀ l ∈ active s i f, Given s' i.team l f.sd.wide f.d (op (readSrcs s i.team l k f))
        (srcsLab s i.team l f (readSrcs s i.team l k f)) := by
  have ht : s.hasTeam i.team := hi.team
  have W := writeLanes (active s i f) i.lanes (lat := f.lat) (fun l => op (readSrcs s i.team l k f))
    (fun l => srcsLab s i.team l f (readSrcs s i.team l k f)) ht hd (active s i f) (nodup_active f hi.lanes) hz
  refine ⟨_, ?_, W.1, W.2⟩
  have S := issueWith_settled (e := .plain) (eff := aluEff k f op) (outs := []) hi hu rfl (hasTeam_of_only W.1 ht) (by intro l _; rfl)
  have pcs : ∀ l, ((List.foldl (fun s' l => writeOp s' i.team l (active s i f) i.lanes f.lat f.sd.wide f.d (op (readSrcs s i.team l k f))
      (srcsLab s i.team l f (readSrcs s i.team l k f))) s (active s i f)).thread i.team l).r.pc = (s.thread i.team l).r.pc := by
    intro l
    have := (W.1.kept l).2.2.2.2.1
    rw [this]
  refine ⟨S.ps, S.boot, S.mem, S.lines, S.stored, S.slices, S.cells, S.parts, S.slots, S.grids, S.waiters, S.adds, S.subs, S.links, S.unpubSys,
    S.reports, S.cores, S.others, S.team, S.regs, S.traps, S.outs, S.bounds, S.idle, ?_⟩
  intro l hl
  have h := S.pcs l hl
  rw [outOf_nil, pcs] at h
  unfold issueAlu
  rw [h]
  rcases hu l hl with a | a <;> rw [a] <;> rfl

/-- A lane that the stage calls active passes its guard, and no operand that it reads is poisoned. -/
theorem stageOf_act {s : State} {i : Iss} {l : Nat} {f : Form} (h : stageOf s i l f = .act) :
    guardPasses s i.team l f.c = true ∧ (f.late = false → poisonRead s i l f = none) := by
  simp only [stageOf] at h
  split at h
  · cases h
  · split at h
    · cases h
    · rename_i g
      refine ⟨by simpa using g, fun hl => ?_⟩
      split at h
      · cases h
      · split at h
        · cases h
        · rename_i p
          simpa [hl] using p

theorem stageOf_off {s : State} {i : Iss} {l : Nat} {f : Form} (h : stageOf s i l f = .off) : guardPasses s i.team l f.c = false := by
  simp only [stageOf] at h
  split at h
  · cases h
  · split at h
    · rename_i g; simpa using g
    · split at h
      · cases h
      · split at h <;> cases h

/-- Where no lane faults before the effect, the lanes that pass their guards are those that act (R36, R49). -/
theorem passing_active {s : State} {i : Iss} {f : Form} (hu : Unfaulted s i f) : passing s i f.c = active s i f := by
  unfold passing active
  apply List.filter_congr
  intro l hl
  rcases hu l hl with h | h
  · rw [(stageOf_act h).1, h]; rfl
  · rw [stageOf_off h, h]; rfl

theorem peersOf_active {s : State} {i : Iss} {k : Kind} {f : Form} (hu : Unfaulted s i f) (hl : f.late = false) :
    peersOf s i k f = peers s i k f := by
  unfold peersOf peers
  rw [passing_active hu]
  apply List.map_congr_left
  intro l h
  have ha : stageOf s i l f = .act := by simpa using (List.mem_filter.mp h).2
  have hp := (stageOf_act ha).2 hl
  have h1 : poisonIn s i l f [1] = none := by
    unfold poisonRead poisonIn at hp
    simp only at hp
    split at hp
    · cases hp
    · rename_i hn
      unfold poisonIn
      simp only [List.flatMap_cons, List.flatMap_nil, List.append_nil, List.map_append, List.find?_append, Option.or_eq_none_iff] at hn ⊢
      rw [hn.1]
  unfold peerOf seenBy
  simp [h1]

/-- As `issueAlu_spec` for a cross-lane instruction (R119). -/
theorem issueCross_spec {s : State} {i : Iss} {k : Kind} {f : Form} {op : List Peer → Peer → Src} (hi : Issuing s i) (hu : Unfaulted s i f)
    (hlate : f.late = false)
    (hd : laneDest f.sd.wide f.d) (hz : ∀ l ∈ active s i f, ∀ e ∈ encsOf f.sd.wide f.d, writeHazard (s.thread i.team l) f.lat e = none) :
    ∃ s', Settled s' (issueCross k f op s) i (nextPc s i) ∧ OnlyRegs s s' i.team (active s i f) (encsOf f.sd.wide f.d) ∧
      ∀ p ∈ peers s i k f, Given s' i.team p.l f.sd.wide f.d (op (peers s i k f) p).val
        (Label.joinAll [(op (peers s i k f) p).lab, p.pcl, p.gl]) := by
  have ht : s.hasTeam i.team := hi.team
  let x := fun l => (op (peers s i k f) (seenBy s i k f l)).val
  let lab := fun l => Label.joinAll [(op (peers s i k f) (seenBy s i k f l)).lab, (seenBy s i k f l).pcl, (seenBy s i k f l).gl]
  have W := writeLanes (active s i f) i.lanes (lat := f.lat) x lab ht hd (active s i f) (nodup_active f hi.lanes) hz
  have e0 : crossEff k f op s i (active s i f) =
      .done ((active s i f).foldl (fun s' l => writeOp s' i.team l (active s i f) i.lanes f.lat f.sd.wide f.d (x l) (lab l)) s) [] := by
    have all : (peers s i k f).filter (fun p => (active s i f).contains p.l) = peers s i k f := by
      rw [List.filter_eq_self]
      intro p hp
      obtain ⟨l, hl, rfl⟩ := List.mem_map.mp hp
      simpa [seenBy] using hl
    unfold crossEff
    rw [peersOf_active hu hlate]
    simp only [all]
    unfold peers
    simp only [List.foldl_map]
    rfl
  refine ⟨_, ?_, W.1, ?_⟩
  · have S := issueWith_settled (e := .plain) (eff := crossEff k f op) (outs := []) hi hu e0 (hasTeam_of_only W.1 ht) (by intro l _; rfl)
    refine ⟨S.ps, S.boot, S.mem, S.lines, S.stored, S.slices, S.cells, S.parts, S.slots, S.grids, S.waiters, S.adds, S.subs, S.links, S.unpubSys,
      S.reports, S.cores, S.others, S.team, S.regs, S.traps, S.outs, S.bounds, S.idle, ?_⟩
    intro l hl
    have h := S.pcs l hl
    have e1 := (W.1.kept l).2.2.2.2.1
    rw [outOf_nil, e1] at h
    unfold issueCross
    rw [h]
    rcases hu l hl with a | a <;> rw [a] <;> rfl
  · intro p hp
    obtain ⟨l, hl, rfl⟩ := List.mem_map.mp hp
    exact W.2 l hl

/-- A field that accepts v and p alone names registers of the lane's own. -/
theorem laneDest_of_accepts {sl : Sys2Proof.Slot} {regs : Nat} {d : Operand} (h : sl.accepts regs d = true) (hs : sl.cls.s = false)
    (hh : sl.cls.h = false) (hw : sl.cls.p = true → sl.wide = false) : laneDest sl.wide d := by
  unfold laneDest
  intro e he
  unfold Sys2Proof.Slot.accepts at h
  cases d with
  | v n =>
    have := n.isLt
    simp only [Bool.and_eq_true, Bool.or_eq_true, Bool.not_eq_true', decide_eq_true_eq] at h
    simp only [encsOf] at he
    simp only [laneReg, Bool.or_eq_true, Bool.and_eq_true, decide_eq_true_eq]
    split at he
    · simp only [List.mem_cons, List.not_mem_nil, or_false] at he
      rename_i w
      simp only [w] at h
      have := h.2
      simp at this
      omega
    · simp only [List.mem_cons, List.not_mem_nil, or_false] at he
      omega
  | s n => simp [hs] at h
  | p n =>
    have := n.isLt
    simp only [Bool.and_eq_true] at h
    rw [hw h.1] at he
    simp only [encsOf, Bool.false_eq_true, if_false, List.mem_cons, List.not_mem_nil, or_false] at he
    simp only [laneReg, Bool.or_eq_true, Bool.and_eq_true, decide_eq_true_eq]
    omega
  | q n => simp [encsOf] at he
  | h n => simp [hh] at h
  | x n => simp [encsOf] at he
  | imm n => simp [encsOf] at he
  | z => simp [encsOf] at he

theorem writes_ordered {s : State} {i : Iss} {l : Nat} {f : Form} (h : formHazard s i l f = none) (hl : f.lat ≠ .none) :
    ∀ e ∈ encsOf (f.sd.wide || f.sd.pEven) f.d, writeHazard (s.thread i.team l) f.lat e = none := by
  intro e he
  simp only [formHazard] at h
  split at h
  · simp at h
  · rw [List.findSome?_eq_none_iff] at h
    exact h e (by simpa [formWrites, hl] using he)

/-- The form of a well-formed instruction: its D is accepted. -/
theorem accepts_of_wf {ins : Instr} {regs : Nat} {f : Form} (h : ins.wf regs = true) (hf : coreForm ins = some f) :
    f.sd.accepts regs f.d = true ∧ f.sa.accepts regs f.a = true ∧ f.sb.accepts regs f.b = true := by
  simp only [Instr.wf, hf, Bool.and_eq_true, Form.operandsOk] at h
  exact ⟨h.2.1.1.1.1.1, h.2.1.1.1.1.2, h.2.1.1.1.2⟩

/-- An instruction whose meaning is `issueAlu` computes, where its D is of the lane's own registers. -/
theorem computes_of {ins : Instr} {k : Kind} {f : Form} {op : Srcs → DWord} (he : ∀ s, exec ins s = .next (issueAlu k f op s))
    (hf : coreForm ins = some f) (hl : f.lat ≠ .none) (hs : f.sd.cls.s = false) (hh : f.sd.cls.h = false)
    (hw : f.sd.cls.p = true → f.sd.wide = false) (hp : f.sd.pEven = false) : Computes ins k op := by
  intro regs s i wf hi hu ho
  have ef : formOf ins = f := by simp [formOf, hf]
  rw [ef] at hu ho ⊢
  have A := accepts_of_wf wf hf
  obtain ⟨s', a, b, c⟩ := issueAlu_spec (k := k) (op := op) hi hu (laneDest_of_accepts A.1 hs hh hw) (by
    intro l hl' e he
    exact writes_ordered (ho l hl') hl e (by simpa [hp] using he))
  exact ⟨s', ⟨_, he s, a⟩, b, c⟩

theorem crosses_of {ins : Instr} {k : Kind} {f : Form} {op : List Peer → Peer → Src} (he : ∀ s, exec ins s = .next (issueCross k f op s))
    (hf : coreForm ins = some f) (hl : f.lat ≠ .none) (hs : f.sd.cls.s = false) (hh : f.sd.cls.h = false)
    (hw : f.sd.cls.p = true → f.sd.wide = false) (hp : f.sd.pEven = false) (hlate : f.late = false) : Crosses ins k op := by
  intro regs s i wf hi hu ho
  have ef : formOf ins = f := by simp [formOf, hf]
  rw [ef] at hu ho ⊢
  have A := accepts_of_wf wf hf
  obtain ⟨s', a, b, c⟩ := issueCross_spec (k := k) (op := op) hi hu hlate (laneDest_of_accepts A.1 hs hh hw) (by
    intro l hl' e he
    exact writes_ordered (ho l hl') hl e (by simpa [hp] using he))
  exact ⟨s', ⟨_, he s, a⟩, b, c⟩

end Sys2Proof.Machine
end

