-- ==== Sys2Proof/Tests/Slice0.lean ====
section
/-! SUPPORT. Tests: words of the manual's encodings decode to their instructions, ill-formed instructions are refused, single steps do what the
manual says, and every statement's hypotheses are met by a concrete state. -/

namespace Sys2Proof.Tests

open Sys2Proof Sys2Proof.Machine Sys2Proof.Safety

set_option maxRecDepth 8000
set_option exponentiation.threshold 2048

/-- The guard p7 with no hint: always, where p7 is the always-true predicate (R36). -/
def c : Ctl := { gN := false, gP := 7, keep := 0, y := false, f := false, s := false }

/-- Three words of 32 bits decode to an instruction of a launch of 64 registers. -/
def reads (l : List (Word × Word × Word × Instr)) : Bool :=
  l.all (fun x => decide ((decodeCore 64 (coreWord x.1 x.2.1 x.2.2.1)).toOption = some x.2.2.2))

def readsWalker (l : List (BitVec 32 × Instr)) : Bool := l.all (fun x => decide (decodeWalker x.1 = some x.2))

-- decoding: each word is written from the encoding tables of the manual (R27, R30, R48, R102 to R306, R265 to R267)

theorem test_decode_row01 : reads [
    (0x08011C01, 0x500000C0, 0x00000000, .add c .s32 true (.v 4) (.v 2) (.v 3)),
    (0x08011C81, 0x20020200, 0x00000000, .sub c .u64 false (.v 4) (.v 2) (.s 8)),
    (0x08011D01, 0x03F7FF80, 0x00000000, .mul c .u32 false (.v 4) (.v 2) (.imm 253)),
    (0x08011D81, 0x30000180, 0x00000000, .mulhi c .s64 (.v 4) (.v 2) (.v 6)),
    (0x0C011E01, 0x10024C64, 0x00000000, .mad c .s32 false (.v 4) (.p 3) (.x 1)),
    (0x06409E81, 0x0003FFC0, 0x00000000, .madhi c .u32 (.p 2) (.v 1) .z),
    (0x18011F01, 0x7003FFC0, 0x00000000, .abs c true true (.v 4) (.v 6)),
    (0x0C011F81, 0x1003FFC0, 0x00000000, .neg c false false (.v 4) (.v 3))] = true := by decide

theorem test_decode_row02 : reads [
    (0x08011C02, 0x20000180, 0x00000000, .min c .u64 (.v 4) (.v 2) (.v 6)),
    (0x08005C82, 0x100000C0, 0x00000000, .max c .s32 (.v 1) (.v 2) (.v 3)),
    (0x0A415D02, 0x100000C0, 0x00000005, .setp c .ge .s32 (.p 5) (.v 2) (.v 3)),
    (0x08011D82, 0x80000180, 0x00000E00, .sel c true (.v 4) (.v 2) (.v 6) 6 true)] = true := by decide

theorem test_decode_row03 : reads [
    (0x0640DC03, 0x000240A4, 0x00000000, .and c false (.p 3) (.p 1) (.p 2)),
    (0x08011C83, 0x80000180, 0x00000000, .or c true (.v 4) (.v 2) (.v 6)),
    (0x08005D03, 0x000000C0, 0x00000000, .xor c false (.v 1) (.v 2) (.v 3)),
    (0x08005D83, 0x0003FFC0, 0x00000000, .not c false (.v 1) (.v 2)),
    (0x08005E03, 0x000000C0, 0x00000000, .andn c false (.v 1) (.v 2) (.v 3)),
    (0x08011E83, 0x80000180, 0x00000000, .orn c true (.v 4) (.v 2) (.v 6))] = true := by decide

theorem test_decode_row04 : reads [
    (0x08011C04, 0x000000C0, 0x00000000, .shl c false (.v 4) (.v 2) (.v 3)),
    (0x08011C84, 0x800000C0, 0x00000000, .shr c true (.v 4) (.v 2) (.v 3)),
    (0x08011D04, 0x000000C0, 0x00000000, .sra c false (.v 4) (.v 2) (.v 3)),
    (0x08011D84, 0x800000C0, 0x00000000, .rol c true (.v 4) (.v 2) (.v 3)),
    (0x08011E04, 0x000000C0, 0x00000000, .ror c false (.v 4) (.v 2) (.v 3))] = true := by decide

theorem test_decode_row05 : reads [
    (0x08011C05, 0x300000C0, 0x00000000, .bfe c .s64 (.v 4) (.v 2) (.v 3)),
    (0x08011C85, 0x8C0000C0, 0x00000000, .bfi { c with keep := 3 } true (.v 4) (.v 2) (.v 3)),
    (0x08011D05, 0x8003FFC0, 0x00000000, .popc c true (.v 4) (.v 2)),
    (0x08011D85, 0x8003FFC0, 0x00000000, .clz c true (.v 4) (.v 2)),
    (0x08011E05, 0x8003FFC0, 0x00000000, .ctz c true (.v 4) (.v 2)),
    (0x08011E85, 0x8003FFC0, 0x00000000, .brev c true (.v 4) (.v 2))] = true := by decide

theorem test_decode_row06 : reads [
    (0x8A465C06, 0x0003FFE4, 0x00000000, .mov c false (.q 9) (.h 2)),
    (0x08011C86, 0x100000E0, 0x00000700, .lea c true 7 (.v 4) (.s 2) (.v 3))] = true := by decide

theorem test_decode_row08 : reads [
    (0x08005C08, 0x200000C0, 0x00000000, .fadd c .ru (.v 1) (.v 2) (.v 3)),
    (0x08005C88, 0x200000C0, 0x00000000, .fsub c .ru (.v 1) (.v 2) (.v 3)),
    (0x2802A908, 0x13F7FF80, 0x01000000, .fmul { c with gP := 2, gN := true, s := true } .rz (.v 10) (.v 10) (.imm 253)),
    (0x08011D88, 0x000000C0, 0x00000000, .fma c .rn (.v 4) (.v 2) (.v 3)),
    (0x08005E08, 0x000000C0, 0x00000000, .fmin c (.v 1) (.v 2) (.v 3)),
    (0x08005E88, 0x000000C0, 0x00000000, .fmax c (.v 1) (.v 2) (.v 3)),
    (0x08005F08, 0x0003FFC0, 0x00000000, .fabs c (.v 1) (.v 2)),
    (0x08005F88, 0x0003FFC0, 0x00000000, .fneg c (.v 1) (.v 2))] = true := by decide

theorem test_decode_row09 : reads [
    (0x0A405C09, 0x000000C0, 0x00000007, .fsetp c .nan (.p 1) (.v 2) (.v 3)),
    (0x08005C89, 0x3003FFC0, 0x00000000, .frnd c .rd (.v 1) (.v 2)),
    (0x08005D09, 0x0003FFC0, 0x00000000, .fclass c (.v 1) (.v 2))] = true := by decide

theorem test_decode_row0A : reads [
    (0x08005C0A, 0x500000C0, 0x00000000, .hadd2 c true .rz (.v 1) (.v 2) (.v 3)),
    (0x08005C8A, 0x500000C0, 0x00000000, .hsub2 c true .rz (.v 1) (.v 2) (.v 3)),
    (0x08005D0A, 0x500000C0, 0x00000000, .hmul2 c true .rz (.v 1) (.v 2) (.v 3)),
    (0x08005D8A, 0x500000C0, 0x00000000, .hfma2 c true .rz (.v 1) (.v 2) (.v 3)),
    (0x08005E0A, 0x000000C0, 0x00000000, .hmin2 c false (.v 1) (.v 2) (.v 3)),
    (0x08005E8A, 0x400000C0, 0x00000000, .hmax2 c true (.v 1) (.v 2) (.v 3)),
    (0x0A411F0A, 0x000000C0, 0x00000002, .hsetp2 c false (.ord .lt) (.p 4) (.v 2) (.v 3))] = true := by decide

theorem test_decode_row0B : reads [
    (0x08005C0B, 0x0003FFC0, 0x00000000, .rcp c .rn (.v 1) (.v 2)),
    (0x08005C8B, 0x0003FFC0, 0x00000000, .rsq c .rn (.v 1) (.v 2)),
    (0x08005D0B, 0x0003FFC0, 0x00000000, .sqrt c .rn (.v 1) (.v 2)),
    (0x08005D8B, 0x0003FFC0, 0x00000000, .ex2 c .rn (.v 1) (.v 2)),
    (0x08005E0B, 0x0003FFC0, 0x00000000, .lg2 c .rn (.v 1) (.v 2)),
    (0x08005E8B, 0x0003FFC0, 0x00000000, .sin c .rn (.v 1) (.v 2)),
    (0x08005F0B, 0x0003FFC0, 0x00000000, .cos c .rn (.v 1) (.v 2))] = true := by decide

theorem test_decode_row0C : reads [
    (0x0C015C0C, 0x1003FFC0, 0x000006A9, .cvt c .bf16 .f32 false .rz false .m1 (.v 5) (.v 3)),
    (0x0C015C0C, 0x4003FFC0, 0x00000030, .cvt c .u8 .s16 true .rn false .whole (.v 5) (.v 3)),
    (0x08005C8C, 0x200000C0, 0x00000000, .dxdec c .dx4 (.v 1) (.v 2) (.v 3))] = true := by decide

theorem test_decode_row0D : reads [
    (0x08011C0D, 0xB00000C0, 0x00000300, .shfl c .pair true .s8 (.v 4) (.v 2) (.v 3)),
    (0x08005C8D, 0x4003FFC0, 0x00000000, .vote c .count (.v 1) (.v 2)),
    (0x08005D0D, 0x3003FFC0, 0x00000008, .redux c (.fadd .rd) (.v 1) (.v 2)),
    (0x08011D8D, 0x2003FFC0, 0x00000015, .scan c (.int .xor .u64) true (.v 4) (.v 2)),
    (0x08005E0D, 0xA003FFC0, 0x00000000, .matchLanes c .first true (.v 1) (.v 2)),
    (0xFE401E8D, 0x1003FFFF, 0x00000000, .elect c true (.p 0))] = true := by decide

theorem test_decode_row0E : reads [
    (0x0A405C0E, 0x032A40E4, 0x00000500, .plut c 202 5 (.p 1) (.p 2) (.p 3))] = true := by decide

theorem test_decode_row0F : reads [
    (0x0A019C0F, 0x8003FFC0, 0x00000000, .umov c true (.s 6) (.v 2)),
    (0x22019C8F, 0x8043FFA0, 0x00000000, .uld c true (.s 6) (.s 8) (.imm 16))] = true := by decide

theorem test_decode_row10 : reads [
    (0xFFFFDC10, 0x03FBFFFF, 0x00000000, .bra c 254),
    (0xFFFFDC90, 0x000FFFFF, 0x00000000, .call c 3),
    (0x0BFFDD10, 0x0003FFC0, 0x00000000, .jmp c (.v 2)),
    (0x13FFDD90, 0x0003FFE0, 0x00000000, .calli c (.s 4)),
    (0xFFFFDE10, 0x0003FFFF, 0x00000000, .ret c)] = true := by decide

theorem test_decode_row11 : reads [
    (0xFFFFDC11, 0x0003FFFF, 0x00000000, .reform c),
    (0xFFFFDC91, 0x0003FFFF, 0x00000000, .demote c),
    (0xFFFFDD11, 0x0003FFFF, 0x00000000, .exit c),
    (0xFBFFDD91, 0x0027FFFF, 0x00000000, .trap c (.imm 9)),
    (0xFFFFDE11, 0x03FFFFFF, 0x00000000, .brk c 255),
    (0x08011E91, 0x0017FFC0, 0x00000000, .svc c 5 (.v 4) (.v 2)),
    (0xFFFFDF11, 0x1003FFFF, 0x01000000, .rte { c with s := true } true)] = true := by decide

theorem test_decode_row12 : reads [
    (0x0C011C12, 0x001FFFC0, 0x00000000, .rdsr c .accown (.v 4) (.v 3)),
    (0x0BFFDC92, 0x0013FFC0, 0x00000000, .wrsr c .tvec (.v 2) .z)] = true := by decide

theorem test_decode_row13 : reads [
    (0xFFFFDC13, 0x000FFFFF, 0x00000000, .raise c 3),
    (0x1C005C93, 0x000BFFE0, 0x00000000, .declass c 2 (.v 1) (.s 7)),
    (0xFFFFDD13, 0x0047FFE4, 0x00000000, .tmark c 17 (.x 15)),
    (0x0A4BDD93, 0x000000C0, 0x00000000, .launch c (.h 15) (.v 2) (.v 3))] = true := by decide

theorem test_decode_row18 : reads [
    (0x20019C18, 0x0043FFA0, 0x0000001A, .ld c .g .b64 .byp (.v 6) (.s 8) (.imm 16)),
    (0x10025C98, 0x8013FF80, 0x01000008, .st { c with s := true } .s .b32 .l1 (.v 9) (.v 4) (.imm 4)),
    (0x08011D18, 0x00000180, 0x0000003C, .atom c (.int .cas .u64) .g (.v 4) (.v 2) (.v 6)),
    (0x0BFFDD98, 0x900000C0, 0x00000040, .red c (.fadd .rz) .s (.v 2) (.v 3)),
    (0xFFFFDE18, 0x3003FFFF, 0x00000000, .fence c .sys),
    (0x0BFFDE98, 0x000000C0, 0x00000010, .pref c .g true (.v 2) (.v 3))] = true := by decide

theorem test_decode_row19 : reads [
    (0x08005C19, 0x902C00C0, 0x00000004, .resv c .ab .dx8 1 11 (.v 1) (.v 2) (.v 3)),
    (0xFFFFDC99, 0x1003FFFF, 0x00000000, .resfree c true 0)] = true := by decide

theorem test_decode_row1A : reads [
    (0x33FFDC1A, 0x00060360, 0x00000000, .mld c 1 (.s 12) (.s 13)),
    (0xFFFFDC9A, 0x0003FFFF, 0x00000000, .mswap c),
    (0x3A489D1A, 0x000001E0, 0x01000000, .mstream { c with s := true } (.h 2) (.s 14) (.v 7)),
    (0x0644DD9A, 0x00100080, 0x00000000, .mread c 4 (.q 3) (.v 1) (.v 2)),
    (0x07FFDE1A, 0x003C0080, 0x00000000, .mzero c 15 (.v 1) (.v 2)),
    (0xFFFFDE9A, 0x2003FFFF, 0x00000000, .mfuse c .q),
    (0xFFFFDF1A, 0x0003FFFF, 0x00000000, .mrel c)] = true := by decide

theorem test_decode_row1B : reads [
    (0x4248DC1B, 0x100001E0, 0x00000000, .copy c true false (.h 3) (.s 16) (.v 7)),
    (0x0648DC9B, 0x200001C0, 0x00000000, .quant c false true (.h 3) (.v 1) (.v 7)),
    (0x6248DD1B, 0x3017FFA0, 0x00000000, .rqt c true true (.h 3) (.s 24) (.imm 5)),
    (0x8A405D9B, 0x0003FFE4, 0x00000000, .htest c (.p 1) (.h 2)),
    (0x8BFFDE1B, 0x0003FFE4, 0x00000000, .hcancel c (.h 2)),
    (0x88019E9B, 0x0003FFE4, 0x00000000, .hmov c (.v 6) (.h 2))] = true := by decide

theorem test_decode_row1C : reads [
    (0x03FFDC1C, 0x600001A0, 0x00000000, .cadd c (.rel .dev) .z (.s 0) (.v 6)),
    (0x0BFFDC1C, 0x80000100, 0x00000000, .cadd c .lim .z (.v 2) (.v 4)),
    (0x0BFFDC9C, 0x0043FFA0, 0x00000000, .cwait c .z (.s 2) (.imm 16)),
    (0x08011D1C, 0x0003FFC0, 0x00000000, .cread c (.v 4) (.v 2)),
    (0x06015D9C, 0x0003FFC0, 0x00000000, .carm c (.s 5) (.v 1)),
    (0x0A015E1C, 0x00000040, 0x00000000, .cdisarm c (.s 5) (.v 2) (.v 1))] = true := by decide

theorem test_decode_row1D : reads [
    (0x42485C1D, 0x000000E0, 0x00000000, .ovw c (.h 1) (.s 16) (.v 3)),
    (0xFC015C9D, 0x0003FFFF, 0x01000000, .ovget { c with s := true } (.v 5)),
    (0xFFFFDD1D, 0x0003FFFF, 0x00000000, .ovend c)] = true := by decide

theorem test_decode_row1E : reads [
    (0x62485C1E, 0x1003FFE0, 0x00000000, .xinv c true (.h 1) (.s 24)),
    (0x50029C9E, 0x1003FFE0, 0x00000000, .xprobe c .w (.v 10) (.s 20))] = true := by decide

theorem test_decode_walker1 : readsWalker [
    (0x001F08C1, .walkerAdd 3 1 31),
    (0x001F08C2, .walkerSub 3 1 31),
    (0x001F08C3, .walkerAnd 3 1 31),
    (0x001F08C4, .walkerOr 3 1 31),
    (0x001F08C5, .walkerXor 3 1 31),
    (0x001F08C6, .walkerSll 3 1 31),
    (0x001F08C7, .walkerSrl 3 1 31),
    (0x001F08C8, .walkerSra 3 1 31),
    (0x001F08C9, .walkerMul 3 1 31),
    (0x800008D0, .walkerAddi 3 1 1024),
    (0x800008D1, .walkerAndi 3 1 1024),
    (0x800008D2, .walkerOri 3 1 1024),
    (0x800008D3, .walkerXori 3 1 1024),
    (0x07E008D4, .walkerSlli 3 1 63),
    (0x07E008D5, .walkerSrli 3 1 63),
    (0x07E008D6, .walkerSrai 3 1 63)] = true := by decide

theorem test_decode_walker2 : readsWalker [
    (0xFFE008D7, .walkerCat 3 1 2047),
    (0xFFC20820, .walkerBeq 1 2 2046),
    (0xFFC20821, .walkerBne 1 2 2046),
    (0xFFC20822, .walkerBlt 1 2 2046),
    (0xFFC20823, .walkerBge 1 2 2046),
    (0xFFC20824, .walkerBltu 1 2 2046),
    (0xFFC20825, .walkerBgeu 1 2 2046),
    (0x00A00826, .walkerJmp 1 5),
    (0x010008F0, .walkerLdpD 3 1 8),
    (0x010008F1, .walkerLdpW 3 1 8),
    (0x010008F2, .walkerLdvD 3 1 8),
    (0x010008F3, .walkerLdvW 3 1 8),
    (0x000208F8, .walkerHash 3 1 2),
    (0x000000F9, .walkerTick 3),
    (0x000008FA, .walkerDone 3 1),
    (0xFFE0003B, .walkerFault 2047)] = true := by decide

/-- The fault of a word that is no instruction of a launch of 64 registers. -/
def refusal (w : BitVec 96) : Option WordFault := match decodeCore 64 w with | .error e => some e | .ok _ => none

/-- Words that are refused, each with its fault (R31, R32, R47): an operation code with no instruction, a reserved bit, an operand class, a
register beyond the launch, an odd pair. -/
theorem test_refused_words :
    refusal (coreWord 0x08011C07 0 0) = some (.illegalOpcode 0x07) ∧
    refusal 0 = some (.illegalOpcode 0) ∧
    refusal (coreWord 0x08011C01 0x500000C0 0x80000000) = some (.reservedBits 0x1000) ∧
    ((decodeCore 64 (coreWord 0x08011C01 0x500000C0 0x00000001)).toOption = none) ∧
    ((decodeCore 4 (coreWord 0x08011C01 0x500000C0 0)).toOption = none) ∧
    ((decodeCore 5 (coreWord 0x08011C01 0x500000C0 0)).toOption = some (.add c .s32 true (.v 4) (.v 2) (.v 3))) ∧
    refusal (coreWord 0x08015C81 0x20020200 0) = some (.illegalOperand 5) ∧
    refusal (coreWord 0x8A465C01 0x500000C0 0) = some (.illegalOperand 0x919) ∧
    decodeWalker 0 = none ∧ decodeWalker 0x00000001 = some (.walkerAdd 0 0 0) ∧ decodeWalker 0x04000001 = none := by decide

-- well-formedness: one ill-formed instruction for each check, beside a well-formed neighbour

theorem test_wf_codes :
    ([Instr.cvt c .s32 .s32 false .rn false .whole (.v 1) (.v 2), .cvt c .f32 .s32 true .rn false .whole (.v 1) (.v 2),
      .cvt c .u8 .s32 false .rz false .whole (.v 1) (.v 2), .cvt c .s32 .f32 false .rn true .whole (.v 1) (.v 2),
      .cvt c .f32 .s32 false .rn false .m0 (.v 1) (.v 2), .atom c .fmin .l (.v 1) (.v 2) (.v 4), .red c .fmin .l (.v 2) (.v 4),
      .pref c .s true (.v 2) (.imm 0), .rte c true, .resfree c true 3].any (fun i => i.wf 64)) = false ∧
    ([Instr.cvt c .u8 .s32 true .rn false .whole (.v 1) (.v 2), .cvt c .s32 .f16 false .rz true .whole (.v 1) (.v 2),
      .cvt c .f16 .s32 false .rn false .m1 (.v 1) (.v 2), .atom c .fmin .g (.v 1) (.v 2) (.v 4), .red c .fmin .s (.v 2) (.v 4),
      .pref c .l true (.v 2) (.imm 0), .rte { c with s := true } true, .resfree c true 0].all (fun i => i.wf 64)) = true := by decide

theorem test_wf_operands :
    ([Instr.add c .s32 false (.imm 1) (.v 2) (.v 3), .add c .s32 false (.v 1) (.q 2) (.v 3), .add c .s32 false (.v 1) (.v 2) (.h 3),
      .add c .s32 false (.v 64) (.v 2) (.v 3), .add c .s64 false (.v 1) (.v 2) (.v 4), .add c .s64 false (.v 2) (.s 3) (.v 4),
      .add c .s32 false (.v 1) (.imm 3) (.imm 4), .hsetp2 c false (.ord .lt) (.p 3) (.v 1) (.v 2), .copy c true false (.h 1) (.s 3) (.v 1),
      .setp c .lt .u32 (.v 1) (.v 2) (.v 3), .mov c true (.v 2) (.q 1), .jmp c (.v 3)].any (fun i => i.wf 64)) = false ∧
    ([Instr.add c .s32 false (.v 63) (.v 2) (.v 3), .add c .s64 false (.v 62) (.s 254) (.v 4), .add c .s32 false (.v 1) (.imm 3) (.imm 3),
      .hsetp2 c false (.ord .lt) (.p 2) (.v 1) (.v 2), .copy c true false (.h 1) (.s 16) (.v 1), .setp c .lt .u32 (.p 1) (.v 2) (.v 3),
      .mov c false (.v 2) (.q 1), .jmp c (.v 2)].all (fun i => i.wf 64)) = true := by decide

/-- A core instruction of 64 registers is no well-formed one of fewer than its registers need (R32). -/
theorem test_wf_registers :
    (Instr.add c .s32 false (.v 7) (.v 2) (.v 3)).wf 7 = false ∧ (Instr.add c .s32 false (.v 7) (.v 2) (.v 3)).wf 8 = true := by decide

-- states to run on: one lane of team 0 executes on core 0, whose ATC holds the page of address 0

def iss : Iss := { core := 0, team := 0, lanes := [0], pc := 0 }

def lane (th : Thread := {}) (r : TeamRegs := {}) : Team := { soloTeam with threads := [(0, th)], r }

def run (tm : Team := soloTeam) (k : Core := {}) (cur : Cur := .lanes iss) : State :=
  { State.reset with m := { cur }, teams := [(0, tm)], cores := [(0, { k with atc := [soloXlat] })] }

/-- A state in which the handler of traps stands at 0x300. -/
def runTvec (th : Thread := {}) (r : TeamRegs := {}) : State := run (lane th { r with tvec := 0x300 })

/-- The result of an instruction, and of a step; the state before where there is none. -/
def after (i : Instr) (s : State) : State := match exec i s with | .next t => t | _ => s

def stepped (s : State) : State := match step s with | .next t => t | _ => s

def reg (s : State) (e : Nat) : Word := (regNow s 0 0 e).val

-- steps: a word placed for the next step, with the effect that the manual gives it

/-- `add.u32 v3, 5, 5` under the guard not p0, and the walker word `addi w3, w1, 7` (R102, R266, R275). -/
theorem test_step_core : reg (stepped (State.reset.withFetchWord 96 309485009828100193153769473)) 3 = 10 := by decide

theorem test_step_walker :
    ((((stepped (State.reset.withFetchWord 32 0x00E008D0)).cell 0).procs.head?.map (fun e => e.2.o.reg 3)) = some 7) := by decide

def vs (l : List (Nat × Word)) : Thread := { r := { v := l.map (fun e => (e.1, { val := e.2 })) } }

/-- The v registers 2 to 5 hold given values, and the rest zero. -/
def with4 (a b : Word) (x : Word := 0) (y : Word := 0) : State := run (lane (vs [(2, a), (3, b), (4, x), (5, y)]))

/-- Sums wrap, and saturate at the bounds of the type (R102). -/
theorem test_add : reg (after (.add c .s32 false (.v 1) (.v 2) (.v 3)) (with4 0x7FFFFFFF 1)) 1 = 0x80000000 ∧
    reg (after (.add c .s32 true (.v 1) (.v 2) (.v 3)) (with4 0x7FFFFFFF 1)) 1 = 0x7FFFFFFF := by decide

/-- The destination may be a source, and a pair holds the low word first (R32, R50). -/
theorem test_add_pair : let s := after (.add c .u64 false (.v 2) (.v 2) (.v 4)) (with4 0xFFFFFFFF 0 1 7)
    reg s 2 = 0 ∧ reg s 3 = 8 := by decide

theorem test_sub : reg (after (.sub c .u32 true (.v 1) (.v 2) (.v 3)) (with4 1 2)) 1 = 0 := by decide

theorem test_mulhi : reg (after (.mulhi c .s32 (.v 1) (.v 2) (.v 3)) (with4 0xFFFFFFFF 2)) 1 = 0xFFFFFFFF ∧
    reg (after (.mulhi c .u32 (.v 1) (.v 2) (.v 3)) (with4 0xFFFFFFFF 2)) 1 = 1 := by decide

/-- The least number's absolute value wraps to itself, and saturates to the greatest (R102). -/
theorem test_abs : reg (after (.abs c false false (.v 1) (.v 2)) (with4 0x80000000 0)) 1 = 0x80000000 ∧
    reg (after (.abs c false true (.v 1) (.v 2)) (with4 0x80000000 0)) 1 = 0x7FFFFFFF := by decide

/-- A count of the width or more (R106). -/
theorem test_shl : reg (after (.shl c false (.v 1) (.v 2) (.v 3)) (with4 1 32)) 1 = 0 ∧
    reg (after (.shl c false (.v 1) (.v 2) (.v 3)) (with4 1 31)) 1 = 0x80000000 := by decide

theorem test_sra : reg (after (.sra c false (.v 1) (.v 2) (.v 3)) (with4 0x80000000 40)) 1 = 0xFFFFFFFF := by decide

theorem test_ror : reg (after (.ror c false (.v 1) (.v 2) (.v 3)) (with4 1 33)) 1 = 0x80000000 := by decide

/-- A field of eight bits from bit 4 on, with and without its sign (R107). -/
theorem test_bfe : reg (after (.bfe c .u32 (.v 1) (.v 2) (.v 3)) (with4 0xFF0 0x0804)) 1 = 0xFF ∧
    reg (after (.bfe c .s32 (.v 1) (.v 2) (.v 3)) (with4 0xFF0 0x0804)) 1 = 0xFFFFFFFF := by decide

theorem test_clz : reg (after (.clz c false (.v 1) (.v 2)) (with4 0 0)) 1 = 32 ∧
    reg (after (.clz c true (.v 1) (.v 2)) (with4 0 1)) 1 = 31 := by decide

/-- A compare writes its predicate, and `sel` reads it (R103, R104). -/
theorem test_setp_sel : let s := after (.setp c .lt .s32 (.p 1) (.v 2) (.v 3)) (with4 0xFFFFFFFF 0)
    reg s 0x901 = 1 ∧ (regNow (after (.setp c .lt .u32 (.p 1) (.v 2) (.v 3)) (with4 0xFFFFFFFF 0)) 0 0 0x901).val = 0 := by decide

/-- 1 + 2⁻²⁴ is 1 to nearest, a tie that goes to the even, and the next number up (R90, R110). -/
theorem test_fadd : reg (after (.fadd c .rn (.v 1) (.v 2) (.v 3)) (with4 0x3F800000 0x33800000)) 1 = 0x3F800000 ∧
    reg (after (.fadd c .ru (.v 1) (.v 2) (.v 3)) (with4 0x3F800000 0x33800000)) 1 = 0x3F800001 := by decide

/-- Infinity minus infinity is the canonical NaN (R91). -/
theorem test_fsub : reg (after (.fsub c .rn (.v 1) (.v 2) (.v 3)) (with4 0x7F800000 0x7F800000)) 1 = 0x7FC00000 := by decide

/-- A packed pair: 1 + 1 and 2 + 2 in FP16 (R114). -/
theorem test_hadd2 : reg (after (.hadd2 c false .rn (.v 1) (.v 2) (.v 3)) (with4 0x40003C00 0x40003C00)) 1 = 0x44004000 := by decide

/-- A conversion past the range gives the bound of the type (R116). -/
theorem test_cvt : reg (after (.cvt c .s8 .s32 true .rn false .whole (.v 1) (.v 2)) (with4 300 0)) 1 = 127 := by decide

/-- A branch back by one word, and past it where the guard is false (R36, R130, R131). -/
theorem test_bra : let s := run (lane { r := { pc := 0x60 } })
    ((after (.bra c 0xFE) s).thread 0 0).r.pc = 0x54 ∧ ((after (.bra { c with gP := 1 } 0xFE) s).thread 0 0).r.pc = 0x6C := by decide

/-- A trap saves the PC and the code, and goes to the handler; the return goes back, with NEXT past the trapping word (R139, R325). -/
theorem test_trap_rte : let t := after (.brk c 9) (runTvec { r := { pc := 0x60 } })
    (t.thread 0 0).r.pc = 0x300 ∧ (t.thread 0 0).t.trap = true ∧ (t.thread 0 0).t.tpc.val = 0x60 ∧ (t.thread 0 0).t.tval.val = 9 ∧
      (t.thread 0 0).t.tcause.val = 7 := by decide

theorem test_rte : let s := run (lane { r := { pc := 0x300 }, t := { trap := true, sup := true, tpc := ⟨0x60, 0⟩ } })
    let t := after (.rte { c with s := true } true) s
    (t.thread 0 0).r.pc = 0x6C ∧ (t.thread 0 0).t.trap = false ∧ (t.thread 0 0).t.sup = false := by decide

/-- Outside trap mode `rte` is PRIVILEGE, code 5 (R139, R324). -/
theorem test_rte_privilege : ((after (.rte { c with s := true } false) (runTvec)).thread 0 0).t.tcause.val = 5 := by decide

/-- A load asks its line, and the response brings the bytes, extended by their sign (R168, R182). -/
theorem test_ld : let s := { run (lane (vs [(2, 0x101)])) with mem := [(0x101, 0x80)] }
    let t := after (.memoryResponse 0 1) (after (.ld c .g .s8 .byp (.v 4) (.v 2) (.imm 0)) s)
    reg t 4 = 0xFFFFFF80 := by decide

/-- A store goes to its line, and its bytes land when it is performed (R167). -/
theorem test_st : let s := with4 0x100 0 0x11223344
    let t := after (.storePerform 0 1) (after (.st c .g .b32 .l1 (.v 4) (.v 2) (.imm 4)) s)
    t.mem = [(0x104, 0x44), (0x105, 0x33), (0x106, 0x22), (0x107, 0x11)] := by decide

/-- A misaligned load is MISALIGNED, code 0x10, with the address in TVAL (R179, R180). -/
theorem test_ld_misaligned : let t := after (.ld c .g .b32 .byp (.v 4) (.v 2) (.imm 1)) (run (lane (vs [(2, 0x100)]) { tvec := 0x300 }))
    (t.thread 0 0).t.tcause.val = 0x10 ∧ (t.thread 0 0).t.tval.val = 0x101 := by decide

/-- The encoded addend of a walker's branch counts from the next word, and wraps at 1024 words (R271). -/
theorem test_walker_jmp : let s := placeWalker State.reset 0
    (((after (.walkerJmp 0 0x7FF) (s.setCur (.walker 0 0))).cell 0).procs.head?.map (fun e => e.2.o.pc)) = some 1023 := by decide

/-- w0 reads zero whatever is written to it (R264). -/
theorem test_walker_w0 : let s := (placeWalker State.reset 0).setCur (.walker 0 0)
    (((after (.walkerAddi 0 0 5) s).cell 0).procs.head?.map (fun e => e.2.o.reg 0)) = some 0 := by decide

/-- A command that the table of the management connector does not give is not acknowledged (R383). -/
theorem test_smbus : (after (.smbusNack 9) State.reset).boot.nack = true := by decide

-- witnesses: states and operands that meet the hypotheses of the statements

/-- What `Issuing`, `Unfaulted`, `Ordered`, `Solo` and well-formedness ask of an instruction that lane 0 issues alone. -/
structure Ready (i : Instr) (s : State) : Prop where
  wf : i.wf 64 = true
  unfaulted : Unfaulted s iss (formOf i)
  ordered : Ordered s iss (formOf i)
  solo : Solo s iss 0 (formOf i)
  active : active s iss (formOf i) = [0]

def isReady (s : State) (i : Instr) : Bool :=
  i.wf 64 && decide (s.m.cur = .lanes iss) && (Tbl.find s.teams 0).isSome && decide (stageOf s iss 0 (formOf i) = .act) &&
  decide (formHazard s iss 0 (formOf i) = none)

theorem ready_of {s : State} {i : Instr} (h : isReady s i = true) : Ready i s := by
  simp only [isReady, Bool.and_eq_true, decide_eq_true_eq] at h
  obtain ⟨⟨⟨⟨h1, h2⟩, h3⟩, h4⟩, h5⟩ := h
  have ha : Safety.active s iss (formOf i) = [0] := by
    unfold Safety.active
    show List.filter _ [0] = [0]
    simp [h4]
  exact ⟨h1, fun l hl => by simp [iss] at hl; subst hl; exact .inl h4, fun l hl => by rw [ha] at hl; simp at hl; subst hl; exact h5,
    ⟨⟨h2, h3, by decide⟩, rfl, h4⟩, ha⟩

theorem all_ready {s : State} {is : List Instr} (h : is.all (isReady s) = true) : ∀ i ∈ is, Ready i s :=
  fun i hi => ready_of (List.all_eq_true.mp h i hi)

/-- The word `add.u32 v3, 5, 5` of the step test placed at reset, with its line in the instruction cache. -/
def fetching : State := (placeCore State.reset 309485009828100193153769473).modCore 0 (fun k => { k with
  icache := [(0, homeLine (placeCore State.reset 309485009828100193153769473) 0)] })

/-- A word of zeros there, for a lane with a handler. -/
def badWord : State := ((placeCore State.reset 0).modCore 0 (fun k => { k with icache := [(0, homeLine State.reset 0)] })).modTeam 0 (fun tm => { tm with
  r := { tm.r with tvec := 0x300 } })

theorem witness_BadWord : let s := badWord
    let s0 := { s with m := { s.m with issueQ := [], cur := .lanes iss } }
    s.m.issueQ = [iss] ∧ hitOf (s.core 0).atc 0 0 0 (accessKey s (.thread 0 0)) = some soloXlat ∧
    hitOf (s.core 0).atc 0 0 11 (accessKey s (.thread 0 0)) = some soloXlat ∧ fetchPage s0 0 soloXlat (soloXlat.pa 0) 0 = .ok s0 (homeLine s 0) ∧
    decodeCore (s.team 0).hdr.regs (BitVec.ofNat 96 (leNat (wordBytes 0 (homeLine s 0) (homeLine s 0)))) = .error (.illegalOpcode 0) ∧
    iss.lanes.Nodup ∧ CanTrap s 0 0 := ⟨rfl, rfl, rfl, rfl, rfl, by decide, by unfold CanTrap; decide⟩

theorem witness_StepRunsDecoded : let s := fetching
    let s0 := { s with m := { s.m with issueQ := [], cur := .lanes iss } }
    s.m.issueQ = [iss] ∧ (Tbl.find s.teams 0).isSome = true ∧ (s.team 0).halted = false ∧ (s.team 0).ended = false ∧
    (s.thread 0 0).run.xres = [] ∧ hitOf (s.core 0).atc 0 0 0 (accessKey s (.thread 0 0)) = some soloXlat ∧
    hitOf (s.core 0).atc 0 0 11 (accessKey s (.thread 0 0)) = some soloXlat ∧
    fetchPage s0 0 soloXlat (soloXlat.pa 0) 0 = .ok s0 (homeLine s 0) ∧ soloXlat.pa 11 / 256 = soloXlat.pa 0 / 256 ∧
    noSuch (soloXlat.pa 0) = false ∧ noSuch (soloXlat.pa 11) = false ∧
    (decodeCore (s.team 0).hdr.regs (BitVec.ofNat 96 (leNat (wordBytes 0 (homeLine s 0) (homeLine s 0))))).toOption =
      some (.add { gN := true, gP := 0, keep := 0, y := false, f := false, s := true } .u32 false (.v 3) (.imm 5) (.imm 5)) ∧
    permsIn permExec (attrPerm soloXlat.attr) = true ∧ attrCnt soloXlat.attr = false ∧ attrSealed soloXlat.attr = false ∧ isLink 0 = false ∧
    (s.line 0).pois = 0 ∧ Tbl.find (s.core 0).icache 0 = some (homeLine s 0) ∧ Tbl.find (run.core 0).icache 0 = none ∧
    closed run (.mem 0) = false :=
  ⟨rfl, rfl, rfl, rfl, rfl, rfl, rfl, rfl, rfl, rfl, rfl, by decide, by decide, rfl, rfl, rfl, rfl, rfl, rfl, rfl⟩

theorem witness_StepTakesTurns : let s := placeWalker State.reset 0x00E008D0
    s.m.issueQ = [] ∧ s.m.turns = [⟨0, .walker 0 0⟩] ∧ s.boot.powered = true ∧
    walkerFetch (passTime { s with m := { s.m with turns := [] } } 0) 0 0 = some 0x00E008D0 ∧ isEvent .powerOff = true ∧
    isEvent (.walkerTick 1) = false ∧
    (let s := { State.reset with m := { turns := [⟨5, .event .powerOff⟩] } }; s.m.issueQ = [] ∧ s.m.turns = [⟨5, .event .powerOff⟩] ∧ s.boot.powered = true) := by
  decide

theorem witness_IntegerArithmetic : ∀ i ∈ [Instr.add c .s32 true (.v 1) (.v 2) (.v 3), .sub c .u64 false (.v 62) (.v 2) (.s 254),
    .mul c .u32 true (.v 1) (.imm 5) .z, .mulhi c .s64 (.v 4) (.v 2) (.v 6), .mad c .s32 false (.v 4) (.p 3) (.x 1),
    .madhi c .u32 (.p 2) (.v 1) .z, .abs c true true (.v 4) (.v 6), .neg c false false (.v 4) (.v 3), .min c .u64 (.v 4) (.v 2) (.v 6),
    .max c .s32 (.v 1) (.v 2) (.v 3)], Ready i run := all_ready (by decide)

theorem witness_CompareSelectMove : ∀ i ∈ [Instr.setp c .ge .s32 (.p 5) (.v 2) (.v 3), .sel c true (.v 4) (.v 2) (.v 6) 6 true,
    .mov c false (.v 63) (.imm 255), .mov c true (.v 4) (.s 2)], Ready i run := all_ready (by decide)

theorem witness_LogicAndShifts : ∀ i ∈ [Instr.and c false (.p 3) (.p 1) (.p 2), .or c true (.v 4) (.v 2) (.v 6), .xor c false (.v 1) (.v 2) (.v 3),
    .not c false (.v 1) (.v 2), .andn c false (.v 1) (.v 2) (.v 3), .orn c true (.v 4) (.v 2) (.v 6), .shl c false (.v 4) (.v 2) (.v 3),
    .shr c true (.v 4) (.v 2) (.v 3), .sra c true (.v 4) (.v 2) (.v 3), .rol c true (.v 4) (.v 2) (.v 3), .ror c false (.v 4) (.v 2) (.v 3)],
    Ready i run := all_ready (by decide)

theorem witness_BitFieldsAndAddresses : ∀ i ∈ [Instr.bfe c .s64 (.v 4) (.v 2) (.v 3), .bfi { c with keep := 3 } true (.v 4) (.v 2) (.v 3),
    .popc c true (.v 4) (.v 2), .clz c true (.v 4) (.v 2), .ctz c true (.v 4) (.v 2), .brev c true (.v 4) (.v 2), .lea c true 7 (.v 4) (.s 2) (.v 3)],
    Ready i run := all_ready (by decide)

theorem witness_Fp32 : ∀ i ∈ [Instr.fadd c .ru (.v 1) (.v 2) (.v 3), .fsub c .rd (.v 1) (.v 2) (.v 3), .fmul c .rz (.v 10) (.v 10) (.imm 253),
    .fma c .rn (.v 4) (.v 2) (.v 3), .fmin c (.v 1) (.v 2) (.v 3), .fmax c (.v 1) (.v 2) (.v 3), .fabs c (.v 1) (.v 2), .fneg c (.v 1) (.v 2),
    .fsetp c .num (.p 0) (.v 2) (.v 3), .frnd c .rz (.v 1) (.v 2), .fclass c (.v 1) (.v 2)], Ready i run := all_ready (by decide)

theorem witness_PackedPairs : ∀ i ∈ [Instr.hadd2 c true .ru (.v 1) (.v 2) (.v 3), .hsub2 c false .rn (.v 1) (.v 2) (.v 3),
    .hmul2 c true .rn (.v 1) (.v 2) (.v 3), .hfma2 c false .rn (.v 1) (.v 2) (.v 3), .hmin2 c true (.v 1) (.v 2) (.v 3),
    .hmax2 c false (.v 1) (.v 2) (.v 3), .hsetp2 c false .nan (.p 6) (.v 1) (.v 2)], Ready i run := all_ready (by decide)

theorem witness_FunctionsAndConversions : ∀ i ∈ [Instr.rcp c .rn (.v 1) (.v 2), .rsq c .rn (.v 1) (.v 2), .sqrt c .rn (.v 1) (.v 2),
    .ex2 c .rn (.v 1) (.v 2), .lg2 c .rn (.v 1) (.v 2), .sin c .rn (.v 1) (.v 2), .cos c .rn (.v 1) (.v 2),
    .cvt c .f16 .s32 false .rn false .m1 (.v 1) (.v 2), .cvt c .s64 .f32 false .rz false .whole (.v 2) (.v 4), .dxdec c .dx4 (.v 1) (.v 2) (.v 3),
    .plut c 0x80 6 (.p 1) (.v 2) (.v 3)], Ready i run := all_ready (by decide)

/-- −1 is a negative number, of which `rsq`, `sqrt` and `lg2` have no real value; 0x7FC00000 is a NaN. -/
theorem witness_SpecialInputs : FFmt.f32.decode 0xBF800000 = .fin true 0x800000 (-23) ∧ (FFmt.f32.decode 0x7FC00000).isNaN = true := by decide

theorem witness_CrossLaneInstructions : ∀ i ∈ [Instr.shfl c .at false .s16 (.v 1) (.v 2) (.v 3), .shfl c .rot true .s2 (.v 4) (.v 2) (.v 3),
    .shfl c .shift false .s8 (.v 1) (.v 2) (.imm 255), .shfl c .pair false .s4 (.v 1) (.v 2) (.imm 1), .matchLanes c .peers false (.v 1) (.v 2),
    .matchLanes c .same true (.p 1) (.v 2), .matchLanes c .first false (.v 1) (.v 2), .elect c true (.p 1), .vote c .every (.p 1) (.p 2),
    .vote c .some (.p 1) (.p 2), .vote c .same (.p 1) (.p 2), .vote c .mask (.v 1) (.p 2), .vote c .count (.v 1) (.p 2),
    .redux c (.int .min .s32) (.v 1) (.v 2), .redux c (.fadd .rn) (.v 1) (.v 2), .scan c (.int .add .u32) false (.v 1) (.v 2),
    .scan c .fmax true (.v 1) (.v 2)], Ready i run := all_ready (by decide)

/-- A queue that holds three elements; and the handle registers h2, pending, h3, done, and h4, stale. -/
def queues : TeamRegs :=
  { q := [(1, { elems := [⟨1, 0, false⟩, ⟨2, 0, false⟩, ⟨3, 0, false⟩] }), (2, { ended := true })]
    h := [(2, { val := mkToken 0 0 1 }), (3, { val := mkToken 0 1 1 }), (4, { val := mkToken 0 0 2 })] }

def handles : Core := { hnd := [(0, { st := .pending, gen := 1 }), (1, { st := .done, gen := 1, status := 0x10000 })] }

def runQueues : State := run (lane {} queues) handles

theorem witness_QueueAndHandleMoves :
    (∀ i ∈ [Instr.mov c false (.q 1) (.v 3), .mov c false (.v 3) (.q 1), .mov c false (.v 3) (.q 2), .mov c false (.q 1) (.q 1),
      .mov c false (.v 3) (.h 3), .umov c false (.s 9) (.h 3), .mov c false (.v 3) (.h 2)], Ready i runQueues) ∧
    ((runQueues.team 0).queue 1).room 61 = true ∧ ((runQueues.team 0).queue 1).room 62 = false ∧
    ((runQueues.team 0).queue 1).atEnd = false ∧ ((runQueues.team 0).queue 1).ended = false ∧ ((runQueues.team 0).queue 2).atEnd = true ∧ (runQueues.thread 0 0).out.owes = [] ∧
    ((runQueues.team 0).queue 1).claims = [] ∧ ((runQueues.team 0).queue 1).excess = [] ∧ ((runQueues.team 0).queue 1).elems.length = 3 ∧
    readHandle runQueues 0 0 3 = .val ⟨0x10000, 0⟩ ∧ (regRead runQueues 0 0 0x925).val = 0 ∧
    readToken runQueues 0 (regRead runQueues 0 0 0x923).val = .done { st := .done, gen := 1, status := 0x10000 } ∧
    readToken runQueues 0 (regRead runQueues 0 0 0x924).val = .stale ∧
    readToken runQueues 0 (regRead runQueues 0 0 0x922).val = .pending := ⟨all_ready (by decide), by decide⟩

theorem witness_HandleTestsAndUniformMoves : ∀ i ∈ [Instr.htest c (.v 3) (.h 2), .htest c (.p 3) (.h 3), .hmov c (.v 3) (.h 4), .hmov c (.h 4) (.v 3),
    .hmov c (.h 4) (.h 3), .umov c true (.s 10) (.v 2)], Ready i runQueues := all_ready (by decide)

theorem witness_Branches : (∀ i ∈ [Instr.bra c 0x80, .jmp c (.v 2)], Ready i run) ∧ pcLabel run 0 0 = 0 ∧ guardLab run 0 0 c = 0 ∧
    (readOp run 0 0 .int true (.v 2)).lab = 0 := ⟨all_ready (by decide), by decide⟩

/-- A lane of which three return entries stand on the chip. -/
def calls : State := run (lane { r := { ret := [0x24, 0x18, 0x0C], rsd := 3 } })

/-- A lane of which `n` return entries stand, four of them on the chip, on a core whose ATC translates the page of its slots. -/
def deep (n : Nat) (x : Xlat := soloXlat) (k : Core := {}) (th : Thread := {}) : State :=
  { run (lane { th with r := { th.r with ret := [0x30, 0x24, 0x18, 0x0C], rsd := n } } { tvec := 0x300 }) with cores := [(0, { k with atc := [x] })] }

/-- The page of the slots leased, sealed, and holding counters. -/
def leased : Xlat := { soloXlat with attr := 12 * 8192 + 0x47 }
def sealed : Xlat := { soloXlat with attr := 12 * 8192 + 0x407 }
def counting : Xlat := { soloXlat with attr := 12 * 8192 + 0x807 }

theorem witness_CallsAndReturns : (∀ i ∈ [Instr.call c 0x7F, .calli c (.v 2), .ret c], Ready i calls) ∧ (calls.thread 0 0).r.rsd = 3 ∧
    (calls.thread 0 0).r.ret = 0x24 :: [0x18, 0x0C] ∧ pcLabel calls 0 0 = 0 ∧ guardLab calls 0 0 c = 0 := ⟨all_ready (by decide), by decide⟩

/-- A page in the region of a link, and a window of partition 0 there. -/
def linkXlat : Xlat := { soloXlat with frame := 2 ^ 39 }
def window1 : Links :=
  { ports := [(127, { up := true, remote := 0x00010000 })], windows := [(1, { valid := true, port := 127, dest := 0x00010000 })], winPart := [(1, 0)] }

/-- A read of slot 1 that lane 0 has sent, with its answer. -/
def slotAsked (a : Option (List Byte)) : State :=
  { deep 6 linkXlat { desc := [{ team := 0, lane := 0, ic := 0, va := 8, id := 0, ans := some a, slot := true }] } with links := window1 }

theorem canTrap_of (s : State) (h : decide ((s.thread 0 0).t.trap = false ∧ (s.thread 0 0).out.owes = [] ∧ (s.thread 0 0).out.sFault = none ∧
    tvecFor s 0 0 ≠ 0) = true) : CanTrap s 0 0 := by unfold CanTrap; exact of_decide_eq_true h

/-- The fourth entry leaves through a window, or on a lost connection; slot 1 has come back through the window, has been refused, or is lost. -/
theorem witness_SlotsThroughLinks :
    (∀ s ∈ [{ deep 4 linkXlat with links := window1 }, deep 4 linkXlat],
      Ready (.call c 0x7F) s ∧ ReachesSlot s 0 0 (8 * (4 - 4)) permWrite linkXlat ∧ SlotMaySend s iss (linkXlat.pa 0)) ∧
    isLink (linkXlat.pa 8) = true ∧ (windowOf { deep 4 linkXlat with links := window1 } 0 (linkXlat.pa 0)).isSome = true ∧
    windowOf (deep 4 linkXlat) 0 (linkXlat.pa 0) = none ∧
    (∀ a ∈ [some (List.replicate 8 0), none], Ready (.ret c) (slotAsked a) ∧ CanTrap (slotAsked a) 0 0 ∧
      ReachesSlot (slotAsked a) 0 0 (8 * (6 - 5)) permRead linkXlat ∧ ∃ d, slotRead (slotAsked a) 0 0 0 8 = some d ∧ d.ans = some a) ∧
    (let s := deep 6 linkXlat; Ready (.ret c) s ∧ CanTrap s 0 0 ∧ slotRead s 0 0 0 8 = none ∧ windowOf s 0 (linkXlat.pa 8) = none) := by
  refine ⟨fun s hs => ?_, by decide, by decide, by decide, fun a ha => ?_, ready_of (by decide), canTrap_of _ (by decide), rfl, by decide⟩
  · simp only [List.mem_cons, List.not_mem_nil, or_false] at hs
    rcases hs with rfl | rfl <;> exact ⟨ready_of (by decide), ⟨⟨rfl, rfl, by decide⟩, by decide, rfl⟩, fun _ => by decide⟩
  · simp only [List.mem_cons, List.not_mem_nil, or_false] at ha
    rcases ha with rfl | rfl <;> exact ⟨ready_of (by decide), canTrap_of _ (by decide), ⟨⟨rfl, rfl, by decide⟩, by decide, rfl⟩, _, rfl, rfl⟩

/-- The fourth entry leaves for slot 0, or slot 1 comes back into its place: from its home, and from a live copy of the L1. -/
theorem witness_DeepCallsAndReturns :
    (∀ i ∈ [Instr.call c 0x7F, .calli c (.v 2)], Ready i (deep 4)) ∧ (Instr.calli c (.v 2)).wf 64 = true ∧ (readOp (deep 4) 0 0 .int true (.v 2)).lab = 0 ∧
    ReachesSlot (deep 4) 0 0 (8 * (4 - 4)) permWrite soloXlat ∧ attrCnt soloXlat.attr = false ∧ ¬ attrLabel soloXlat.attr < pcLabel (deep 4) 0 0 ∧
    Ready (.ret c) (deep 6) ∧ (deep 6).thread 0 0 = { r := { ret := 0x30 :: [0x24, 0x18, 0x0C], rsd := 6 } } ∧
    ReachesSlot (deep 6) 0 0 (8 * (6 - 5)) permRead soloXlat ∧ ((deep 6).core 0).out = [] ∧ closed (deep 6) (.mem 0) = false ∧
    l1Live (deep 6) 0 8 = none ∧ poisAt (deep 6) 8 = false ∧
    (let s := deep 6 leased { l1 := [(0, ⟨List.replicate 64 1, 0, false, 100⟩)] };
      Ready (.ret c) s ∧ ReachesSlot s 0 0 (8 * (6 - 5)) permRead leased ∧ cacheable leased 8 = true ∧ isLink (leased.pa 8) = false ∧
      ∃ k, l1Live s 0 8 = some k ∧ k.pois = false) ∧
    (let s := deep 6 leased { l1 := [(0, ⟨List.replicate 64 1, 0, true, 100⟩)] };
      Ready (.ret c) s ∧ CanTrap s 0 0 ∧ ReachesSlot s 0 0 (8 * (6 - 5)) permRead leased ∧ ∃ k, l1Live s 0 8 = some k ∧ k.pois = true) :=
  ⟨all_ready (by decide), by decide, by decide, ⟨⟨rfl, rfl, by decide⟩, by decide, rfl⟩, by decide, by decide, ready_of (by decide), rfl,
    ⟨⟨rfl, rfl, by decide⟩, by decide, rfl⟩, rfl, by decide, rfl, by decide,
    ⟨ready_of (by decide), ⟨⟨rfl, rfl, by decide⟩, by decide, rfl⟩, by decide, by decide, _, rfl, rfl⟩,
    ready_of (by decide), canTrap_of _ (by decide), ⟨⟨rfl, rfl, by decide⟩, by decide, rfl⟩, _, rfl, rfl⟩

/-- The slot's walk has failed, its page is sealed, or it holds counters and a mark; a label above the page's is on the pushed address. -/
theorem witness_SlotFaults :
    (let x : XRes := ⟨0, kindWrite, .fail ⟨.walkFault, 7⟩, false, 3⟩
      let s := deep 4 soloXlat {} { run := { xres := [x] } };
      Ready (.call c 0) s ∧ CanTrap s 0 0 ∧ answerFor (s.thread 0 0).run.xres (localVa s 0 0 (8 * (4 - 4))) kindWrite = some x ∧ x.res = .fail ⟨.walkFault, 7⟩) ∧
    (∀ x ∈ [sealed, counting], Ready (.call c 0) (deep 4 x) ∧ CanTrap (deep 4 x) 0 0 ∧ Hits (deep 4 x) 0 0 (localVa (deep 4 x) 0 0 (8 * (4 - 4))) permWrite x) ∧
    attrSealed sealed.attr = true ∧ attrCnt counting.attr = true ∧
    (let s := deep 4 soloXlat {} { r := { pcl := 1 } };
      Ready (.call c 0) s ∧ CanTrap s 0 0 ∧ attrLabel soloXlat.attr < pcLabel s 0 0 ∧ ¬ pcLabel s 0 0 < guardLab s 0 0 c ∧
      Hits s 0 0 (localVa s 0 0 (8 * (4 - 4))) permWrite soloXlat) ∧
    (let x : XRes := ⟨0, kindLoad, .fail ⟨.walkFault, 7⟩, false, 3⟩
      let s := deep 6 soloXlat {} { run := { xres := [x] } };
      Ready (.ret c) s ∧ CanTrap s 0 0 ∧ (s.thread 0 0).r.ret ≠ [] ∧ answerFor (s.thread 0 0).run.xres (localVa s 0 0 (8 * (6 - 5))) kindLoad = some x) ∧
    (∀ x ∈ [sealed, counting], let s := { deep 6 x with lines := [(0, { pois := 0xF })] };
      Ready (.ret c) s ∧ CanTrap s 0 0 ∧ Hits s 0 0 (localVa s 0 0 (8 * (6 - 5))) permRead x ∧ (s.core 0).out = [] ∧ closed s (.mem 0) = false ∧
      poisAt s (x.pa 8) = true ∧ isLink (x.pa 8) = false) := by
  have ct := canTrap_of
  refine ⟨⟨ready_of (by decide), ct _ (by decide), rfl, rfl⟩, fun x hx => ?_, by decide, by decide,
    ⟨ready_of (by decide), ct _ (by decide), by decide, by decide, rfl, rfl, by decide⟩,
    ⟨ready_of (by decide), ct _ (by decide), by decide, rfl⟩, fun x hx => ?_⟩
  all_goals
    simp only [List.mem_cons, List.not_mem_nil, or_false] at hx
    rcases hx with rfl | rfl
  · exact ⟨ready_of (by decide), ct _ (by decide), ⟨rfl, rfl, by decide⟩⟩
  · exact ⟨ready_of (by decide), ct _ (by decide), ⟨rfl, rfl, by decide⟩⟩
  · exact ⟨ready_of (by decide), ct _ (by decide), ⟨rfl, rfl, by decide⟩, rfl, by decide, by decide, by decide⟩
  · exact ⟨ready_of (by decide), ct _ (by decide), ⟨rfl, rfl, by decide⟩, rfl, by decide, by decide, by decide⟩

theorem canTrap : CanTrap (runTvec {}) 0 0 ∧ CanTrap (runTvec { r := { rsd := 1028 } }) 0 0 ∧
    CanTrap (runTvec { r := { p := [(1, ⟨true, 2⟩)], v := [(2, ⟨0, 3, false⟩)] } }) 0 0 ∧ CanTrap (runTvec { t := { sup := true } }) 0 0 := by
  unfold CanTrap; decide

theorem witness_ControlTraps :
    (∀ i ∈ [Instr.ret c, .rdsr c .svec (.v 2) .z, .wrsr c .time (.v 2) .z, .wrsr c .tpc (.v 2) .z, .rte { c with s := true } false,
      .declass c 0 (.v 2) (.v 3)], Ready i runTvec) ∧
    Ready (.call c 0) (runTvec { r := { rsd := 1028 } }) ∧
    (let s := runTvec { r := { p := [(1, ⟨true, 2⟩)], v := [(2, ⟨0, 3, false⟩)] } };
      Ready (.bra { c with gP := 1 } 0) s ∧ pcLabel s 0 0 < guardLab s 0 0 { c with gP := 1 } ∧ Ready (.jmp c (.v 2)) s ∧
      pcLabel s 0 0 < (readOp s 0 0 .int true (.v 2)).lab ∧ ¬ pcLabel s 0 0 < guardLab s 0 0 c) ∧
    (runTvec.thread 0 0).t.sup = false ∧ (runTvec.thread 0 0).r.rsd = 0 ∧
    (let s := runTvec { t := { sup := true }, r := { v := [(4, { val := 768 })] } };
      (∀ i ∈ [Instr.rdsr c .accown (.v 2) (.v 4), .wrsr c .accown (.v 2) (.v 4)], Ready i s) ∧
      poisonIn s iss 0 (formOf (.rdsr c .accown (.v 2) (.v 4))) [1] = none ∧ poisonIn s iss 0 (formOf (.wrsr c .accown (.v 2) (.v 4))) [2] = none ∧
      (readOp s 0 0 .int false (.v 4)).val.toNat = 768) :=
  ⟨all_ready (by decide), ready_of (by decide), ⟨ready_of (by decide), by decide, ready_of (by decide), by decide⟩, by decide, by decide,
    all_ready (by decide), by decide⟩

/-- Both labels exceed the PC label, and so does the target's alone; a full stack with a target of label 0. -/
theorem witness_ControlLabels :
    (let s := runTvec { r := { p := [(1, ⟨true, 2⟩)], v := [(2, ⟨0, 3, false⟩)] } };
      let g := { c with gP := 1 };
      (∀ i ∈ [Instr.jmp g (.v 2), .calli g (.v 2), .call g 0, .ret g], Ready i s) ∧ CanTrap s 0 0 ∧ pcLabel s 0 0 < guardLab s 0 0 g ∧
      pcLabel s 0 0 < (readOp s 0 0 .int true (.v 2)).lab ∧ Ready (.calli c (.v 2)) s ∧ ¬ pcLabel s 0 0 < guardLab s 0 0 c) ∧
    (let s := runTvec { r := { rsd := 1028 } };
      Ready (.calli c (.v 2)) s ∧ ¬ pcLabel s 0 0 < (readOp s 0 0 .int true (.v 2)).lab ∧ 1028 ≤ (s.thread 0 0).r.rsd) :=
  ⟨⟨all_ready (by decide), canTrap.2.2.1, by decide, by decide, ready_of (by decide), by decide⟩, ready_of (by decide), by decide, by decide⟩

/-- A team in validating mode whose lane has a write of v2 or of p1 that is still under way. -/
def validating (enc : Nat) (lat : Option Nat) (ic : Nat := 3) : State :=
  run { lane { run := { ic, haz := [{ enc, ic := 2, lat, old := {} }] } } { tvec := 0x300 } with hdr := { soloTeam.hdr with vmode := true } }

/-- A read a cycle after a producer of latency 4, of a result that a line still owes, and of a predicate by the guard; none once the latency is over. -/
theorem witness_StaticHazards :
    (∀ lat ∈ [some 4, none], let s := validating 2 lat;
      Issuing s iss ∧ CanTrap s 0 0 ∧ (s.team 0).hdr.vmode = true ∧ guardHazard (s.thread 0 0) c = none ∧ guardPasses s 0 0 c = true ∧
      (formHazard s iss 0 (formOf (.add c .u32 false (.v 3) (.v 2) (.imm 5)))).isSome = true ∧
      (formHazard s iss 0 (formOf (.rcp c .rn (.v 3) (.v 2)))).isSome = true) ∧
    (let s := validating 0x901 (some 4);
      Issuing s iss ∧ CanTrap s 0 0 ∧ (guardHazard (s.thread 0 0) { c with gP := 1 }).isSome = true) ∧
    ((validating 2 (some 4)).thread 0 0).run.haz = [{ enc := 2, ic := 2, lat := some 4, old := {} }] ∧ ((validating 2 (some 4)).thread 0 0).run.ic - 2 < 4 ∧
    4 ≤ ((validating 2 (some 4) 6).thread 0 0).run.ic - 2 := by
  refine ⟨fun lat h => ?_, ⟨⟨rfl, rfl, by decide⟩, canTrap_of _ (by decide), by decide⟩, by decide⟩
  simp only [List.mem_cons, List.not_mem_nil, or_false] at h
  rcases h with rfl | rfl <;> exact ⟨⟨rfl, rfl, by decide⟩, canTrap_of _ (by decide), by decide⟩

theorem witness_Reshaping : ∀ i ∈ [Instr.reform c, .demote c, .exit c], Ready i run := all_ready (by decide)

theorem witness_TrapsAndHalts : (∀ i ∈ [Instr.trap c (.v 2), .brk c 255], Ready i runTvec) ∧ CanTrap runTvec 0 0 ∧
    (let s := run (lane { t := { trap := true } });
      (Tbl.find s.teams 0).isSome = true ∧ (s.thread 0 0).t.trap = true ∧ (s.team 0).halted = false) ∧
    (Tbl.find run.teams 0).isSome = true ∧ (run.thread 0 0).t.trap = false ∧ tvecFor run 0 0 = 0 ∧
    (let s : State := { run { soloTeam with halted := true } with m := { issueQ := [iss] } };
      s.m.issueQ = [iss] ∧ (s.team 0).halted = true) := ⟨all_ready (by decide), canTrap.1, by decide⟩

theorem witness_TrapReturn : let s := run (lane { t := { trap := true, sup := true, tpc := ⟨0xFFFFFFFFFFFFF, 0⟩ } });
    (∀ i ∈ [Instr.rte { c with s := true } false, .rte { c with s := true } true], Ready i s) ∧ (s.thread 0 0).t.trap = true :=
  ⟨all_ready (by decide), by decide⟩

/-- A lane in supervisor handling with an index of 767, the last of ACCOWN. -/
def sup : State := run (lane { t := { sup := true }, r := { v := [(4, { val := 767 })] } })

theorem witness_SystemRegisters :
    (∀ i ∈ [Instr.rdsr c .tstat (.v 2) .z, .rdsr c .accown (.v 2) (.v 4), .rdsr c .vtime (.v 2) .z, .wrsr c .tpc (.v 2) .z, .wrsr c .tcause (.v 2) .z,
      .wrsr c .tvec (.v 2) .z, .wrsr c .svec (.v 2) .z, .wrsr c .accown (.v 2) (.v 4)], Ready i sup) ∧
    (∀ i ∈ [Instr.rdsr c .accown (.v 2) (.v 4), .wrsr c .tpc (.v 2) .z, .wrsr c .accown (.v 2) (.v 4)],
      poisonIn sup iss 0 (formOf i) [1] = none ∧ poisonIn sup iss 0 (formOf i) [2] = none) ∧
    (sup.thread 0 0).t.sup = true ∧ (readOp sup 0 0 .int false (.v 4)).val.toNat = 767 ∧ sup.unpubSys = [] := ⟨all_ready (by decide), by decide⟩

/-- A partition whose code page at address 0, which cannot be written, may declassify, with a trace buffer for values of label 1 at most. -/
def traced (on : Bool) : State :=
  { sup with
    cores := [(0, { atc := [{ soloXlat with attr := 12 * 8192 + 5 }] })]
    parts := [(0, { live := true, declass := (0, 4096), trace := { cfg := some ⟨0x100000, 16, 1, 0x200000, 0x200040⟩, on } })] }

theorem witness_LabelsAndMarks :
    (∀ i ∈ [Instr.raise c 3, .declass c 0 (.v 2) (.v 3), .tmark c 7 (.v 2)], Ready i (traced true)) ∧ mayDeclass (traced true) iss = true ∧
    poisonIn (traced true) iss 0 (formOf (.declass c 0 (.v 2) (.v 3))) [1] = none ∧
    (∃ cfg, ((traced true).part 0).trace.cfg = some cfg ∧ ¬ cfg.tlab < labOf (traced true) 0 0 c [0]) ∧ ((traced true).part 0).trace.on = true ∧
    (sup.thread 0 0).t.helper = false ∧ Ready (.tmark c 7 (.v 2)) (traced false) ∧ ((traced false).part 0).trace.on = false :=
  ⟨all_ready (by decide), by decide, by decide, ⟨_, rfl, by decide⟩, by decide, by decide, ready_of (by decide), by decide⟩

/-- In an empty table every entry is free, whichever comes first. -/
theorem free_entry : ∃ e, freeEntry run 0 = some e := ⟨_, rfl⟩

theorem witness_CallsToTheKernel :
    (∀ i ∈ [Instr.svc c 0 (.v 2) (.v 4), .launch c (.h 2) (.v 2) (.v 4)], Ready i run) ∧ (run.thread 0 0).t.helper = false ∧
    fenceMet run 0 [0] .dev = true ∧ leads run iss (formOf (.launch c (.h 2) (.v 2) (.v 4))) [0] = some 0 ∧ (run.thread 0 0).out.stores = 0 ∧ (run.thread 0 0).out.tw = 0 ∧
    (∃ e, freeEntry run 0 = some e) ∧ Ready (.svc c 0 (.v 2) (.v 4)) (run (lane { t := { helper := true } })) :=
  ⟨all_ready (by decide), by decide, by decide, by decide, by decide, by decide, free_entry, ready_of (by decide)⟩

/-- A lane whose v2 holds an address. -/
def at_ (a : Word) (th : Thread := {}) : State := run { lane { th with r := (vs [(2, a)]).r } with al := { shLen := 4096, slots := [0] } }

/-- The page of address 0 is cacheable, may be read and written, and is nothing else. -/
theorem page_hits : Hits (at_ 0xFF8) 0 0 0xFF8 permBoth soloXlat ∧ Hits (at_ 0xFF8) 0 0 0xFF8 permRead soloXlat ∧
    Hits (at_ 0xFF8) 0 0 0xFF8 permWrite soloXlat := ⟨⟨rfl, by decide, by decide⟩, ⟨rfl, by decide, by decide⟩, ⟨rfl, by decide, by decide⟩⟩

/-- The last double word of a page, an address in the team's shared memory, and one of the L1. -/
theorem witness_AllLoads :
    (let s := at_ 0xFF8;
      Ready (.ld c .g .b64 .byp (.v 4) (.v 2) (.imm 0)) s ∧ Ready (.uld c true (.s 4) (.v 2) (.imm 0)) s ∧
      eaIn s 0 0 .g (.v 2) (.imm 0) true = 0xFF8 ∧ InSpace .g 8 0xFF8 ∧ attrSealed soloXlat.attr = false ∧
      isLink (soloXlat.pa 0xFF8) = false ∧ ovwCheck s 0 0xFF8 8 .ovwRead = none ∧ l1Live s 0 (soloXlat.pa 0xFF8) = none) ∧
    (let s := at_ 0xFF8;
      Ready (.ld c .s .b64 .l1 (.v 4) (.v 2) (.imm 0)) s ∧ sharedPlace s 0 0xFF8 8 false = some (0, 0xFF8) ∧ sharedBusy s 0 0 0xFF8 = false ∧
      sharedBusy (s.modCore 0 (fun k => { k with
        out := [{ id := 1, kind := .shStore 0, parts := [{ team := 0, thread := 0, off := 0xFF8, n := 8 }] }] })) 0 0 0xFF8 = true) ∧
    (let s := run (lane (vs [(2, 64)])) { l1 := [(1, ⟨List.replicate 64 1, 0, false, 100⟩)] };
      Ready (.ld c .g .b64 .l1 (.v 4) (.v 2) (.imm 0)) s ∧ cacheable { soloXlat with attr := 12 * 8192 + 0x47 } 64 = true ∧
      ∃ k, l1Live s 0 64 = some k) := by
  unfold InSpace
  exact ⟨⟨ready_of (by decide), ready_of (by decide), by decide⟩, ⟨ready_of (by decide), by decide⟩, ready_of (by decide), by decide, _, rfl⟩

/-- A lane whose address lies in the shared memory of the second team of its cluster. -/
def twoTeams (helper : Bool := false) : State :=
  let t : Nat → Thread → Team := fun k th =>
    { lane th with at_ := { core := k, rank := k, count := 2, shW := 2 }, al := { shLen := 4096, slots := [0] } }
  { run with
    teams := [(0, t 0 { r := (vs [(2, 0x200FF8)]).r, t := { helper } }), (1, t 1 {})], cores := [(0, { atc := [soloXlat] }), (1, {})] }

/-- The team's own shared memory with a mark on its last sector, and with an earlier request of the core to the same line. -/
def sharedMarked : State := (at_ 0xFF8).modTeam 0 (fun tm => { tm with sh := { tm.sh with pois := [(63, true)] } })
def sharedAwaited : State := (at_ 0xFF8).modCore 0 (fun k => { k with
  out := [{ id := 1, kind := .shStore 0, parts := [{ team := 0, thread := 0, off := 0xFF0, n := 8 }] }] })

/-- The page of address 0xFF8 lies in the region of a link, with its window, and without. -/
def atLink (w : Links) : State := { (at_ 0xFF8).modCore 0 (fun k => { k with atc := [linkXlat] }) with links := w }

/-- Stores and atomics of eight bytes to another team's shared memory, to a line of the team's own that is marked or awaited, and through a window that is open
or lost. -/
theorem witness_SharedAndLinks :
    let is : List Instr := [.st c .s .b64 .l1 (.v 4) (.v 2) (.imm 0), .atom c (.int .cas .u64) .s (.v 4) (.v 2) (.v 6), .red c (.int .add .u64) .s (.v 2) (.v 6)]
    let gs : List Instr := [.st c .g .b64 .l1 (.v 4) (.v 2) (.imm 0), .atom c (.int .cas .u64) .g (.v 4) (.v 2) (.v 6), .red c (.int .add .u64) .g (.v 2) (.v 6)]
    (∀ h ∈ [false, true], (∀ i ∈ is, Ready i (twoTeams h)) ∧ eaIn (twoTeams h) 0 0 .s (.v 2) (.imm 0) true = 0x200FF8 ∧
      eaIn (twoTeams h) 0 0 .s (.v 2) (.v 6) false = 0x200FF8 ∧ sharedPlace (twoTeams h) 0 0x200FF8 8 false = some (1, 0xFF8) ∧
      ((twoTeams h).thread 0 0).t.helper = h) ∧
    (∀ i ∈ is, Ready i sharedMarked) ∧ sharedPlace sharedMarked 0 0xFF8 8 false = some (0, 0xFF8) ∧ sharedBusy sharedMarked 0 0 0xFF8 = false ∧
    (sharedMarked.team 0).shPois 0xFF8 = true ∧
    (∀ i ∈ is, Ready i sharedAwaited) ∧ sharedPlace sharedAwaited 0 0xFF8 8 false = some (0, 0xFF8) ∧ sharedBusy sharedAwaited 0 0 0xFF8 = true ∧
    (∀ w ∈ [window1, {}], (∀ i ∈ gs, Ready i (atLink w)) ∧ Hits (atLink w) 0 0 0xFF8 permBoth linkXlat) ∧
    isLink (linkXlat.pa 0xFF8) = true ∧ (windowOf (atLink window1) 0 (linkXlat.pa 0xFF8)).isSome = true ∧
    sendHeld (atLink window1) 0 (linkXlat.pa 0xFF8) 8 = false ∧ windowOf (atLink {}) 0 (linkXlat.pa 0xFF8) = none := by
  refine ⟨fun h hh => ?_, all_ready (by decide), by decide, by decide, by decide, all_ready (by decide), by decide, by decide, fun w hw => ?_,
    by decide, by decide, by decide, by decide⟩
  · simp only [List.mem_cons, List.not_mem_nil, or_false] at hh
    rcases hh with rfl | rfl <;> exact ⟨all_ready (by decide), by decide⟩
  · simp only [List.mem_cons, List.not_mem_nil, or_false] at hw
    rcases hw with rfl | rfl <;> exact ⟨all_ready (by decide), rfl, rfl, by decide⟩

theorem witness_Stores :
    (let s := at_ 0xFF8;
      Ready (.st c .g .b64 .l1 (.v 4) (.v 2) (.imm 0)) s ∧ eaIn s 0 0 .g (.v 2) (.imm 0) true = 0xFF8 ∧ (s.thread 0 0).t.helper = false ∧
      attrSealed soloXlat.attr = false ∧ attrCnt soloXlat.attr = false ∧ loopOf s 0 = none ∧ ¬ attrLabel soloXlat.attr < 0 ∧
      sharedPlace s 0 0xFF8 8 false = some (0, 0xFF8) ∧ sharedBusy s 0 0 0xFF8 = false ∧ (s.team 0).shPois 0xFF8 = false) ∧
    Ready (.st c .s .b64 .l1 (.v 4) (.v 2) (.imm 0)) (at_ 0xFF8) ∧
    (let s := at_ 0xFF8 { t := { helper := true } };
      Ready (.st c .g .b64 .l1 (.v 4) (.v 2) (.imm 0)) s ∧ (s.thread 0 0).t.helper = true) :=
  ⟨⟨ready_of (by decide), by decide⟩, ready_of (by decide), ready_of (by decide), by decide⟩

theorem witness_Atomics : let s := at_ 0xFF8
    (∀ i ∈ [Instr.atom c (.int .cas .u64) .g (.v 4) (.v 2) (.v 6), .red c (.int .add .u64) .g (.v 2) (.v 6)], Ready i s) ∧
    eaIn s 0 0 .g (.v 2) (.v 6) false = 0xFF8 ∧ Hits s 0 0 0xFF8 permBoth soloXlat ∧ (s.thread 0 0).t.helper = false ∧
    attrSealed soloXlat.attr = false ∧ attrCnt soloXlat.attr = false ∧ ovwCheck s 0 0xFF8 8 .ovwRead = none ∧
    ovwCheck s 0 0xFF8 8 .ovwPartial = none ∧ ¬ attrLabel soloXlat.attr < 0 :=
  ⟨all_ready (by decide), by decide, page_hits.1, by decide⟩

/-- Local and shared memory end at 65,536 bytes and at the team's 4,096. -/
theorem witness_AccessTraps :
    (∀ a ∈ [(0xFFFC : Word), 0x10000, 0x1001], (∀ i ∈ [Instr.ld c .wb .b32 .byp (.v 4) (.v 2) (.imm 0), .ld c .g .b32 .byp (.v 4) (.v 2) (.imm 0),
      .ld c .l .b32 .byp (.v 4) (.v 2) (.imm 0), .ld c .s .b32 .l1 (.v 4) (.v 2) (.imm 0), .st c .acc .b32 .l1 (.v 4) (.v 2) (.imm 0),
      .st c .s .b32 .l1 (.v 4) (.v 2) (.imm 0)], Ready i (run (lane (vs [(2, a)]) { tvec := 0x300 }))) ∧
      CanTrap (run (lane (vs [(2, a)]) { tvec := 0x300 })) 0 0) ∧
    sharedPlace (at_ 0) 0 0xFFC 4 false = some (0, 0xFFC) ∧ sharedPlace (at_ 0) 0 0x1000 4 false = none ∧ 0x1001 % 4 ≠ 0 ∧ 65536 < 0x10000 + 4 ∧
    ¬ 65536 < 0xFFFC + 4 := by
  refine ⟨fun a ha => ?_, by decide⟩
  simp only [List.mem_cons, List.not_mem_nil, or_false] at ha
  rcases ha with rfl | rfl | rfl <;> exact ⟨all_ready (by decide), by unfold CanTrap; decide⟩

theorem witness_FencesAndPrefetches :
    (∀ i ∈ [Instr.fence c .sys, .pref c .l true (.v 2) (.imm 0)], Ready i (at_ 0xFF8)) ∧ fenceMet (at_ 0xFF8) 0 [0] .sys = true ∧
    fenceMet (at_ 0xFF8 { out := { stores := 1 } }) 0 [0] .dev = false ∧ fenceMet (at_ 0xFF8 { out := { stores := 1 } }) 0 [0] .team = true ∧
    (let x := { soloXlat with attr := 12 * 8192 + 0x47 };
      cacheable x (x.pa 0xFF8) = true ∧ owned (at_ 0xFF8) (.mem (x.pa 0xFF8 / 256)) = false ∧
      l1Live (at_ 0xFF8) 0 (x.pa 0xFF8 / 256 * 256 + 64 * 3) = none) := ⟨all_ready (by decide), by decide⟩

-- a team with ranges in its core's buffers, reservations there, and blocks in its s registers

def block (at_ : Nat) (ws : List (Nat × Word)) : List (Nat × Reg) := ws.map (fun e => (at_ + e.1, { val := e.2 }))

def rich : TeamRegs :=
  { tvec := 0x300
    resv := [(1, { valid := true, blk := 1, len := 4096 }), (2, { valid := true, buf := .acc, fmt := .f32, len := 8 }),
      (3, { valid := true, buf := .ab, blk := 1, len := 4096 }), (4, { valid := true, fmt := .dx8, blk := 1, len := 4096 })]
    s := block 12 [(1, 0x10100), (2, 8), (3, 0x2000)] ++
      block 32 [(10, 256), (12, 0x100), (13, 0x00010001), (14, 0x00010100), (15, 0x00110100)] ++ block 48 [(8, 0x01000042), (9, 0x20)] ++
      block 64 [(8, 0x01000044), (9, 0x20)] ++ block 80 [(10, 4096)] }

def richTeam (th : Thread := {}) : Team :=
  { lane th rich with sh := { bytes := [(36, 1), (38, 3), (39, 2)] }, al := { shLen := 4096, wLen := 4096, aLen := 4096, pLen := 8, slots := [0] } }

def richRun (q : Quad := {}) (th : Thread := {}) : State := run (richTeam th) { quad := q, accown := (List.range 8).map (fun p => (p, 0)) }

/-- A stream of one row of a, from slot 3 to slot 2. -/
def streamBlk : Nat := 0x02030001 * 2 ^ 144 * 2 ^ 144

def tile : Tile := { k := 32, n := 32, fmt := .bf16, lab := 0 }

theorem witness_Reservations :
    (∀ i ∈ [Instr.resv c .wb .bf16 1 0 (.v 4) (.v 2) .z, .resfree c true 0, .resfree c false 15], Ready i (richRun {} (vs [(2, 0), (3, 4096), (4, 1)]))) ∧
    resvWhy (richTeam {}) { valid := true, len := 4096, blk := 1 } = 0 ∧ resvWhy (richTeam {}) { valid := true, len := 4352, blk := 1 } = 2 ∧
    CanTrap (richRun {} (vs [(2, 0), (3, 4096), (4, 1)])) 0 0 := ⟨all_ready (by decide), by decide, by decide, by unfold CanTrap; decide⟩

theorem witness_MatrixInstructions :
    (∀ i ∈ [Instr.mld c 1 (.s 12) (.s 13), .mzero c 2 (.s 12) (.s 14), .mread c 2 (.q 1) (.s 12) (.s 15)], Ready i (richRun {})) ∧
    mldFault (irecOf (richRun {}) 0) 0 0 0x10100 1 (resvRead (richRun {}) 0 0 1) = none ∧
    (∀ i ∈ [Instr.mld c 1 (.s 12) (.s 13), .mzero c 2 (.s 12) (.s 14), .mread c 2 (.q 1) (.s 12) (.s 15)], leads (richRun {}) iss (formOf i) [0] = some 0) ∧
    ownWhy (irecOf (richRun {}) 0) 0 = none ∧ (resvRead (richRun {}) 0 0 2).len = 8 ∧ accCheck (richRun {}) 0 0 [0, 1, 2, 3, 4, 5, 6, 7] = .ok ∧
    (∀ k ∈ pageLines 0 0, cmdOwners (richRun {}) k = []) ∧
    (let s := richRun { irec := { shadow := some tile } };
      Ready (.mswap c) s ∧ (irecOf s 0).shadow = some tile) ∧
    (let s := richRun { irec := { active := some tile } };
      let i := Instr.mstream c (.h 1) (.s 12) (.v 3);
      Ready i s ∧ streamCount s 0 = 0 ∧ commandMayIssue s 0 [0] = true ∧
      readBlock s 0 0 0 (formOf i) 64 = .ok streamBlk 0 ∧
      streamFault (irecOf s 0) 0 streamBlk (resvRead s 0 0 2) (resvRead s 0 0 3) 0 = none ∧
      (gateOf streamBlk).gate = 0) :=
  ⟨all_ready (by decide), by decide, by decide, by decide, by decide, by decide, by decide, ⟨ready_of (by decide), by decide⟩,
    ready_of (by decide), by decide, by decide, by decide, by decide, by decide⟩

theorem witness_QuadrantGroups :
    (let t : Nat → Team := fun k => { soloTeam with at_ := { core := k, rank := k, count := 2, shW := 2 } };
      let s : State := { run (t 0) with teams := [(0, t 0), (1, t 1)], cores := [(0, { owner := some 0, atc := [soloXlat] }), (1, { owner := some 0 })] };
      Ready (.mfuse c .h) s ∧ membersOf .h 0 = some [1] ∧ idleQuad s 0 false = true ∧ idleQuad s 1 true = true ∧
      ownWhy (irecOf s 0) 0 = none ∧ leads s iss (formOf (.mfuse c .h)) [0] = some 0 ∧ (s.core 1).owner = some (s.team 0).at_.part ∧
      1 ∈ (clusterTeams s 0).filterMap (fun u => if (s.team u).ended then none else some (s.team u).at_.core)) ∧
    Ready (.mrel c) (richRun {}) ∧ (irecOf (richRun {}) 0).role = .alone ∧ (irecOf (richRun {}) 0).owner = none ∧
    (let s := richRun { role := .leader .h, irec := { role := .leader .h, owner := some 0 } };
      Ready (.mrel c) s ∧ (irecOf s 0).role = .leader .h ∧ (irecOf s 0).owner = some 0) :=
  ⟨⟨ready_of (by decide), by decide⟩, ready_of (by decide), by decide, by decide, ready_of (by decide), by decide⟩

def flying (m : MIns) (q : Quad := {}) : State := richRun { q with fly := [⟨7, 0, m⟩] }

def stream1 (row : Nat) (done : DWord := 0) : Stream :=
  { entry := 0, kb0 := 0, p0 := 0, accN := 2, acc := (richTeam {}).resvAt 2, src := some ((richTeam {}).resvAt 3), qn := 3, m := 2, row0 := 0
    v := 1, n := 32, gate := { done }, hlab := 0, stamp := 0, row }

theorem reads_own (s : State) (core : Nat) (h : (flyOf s core).all (fun x => match x.ins with | .mread _ _ _ _ _ => false | _ => true) = true) :
    ReadsOwn s core := by
  intro x hx p f c q t he
  have := List.all_eq_true.mp h x hx
  simp [he] at this

/-- A stream whose row is due, from slot 3, or from queue 3 with its 16 elements of label 1 into a slot of label 1. -/
def streaming (row : Nat) (x : Stream := stream1 row) : State := flying (.mstream x) { active := some tile }

def queueStream : Stream := { stream1 0 with src := none, acc := { (richTeam {}).resvAt 2 with lab := 1 } }

def streamingQueue : State :=
  { streaming 0 queueStream with teams := [(0, { richTeam {} with r := { rich with q := [(3, { elems := List.replicate 16 ⟨0x3F803F80, 1, false⟩ })] } })] }

theorem row_due (row : Nat) (h : row = 0 ∨ row = 1) : RowDue (streaming row) 0 ⟨7, 0, .mstream (stream1 row)⟩ (stream1 row) tile := by
  rcases h with rfl | rfl <;> exact ⟨by decide, rfl, rfl, rfl, rfl, rfl, by decide, rfl, rfl⟩

/-- A load of one block column of 32 rows from slot 1, of which `n` of its eight source lines have been read, and the lines that are left. -/
def loadingRead (n : Nat) : List Snap := (List.range n).map (fun l => ⟨l, [], 0, 0⟩)
def loading (n : Nat) : MIns := .mld ((richTeam {}).resvAt 1) 0 0 1 1 0 0 [0] (loadingRead n)
def tileLeft (n : Nat) : List Nat := (tileLines 0 ((richTeam {}).resvAt 1) 0 0 1 1).filter (fun l => !(loadingRead n).any (fun k => decide (k.line = l)))

theorem witness_QuadrantEvents :
    (∀ n ∈ [0, 7], let s := flying (loading n);
      firstReady s 0 isMld = some ⟨7, 0, loading n⟩ ∧ ReadsOwn s 0 ∧ (tileLeft n).length = 8 - n ∧
      ∀ l ∈ tileLeft n, ownedBefore s (bufLineK 0 .wb (256 * l)) 0 = false) ∧
    (let s := flying .mswap { shadow := some tile };
      firstReady s 0 (fun m => decide (m = .mswap)) = some ⟨7, 0, .mswap⟩ ∧ ReadsOwn s 0) ∧
    (let s := flying (.mzero [0, 7] 0 0 [0]);
      firstReady s 0 isMzero = some ⟨7, 0, .mzero [0, 7] 0 0 [0]⟩ ∧ ReadsOwn s 0 ∧ (∀ k ∈ [0, 7].flatMap (pageLines 0), cmdOwners s k = []) ∧
      ∀ p ∈ [0, 7], accownAt s 0 p = (s.team 0).tag) ∧
    (let s := flying .mrel;
      firstReady s 0 (fun m => decide (m = .mrel)) = some ⟨7, 0, .mrel⟩ ∧ (s.core 0).quad.role = .alone ∧ ∀ k ∈ groupOf .alone 0, ReadsOwn s k) ∧
    (RowDue (streaming 1) 0 ⟨7, 0, .mstream (stream1 1)⟩ (stream1 1) tile ∧ (stream1 1).v ≤ (stream1 1).row) ∧
    (RowMayGo (streaming 0) 0 ⟨7, 0, .mstream (stream1 0)⟩ (stream1 0) tile ∧ (stream1 0).src = some ((richTeam {}).resvAt 3) ∧
      (∀ k ∈ (stream1 0).snaps, k = bufSnap (streaming 0) 0 .ab k.line) ∧
      ∀ k ∈ blockLines 0 0 ((richTeam {}).resvAt 3) 0 0, ownedBefore (streaming 0) k 0 = false) ∧
    (let q := (streamingQueue.team 0).queue 3;
      RowMayGo streamingQueue 0 ⟨7, 0, .mstream queueStream⟩ queueStream tile ∧ queueStream.src = none ∧ (Tbl.find streamingQueue.teams 0).isSome = true ∧
      queueStream.popped = [] ∧ q.claims = [] ∧ q.excess = [] ∧ q.ended = false ∧ tile.k / 2 ≤ q.elems.length ∧
      ∀ y ∈ q.elems.take (tile.k / 2), ¬ queueStream.acc.lab < y.lab) ∧
    (∀ x ∈ [stream1 2, stream1 2 0x100, { stream1 1 with flt := some ⟨.labelFlow, 0⟩ }, { stream1 1 with cancel := true }],
      let s := { streaming 2 x with cores := [(0, { quad := { active := some tile, fly := [⟨7, 0, .mstream x⟩] }, hnd := [(0, { st := .pending, gen := 1 })] })] };
      firstReady s 0 (fun m => (isStream m).isSome) = some ⟨7, 0, .mstream x⟩ ∧ ReadsOwn s 0 ∧ (s.handle 0 x.entry).st = .pending ∧ inRow s 0 0 x = false) ∧
    (stream1 2 0x100).row = (stream1 2 0x100).m ∧ (stream1 2 0x100).gate.done ≠ 0 ∧ (stream1 2).gate.done = 0 := by
  refine ⟨fun n hn => ?_, ⟨by decide, reads_own _ _ rfl⟩, ⟨by decide, reads_own _ _ rfl, by decide, by decide⟩,
    ⟨by decide, by decide, fun k hk => ?_⟩, ⟨row_due 1 (.inr rfl), by decide⟩, ⟨⟨row_due 0 (.inl rfl), by decide, by decide, by decide⟩, rfl, by decide, by decide⟩,
    ⟨⟨⟨by decide, rfl, rfl, rfl, rfl, rfl, by decide, rfl, rfl⟩, by decide, by decide, by decide⟩, rfl, rfl, rfl, rfl, rfl, rfl, by decide, by decide⟩,
    fun x hx => ?_, by decide⟩
  · simp only [List.mem_cons, List.not_mem_nil, or_false] at hn
    rcases hn with rfl | rfl <;> exact ⟨by decide, reads_own _ _ rfl, by decide, by decide⟩
  · obtain rfl : k = 0 := by simpa [groupOf] using hk
    exact reads_own _ _ rfl
  · simp only [List.mem_cons, List.not_mem_nil, or_false] at hx
    rcases hx with rfl | rfl | rfl | rfl <;> exact ⟨by decide, reads_own _ _ rfl, by decide, by decide⟩

/-- A copy of 256 bytes within shared memory, a quantisation of one page, and a turn of a square of blocks. -/
theorem witness_EngineCommands : let s := richRun {}
    (∀ i ∈ [Instr.copy c true false (.h 1) (.s 32) (.v 3), .quant c true false (.h 1) (.s 48) (.v 3), .rqt c true false (.h 1) (.s 64) (.v 3)], Ready i s) ∧
    (∀ i ∈ [Instr.copy c true false (.h 1) (.s 32) (.v 3), .quant c true false (.h 1) (.s 48) (.v 3), .rqt c true false (.h 1) (.s 64) (.v 3)],
      leads s iss (formOf i) [0] = some 0) ∧
    commandMayIssue s 0 [0] = true ∧ (∃ e, freeEntry s 0 = some e) ∧ (s.core 0).cmds = [] ∧
    (∃ b, readBlock s 0 0 0 (formOf (.copy c true false (.h 1) (.s 32) (.v 3))) 64 = .ok b 0 ∧ (gateOf b).gate = 0 ∧
      copyFault s 0 b false false ⟨false, 1, 0, 256, {}⟩ ⟨true, 1, 256, 256, {}⟩ 0 = none) ∧
    (∃ b, readBlock s 0 0 0 (formOf (.quant c true false (.h 1) (.s 48) (.v 3))) 64 = .ok b 0 ∧
      quantFault b false (quantOf b false (resvRead s 0 0 2) (resvRead s 0 0 4)) 0 = none) ∧
    (∃ b, readBlock s 0 0 0 (formOf (.rqt c true false (.h 1) (.s 64) (.v 3))) 64 = .ok b 0 ∧
      quantFault b false (quantOf b true (resvRead s 0 0 4) (resvRead s 0 0 4)) 0 = none) :=
  ⟨all_ready (by decide), by decide, by decide, ⟨_, rfl⟩, by decide, ⟨_, rfl, by decide, by decide⟩, ⟨_, rfl, by decide⟩, ⟨_, rfl, by decide⟩⟩

theorem witness_TranslationInstructions :
    (let s := { richRun {} with teams := [(0, { richTeam {} with sh := { bytes := [(41, 16)] } })] };
      Ready (.xinv c false (.h 1) (.s 12)) s ∧ (∃ e, freeEntry s 0 = some e) ∧ queued s 0 (.xinv false 0 4096) = 0 ∧
      ∃ b, readBlock s 0 0 0 (formOf (.xinv c false (.h 1) (.s 12))) 64 = .ok b 0 ∧ fieldOf b 383 320 = 4096 ∧ fieldOf b 319 256 = 0 ∧
        fieldOf b 511 384 = 0 ∧ damtFault (gateOf b) = none ∧ (gateOf b).gate = 0) ∧
    Ready (.xinv c true (.h 1) (.s 12)) (richRun {}) ∧ CanTrap (richRun {}) 0 0 ∧
    Ready (.xprobe c .w (.v 4) (.v 2)) run ∧ hitOf (run.core 0).atc 0 0 0 (accessKey run (.thread 0 0)) = some soloXlat ∧ permsIn 2 (attrPerm soloXlat.attr) = true ∧
    (let s := run (lane { run := { xres := [⟨0, 1, .fail ⟨.walkFault, 7⟩, true, 3⟩] } });
      Ready (.xprobe c .w (.v 4) (.v 2)) s ∧ (s.thread 0 0).run.xres = [⟨0, 1, .fail ⟨.walkFault, 7⟩, true, 3⟩]) :=
  ⟨⟨ready_of (by decide), ⟨_, rfl⟩, by decide, _, rfl, by decide⟩, ready_of (by decide), by unfold CanTrap; decide, ready_of (by decide), by decide,
    by decide, ready_of (by decide), by decide⟩

/-- A command of an engine: a copy of 256 bytes within team 0's shared memory. -/
def copy1 : CopyW := ⟨.sh 0 0, .sh 0 256, 256, 256, 1, 256, 1, 256⟩

def cmd (w : Work := .copy copy1) : Cmd := { id := 5, team := 0, part := 0, ctx := 0, entry := 0, gate := {}, work := w, v := 1 }

def commanded (m : Cmd) : State := run { richTeam {} with r := { rich with h := [(2, { val := mkToken 0 0 1 })] } }
  { hnd := [(0, { st := .pending, gen := 1 })], cmds := [m] }

theorem witness_Cancellation :
    (∀ m ∈ [cmd, { cmd with gateMet := false }], Ready (.hcancel c (.h 2)) (commanded m) ∧
      readToken (commanded m) 0 (regRead (commanded m) 0 0 0x922).val = .pending ∧ (commanded m).core 0 ≠ {} ∧
      ((commanded m).core 0).cmds.find? (fun m => decide (m.entry = tokEntry (mkToken 0 0 1))) = some m) ∧
    Ready (.hcancel c (.h 3)) (commanded cmd) ∧ readToken (commanded cmd) 0 (regRead (commanded cmd) 0 0 0x923).val ≠ .pending ∧
    leads (commanded cmd) iss (formOf (.hcancel c (.h 2))) [0] = some 0 ∧
    (let s := run { richTeam {} with r := { rich with h := [(2, { val := mkToken 0 0 1 })] } }
        { hnd := [(0, { st := .pending, gen := 1 })], quad := { fly := [⟨7, 0, .mstream (stream1 0)⟩] } };
      readToken s 0 (regRead s 0 0 0x922).val = .pending ∧ flyOf s 0 = [⟨7, 0, .mstream (stream1 0)⟩] ∧ (s.core 0).cmds = []) := by
  refine ⟨fun m hm => ?_, ready_of (by decide), by decide, by decide, by decide⟩
  simp only [List.mem_cons, List.not_mem_nil, or_false] at hm
  rcases hm with rfl | rfl <;> exact ⟨ready_of (by decide), by decide, by decide, by decide⟩

/-- A quantisation of 16 rows of one block, and a copy of 512 bytes to a drive. -/
def quant1 : QuantW :=
  { rqt := false, srcN := 2, src := (richTeam {}).resvAt 2, dstN := 4, dst := (richTeam {}).resvAt 4, srow0 := 0, drow0 := 0, rows := 16, kb := 1
    rnd := .rn, qout := none }

def toDrive : CopyW := ⟨.sh 0 0, .nvme 3 0, 512, 512, 1, 512, 1, 512⟩

theorem present_of {srcs : List (Option Nat)} {ss : List Snap}
    (h : srcs.all (fun o => o.all (fun a => ss.any (fun k => decide (k.line = a / 256)) && !snapPois ss a 1)) = true) :
    (∀ a, some a ∈ srcs → ∃ k ∈ ss, k.line = a / 256) ∧ ∀ a, some a ∈ srcs → snapPois ss a 1 = false := by
  constructor <;> intro a ha <;> have := List.all_eq_true.mp h _ ha <;>
    simp only [Option.all_some, Bool.and_eq_true, List.any_eq_true, decide_eq_true_eq, Bool.not_eq_true'] at this
  · exact this.1
  · exact this.2

/-- A copy of one line of shared memory that has read it, to a place of its own. -/
def copyTo (dst : EndPt) (hlab : Label := 0) (pois : Nat := 0) : Cmd :=
  { cmd (.copy ⟨.sh 0 0, dst, 256, 256, 1, 256, 1, 256⟩) with snaps := [⟨0, List.replicate 256 1, 0, pois⟩], hlab }

def copied : List (Option Nat) := (List.range 256).map some

def slot3 : EndPt := .slot 3 ((richTeam {}).resvAt 3) 0

theorem early_none (dst : EndPt) (hd : dst = .sh 0 256 ∨ dst = slot3 ∨ dst = .glob 256) :
    CopyW.early ⟨.sh 0 0, dst, 256, 256, 1, 256, 1, 256⟩ ((commanded cmd).team 0) 1 5 = [] ∧
    CopyW.lineMap ⟨.sh 0 0, dst, 256, 256, 1, 256, 1, 256⟩ ((commanded cmd).team 0) 1 (if dst = slot3 then 0 else 1) = copied ∧
    (CopyW.dstLines ⟨.sh 0 0, dst, 256, 256, 1, 256, 1, 256⟩ ((commanded cmd).team 0))[0]? = some (if dst = slot3 then 0 else 1) := by
  rcases hd with rfl | rfl | rfl <;> decide +kernel

theorem copying (dst : EndPt) (h : Label) (hd : dst = .sh 0 256 ∨ dst = slot3 ∨ dst = .glob 256) (pois : Nat := 0) :
    Copying (commanded (copyTo dst h pois)) 0 5 (copyTo dst h pois) ⟨.sh 0 0, dst, 256, 256, 1, 256, 1, 256⟩ (if dst = slot3 then 0 else 1) copied := by
  have hp : ∀ a, some a ∈ copied → ∃ k ∈ (copyTo dst h pois).snaps, k.line = a / 256 := by
    intro a ha
    have : a < 256 := by simpa [copied] using ha
    exact ⟨_, List.mem_singleton.mpr rfl, by show 0 = a / 256; omega⟩
  have he := early_none dst hd
  have hl : ∀ a ∈ CopyW.early ⟨.sh 0 0, dst, 256, 256, 1, 256, 1, 256⟩ ((commanded cmd).team 0) 1 5, ∃ k ∈ (copyTo dst h pois).snaps, k.line = a := by
    rw [he.1]; intro a ha; cases ha
  rcases hd with rfl | rfl | rfl <;>
    exact ⟨⟨rfl, rfl, rfl, ⟨rfl, rfl, rfl, rfl⟩, rfl, reads_own _ _ rfl⟩, rfl, he.2.2, he.2.1, hp, hl⟩

/-- A load of slot 3 with one line left, which an earlier copy holds. -/
theorem witness_HeldTile :
    let ss : List Snap := (List.range 7).map (fun l => ⟨l + 1, [], 0, 0⟩)
    let m : MIns := .mld ((richTeam {}).resvAt 3) 0 0 1 1 0 1 [0] ss
    let s := (commanded { copyTo slot3 with owned := [(0, .ab 0 0)] }).modCore 0 (fun k => { k with quad := { fly := [⟨7, 0, m⟩] } })
    firstReady s 0 isMld = some ⟨7, 0, m⟩ ∧
    (tileLines 0 ((richTeam {}).resvAt 3) 0 0 1 1).filter (fun l => !ss.any (fun k => decide (k.line = l))) = [0] ∧
    ownedBefore s (bufLineK 0 .ab 0) 1 = true := by decide +kernel

theorem unmarked (dst : EndPt) (h : Label) : ∀ a, some a ∈ copied → snapPois (copyTo dst h).snaps a 1 = false :=
  (present_of (srcs := copied) (ss := [⟨0, List.replicate 256 1, 0, 0⟩]) (by decide +kernel)).2

def throughWindow (m : Cmd) : State :=
  { commanded m with
    cores := [(0, { atc := [linkXlat], hnd := [(0, { st := .pending, gen := 1 })], cmds := [m] })]
    links := window1 }

/-- A quantisation of one block of 32 FP32 sums into a slot of which header and elements lie in one line, its header to queue 5. -/
def quantOne : QuantW :=
  { rqt := false, srcN := 2, src := (richTeam {}).resvAt 2, dstN := 4, dst := { (richTeam {}).resvAt 4 with soff := 64 }, srow0 := 0, drow0 := 0, rows := 1
    kb := 1, rnd := .rn, qout := some 5 }

def quantCmd : Cmd := { cmd (.quant quantOne) with snaps := [⟨0, List.replicate 256 1, 0, 0⟩] }

theorem witness_CopiedLines :
    (let m := copyTo (.sh 0 256); let s := commanded m;
      ownedBefore s (.sh 0 1) m.stamp = false ∧ (∀ j < 4, (s.team 0).shPois (256 + 64 * j) = false) ∧ (Tbl.find s.teams 0).isSome = true) ∧
    (let m := copyTo (.sh 0 256) 0 15; ∃ a, some a ∈ copied ∧ snapPois m.snaps a 1 = true) ∧
    (∀ h ∈ [(0 : Label), 1], let m := copyTo slot3 h; let s := commanded m;
      ownedBefore s (bufLineK 0 .ab 0) m.stamp = false ∧ (∀ j < 4, bufPois s 0 .ab (64 * j) 1 = false)) ∧
    (¬ ((richTeam {}).resvAt 3).lab < copyLab (copyTo slot3) copied ∧ ((richTeam {}).resvAt 3).lab < copyLab (copyTo slot3 1) copied) ∧
    (let m := copyTo (.glob 256); let s := commanded m;
      EngineHits s 0 m 256 (copyLab m copied) soloXlat ∧ isLink (soloXlat.pa 256) = false ∧ closedBefore s (.mem 1) m.stamp = false ∧ (s.line 1).pois = 0 ∧
      ∃ y ∈ copied, y.isSome = true) ∧
    (let m := copyTo (.glob 256); let s := throughWindow m;
      EngineHits s 0 m 256 (copyLab m copied) linkXlat ∧ isLink (linkXlat.pa 256) = true ∧ (windowOf s m.part (linkXlat.pa 256)).isSome = true ∧
      sendHeld s m.part (linkXlat.pa 256) 256 = false) := by
  refine ⟨by decide, ⟨0, by decide, by decide⟩, by decide, by decide +kernel, ⟨⟨rfl, rfl, by decide, by decide, by decide +kernel, by decide⟩, by decide⟩,
    ⟨⟨rfl, rfl, by decide, by decide, by decide +kernel, by decide⟩, by decide⟩⟩

theorem witness_QuantisedLines : let s := commanded quantCmd
    Quantising s 0 5 quantCmd quantOne 0 [0] ∧ Fmt.dx quantOne.dst.fmt = some .dx8 ∧ ownedBefore s (bufLineK 0 .wb 0) 0 = false ∧
    (∀ j < 4, bufPois s 0 .wb (64 * j) 1 = false) ∧
    (¬ quantOne.dst.lab < Label.joinAll (quantCmd.hlab :: [0].map (quantOne.blockLab (s.team 0) quantCmd.snaps quantCmd.v))) ∧
    quantOne.dstSpans (s.team 0) 0 = [(64, 2), (0, 32)] ∧ quantOne.blocks = 1 ∧ quantOne.dstLines (s.team 0) = [0] ∧ flyOf s 0 = [] ∧
    (Tbl.find s.teams 0).isSome = true :=
  ⟨⟨⟨rfl, rfl, rfl, ⟨rfl, rfl, rfl, rfl⟩, rfl, reads_own _ _ rfl⟩, rfl, by decide, rfl, rfl, rfl, by decide, by decide, by decide⟩, rfl, by decide, by decide,
    by decide, by decide, by decide, by decide, rfl, rfl⟩

/-- A command whose work is done, one that is cancelled, an invalidation, and a copy of 512 bytes to a drive. -/
theorem witness_EngineEvents :
    (∀ g ∈ [({} : Gate), { done := 64 }], let m := { copyTo (.sh 0 256) with pos := 1, gate := g }; let s := commanded m;
      findCmd s 0 5 = some m ∧ startCode s m = none ∧ workDone s m = true ∧ pushWaits s m = false ∧ behindCopy s 0 m = false ∧ m.tw ≤ s.now ∧
      m.lacks = [] ∧ m.code = none ∧ (s.handle 0 m.entry).st = .pending) ∧
    ReadsOwn (commanded (copyTo (.sh 0 256))) 0 ∧
    (let m := { copyTo (.sh 0 256) with flt := some ⟨.labelFlow, 0⟩ };
      findCmd (commanded m) 0 5 = some m ∧ m.gateMet = true) ∧
    (let m := { cmd with cancel := true };
      findCmd (commanded m) 0 5 = some m ∧ workDone (commanded m) m = false ∧ m.work.engine ≠ 2 ∧ m.flt = none ∧ m.tw ≤ (commanded m).now ∧
      m.lacks = [] ∧ ((commanded m).handle 0 m.entry).st = .pending) ∧
    (let m := { cmd (.quant quant1) with cancel := true, cut := some [0], pos := 2 };
      findCmd (commanded m) 0 5 = some m ∧ (startCode (commanded m) m ≠ none ∨ workDone (commanded m) m = false) ∧ cutDone (commanded m) m quant1 = true ∧
      pushWaits (commanded m) m = false) ∧
    (let m := cmd (.xinv false 0 4096);
      findCmd (commanded m) 0 5 = some m ∧ m.work = .xinv false 0 4096 ∧ m.gateMet = true ∧ m.flt = none ∧ m.pos = 0) ∧
    (let m := { cmd (.xinv false 0 4096) with pos := 2 };
      findCmd (commanded m) 0 5 = some m ∧ m.drained = false ∧ m.lreads = [] ∧ m.waits = []) ∧
    (let m := { cmd (.copy toDrive) with ncmds := [⟨0, 0, 512, false⟩], snaps := [⟨0, List.replicate 256 1, 0, 0⟩, ⟨1, List.replicate 256 1, 0, 0⟩] };
      let s := { commanded m with parts := [(0, { live := true, nss := [(3, { len := 1 })], files := [(1, (0, 3, true))] })] };
      findCmd s 0 5 = some m ∧ inProgress s 0 m = true ∧ nvmeCode s m toDrive = none ∧ nvmeBehind s m toDrive = false ∧ m.mark = none ∧
      toDrive.src.lines 0 512 = [0, 1] ∧ (∀ j < 512, snapPois m.snaps (toDrive.src.wrap (0 + j)) 1 = false) ∧ (nsAt s 0 3).label = 0) ∧
    (let m := { cmd (.copy toDrive) with ncmds := [⟨0, 0, 200, false⟩], snaps := [⟨0, List.replicate 256 1, 0, 0⟩] };
      let s := { commanded m with parts := [(0, { live := true, nss := [(3, { len := 1 })], files := [(1, (0, 3, true))] })] };
      findCmd s 0 5 = some m ∧ inProgress s 0 m = true ∧ nvmeCode s m toDrive = none ∧ nvmeBehind s m toDrive = false ∧
      toDrive.src.lines 0 200 = [0] ∧ (oldBytes s 0 3 0 ⟨0, 0, 200, false⟩).length = 312 ∧ ∀ j < 200, snapPois m.snaps (toDrive.src.wrap (0 + j)) 1 = false) :=
  ⟨by decide, reads_own _ _ rfl, by decide, by decide, by decide, by decide, by decide, by decide +kernel, by decide +kernel⟩

/-- Counters of the team's own and of a counter page. -/
def counters : State := run (lane (vs [(2, 3), (3, 0x100000)]))

theorem witness_CounterAccesses :
    locateLane counters 0 0 (BitVec.ofNat 64 (2 ^ 52 + 15)) true true = .ok counters (.near 0 15) ∧
    (∀ i ∈ [Instr.cadd c (.rel .dev) .z (.v 2) (.s 6), .cadd c .lim .z (.v 2) (.v 4), .cread c (.v 4) (.v 2)], Ready i counters) ∧
    locateLane counters 0 0 (readOp counters 0 0 .int true (.v 2)).val true false = .ok counters (.near 0 3) ∧
    (readOp counters 0 0 .int true (.s 6)).val.toNat < 2 ^ 62 ∧ labOf counters 0 0 c [0, 0] = 0 ∧ (counters.thread 0 0).t.helper = false ∧
    fenceMet counters 0 [0] .dev = true ∧ keyLink (.near 0 3) = false ∧
    (let s := run soloTeam { atc := [] };
      let x := { soloXlat with attr := 12 * 8192 + 2048 + 7 };
      let t := { s with cores := [(0, { atc := [x] })] };
      Hits t 0 0 4032 permWrite x ∧ attrCnt x.attr = true ∧ isLink (x.pa 4032) = false ∧ locateLane t 0 0 4032 true true = .ok t (.line 4032)) ∧
    (let s := run (lane (vs [(2, 3), (3, 0x100000)]) { tvec := 0x300, s := [(6, ⟨1, 2, false⟩)] });
      Ready (.cadd c .plain .z (.v 2) (.s 6)) s ∧ labOf s 0 0 c [0, (readOp s 0 0 .int true (.s 6)).lab] ≠ 0 ∧ CanTrap s 0 0) :=
  ⟨rfl, all_ready (by decide), rfl, by decide, by decide, by decide, by decide, rfl, ⟨⟨rfl, by decide, by decide⟩, by decide, by decide, rfl⟩,
    ready_of (by decide), by decide, by unfold CanTrap; decide⟩

/-- A wait that is met at the threshold of 0, one that is not at 1, a block that arms a post, and a waiter under the token 5. -/
theorem witness_WaitsAndArming :
    (let s := run (lane (vs [(2, 3), (3, 0x100000), (4, 1)]));
      Ready (.cwait c .z (.v 2) (.imm 0)) s ∧ Ready (.cwait c (.v 6) (.v 2) (.v 4)) s ∧ FreshOwe s 0 0 ∧ quiet s 0 (.near 0 3) = true ∧
      ctrPois s (.near 0 3) = false ∧ 0 ≤ (ctrValue s (.near 0 3) - 0).toInt ∧ (ctrValue s (.near 0 3) - 1).toInt < 0) ∧
    (let s := run { lane {} with sh := { bytes := [(6, 16), (8, 1), (16, 3)] }, al := { shLen := 64, slots := [0] } };
      Ready (.carm c (.s 5) (.s 12)) s ∧ FreshOwe s 0 0 ∧
      ∃ b, readBlock s 0 0 0 (formOf (.carm c (.s 5) (.s 12))) 64 = .ok b 0 ∧ armBlockFault b = none ∧
        locateLane s 0 0 (BitVec.ofNat 64 (fieldOf b 63 0)) false true = .ok s (.near 0 0) ∧ keyLink (.near 0 0) = false ∧
        labOf s 0 0 c [0] = 0 ∧ (s.thread 0 0).t.helper = false) ∧
    (let w : Waiter := { ctr := .near 0 3, thr := 9, seq := 1, act := .post 0 0, token := 5 };
      let s := { run (lane (vs [(2, 3), (3, 0x100000), (4, 5)])) with waiters := [w] };
      Ready (.cdisarm c (.s 5) (.v 2) (.v 4)) s ∧ locateLane s 0 0 (readOp s 0 0 .int true (.v 2)).val false true = .ok s (.near 0 3) ∧
      s.waiters.length < 2 ^ 31) :=
  ⟨⟨ready_of (by decide), ready_of (by decide), by unfold FreshOwe; decide, by decide⟩,
    ⟨ready_of (by decide), by unfold FreshOwe; decide, _, rfl, by decide, rfl, by decide⟩, ready_of (by decide), rfl, by decide⟩

def addReq9 (n : DWord) : Req := { id := 9, kind := .cadd (.near 0 3) false, parts := [{ team := 0, thread := 0, off := 0, n := 8, data := n }] }

def adding (n : DWord) : State :=
  run (lane { out := { owes := [{ id := 9, pc := 0, ic := 0, dest := .v 254 true, wr := true }] } } { near := [(3, { value := 3, limit := 7 })] }) { out := [addReq9 n] }

/-- A request of `carm` or `cdisarm` whose lane is owed the s register 255, the last. -/
def homedReq (k : ReqKind) : Req := { id := 9, kind := k, parts := [{ team := 0, thread := 0, off := 0, n := 8 }] }

def homed (k : ReqKind) : State :=
  run (lane { out := { owes := [{ id := 9, pc := 0, ic := 0, dest := .s 255 false }] } } { near := [(3, { value := 3 })] }) { out := [homedReq k] }

/-- The add of an engine's command that is done. -/
def engineAdd : PAdd := { part := 0, ctx := 0, core := 0, addr := 0, n := 1, who := .cmd 0 0 256, key := some (.near 0 3) }

/-- An add that reaches a limit of 7 is admitted, and one past it is not. -/
theorem witness_CounterAddsAtTheHome :
    findReq (adding 4) 0 9 = some (addReq9 4) ∧ oldest (adding 4) 0 (addReq9 4) = true ∧ ctrPois (adding 4) (.near 0 3) = false ∧
    findReq (adding 5) 0 9 = some (addReq9 5) ∧ oldest (adding 5) 0 (addReq9 5) = true ∧ ctrPois (adding 5) (.near 0 3) = false ∧
    ((adding 5).thread 0 0).out.sFault = none ∧ ctrLimit (adding 5) (.near 0 3) ≠ 0 ∧
    (ctrValue (adding 4) (.near 0 3) + 4 - ctrLimit (adding 4) (.near 0 3)).toInt ≤ 0 ∧
    0 < (ctrValue (adding 5) (.near 0 3) + 5 - ctrLimit (adding 5) (.near 0 3)).toInt ∧
    (let s := { run soloTeam { hnd := [(0, { st := .pending, gen := 1 })] } with adds := [(4, engineAdd)] };
      Tbl.find s.adds 4 = some engineAdd ∧ engineAdd.after ≤ s.now ∧ (s.handle 0 0).st = .pending ∧ ctrLimit s (.near 0 3) = 0 ∧
      engineAdd.link = none ∧ engineAdd.rest = [] ∧ engineAdd.waits s (.near 0 3) = false ∧ { engineAdd with stamp := some 0 }.waits s (.line 0) = false) ∧
    (CtrKey.near 0 3).closed (adding 4) = false ∧
    (∀ k ∈ [ReqKind.arm (.near 0 3) 9 (.post 0 0), .disarm (.near 0 3) 5],
      let s := homed k;
      findReq s 0 9 = some (homedReq k) ∧ oldest s 0 (homedReq k) = true ∧
      (s.thread 0 0).out.owes = [{ id := 9, pc := 0, ic := 0, dest := .s 255 false }] ∧ armFull s 0 (.near 0 3) = false) ∧
    meets (ctrValue (homed .store) (.near 0 3)) 9 = false ∧
    (let w : Waiter := { ctr := .near 0 3, thr := 9, seq := 1, act := .post 0 0, token := 5 };
      let held := fun (s : State) (v : Waiter) => !v.act.armedByDevice && decide (v.token = 5) && decide (v.token ≠ 0) && sameHome s v.ctr (.near 0 3);
      let s := { homed (.disarm (.near 0 3) 5) with waiters := [w] };
      s.waiters.find? (held s) = some w ∧ (homed (.disarm (.near 0 3) 5)).waiters.find? (held s) = none) :=
  ⟨by decide, by decide, by decide, by decide, by decide, by decide, by decide, by decide, by decide, by decide, by decide, by decide, by decide,
    by decide, by decide, by decide⟩

/-- A loop of one iteration over one cell of 256 bytes at 0x1000, with one footprint of its first byte. -/
def loop (m : Loop := {
    id := 6, team := 0, part := 0, ctx := 0, gate := {}, rbase := 0x1000, ncells := 1, size := 256, qn := 3
    fp := [{ kind := 0, rows := 0, len := 1, pitch := 0, stride := 0, off := 0, idxa := 0 }], n := 1, bsz := 1, entry := 0, hlab := 0
    stamp := 0, left := 1 }) : Loop := m

def looping (a : Loop := loop) (th : Thread := {}) : State := run (lane th { loopq := some 3, tvec := 0x300 }) { anchor := some a }

theorem witness_LoopInstructions :
    (let s := { run (lane (vs [(2, 128), (4, 1)])) with mem := [(161, 16), (168, 1), (216, 1)] };
      Ready (.ovw c (.h 1) (.v 2) (.v 4)) s ∧ (∃ e, freeEntry s 0 = some e) ∧ commandMayIssue s 0 [0] = true ∧ (s.core 0).anchor = none ∧
      ∃ b, readDesc s 0 0 0 128 = .ok s b ∧ descFault b false = none ∧ (gateOf b).gate = 0 ∧ fieldOf b 319 256 = 0x1000 ∧
        ((s.team 0).queue (fieldOf b 367 364)).elems = []) ∧
    Ready (.ovget c (.v 4)) looping ∧ (looping.team 0).r.loopq = some 3 ∧ ((looping.team 0).queue 3).atEnd = false ∧ FreshOwe looping 0 0 ∧
    (let s := looping loop { bound := some { idx := 0, slot := 0 } };
      Ready (.ovend c) s ∧ loopOf s 0 = some loop ∧ partWritten loop { idx := 0, slot := 0 } = none) ∧
    (let b : Bound := { idx := 0, slot := 0, written := [(0, true)] };
      let s := looping loop { bound := some b };
      Ready (.ovend c) s ∧ (s.thread 0 0).bound = some b ∧ partWritten loop b = some 0 ∧ CanTrap s 0 0) :=
  ⟨⟨ready_of (by decide), ⟨_, rfl⟩, by decide, by decide, _, rfl, by decide⟩, ready_of (by decide), by decide, by decide,
    by unfold FreshOwe; decide, ⟨ready_of (by decide), by decide⟩, ready_of (by decide), by decide, by decide, by unfold CanTrap; decide⟩

theorem witness_LoopEvents :
    (looping.core 0).anchor = some loop ∧ loop.left = 0 + 1 ∧ loop.outside ((loop.fp.headD default).spans 0 0) = none ∧
    (∃ k ∈ loop.cellSet ((loop.fp.headD default).spans 0 0), covBit (Tbl.getD (looping.core 0).cover k 0) = false) ∧
    (∀ k ∈ loop.cellSet ((loop.fp.headD default).spans 0 0), Tbl.getD (looping.core 0).coverPois (coverSector k) false = false) ∧
    (looping.team 0).atStop = false ∧ (Tbl.find looping.teams 0).isSome = true ∧ (loop.fp.headD default).kind ≠ 1 ∧
    (let a := { loop with running := true, left := 0, batch := [{ idx := 0, slot := 0, cells := [0], ended := true }] };
      ((looping a).core 0).anchor = some a ∧ (∀ e ∈ a.batch, e.ended = true) ∧ ((looping a).team 0).atStop = false) ∧
    (let a := { loop with left := 0, gate := { done := 0x100 } };
      ((looping a).core 0).anchor = some a ∧ a.gate.done ≠ 0 ∧ a.tw ≤ (looping a).now ∧ a.lacks = [] ∧ ((looping a).core 0).out = []) :=
  ⟨by decide, by decide, by decide, ⟨0, by decide, by decide⟩, by decide, by decide⟩

-- walkers: processor 0 of cell 0 has a walk of partition 0, whose limit is 4,096 cycles

def walk1 : Walk := { id := 0, part := 0, tag := 0, va := 0x5000, kind := 0, word := 0, rqrs := [⟨.thread 0 0, 0x5000, false⟩] }

def walking (p : WProc := { walk := walk1 }) (part : PartSt := {}) : State :=
  { run soloTeam {} (.walker 0 0) with ps := 800 * p.cycles, cells := [(0, { procs := [(0, p)] })], parts := [(0, part)] }

theorem walks (p : WProc) (part : PartSt) (rs : List (BitVec 5)) (ld : Bool) (h : ∀ r ∈ rs, p.set.busy r.toNat = false)
    (hl : ld = true → p.set.load = none) : Walks (walking p part) 0 0 p rs ld := ⟨rfl, rfl, h, hl⟩

theorem below (s : State) (p : WProc) (t : Nat) (h : t < walkLimit s p) (hl : p.set.load = none) : Below s p t :=
  ⟨h, fun l e => by rw [hl] at e; cases e⟩

theorem witness_WalkerArithmeticAndBranches :
    Walks walking 0 0 { walk := walk1 } [3, 1, 31] false ∧ Below walking { walk := walk1 } (issueAt { walk := walk1 } [3, 1, 31] false) ∧
    issueAt { walk := walk1 } [3, 1, 31] false ≤ walkerNow walking { walk := walk1 } ∧
    (let p : WProc := { walk := walk1, cycles := 4095 };
      Below (walking p) p (issueAt p [3, 1, 31] false) ∧ issueAt p [3, 1, 31] false ≤ walkerNow (walking p) p) :=
  ⟨walks _ _ _ _ (by decide) (by decide), below _ _ _ (by decide) rfl, by decide, below _ _ _ (by decide) rfl, by decide⟩

/-- A walk whose load has met a marked line, up to the count before its end, and from there on. -/
def poisonedWalk (cycles : Nat) : WProc :=
  { walk := walk1, cycles, o := { load := some { d := 7, virt := false, addr := 8, n := 8, lease := 1, iss := 0, pois := true } } }

theorem witness_PoisonedWalk :
    Walks (walking (poisonedWalk 3)) 0 0 (poisonedWalk 3) [3, 1] false ∧ Below (walking (poisonedWalk 3)) (poisonedWalk 3) (issueAt (poisonedWalk 3) [3, 1] false) ∧
    Walks (walking (poisonedWalk 4)) 0 0 (poisonedWalk 4) [] false ∧ 0 + 4 < walkLimit (walking (poisonedWalk 4)) (poisonedWalk 4) ∧
    0 + 4 ≤ issueAt (poisonedWalk 4) [] false ∧ 0 + 4 ≤ walkerNow (walking (poisonedWalk 4)) (poisonedWalk 4) := by
  refine ⟨⟨rfl, rfl, by decide, by decide⟩, ⟨by decide, fun l e _ => ?_⟩, ⟨rfl, rfl, by decide, by decide⟩, by decide⟩
  obtain rfl := Option.some.inj e
  decide

/-- A range of one page that may be read; the last word of it, and the first beyond. -/
def ranged : PartSt := { live := true, ranges := [(0, { valid := true, maxperm := 7, len := 1, base := 0 })] }

theorem witness_WalkerLoadsAndEnds :
    (let s := { walking { walk := walk1 } ranged with slices := [(0, { owner := some 0 })] };
      Walks s 0 0 { walk := walk1 } [3, 1] true ∧ Below s { walk := walk1 } (issueAt { walk := walk1 } [3, 1] true) ∧
      issueAt { walk := walk1 } [3, 1] true ≤ walkerNow s { walk := walk1 } ∧ loadAllowed s 0 0xFF8 8 = true ∧ loadAllowed s 0 0x1000 8 = false ∧ wdcLive s 0 0xFF8 = none ∧
      hitOf (s.cell 0).l2 0 0 0xFF8 [s.m.steps, 0, 0] = none ∧ walkWhy s 0 0 (12 * 8192 + 7) = 0 ∧ walkWhy s 0 0 (11 * 8192 + 7) = 1 ∧ walkWhy s 0 4096 (12 * 8192) = 5) ∧
    (∀ m ∈ [8, 0], let l : WLine := { bytes := List.replicate 256 1, expiry := 100, pois := m };
      let s := { walking { walk := walk1 } ranged with slices := [(0, { owner := some 0 })], cells := [(0, { procs := [(0, { walk := walk1 })], wdc := [(15, l)] })] };
      Walks s 0 0 { walk := walk1 } [3, 1] true ∧ issueAt { walk := walk1 } [3, 1] true ≤ walkerNow s { walk := walk1 } ∧ loadAllowed s 0 0xFF8 8 = true ∧
      wdcLive s 0 0xFF8 = some l) ∧
    (let p : WProc := { walk := walk1, cycles := 4096 };
      Walks (walking p) 0 0 p [] false ∧ p.set.load = none ∧ walkLimit (walking p) p ≤ issueAt p [] false ∧ walkLimit (walking p) p ≤ walkerNow (walking p) p) ∧
    walk1.rqrs = [⟨.thread 0 0, 0x5000, false⟩] ∧ (Tbl.find walking.teams 0).isSome = true :=
  ⟨⟨⟨rfl, rfl, by decide, by decide⟩, below _ _ _ (by decide) rfl, by decide⟩, fun m hm => by
      simp only [List.mem_cons, List.not_mem_nil, or_false] at hm
      rcases hm with rfl | rfl <;> exact ⟨⟨rfl, rfl, by decide, by decide⟩, by decide⟩,
    ⟨walks _ _ _ _ (by decide) (by decide), by decide⟩, by decide⟩

theorem witness_WalkEvents :
    (let s := { run with cells := [(0, { cur := some 0, queues := [(0, [walk1])], deficit := [(0, 1)] })] };
      (∀ q < 8, Tbl.find (s.cell 0).procs q = none) ∧ procUp s 0 0 = true ∧ (s.cell 0).cur = some 0 ∧
      Tbl.getD (s.cell 0).queues 0 [] = [walk1] ∧ 0 < Tbl.getD (s.cell 0).deficit 0 0 ∧ (s.cell 0).started ≠ some (walkerCycle s) ∧
      Tbl.find (s.cell 0).freed 0 = none) ∧
    (let p : WProc := { walk := walk1 };
      Tbl.find ((walking p).cell 0).procs 0 = some p ∧ walkerNow (walking p) p < walkLimit (walking p) p ∧
      walkLimit (walking p) p ≤ walkerNow { walking p with ps := 4000000 } p) ∧
    (let l : WLoad := { d := 3, virt := false, addr := 8, n := 8, lease := 0 };
      let p : WProc := { walk := walk1, o := { load := some l } };
      p.set.load = some l ∧ l.pois = false ∧ ((walking p).slice (sliceOf 8)).dead = false ∧ closed (walking p) (.mem 0) = false ∧ isLink 8 = false ∧ noSuch 8 = false ∧ ((walking p).line 0).pois = 0) ∧
    (decodeWalker 0xFFE0003B).isSome = true ∧ decodeWalker 0 = none :=
  ⟨by decide, by decide, by decide, by decide, by decide⟩

-- threads, memory and queues

def parked (k : ParkKind) (out : TOut := {}) : Thread := { run := { park := some ⟨5, k⟩ }, out }

theorem witness_ThreadEvents :
    (∀ k ∈ [ParkKind.seg, .exit, .reform],
      let s := run (lane (parked k));
      Tbl.find s.teams 0 = some (lane (parked k)) ∧ (s.thread 0 0).run.park = some ⟨5, k⟩ ∧ parkedUnder (lane (parked k)) 5 = [(0, k)] ∧
      (s.thread 0 0).out.owes = [] ∧ (lane (parked k)).forcing 0 = false ∧ (lane (parked k)).grouped 0 = true ∧ (s.thread 0 0).run.waitC = none ∧
      (s.thread 0 0).run.pend = none ∧ (s.thread 0 0).out.sFault = none) ∧
    ((run (lane (parked .seg { owes := [{ id := 9, pc := 0, ic := 0, dest := .v 1 false }] }))).thread 0 0).out.owes ≠ [] ∧
    (let tm : Team := { soloTeam with groups := [], heats := [⟨1, 0, [0], 0, none, 0⟩] };
      tm.heats = ⟨1, 0, [0], 0, none, 0⟩ :: [] ∧ [0].length = tm.positions.length ∧ 0 ∈ tm.al.slots ∧ Tbl.find tm.groups 0 = none ∧ tm.forced = none) ∧
    (let tm : Team := { soloTeam with heats := [⟨1, 0, [0], 0, some 0, 0⟩] };
      tm.freeSlots = [] ∧ tm.groups ≠ [] ∧ tm.forced = none ∧ 0 + 1024 ≤ ((run tm { cyc := 1024 }).core 0).cyc) ∧
    (let s := run (lane { run := { held := some (.dev, [0]) } });
      (s.thread 0 0).run.held = some (.dev, [0]) ∧ fenceMet s 0 [0] .dev = true) ∧
    (let s := run (lane { run := { held := some (.dev, [0]) }, out := { stores := 1 } }); fenceMet s 0 [0] .dev = false) := by decide

/-- A lane that awaits a result in v4, and a request of it for the last byte of line 1. -/
def oweV4 (wide : Bool := false) : Owe := { id := 9, pc := 0, ic := 0, dest := .v 4 wide }

def awaiting (wide : Bool := false) (out : TOut := {}) : Thread := { out := { out with owes := [oweV4 wide] } }

def homing (k : ReqKind) (th : Thread := awaiting) : State :=
  run (lane th) { out := [{ id := 9, kind := k, line := 1, parts := [{ team := 0, thread := 0, off := 255, n := 1 }] }] }

theorem at_home (k : ReqKind) (th : Thread) (h : mayPerform (homing k th) 0
      { id := 9, kind := k, line := 1, parts := [{ team := 0, thread := 0, off := 255, n := 1 }] } = true) :
    AtHome (homing k th) 0 9 { id := 9, kind := k, line := 1, parts := [{ team := 0, thread := 0, off := 255, n := 1 }] }
      { team := 0, thread := 0, off := 255, n := 1 } := ⟨rfl, rfl, h, (by decide : noSuch 256 = false), (by decide : 255 < 256)⟩

theorem witness_MemoryEvents :
    (∀ k ∈ [ReqKind.load false 0, .load true 1, .store, .atomic (.int .add .u32) true],
      AtHome (homing k) 0 9 { id := 9, kind := k, line := 1, parts := [{ team := 0, thread := 0, off := 255, n := 1 }] }
        { team := 0, thread := 0, off := 255, n := 1 } ∧ poisAt (homing k) 511 = false ∧
      Awaits (homing k) 0 0 9 4 oweV4) ∧
    poisAt { homing .store with lines := [(1, { pois := 8 })] } 511 = true ∧
    laterReqs (homing (.load true 1)) 0 9 1 = [] ∧ ((homing .store).thread 0 0).t.helper = false := by
  refine ⟨fun k hk => ⟨at_home k _ ?_, ?_, ⟨rfl, rfl, rfl, rfl, by decide⟩⟩, by decide, by decide, by decide⟩ <;>
    (simp only [List.mem_cons, List.not_mem_nil, or_false] at hk; rcases hk with rfl | rfl | rfl | rfl <;> decide)

/-- A line away from its home whose stored form is the encryption of what the home holds. -/
def SealedLine : Prop := ∃ st, let s := { run with stored := [(1, st)], lines := [(1, { away := true })] }
  storedOf s 1 = st ∧ (s.line 1).away = true ∧ st.mac = macOf s 1 st.record st.data ∧ st.record.getLsbD 26 = true ∧
  cipher (partKey s (ownerPart s 1) 1) 256 ((st.record.ushiftRight 32).setWidth 32) (Mem.readN s.mem 256 256) =
    st.data.take (64 * ((st.record >>> 2).toNat % 8))

theorem sealed_line : SealedLine := by
  refine ⟨⟨16 + 2 ^ 26, macOf run 1 (16 + 2 ^ 26) (cipher (partKey run (ownerPart run 1) 1) 256 0 (Mem.readN run.mem 256 256)),
    cipher (partKey run (ownerPart run 1) 1) 256 0 (Mem.readN run.mem 256 256)⟩, rfl, rfl, rfl, by decide, ?_⟩
  have hn : ∀ k bs, bs.length = 256 → (cipher k 256 0 bs).take 256 = cipher k 256 0 bs := by
    intro k bs h
    exact List.take_of_length_le (by simp [cipher, h])
  exact (hn _ _ (by decide)).symm

/-- A line away whose stored form is bad in one bit: some flip is the first that makes its MAC match. -/
def Mends : Prop := ∃ st i, let s := { run with stored := [(1, st)], lines := [(1, { away := true })] }
  storedOf s 1 = st ∧ (s.line 1).away = true ∧ st.mac ≠ macOf s 1 st.record st.data ∧ i < 128 + 8 * st.data.length ∧
  (flipStored st i).mac = macOf s 1 (flipStored st i).record (flipStored st i).data ∧
  ∀ j < i, ¬ (flipStored st j).mac = macOf s 1 (flipStored st j).record (flipStored st j).data

theorem first_good (p : Nat → Prop) : ∀ n, p n → ∃ i, i ≤ n ∧ p i ∧ ∀ j < i, ¬ p j := by
  intro n
  induction n using Nat.strongRecOn with
  | _ n ih =>
    intro hn
    by_cases h : ∃ j, j < n ∧ p j
    · obtain ⟨j, hj, hp⟩ := h
      obtain ⟨i, hi, hr⟩ := ih j hj hp
      exact ⟨i, by omega, hr⟩
    · exact ⟨n, Nat.le_refl n, hn, fun j hj hp => h ⟨j, hj, hp⟩⟩

theorem mends : Mends := by
  let st : Stored := ⟨0, macOf run 1 0 [] ^^^ 1, []⟩
  let good : Nat → Prop := fun j => (flipStored st j).mac = macOf run 1 (flipStored st j).record (flipStored st j).data
  have h64 : good 64 := by
    show _ ^^^ _ = _
    have : (macOf run 1 0 [] ^^^ 1) ^^^ 1 = macOf run 1 0 [] := by rw [BitVec.xor_assoc]; simp
    simpa [flipStored, st] using this
  obtain ⟨i, hi, hg, hl⟩ := first_good good 64 h64
  refine ⟨st, i, rfl, rfl, ?_, Nat.lt_of_le_of_lt hi (by decide), hg, hl⟩
  show macOf run 1 0 [] ^^^ 1 ≠ macOf run 1 0 []
  intro h
  have := congrArg (fun x => macOf run 1 0 [] ^^^ x) h
  simp [← BitVec.xor_assoc] at this

/-- A line away whose stored form no flip of one bit mends. -/
def NoMend : Prop := ∃ st, let s := { run with stored := [(1, st)], lines := [(1, { away := true })] }
  storedOf s 1 = st ∧ (s.line 1).away = true ∧ st.mac ≠ macOf s 1 st.record st.data ∧
  ∀ j < 128 + 8 * st.data.length, (flipStored st j).mac ≠ macOf s 1 (flipStored st j).record (flipStored st j).data

/-- A list that holds every number below `n` has at least `n` members. -/
theorem length_of_all : ∀ (n : Nat) (l : List Nat), (∀ k < n, k ∈ l) → n ≤ l.length
  | 0, _, _ => Nat.zero_le _
  | n + 1, l, h => by
    have hn := h n (Nat.lt_succ_self n)
    have := length_of_all n (l.erase n) (fun k hk => (List.mem_erase_of_ne (Nat.ne_of_lt hk)).mpr (h k (Nat.lt_succ_of_lt hk)))
    rw [List.length_erase_of_mem hn] at this
    have := List.length_pos_of_mem hn
    omega

theorem no_mend : NoMend := by
  let m := macOf run 1 0 []
  let bad : List DWord := m :: ((List.range 64).map (fun i => macOf run 1 (0 ^^^ (1 <<< i)) []) ++ (List.range 64).map (fun i => m ^^^ (1 <<< i)))
  obtain ⟨x, hx⟩ : ∃ x, x ∉ bad := by
    refine Classical.byContradiction fun hc => ?_
    have := length_of_all 130 (bad.map BitVec.toNat) (fun k hk => List.mem_map.mpr
      ⟨BitVec.ofNat 64 k, Classical.byContradiction fun h => hc ⟨_, h⟩, by simp; omega⟩)
    simp [bad] at this
  simp only [bad, List.mem_cons, List.mem_append, List.mem_map, List.mem_range, not_or, not_exists, not_and] at hx
  refine ⟨⟨0, x, []⟩, rfl, rfl, hx.1, fun j hj => ?_⟩
  by_cases h : j < 64
  · simp only [flipStored, if_pos h]
    exact fun e => hx.2.1 j h e.symm
  · have h' : j < 128 := by simpa using hj
    simp only [flipStored, if_neg h, if_pos h']
    intro e
    refine hx.2.2 (j - 64) (by omega) ?_
    show m ^^^ _ = x
    rw [show m = x ^^^ 1 <<< (j - 64) from e.symm, BitVec.xor_assoc]
    simp

theorem witness_LineAndQueueEvents :
    (let s := { run with lines := [(1, { dirty := true })] }; (s.line 1).dirty = true ∧ (s.line 0).dirty = false ∧ (s.line 0).away = false) ∧
    (∃ st, let s := { run with stored := [(1, st)], lines := [(1, { away := true })] };
      storedOf s 1 = st ∧ st.mac = macOf s 1 st.record st.data ∧ st.record.getLsbD 26 = false ∧ (s.line 1).away = true) ∧
    SealedLine ∧ Mends ∧ NoMend ∧
    (let e : QElem := ⟨1, 0, false⟩;
      let s := run (lane awaiting { q := [(1, { elems := [e], claims := [.thread 0 9] })] });
      Awaits s 0 0 9 4 oweV4 ∧ ((s.team 0).queue 1).claims = [.thread 0 9] ∧
      ((s.team 0).queue 1).elems = [e] ∧ ((s.team 0).queue 1).excess = []) ∧
    (let s := run (lane { out := { owes := [{ id := 9, pc := 0, ic := 0, dest := .q 2 }] } }
        { q := [(1, { elems := [⟨1, 0, false⟩], claims := [.thread 0 9] }), (2, { kept := 1 })] });
      (Tbl.find s.teams 0).isSome = true ∧ (s.thread 0 0).out.owes = [{ id := 9, pc := 0, ic := 0, dest := .q 2 }] ∧
      ((s.team 0).queue 1).claims = [.thread 0 9] ∧ ((s.team 0).queue 1).elems = [⟨1, 0, false⟩] ∧ ((s.team 0).queue 1).excess = [] ∧
      ((s.team 0).queue 2).excess = []) :=
  ⟨by decide, ⟨⟨0, macOf run 1 0 [], []⟩, rfl, rfl, by decide, rfl⟩, sealed_line, mends, no_mend, ⟨⟨rfl, rfl, rfl, rfl, by decide⟩, by decide⟩, by decide⟩

/-- Places of an error: a sector that an L1 holds, a counter of words fetched ahead, a line of a walker's data cache, and a team. -/
theorem witness_EccPlaces : let k : L1Sector := ⟨List.replicate 64 1, 0, false, 100⟩
    let l : WLine := { bytes := List.replicate 256 1, expiry := 100 }
    let s := { run soloTeam { l1 := [(5, k)], ev := [(2, { part := 0, ev := .fetchAhead })] } with cells := [(0, { wdc := [(1, l)] })] }
    Tbl.find (s.core 0).l1 5 = some k ∧ Tbl.find (s.core 0).ev 2 = some { part := 0, ev := .fetchAhead } ∧ Tbl.find (s.cell 0).wdc (5 / 4) = some l ∧
    (Tbl.find s.teams 0).isSome = true := by decide

theorem witness_LinesArePackedWhole : (List.replicate 256 (0 : Byte)).length = 256 ∧ (packLine true (List.replicate 256 0)).nsec ≤ 4 := by decide

-- launches, contexts and the slice kernel: partition 0 has core 0 and slice 0

def host : Sender := { part := 0, src := 0x40000000, tag := 1 }
def peer : Sender := { part := 0, src := 0x00010000, tag := 1 }

def owned0 (p : PartSt) (tms : Tbl Team := []) (c : Cell := { l2 := [soloXlat] }) : State :=
  { State.reset with
    cores := [(0, { owner := some 0 })], slices := [(0, { owner := some 0 })], cells := [(0, c)], parts := [(0, p)], teams := tms }

/-- A record of one team of one thread with eight registers, at address 0. -/
def recordMem : Mem := [(16, 1), (20, 1), (24, 1), (28, 1), (30, 1), (32, 1), (34, 1), (35, 1), (38, 8)]

def hdr1 : Hdr := { regs := 8, gridX := 1, gridY := 1, gridZ := 1 }

theorem witness_LaunchesAndTeams :
    (let b : Sub := { src := .host host 7, part := 0, ctx := 0, addr := 0, queue := 0 };
      let s := { owned0 { live := true, queues := [(0, { enabled := true })] } with mem := recordMem, subs := [(3, b)] };
      Tbl.find s.subs 3 = some b ∧ subBehind s 3 b = false ∧ (lqueue s 0 0).enabled = true ∧ (lqueue s 0 1).enabled = false ∧
      (∃ r, readRecord s 3 0 = .done s r ∧ recordFault s 0 r.1 = none ∧ ¬ (hdrOf r.1).lfloor < b.hlab) ∧ (lqueue s 0 0).recs.length < 64) ∧
    (let gr : Grid := { part := 0, ctx := 0, record := { hdr := hdr1, consts := [], seq := 0 } };
      let s := { owned0 { live := true, ctxs := [(0, {})] } with grids := [(2, gr)] };
      gr.next + 1 = hdr1.teams ∧ hasUnit s 0 0 = true ∧ (∃ al, admits s 0 hdr1 = some al) ∧ (∃ lt, freeLt s (s.ctx 0 0).lts = some lt) ∧
      ctxRuns (s.ctx 0 0) = true) ∧
    (let tm : Team := { soloTeam with threads := [(0, { run := { exited := true } })], groups := [] };
      let gr : Grid := { part := 0, ctx := 0, record := { hdr := { hdr1 with gdone := 64 }, consts := [], seq := 0 }, next := 1, live := 1 };
      let s := { owned0 { live := true } [(0, tm)] with grids := [(0, gr)] };
      tm.live = [] ∧ commandsLeft s 0 0 = false ∧ tm.threads.all (fun e => settled s e.2) = true ∧ clusterTeams s 0 = [0] ∧
      (irecOf s 0).owner ≠ some 0 ∧ gr.record.hdr.teams ≤ gr.next) ∧
    soloTeam.live ≠ [] :=
  ⟨⟨by decide, by decide, by decide, by decide, ⟨_, rfl, by decide, by decide⟩, by decide⟩,
    ⟨by decide, by decide, ⟨_, rfl⟩, ⟨_, rfl⟩, by decide⟩, by decide, by decide⟩

/-- A stopped team of one thread, and its context. -/
def stoppedTeam : Team := { soloTeam with hdr := hdr1, stopped := [0] }
def stoppedCtx : State := owned0 { live := true, ctxs := [(0, { stopAt := some 0 })] } [(0, stoppedTeam)]

/-- The partition's memory has room for its image. -/
theorem image_fits : ownsRange stoppedCtx 0 256 (imageBytes 0 0 0 [saveTeam stoppedCtx 0] false false).length = true := by decide +kernel

/-- No reading is given of bytes that this module did not write. -/
theorem no_image (s : State) (part ctx pa n : Nat) (h : (s.ctx part ctx).saved = none) (hf : s.m.foreign = none) : imageAt s part ctx pa n = none := by
  simp [imageAt, h, foreignImage, hf]

theorem witness_ContextEvents :
    (let s := owned0 { live := true, ctxs := [(0, {})] } [(0, soloTeam)];
      (Tbl.find (s.part 0).ctxs 0).isSome = true ∧ ctxRuns (s.ctx 0 0) = true) ∧
    (let s := { owned0 { live := true, ctxs := [(0, { stopAt := some 0 })] } with ps := 20000000 };
      (s.ctx 0 0).stopAt = some 0 ∧ (s.ctx 0 0).yield = false ∧ 0 + deadlineNs s 0 ≤ s.now) ∧
    ((stoppedCtx.ctx 0 0).stopAt ≠ none ∧ giveBack stoppedCtx 0 = stoppedCtx ∧ ctxTeams stoppedCtx 0 0 = [(0, stoppedTeam)] ∧
      teamStill stoppedCtx 0 stoppedTeam = true ∧ 256 % 256 = 0) ∧
    (let im : Image := { pa := 256, bytes := [0], vtime := 0, stime := 0, full := false, halted := false, teams := [] };
      let s := owned0 { live := true, ctxs := [(0, { saved := some im })] };
      (Tbl.find (s.part 0).ctxs 0).isSome = true ∧ imageAt s 0 0 256 0 = some im ∧ imagePoisoned s im = false ∧ im.teams = [] ∧
      (s.ctx 0 0).paged = false ∧ ownsRange s 0 256 0 = true ∧ imagePoisoned { s with lines := [(1, { pois := 1 })] } im = true ∧
      im.base = none ∧ rangeAway s 256 im.bytes.length = false ∧ rangeAway { s with lines := [(1, { away := true })] } 256 im.bytes.length = true ∧
      imageAt (owned0 { live := true, ctxs := [(0, {})] }) 0 0 256 0 = none) ∧
    (let i : Image := { pa := 0, bytes := [], vtime := 5, stime := 0, full := false, halted := false, teams := [] };
      let s := { owned0 { live := true, ctxs := [(0, {})] } with mem := Mem.writeN [] 256 (i.encode 0 0), m := { foreign := some i } };
      ∃ im, imageAt s 0 0 256 (i.encode 0 0).length = some im ∧ im.vtime = 5 ∧ imagePoisoned s im = false ∧ im.teams = [] ∧
        ownsRange s 0 256 (max (i.encode 0 0).length 0) = true ∧ rangeAway s 256 im.bytes.length = false) ∧
    (let s0 := owned0 { live := true } [(5, soloTeam)];
      let im : Image := { pa := 256, bytes := [], vtime := 0, stime := 0, full := false, halted := false, teams := [saveTeam s0 5] };
      let s := owned0 { live := true, ctxs := [(0, { saved := some { im with base := some 7 } })] };
      imageAt s 0 0 256 0 = some { im with base := some 7 } ∧ rangeAway s 256 im.bytes.length = false ∧ imagePoisoned s im = false ∧ im.clusters = [0] ∧
      (landCluster (startRestore s 0 0 { im with base := some 7 }) 0 0 0 im.teams (freshStamp 7 [])).isSome = true) ∧
    (let s := { owned0 { live := true, svec := 4 } with boot := { entOk := true } };
      (s.part 0).live = true ∧ Tbl.find (s.part 0).ctxs 63 = none ∧ 65536 % 65536 = 0 ∧ 4096 % 4096 = 0 ∧ (s.part 0).svec ≠ 0 ∧
      s.boot.entOk = true ∧ ctxTeams s 0 63 = [] ∧ (s.part 0).queues = []) ∧
    (let im : Image := { pa := 256, bytes := [0], vtime := 0, stime := 0, full := false, halted := false, teams := [] };
      let s := { owned0 { live := true, nss := [(3, { len := 8 })], ctxs := [(0, { saved := some im })] } with
        cores := [(0, { owner := some 0, accown := [(2, 0)] })] };
      taggedPages s (tagOf 0 0) = [(0, 2)] ∧ ownsRange s 0 (areaOf (s.ctx 0 0) 0 2) 4096 = true ∧ inHandler s 0 (0, 2) = false ∧ rangeAway s im.pa im.bytes.length = false ∧ ctxTeams s 0 0 = [] ∧
      (s.ctx 0 0).saved = some im ∧ (s.ctx 0 0).paged = false ∧ 7 + (im.bytes.length + 16 + 511) / 512 ≤ (nsAt s 0 3).len ∧
      taggedPages (owned0 { live := true }) 0 = []) :=
  ⟨by decide, by decide, by decide, ⟨by decide, by decide, by decide, by decide, by decide, by decide, by decide, by decide, by decide, by decide, no_image _ _ _ _ _ (by decide) rfl⟩,
    ⟨_, rfl, rfl, by decide, rfl, by decide, by decide⟩, by decide, by decide, by decide⟩

def call (num : Nat) (a : DWord) (lab : Label := 0) : Call := { id := 4, team := 0, thread := 0, owe := 9, ctx := 0, tag := 0, num, a, lab }

def calling (x : Call) (p : PartSt := {}) : State :=
  owned0 { p with live := true, ctxs := [(0, {})], calls := [x] } [(0, lane (awaiting true))]

theorem witness_SliceKernelCalls :
    (∀ n ∈ [0, 1, 2, 3, 4, 5], Calls (calling (call n 4)) 0 n (call n 4) ∧ nextCall (calling (call n 4 1)) 0 n = some (call n 4 1)) ∧
    (Tbl.find ((calling (call 1 0)).part 0).ctxs 0).isSome = true ∧ ctxRuns ((calling (call 1 0)).ctx 0 0) = true ∧
    (let s := calling (call 2 3) { nss := [(3, {})] };
      Tbl.find (s.part 0).nss 3 = some {} ∧ ∃ h, freeFile s 0 = some h) ∧
    (let s := calling (call 3 255) { files := [(255, (0, 3, true))] };
      Tbl.find (s.part 0).files 255 = some (0, 3, true)) ∧
    (let x := { call 4 0 with gen := some (0, 0) };
      (∃ y, quoteArea (calling x) 0 x = .ok (calling x) y) ∧ homeRead (calling x) 64 1 < 8 ∧ (calling x).boot.xmss < 2 ^ 20) ∧
    (let x := { call 5 1 with ans := some (0, 1) };
      ((calling x).part 0).calls = [x] ∧ Awaits (calling x) 0 0 9 4 (oweV4 true) true) ∧
    (Tbl.find (evTable { owned0 {} with cores := [(0, { ev := [(2, { part := 0, ev := .issued })] })] } (.core 0)) 2).isSome = true := by
  refine ⟨fun n hn => ?_, by decide, by decide, ⟨by decide, ⟨_, rfl⟩⟩, by decide, ⟨⟨_, rfl⟩, by decide⟩, ⟨rfl, ⟨rfl, rfl, rfl, rfl, by decide⟩⟩, by decide⟩
  simp only [List.mem_cons, List.not_mem_nil, or_false] at hn
  rcases hn with rfl | rfl | rfl | rfl | rfl | rfl <;> exact ⟨⟨rfl, rfl⟩, rfl⟩

/-- A range that may be written and one that may not, a trace buffer of the largest size, a drive's port, a counter that already counts an event, and a
halted team of which nothing is left. -/
theorem witness_ConfigurationItems :
    (let r : Range := { valid := true, maxperm := 7, len := 1, base := 0x7FFFFF000, cntok := true };
      rangeAllowed r = false ∧ rangeAllowed { r with base := 0 } = true ∧ zeroFrames (owned0 { live := true }) 0 { r with base := 0 } = true) ∧
    (let c : TraceCfg := ⟨4096, 2 ^ 24, 1, 0x200000, 0x200040⟩; c.base % 4096 = 0 ∧ c.base < 2 ^ 52 ∧ c.cap = 2 ^ 24) ∧
    (let s := { owned0 { live := true } with boot := { roots := [(2, { owner := some 16, drive := true })] } }; driveAt s 2 = true ∧ driveAt s 1 = false) ∧
    (∃ e, Tbl.find (evTable { owned0 {} with cores := [(0, { ev := [(2, { part := 0, ev := .issued })] })] } (.core 0)) 2 = some e ∧ e.part = 0 ∧
      e.ev = .issued) ∧
    (let tm : Team := { soloTeam with halted := true };
      let gr : Grid := { part := 0, ctx := 0, record := { hdr := { hdr1 with gdone := 64 }, consts := [], seq := 0 }, next := 1, live := 1 };
      let s := { owned0 { live := true } [(0, tm)] with grids := [(0, gr)] };
      (s.part 0).live = true ∧ Tbl.find s.teams 0 = some tm ∧ tm.at_.core = 0 ∧ tm.at_.part = 0 ∧ tm.ended = false ∧ commandsLeft s 0 0 = false ∧
      tm.threads.all (fun e => settled s e.2) = true ∧ clusterTeams s 0 = [0] ∧ (irecOf s 0).owner ≠ some 0 ∧ Tbl.find s.grids tm.at_.grid = some gr ∧
      gr.record.hdr.teams ≤ gr.next) ∧
    (let s := { owned0 { live := true, carmQuota := 1, ranges := [(0, { valid := true, cntok := true, maxperm := 7, len := 1, base := 0 })] } with mem := [(0x80, 3)] };
      counterLineOf s 0 0x80 = true ∧ counterLineOf s 0 0x1000 = false ∧ (CtrKey.line 0x80).closed s = false ∧ ctrPois s (.line 0x80) = false ∧
      armFull s 0 (.line 0x80) = false ∧ meets (ctrValue s (.line 0x80)) 3 = true ∧ meets (ctrValue s (.line 0x80)) 4 = false ∧
      reachable { s with links := { ports := [(127, { up := true, remote := 0x00010000 })] } } 0 0x00010000 = true) :=
  ⟨by decide, by decide, by decide, ⟨_, rfl, rfl, rfl⟩, by decide, by decide⟩

theorem witness_PartitionEvents :
    (let r : PartReq := { num := 31, units := [0, 95], slices := [0, 31], weight := 64, cls := 7 };
      let s := { State.reset with boot := { booted := true, entOk := true } };
      (s.part 31).live = false ∧ (∀ c ∈ r.units, c < 96 ∧ (s.core c).owner = none ∧ (s.core c).dead = false) ∧
      (∀ d ∈ r.slices, d < 32 ∧ (s.slice d).owner = none ∧ (s.slice d).dead = false) ∧
      minimaFit s ({ weight := r.weight, link := [], mesh := [], cells := dedup (r.units.map cellOf) } :: admittedMinima s) = true ∧
      minimaFit s ({ weight := 65, link := [], mesh := [], cells := dedup (r.units.map cellOf) } :: admittedMinima s) = false) ∧
    (let s := owned0 { live := true, ctxs := [(5, {})] };
      (s.part 0).live = true ∧ (s.part 0).ctxs ≠ [] ∧ (Tbl.find (s.part 0).ctxs 5).isSome = true ∧ (lqueue s 0 63).enabled = false) ∧
    (let s := owned0 { live := true, queues := [(63, { enabled := true, recs := [] })], ranges := ranged.ranges };
      (s.part 0).ctxs = [] ∧ (lqueue s 0 63).enabled = true ∧ MemOk s ∧ ownsRange s 0 (4095 / 4096 * 4096) 4096 = true) ∧
    (let u := fun w => owned0 { live := true, weight := w };
      minimaFit (u 64) (admittedMinima (u 64)) = true ∧ minimaFit { u 64 with parts := [(0, { live := true, linkMin := [(0, 257)] })] }
        (admittedMinima { u 64 with parts := [(0, { live := true, linkMin := [(0, 257)] })] }) = false) ∧
    (let w : Window := { valid := true, port := 127, dest := 0x00010000, tctx := 63, rbase := 2 ^ 52 - 4096 };
      windowForm w = true ∧ windowForm { w with port := 128 } = false ∧ regionFree (owned0 { live := true }) 0 0x1FE = true ∧
      regionFree { owned0 { live := true } with links := { windows := [(1, w)], winPart := [(1, 3)] } } 0 1 = false) ∧
    endpointOk (0x00010000 : Endpoint).toNat = true ∧ endpointOk (0x00000020 : Endpoint).toNat = false ∧
    ((State.reset.core 95).dead = false ∧ (State.reset.core 95).owner = none ∧ (State.reset.slice 31).dead = false ∧ (State.reset.slice 31).owner = none) ∧
    (let s := owned0 { live := true, ctxs := [(0, {})] } [(0, soloTeam)];
      (s.core 0).owner = some 0 ∧ ∃ e ∈ s.teams, e.2.at_.core = 0) :=
  ⟨by decide, by decide, ⟨rfl, rfl, rfl, by decide⟩, by decide, by decide, by decide, by decide, by decide, rfl, ⟨_, List.mem_singleton.mpr rfl, rfl⟩⟩

-- links and the module

/-- Partition 0 with a host function and an admitted peer, each on a port of its own. -/
def linkedBy (c : Cell) : State :=
  { owned0 { live := true, rights := [(0, (0x00010000, 0))] } [] c with
    links := { ports := [(0, { up := true, remote := 0x40000000 }), (127, { up := true, remote := 0x00010000 })] } }

def linked : State := linkedBy { l2 := [soloXlat] }

theorem witness_LinkEvents :
    (let s := { run with links := { ports := [(127, { up := true, fails := 16 })] } };
      (Tbl.getD s.links.ports 127 {}).up = true ∧ checkFrame [] = ([], 0) ∧ (Tbl.getD s.links.ports 0 {}).up = false) ∧
    (∀ n ∈ [1, 16], let p : Port := { up := true, resent := (2 ^ 24 - 1, n) };
      p.up = true ∧ p.resent.2 ≠ 0 ∧ (14 + 2 ^ 24 - p.resent.1) % 2 ^ 24 < 16 ∧ ¬ (15 + 2 ^ 24 - p.resent.1) % 2 ^ 24 < 16) ∧
    (let q : LReq := { part := 0, core := 0, req := 9, region := 1, port := 0, dest := 0, tctx := 0, msgs := [(256, .read 1)], bytes := 1 };
      let s := { homing (.load false 1) with links := { reqs := [(9, q)] } };
      Tbl.find s.links.reqs 9 = some q ∧ (findReq s 0 9).isSome = true ∧
      Awaits s 0 0 9 4 oweV4 ∧ (s.thread 0 0).t.helper = false ∧ Tbl.find s.links.reqs 8 = none) ∧
    ({ run with boot := { booted := true } } : State).boot.booted = true ∧ endpointOk (0x00010000 : Endpoint).toNat = true ∧
    arrives linked 0 peer.src = true ∧ arrives run 0 peer.src = false :=
  ⟨by decide, by decide, ⟨rfl, rfl, ⟨rfl, rfl, rfl, rfl, by decide⟩, rfl, rfl⟩, by decide, by decide, by decide, by decide⟩

theorem comes (m : Sender) (ctx : Nat) (addr : DWord) (op : InOp) (c : Cell) (xs : List Xlat) (hm : m = host ∨ m = peer)
    (ho : noMessage m addr op = false) : Comes (linkedBy c) m ctx addr op xs := by
  rcases hm with rfl | rfl <;> exact ⟨rfl, rfl, ho, rfl, rfl⟩

/-- A counter page at address 0, which the partition's cell translates. -/
def ctrCell : Cell := { l2 := [{ soloXlat with attr := 12 * 8192 + 2048 + 7 }] }

theorem inbound_counter (wr : Bool) (u : State) (h : SameHomes (linkedBy ctrCell) u) :
    locate u none 0 wr true (fun u va => xlateCell u (.inb 1) [] 0 (tagOf 0 (inCtx (linkedBy ctrCell) host 0)) va va (inKind host wr)
      (if wr then permWrite else permRead)) = .ok u (.line 0) := by
  have ha : homeCell u 0 = 0 := by unfold homeCell; rw [h.2.1]; rfl
  have hh : hitOf (u.cell (homeCell u 0)).l2 0 0 0 (accessKey u (.inb 1)) = some { soloXlat with attr := 12 * 8192 + 2048 + 7 } := by
    rw [ha]; unfold State.cell; rw [h.1]; rfl
  simp only [locate]
  cases wr <;> (rw [if_pos (by decide), if_neg (by decide)]; erw [xlateCell_hit hh (by decide)]; rfl)

/-- Aligned and misaligned accesses, whole lines, marks and reductions. -/
def asked : List (Sender × DWord × InOp) :=
  [(host, 0xFF8, .read 8), (host, 0xFFC, .read 8), (peer, 0xF04, .read 8), (peer, 0xF00, .read 256), (peer, 0xFF8, .write (.bytes [1, 2, 3, 4])),
    (host, 0xF00, .write (.bytes (List.replicate 256 1))), (peer, 0xF00, .write (.line (List.replicate 256 none) false)),
    (peer, 0xF00, .write (.line (List.replicate 256 none) true)), (peer, 0xF00, .write (.mark 5)), (host, 0xFF8, .atomic ⟨.int .add .u64, true⟩ 1 0),
    (peer, 0xFF8, .atomic ⟨.int .add .u64, false⟩ 1 0)]

theorem witness_InboundMessages :
    (∀ e ∈ asked, Inbound linked e.1 0 e.2.1 e.2.2 soloXlat) ∧
    (0xFF8 % 2 ^ 52 % 8 = 0 ∧ 0xFFC % 2 ^ 52 % 8 ≠ 0 ∧ 0xF04 % 8 ≠ 0 ∧ soloXlat.pa 0xF04 % 256 + 8 ≤ 256 ∧ 0xF04 % 4096 + 8 ≤ 4096 ∧ noSuch 0xFF8 = false ∧
      isLink 0xFF8 = false ∧ closed linked (.mem 15) = false ∧
      (∀ j < 256, poisAt linked (0xF00 + j) = false) ∧ poisAt { linked with lines := [(15, { pois := 8 })] } 0xFF8 = true ∧ attrCnt soloXlat.attr = false ∧
      (linked.line 15).pois = 0 ∧ twOf linked 15 (attrLease soloXlat.attr) ≤ linked.now) ∧
    (∀ op, op = .cread ∨ (∃ n lim, op = .add n lim) → Comes (linkedBy ctrCell) host 0 0 op) ∧
    (∀ wr u, SameHomes (linkedBy ctrCell) u →
      locate u none 0 wr true (fun u va => xlateCell u (.inb 1) [] 0 (tagOf 0 (inCtx (linkedBy ctrCell) host 0)) va va (inKind host wr)
        (if wr then permWrite else permRead)) = .ok u (.line 0)) ∧
    (let s := { linkedBy ctrCell with mem := [(0, 3), (8, 7)] };
      (CtrKey.line 0).closed s = false ∧ ctrPois s (.line 0) = false ∧ ctrValue s (.line 0) = 3 ∧ ctrLimit s (.line 0) = 7 ∧ s.waiters = [] ∧
      ((3 : DWord) + 4 - 7).toInt ≤ 0 ∧ 0 < ((3 : DWord) + 5 - 7).toInt ∧ 0 ≤ ((8 : DWord) - 3).toInt ∧ 0 ≤ ((8 : DWord) - 7).toInt ∧
      ((6 : DWord) - 7).toInt < 0 ∧ ((2 : DWord) - 3).toInt < 0) ∧
    isHost host = true ∧ isHost peer = false ∧ arrives linked 0 host.src = true ∧ arrives linked 0 peer.src = true ∧
    arrives (owned0 { live := true }) 0 peer.src = false ∧ admitted { linked with parts := [(0, { live := true })] } peer = false ∧
    endpointOk (0x3FFF : Endpoint).toNat = false := by
  refine ⟨fun e he => ?_, by decide, fun op ho => comes host 0 0 op _ [] (.inl rfl) (by rcases ho with rfl | ⟨_, _, rfl⟩ <;> rfl),
    fun wr u h => inbound_counter wr u h, by decide, by decide⟩
  simp only [asked, List.mem_cons, List.not_mem_nil, or_false] at he
  rcases he with rfl | rfl | rfl | rfl | rfl | rfl | rfl | rfl | rfl | rfl | rfl <;>
    exact ⟨comes _ _ _ _ _ _ (by simp) (by decide), rfl, by decide, rfl, by decide⟩

theorem witness_ModuleEvents :
    State.reset.boot.powered = true ∧ State.reset.boot.status = 0xFF ∧ bankOk { torn := true } = false ∧
    chooseBank { torn := true } { torn := true } = none ∧
    (let s := { State.reset with boot := { booted := true, bank := some false } }; s.boot.booted = true ∧ s.boot.bank = some (!true)) ∧
    (∀ n < 4, (Tbl.find State.reset.boot.roots n).isSome = true) ∧
    (let s := { State.reset with boot := { temp := 105, clock := 15 } };
      105 ≤ s.boot.temp.toInt ∧ s.boot.clock = 15 ∧ s.boot.powered = true) ∧
    State.reset.boot.temp.toInt < 105 ∧ 15 ≤ State.reset.boot.clock ∧ State.reset.boot.clock ≤ 25 ∧ 5 < (6 : Byte).toNat ∧
    (let s := { State.reset with boot := { straps := 3, busAddr := 0x43 } }; s.boot.busAddr = 0x40 + s.boot.straps.setWidth 7) ∧
    State.reset.boot.busAddr ≠ 0x40 + ({ straps := 3 } : Boot).straps.setWidth 7 := by decide

-- encodings and what every step keeps

theorem witness_CoreRoundTrip : (Instr.add c .s32 true (.v 4) (.v 2) (.v 3)).wf 64 = true ∧
    (coreForm (.add c .s32 true (.v 4) (.v 2) (.v 3))).isSome = true := by decide

theorem witness_CoreWordsAreInstructions :
    (decodeCore 64 (coreWord 0x08011C01 0x500000C0 0)).toOption = some (.add c .s32 true (.v 4) (.v 2) (.v 3)) := by decide

theorem witness_StepKeepsMemory : let s := placeCore State.reset 309485009828100193153769473
    MemOk s ∧ ∃ t, step s = .next t := ⟨by unfold MemOk; decide, _, rfl⟩

end Sys2Proof.Tests
end

section
/-! PROOFS. Integer arithmetic, logic and shifts (R102, R105, R106): the model's shifts and rotations are the word operations of the same name, and
every member issues as an instruction that computes in each lane. -/

namespace Sys2Proof.Machine

open Sys2Proof Sys2Proof.Safety

-- words of 32 or 64 bits within 64 bits

theorem toNat_low (w : Bool) (x : DWord) : (low w x).toNat = x.toNat % 2 ^ nBits w := by
  cases w
  · simp only [low, nBits, Bool.false_eq_true, if_false, BitVec.toNat_setWidth]; omega
  · exact (Nat.mod_eq_of_lt x.isLt).symm

theorem low_lt (w : Bool) (x : DWord) : (low w x).toNat < 2 ^ nBits w := by
  rw [toNat_low]; exact Nat.mod_lt _ (Nat.two_pow_pos _)

theorem two_pow_nBits_dvd (w : Bool) : 2 ^ nBits w ∣ 2 ^ 64 := by
  apply Nat.pow_dvd_pow
  cases w <;> simp [nBits]

/-- Wrap of a word's signed value is the word itself (R49). -/
theorem wrapN_toInt {n : Nat} (y : BitVec n) : wrapN n y.toInt = y.setWidth 64 := by
  apply BitVec.eq_of_toNat_eq
  have h : (y.toInt % (2 ^ n : Int)).toNat = y.toNat := by
    have := BitVec.toNat_ofInt (n := n) y.toInt
    rw [BitVec.ofInt_toInt] at this
    simpa using this.symm
  simp only [wrapN, h, BitVec.toNat_ofNat, BitVec.toNat_setWidth]

-- shifts (R106)

theorem shlOp_eq (w : Bool) (a b : DWord) : shlOp w a b = low w (low w a <<< (b.toNat % 2 ^ 32)) := by
  apply BitVec.eq_of_toNat_eq
  simp only [shlOp, BitVec.toNat_setWidth]
  generalize b.toNat % 2 ^ 32 = c
  split
  · next h =>
    have hd : 2 ^ nBits w ∣ (low w a).toNat * 2 ^ c := Nat.dvd_mul_left_of_dvd (Nat.pow_dvd_pow 2 h) _
    rw [toNat_low, BitVec.toNat_shiftLeft, Nat.shiftLeft_eq, Nat.mod_mod_of_dvd _ (two_pow_nBits_dvd w), Nat.mod_eq_zero_of_dvd hd]
    rfl
  · simp only [toNat_low, BitVec.toNat_shiftLeft, Nat.shiftLeft_eq, BitVec.toNat_ofNat]

theorem shrOp_eq (w : Bool) (a b : DWord) : shrOp w a b = low w a >>> (b.toNat % 2 ^ 32) := by
  apply BitVec.eq_of_toNat_eq
  simp only [shrOp, BitVec.toNat_setWidth]
  generalize b.toNat % 2 ^ 32 = c
  rw [BitVec.toNat_ushiftRight, Nat.shiftRight_eq_div_pow]
  split
  · next h =>
    have hl : (low w a).toNat < 2 ^ c := Nat.lt_of_lt_of_le (low_lt w a) (Nat.pow_le_pow_right (by omega) h)
    rw [Nat.div_eq_of_lt hl]
    rfl
  · have hd : (low w a).toNat / 2 ^ c < 2 ^ 64 := Nat.lt_of_le_of_lt (Nat.div_le_self _ _) (low w a).isLt
    rw [BitVec.toNat_ofNat, Nat.mod_eq_of_lt hd]

/-- Floor of a signed word over a power of two, wrapped, is the arithmetic shift (R106). -/
theorem wrapN_sshiftRight {n : Nat} (y : BitVec n) (c : Nat) :
    wrapN n (y.toInt / (2 ^ c : Int)) = (y.sshiftRight c).setWidth 64 := by
  rw [← wrapN_toInt, BitVec.toInt_sshiftRight, Int.shiftRight_eq_div_pow]
  simp

theorem sraOp_word (a b : DWord) :
    sraOp false a b = ((a.setWidth 32).sshiftRight (min (b.toNat % 2 ^ 32) 31)).setWidth 64 := by
  simp only [sraOp, BitVec.toNat_setWidth]
  exact wrapN_sshiftRight _ _

theorem sraOp_dword (a b : DWord) : sraOp true a b = a.sshiftRight (min (b.toNat % 2 ^ 32) 63) := by
  simp only [sraOp, BitVec.toNat_setWidth]
  exact (wrapN_sshiftRight _ _).trans (BitVec.setWidth_eq _)

-- rotations (R106)

/-- The two parts of a word turned by `c` do not overlap: their sum is their union. -/
theorem rotated_parts_sum {n c x : Nat} (hc : c ≤ n) (hx : x < 2 ^ n) :
    (x * 2 ^ c + x / 2 ^ (n - c)) % 2 ^ n = x <<< c % 2 ^ n ||| x >>> (n - c) := by
  have hn : 2 ^ n = 2 ^ c * 2 ^ (n - c) := by rw [← Nat.pow_add]; congr 1; omega
  have hq : x / 2 ^ (n - c) < 2 ^ c := Nat.div_lt_of_lt_mul (by rwa [Nat.mul_comm, ← hn])
  have hm : x * 2 ^ c % 2 ^ n = 2 ^ c * (x % 2 ^ (n - c)) := by rw [hn, Nat.mul_comm x, Nat.mul_mod_mul_left]
  have hlt : 2 ^ c * (x % 2 ^ (n - c)) + x / 2 ^ (n - c) < 2 ^ n := by
    calc 2 ^ c * (x % 2 ^ (n - c)) + x / 2 ^ (n - c)
        < 2 ^ c * (x % 2 ^ (n - c) + 1) := by rw [Nat.mul_succ]; omega
      _ ≤ 2 ^ c * 2 ^ (n - c) := Nat.mul_le_mul_left _ (Nat.mod_lt _ (Nat.two_pow_pos _))
      _ = 2 ^ n := hn.symm
  rw [Nat.shiftLeft_eq, Nat.shiftRight_eq_div_pow, hm, ← Nat.two_pow_add_eq_or_of_lt hq, Nat.add_mod, hm,
    Nat.mod_eq_of_lt (Nat.lt_of_lt_of_le hq (Nat.pow_le_pow_right (by omega) hc)), Nat.mod_eq_of_lt hlt]

theorem rotateLeft_value {n c : Nat} (hc : c < n) (y : BitVec n) :
    BitVec.ofNat 64 ((y.toNat * 2 ^ c + y.toNat / 2 ^ (n - c)) % 2 ^ n) = (y.rotateLeft c).setWidth 64 := by
  apply BitVec.eq_of_toNat_eq
  rw [BitVec.toNat_ofNat, BitVec.toNat_setWidth, BitVec.toNat_rotateLeft, Nat.mod_eq_of_lt hc, rotated_parts_sum (Nat.le_of_lt hc) y.isLt]

theorem rotateRight_value {n c : Nat} (hc : c < n) (y : BitVec n) :
    BitVec.ofNat 64 ((y.toNat / 2 ^ c + y.toNat * 2 ^ (n - c)) % 2 ^ n) = (y.rotateRight c).setWidth 64 := by
  have h := rotated_parts_sum (n.sub_le c) y.isLt
  rw [Nat.sub_sub_self (Nat.le_of_lt hc)] at h
  apply BitVec.eq_of_toNat_eq
  rw [BitVec.toNat_ofNat, BitVec.toNat_setWidth, BitVec.toNat_rotateRight, Nat.mod_eq_of_lt hc, Nat.add_comm, h, Nat.or_comm]

/-- A count modulo 32 or 64 is the same of the whole operand as of its low 32 bits. -/
theorem rotateCount_mod (w : Bool) (b : DWord) : (b.setWidth 32).toNat % nBits w = b.toNat % nBits w := by
  rw [BitVec.toNat_setWidth]
  exact Nat.mod_mod_of_dvd _ (by cases w <;> decide)

theorem toNat_low_word (a : DWord) : (low false a).toNat = (a.setWidth 32).toNat := by simp [toNat_low, nBits]

theorem rolOp_word (a b : DWord) : rolOp false a b = ((a.setWidth 32).rotateLeft (b.toNat % 32)).setWidth 64 := by
  simp only [rolOp, rotateCount_mod, toNat_low_word]
  exact rotateLeft_value (Nat.mod_lt _ (by omega)) _

theorem rolOp_dword (a b : DWord) : rolOp true a b = a.rotateLeft (b.toNat % 64) := by
  simp only [rolOp, rotateCount_mod]
  exact (rotateLeft_value (Nat.mod_lt _ (by omega)) a).trans (BitVec.setWidth_eq _)

theorem rorOp_word (a b : DWord) : rorOp false a b = ((a.setWidth 32).rotateRight (b.toNat % 32)).setWidth 64 := by
  simp only [rorOp, rotateCount_mod, toNat_low_word]
  exact rotateRight_value (Nat.mod_lt _ (by omega)) _

theorem rorOp_dword (a b : DWord) : rorOp true a b = a.rotateRight (b.toNat % 64) := by
  simp only [rorOp, rotateCount_mod]
  exact (rotateRight_value (Nat.mod_lt _ (by omega)) a).trans (BitVec.setWidth_eq _)

-- members of the integer class as instructions (R51, R98)

/-- An instruction of the integer class whose D is V, or P in a 32-bit form, computes what its meaning gives `issueAlu` (R98, R102). -/
theorem computes_int {ins : Instr} {f : Form} {w : Bool} {op : Srcs → DWord} (he : ∀ s, exec ins s = .next (issueAlu .int f op s))
    (hf : coreForm ins = some f) (hd : f.sd = .dvp w) (hl : f.lat = .int) : Computes ins .int op := by
  apply computes_of he hf
  · rw [hl]; simp [Lat.int]
  · rw [hd]; rfl
  · rw [hd]; rfl
  · rw [hd]; simp [Slot.dvp]
  · rw [hd]; rfl

/-- A member of row 0x01, min or max computes its exact value `ex`, saturated or wrapped (R102). -/
theorem computes_exact {ins : Instr} {f : Form} {w : Bool} (ex : Int → Int → Int → Nat → Int) (t : IntTy) (sat : Bool)
    (he : ∀ s, exec ins s = .next (issueInt f ex t sat s)) (hf : coreForm ins = some f) (hd : f.sd = .dvp w) (hl : f.lat = .int) :
    Computes ins .int (fun x => intResult t sat (ex (readTy t x.a.val) (readTy t x.b.val) (readTy t x.d.val) t.width)) :=
  computes_int he hf hd hl

/-- A member of row 0x03 computes its bitwise operation `g` at the width (R105). -/
theorem computes_bitwise {ins : Instr} {f : Form} {w : Bool} (g : DWord → DWord → DWord)
    (he : ∀ s, exec ins s = .next (issueLogic f w g s)) (hf : coreForm ins = some f) (hd : f.sd = .dvp w) (hl : f.lat = .int) :
    Computes ins .int (fun x => low w (g x.a.val x.b.val)) :=
  computes_int he hf hd hl

/-- A member of row 0x04 computes any operation that equals the model's `g` on its value and count (R106). -/
theorem computes_shift {ins : Instr} {f : Form} {w : Bool} {op : Srcs → DWord} (g : DWord → DWord → DWord)
    (hg : ∀ x : Srcs, g x.a.val x.b.val = op x) (he : ∀ s, exec ins s = .next (issueAlu .int f (fun x => g x.a.val x.b.val) s))
    (hf : coreForm ins = some f) (hd : f.sd = .dvp w) (hl : f.lat = .int) : Computes ins .int op := by
  rw [← funext hg]
  exact computes_int he hf hd hl

-- the statements

/-- Settles O3: each member issues with its exact value, named here, by `computes_exact`. -/
theorem integerArithmetic : Obligations.IntegerArithmetic := by
  unfold Obligations.IntegerArithmetic
  refine ⟨?add, ?sub, ?mul, ?mulhi, ?mad, ?madhi, ?absWord, ?absDword, ?negWord, ?negDword, ?min, ?max, ?latency⟩
  case add => exact fun _ t sat _ _ _ => computes_exact exAdd t sat (fun _ => rfl) rfl rfl rfl
  case sub => exact fun _ t sat _ _ _ => computes_exact exSub t sat (fun _ => rfl) rfl rfl rfl
  case mul => exact fun _ t sat _ _ _ => computes_exact exMul t sat (fun _ => rfl) rfl rfl rfl
  case mulhi => exact fun _ t _ _ _ => computes_exact exMulhi t false (fun _ => rfl) rfl rfl rfl
  case mad => exact fun _ t sat _ _ _ => computes_exact exMad t sat (fun _ => rfl) rfl rfl rfl
  case madhi => exact fun _ t _ _ _ => computes_exact exMadhi t false (fun _ => rfl) rfl rfl rfl
  case absWord => exact fun _ sat _ _ => computes_exact exAbs .s32 sat (fun _ => rfl) rfl rfl rfl
  case absDword => exact fun _ sat _ _ => computes_exact exAbs .s64 sat (fun _ => rfl) rfl rfl rfl
  case negWord => exact fun _ sat _ _ => computes_exact exNeg .s32 sat (fun _ => rfl) rfl rfl rfl
  case negDword => exact fun _ sat _ _ => computes_exact exNeg .s64 sat (fun _ => rfl) rfl rfl rfl
  case min => exact fun _ t _ _ _ => computes_exact exMin t false (fun _ => rfl) rfl rfl rfl
  case max => exact fun _ t _ _ _ => computes_exact exMax t false (fun _ => rfl) rfl rfl rfl
  case latency =>
    intro c t sat d a b
    simp only [List.forall_mem_cons]
    exact ⟨rfl, rfl, rfl, rfl, rfl, rfl, rfl, rfl, rfl, rfl, rfl, rfl, by simp⟩

/-- Settles O5: each bitwise member issues with its operation; each shift and rotation with the model's, which equals the word operation. -/
theorem logicAndShifts : Obligations.LogicAndShifts := by
  unfold Obligations.LogicAndShifts
  refine ⟨?and, ?or, ?xor, ?not, ?andn, ?orn, ?shl, ?shr, ?sraWord, ?sraDword, ?rolWord, ?rolDword, ?rorWord, ?rorDword, ?latency⟩
  case and => exact fun _ _ _ _ _ => computes_bitwise (fun a b => a &&& b) (fun _ => rfl) rfl rfl rfl
  case or => exact fun _ _ _ _ _ => computes_bitwise (fun a b => a ||| b) (fun _ => rfl) rfl rfl rfl
  case xor => exact fun _ _ _ _ _ => computes_bitwise (fun a b => a ^^^ b) (fun _ => rfl) rfl rfl rfl
  case not => exact fun _ _ _ _ => computes_bitwise (fun a _ => ~~~a) (fun _ => rfl) rfl rfl rfl
  case andn => exact fun _ _ _ _ _ => computes_bitwise (fun a b => a &&& ~~~b) (fun _ => rfl) rfl rfl rfl
  case orn => exact fun _ _ _ _ _ => computes_bitwise (fun a b => a ||| ~~~b) (fun _ => rfl) rfl rfl rfl
  case shl => exact fun _ w _ _ _ => computes_shift (shlOp w) (fun _ => shlOp_eq w _ _) (fun _ => rfl) rfl rfl rfl
  case shr => exact fun _ w _ _ _ => computes_shift (shrOp w) (fun _ => shrOp_eq w _ _) (fun _ => rfl) rfl rfl rfl
  case sraWord => exact fun _ _ _ _ => computes_shift (sraOp false) (fun _ => sraOp_word _ _) (fun _ => rfl) rfl rfl rfl
  case sraDword => exact fun _ _ _ _ => computes_shift (sraOp true) (fun _ => sraOp_dword _ _) (fun _ => rfl) rfl rfl rfl
  case rolWord => exact fun _ _ _ _ => computes_shift (rolOp false) (fun _ => rolOp_word _ _) (fun _ => rfl) rfl rfl rfl
  case rolDword => exact fun _ _ _ _ => computes_shift (rolOp true) (fun _ => rolOp_dword _ _) (fun _ => rfl) rfl rfl rfl
  case rorWord => exact fun _ _ _ _ => computes_shift (rorOp false) (fun _ => rorOp_word _ _) (fun _ => rfl) rfl rfl rfl
  case rorDword => exact fun _ _ _ _ => computes_shift (rorOp true) (fun _ => rorOp_dword _ _) (fun _ => rfl) rfl rfl rfl
  case latency =>
    intro c w d a b
    simp only [List.forall_mem_cons]
    exact ⟨rfl, rfl, rfl, rfl, rfl, rfl, rfl, rfl, rfl, rfl, rfl, by simp⟩

end Sys2Proof.Machine
end

section
/-! PROOFS. Walker arithmetic and branches (R268 to R271, R275, R276): the laws of walker register sets, when a walker instruction issues, and what
the members of each form do. -/

namespace Sys2Proof.Machine

open Sys2Proof Sys2Proof.Safety

-- register sets of a walk (R264)

@[simp] theorem WProc.putSet_walk (p : WProc) (k : WSet) : (p.putSet k).walk = p.walk := by
  unfold WProc.putSet; split <;> rfl

@[simp] theorem WProc.putSet_start (p : WProc) (k : WSet) : (p.putSet k).start = p.start := by
  unfold WProc.putSet; split <;> rfl

@[simp] theorem WProc.putSet_set (p : WProc) (k : WSet) : (p.putSet k).set = k := by
  unfold WProc.putSet WProc.set
  split
  · rfl
  · next h => simp [Option.not_isSome_iff_eq_none.mp h]

@[simp] theorem WProc.putSet_nested (p : WProc) (k : WSet) : (p.putSet k).n.isSome = p.n.isSome := by
  unfold WProc.putSet
  split
  · next h => simp [h]
  · rfl

/-- The processor once an instruction has left it the set `k` and the next count `n` (R264, R268). -/
def WProc.advance (p : WProc) (k : WSet) (n : Nat) : WProc := { p.putSet k with cycles := n }

@[simp] theorem WProc.advance_walk (p : WProc) (k : WSet) (n : Nat) : (p.advance k n).walk = p.walk := p.putSet_walk k
@[simp] theorem WProc.advance_start (p : WProc) (k : WSet) (n : Nat) : (p.advance k n).start = p.start := p.putSet_start k
@[simp] theorem WProc.advance_cycles (p : WProc) (k : WSet) (n : Nat) : (p.advance k n).cycles = n := rfl
@[simp] theorem WProc.advance_set (p : WProc) (k : WSet) (n : Nat) : (p.advance k n).set = k := p.putSet_set k
@[simp] theorem WProc.advance_nested (p : WProc) (k : WSet) (n : Nat) : (p.advance k n).n.isSome = p.n.isSome := p.putSet_nested k

/-- The outer set is held while a nested walk runs (R264). -/
theorem WProc.advance_outer {p : WProc} (k : WSet) (n : Nat) (h : p.n.isSome = true) : (p.advance k n).o = p.o := by
  simp [WProc.advance, WProc.putSet, h]

@[simp] theorem WSet.write_load (k : WSet) (d t : Nat) (x : DWord) : (k.write d t x).load = k.load := by
  unfold WSet.write; split <;> rfl

@[simp] theorem WSet.write_ldReady (k : WSet) (d t : Nat) (x : DWord) : (k.write d t x).ldReady = k.ldReady := by
  unfold WSet.write; split <;> rfl

/-- A register after a write: the value at the register written, w0 excepted. -/
theorem WSet.reg_write (k : WSet) (d t r : Nat) (x : DWord) :
    (k.write d t x).reg r = if r = d ∧ r ≠ 0 then x else k.reg r := by
  unfold WSet.write WSet.reg
  by_cases hr : r = 0
  · simp [hr]
  · by_cases hd : d = 0
    · simp [hd, hr]
    · simp [hd, hr, Tbl.getD_put]

/-- The count from which a register can be read, after a write. -/
theorem WSet.readyAt_write (k : WSet) (d t r : Nat) (x : DWord) :
    (k.write d t x).readyAt r = if r = d ∧ r ≠ 0 then t else k.readyAt r := by
  unfold WSet.write WSet.readyAt
  by_cases hr : r = 0
  · simp [hr]
  · by_cases hd : d = 0
    · simp [hd, hr]
    · simp [hd, hr, Tbl.getD_put]

-- issue (R268)

/-- A walk that comes to count `t` does not end by itself at it or before (R256, R257). -/
theorem lt_endAt_of_below {s : State} {p : WProc} {t : Nat} (h : Below s p t) : t < p.endAt (s.part p.walk.part).limit := by
  obtain ⟨hlim, hpois⟩ := h
  unfold WProc.endAt WProc.poisonAt
  cases hl : p.set.load with
  | none => exact hlim
  | some l =>
    cases hp : l.pois with
    | false => simp only [hp, Bool.false_eq_true, if_false]; exact hlim
    | true => simp only [hp, if_true]; exact Nat.lt_min.mpr ⟨hpois l hl hp, hlim⟩

/-- The walker processor issues at its count: in its walker cycle, below the limit, an instruction takes its effect at `issueAt`. -/
theorem walkerWith_issues {s : State} {c q : Nat} {p : WProc} {rs : List (BitVec 5)} {ld : Bool}
    (eff : State → Nat → Nat → WProc → Nat → State) (hw : Walks s c q p rs ld) (hb : Below s p (issueAt p rs ld))
    (hn : issueAt p rs ld ≤ walkerNow s p) :
    walkerWith (rs.map BitVec.toNat) ld eff s = eff s c q p (issueAt p rs ld) := by
  obtain ⟨hcur, hproc, hfree, hload⟩ := hw
  have hwait : ((rs.map BitVec.toNat).any p.set.busy || (ld && p.set.load.isSome)) = false := by
    simp only [List.any_map, Bool.or_eq_false_iff, List.any_eq_false, Function.comp_apply, Bool.and_eq_false_imp]
    exact ⟨fun r hr => by simp [hfree r hr], fun h => by simp [hload h]⟩
  have hcount : ((rs.map BitVec.toNat).map p.set.readyAt).foldl max (max p.cycles (if ld then p.set.ldReady else 0)) = issueAt p rs ld := by
    simp only [issueAt, List.map_map, Function.comp_def]
  have hend := lt_endAt_of_below hb
  unfold walkerWith
  simp only [hcur, hproc, hwait, hcount, Bool.false_eq_true, if_false]
  rw [if_neg (by omega), if_neg (by omega)]

-- the forms (R269 to R271)

/-- An instruction through `walkerAlu` computes any operation that its own equals (R264, R268, R269). -/
theorem walkComputes_alu {ins : Instr} {rs : List (BitVec 5)} {d : BitVec 5} {lat : Nat} {f op : WSet → Nat → DWord}
    (he : ∀ s, exec ins s = .next (walkerAlu (rs.map BitVec.toNat) d.toNat lat f s)) (hf : ∀ k t, f k t = op k t) :
    WalkComputes ins rs d lat op := by
  obtain rfl : f = op := funext fun k => funext (hf k)
  intro s c q p hw hb hn
  let t := issueAt p (d :: rs) false
  let k : WSet := { p.set.write d.toNat (t + lat) (f p.set t) with pc := (p.set.pc + 1) % 1024 }
  have hexec : exec ins s = .next (putProc s c q (p.advance k (t + 1))) :=
    (he s).trans (congrArg Host.Outcome.next (walkerWith_issues _ hw hb hn))
  refine ⟨p.advance k (t + 1), hexec, p.advance_walk _ _, p.advance_start _ _, rfl, p.advance_nested _ _, WProc.advance_outer _ _, ?_⟩
  rw [p.advance_set]
  exact ⟨rfl, WSet.write_load _ _ _ _, WSet.write_ldReady _ _ _ _, fun r => ⟨WSet.reg_write _ _ _ _ _, WSet.readyAt_write _ _ _ _ _⟩⟩

/-- A register form computes any operation that the model's `g` of its two registers equals (R269). -/
theorem walkComputes_reg {ins : Instr} {d a b : BitVec 5} {lat : Nat} {op : WSet → Nat → DWord} (g : DWord → DWord → DWord)
    (he : ∀ s, exec ins s = .next (walkerReg d a b lat g s)) (hg : ∀ k t, g (k.reg a.toNat) (k.reg b.toNat) = op k t) :
    WalkComputes ins [a, b] d lat op :=
  walkComputes_alu he hg

/-- An immediate form computes any operation that the model's `g` of its register equals (R270). -/
theorem walkComputes_imm {ins : Instr} {d a : BitVec 5} {op : WSet → Nat → DWord} (g : DWord → DWord)
    (he : ∀ s, exec ins s = .next (walkerImm d a g s)) (hg : ∀ k t, g (k.reg a.toNat) = op k t) :
    WalkComputes ins [a] d 1 op :=
  walkComputes_alu he hg

/-- The 11 bits that `cat` appends are free after its shift, so that OR adds them (R270). -/
theorem shiftLeft_or_eq_mul_add (x : DWord) (u : BitVec 11) : x <<< 11 ||| u.setWidth 64 = x * 2048 + u.setWidth 64 := by
  have hdisj : x <<< 11 &&& u.setWidth 64 = 0 := by
    ext i hi
    by_cases h : i < 11
    · simp [h]
    · simp [BitVec.getElem_setWidth, BitVec.getLsbD_of_ge u i (by omega)]
  rw [← BitVec.add_eq_or_of_and_eq_zero _ _ hdisj, BitVec.shiftLeft_eq_mul_twoPow]
  rfl

/-- A base plus a displacement modulo 2^64, then within the region, is their sum within the region (R271). -/
theorem walkerPc_eq (x : DWord) (i : BitVec 11) : walkerPc x i = pcMod (x.toNat + i.toInt) := by
  have hi : (i.signExtend 64).toNat = (i.toInt % (2 ^ 64 : Nat)).toNat := BitVec.toNat_ofInt _
  simp only [walkerPc, pcMod, BitVec.toNat_add, hi]
  omega

/-- The displacement of a branch counts from the next word (R271). -/
theorem walkerPc_next (n : Nat) (i : BitVec 11) : walkerPc (BitVec.ofNat 64 (n + 1)) i = pcMod (n + 1 + i.toInt) := by
  rw [walkerPc_eq, BitVec.toNat_ofNat]
  simp only [pcMod]
  omega

/-- A comparison branch goes to its target where its test holds, else to the next word (R271). -/
theorem walkJumps_branch {ins : Instr} {a b : BitVec 5} {i : BitVec 11} {taken : WSet → Prop} (test : DWord → DWord → Bool)
    (he : ∀ s, exec ins s = .next (walkerBranch a b i test s))
    (ht : ∀ k, test (k.reg a.toNat) (k.reg b.toNat) = true ↔ taken k) :
    WalkJumps ins [a, b] taken (fun k => pcMod (k.pc + 1 + i.toInt)) := by
  intro s c q p hw hb hn
  let t := issueAt p [a, b] false
  have hexec : walkerBranch a b i test s = if test (p.set.reg a.toNat) (p.set.reg b.toNat) then
      putProc s c q (p.advance { p.set with pc := walkerPc (BitVec.ofNat 64 (p.set.pc + 1)) i } (t + 2))
    else putProc s c q (p.advance { p.set with pc := (p.set.pc + 1) % 1024 } (t + 1)) := walkerWith_issues _ hw hb hn
  rw [he, hexec]
  by_cases h : taken p.set
  · rw [if_pos ((ht _).mpr h), walkerPc_next]
    exact ⟨_, rfl, p.advance_walk _ _, p.advance_start _ _, p.advance_nested _ _, WProc.advance_outer _ _,
      fun _ => ⟨p.advance_set _ _, rfl⟩, fun hno => absurd h hno⟩
  · rw [if_neg (mt (ht _).mp h)]
    exact ⟨_, rfl, p.advance_walk _ _, p.advance_start _ _, p.advance_nested _ _, WProc.advance_outer _ _,
      fun hy => absurd hy h, fun _ => ⟨p.advance_set _ _, rfl⟩⟩

/-- `jmp` goes to its register's value plus the immediate (R271). -/
theorem walkJumps_jmp (a : BitVec 5) (i : BitVec 11) :
    WalkJumps (.walkerJmp a i) [a] (fun _ => True) (fun k => pcMod ((k.reg a.toNat).toNat + i.toInt)) := by
  intro s c q p hw hb hn
  have hexec : exec (.walkerJmp a i) s =
      .next (putProc s c q (p.advance { p.set with pc := walkerPc (p.set.reg a.toNat) i } (issueAt p [a] false + 2))) :=
    congrArg Host.Outcome.next (walkerWith_issues _ hw hb hn)
  rw [hexec, walkerPc_eq]
  exact ⟨_, rfl, p.advance_walk _ _, p.advance_start _ _, p.advance_nested _ _, WProc.advance_outer _ _,
    fun _ => ⟨p.advance_set _ _, rfl⟩, fun h => absurd trivial h⟩

-- the statement

/-- Settles O41: each member is of its form, with the model's operation or test named here. -/
theorem walkerArithmeticAndBranches : Obligations.WalkerArithmeticAndBranches := by
  unfold Obligations.WalkerArithmeticAndBranches
  refine ⟨⟨?add, ?sub, ?and, ?or, ?xor, ?sll, ?srl, ?sra, ?mul, ?addi, ?andi, ?ori, ?xori, ?slli, ?srli, ?srai, ?cat, ?hash, ?tick⟩,
    ?beq, ?bne, ?blt, ?bge, ?bltu, ?bgeu, ?jmp⟩
  case add => exact fun _ _ _ => walkComputes_reg (· + ·) (fun _ => rfl) (fun _ _ => rfl)
  case sub => exact fun _ _ _ => walkComputes_reg (· - ·) (fun _ => rfl) (fun _ _ => rfl)
  case and => exact fun _ _ _ => walkComputes_reg (· &&& ·) (fun _ => rfl) (fun _ _ => rfl)
  case or => exact fun _ _ _ => walkComputes_reg (· ||| ·) (fun _ => rfl) (fun _ _ => rfl)
  case xor => exact fun _ _ _ => walkComputes_reg (· ^^^ ·) (fun _ => rfl) (fun _ _ => rfl)
  case sll => exact fun _ _ _ => walkComputes_reg (fun x y => x <<< shAmt y) (fun _ => rfl) (fun _ _ => rfl)
  case srl => exact fun _ _ _ => walkComputes_reg (fun x y => x >>> shAmt y) (fun _ => rfl) (fun _ _ => rfl)
  case sra => exact fun _ _ _ => walkComputes_reg (fun x y => x.sshiftRight (shAmt y)) (fun _ => rfl) (fun _ _ => rfl)
  case mul => exact fun _ _ _ => walkComputes_reg (· * ·) (fun _ => rfl) (fun _ _ => rfl)
  case addi => exact fun _ _ j => walkComputes_imm (· + j.signExtend 64) (fun _ => rfl) (fun _ _ => rfl)
  case andi => exact fun _ _ j => walkComputes_imm (· &&& j.signExtend 64) (fun _ => rfl) (fun _ _ => rfl)
  case ori => exact fun _ _ j => walkComputes_imm (· ||| j.signExtend 64) (fun _ => rfl) (fun _ _ => rfl)
  case xori => exact fun _ _ j => walkComputes_imm (· ^^^ j.signExtend 64) (fun _ => rfl) (fun _ _ => rfl)
  case slli => exact fun _ _ n => walkComputes_imm (· <<< n.toNat) (fun _ => rfl) (fun _ _ => rfl)
  case srli => exact fun _ _ n => walkComputes_imm (· >>> n.toNat) (fun _ => rfl) (fun _ _ => rfl)
  case srai => exact fun _ _ n => walkComputes_imm (·.sshiftRight n.toNat) (fun _ => rfl) (fun _ _ => rfl)
  case cat =>
    exact fun _ _ u => walkComputes_imm (fun x => x <<< 11 ||| u.setWidth 64) (fun _ => rfl) (fun _ _ => shiftLeft_or_eq_mul_add _ u)
  case hash => exact fun _ _ _ => walkComputes_reg walkerMix (fun _ => rfl) (fun _ _ => rfl)
  case tick => exact fun _ => walkComputes_alu (rs := []) (fun _ => rfl) (fun _ _ => rfl)
  case beq => exact fun _ _ _ => walkJumps_branch (fun x y => decide (x = y)) (fun _ => rfl) (fun _ => decide_eq_true_iff)
  case bne => exact fun _ _ _ => walkJumps_branch (fun x y => decide (x ≠ y)) (fun _ => rfl) (fun _ => decide_eq_true_iff)
  case blt => exact fun _ _ _ => walkJumps_branch BitVec.slt (fun _ => rfl) (fun _ => BitVec.slt_iff_toInt_lt)
  case bge => exact fun _ _ _ => walkJumps_branch (fun x y => !x.slt y) (fun _ => rfl) (fun _ => by simp [← Bool.not_eq_true, BitVec.slt_iff_toInt_lt])
  case bltu => exact fun _ _ _ => walkJumps_branch BitVec.ult (fun _ => rfl) (fun _ => BitVec.ult_iff_toNat_lt)
  case bgeu => exact fun _ _ _ => walkJumps_branch (fun x y => !x.ult y) (fun _ => rfl) (fun _ => by simp [← Bool.not_eq_true, BitVec.ult_iff_toNat_lt])
  case jmp => exact walkJumps_jmp

end Sys2Proof.Machine
end
